-- ==== Sys2Proof/Word.lean ====
section
/-! DEFINITION. The plain word types of the descriptor link and of the part's registers. -/

namespace Sys2Proof

/-- One byte of memory, one byte lane of a word (section 1.1). -/
abbrev Byte := BitVec 8

/-- The link word of 64 bits (section 1.1). -/
abbrev Word := BitVec 64

/-- A byte address of the link: 27 bits, 128 MiB (section 1.1). -/
abbrev Addr := BitVec 27

/-- A value of the 48-bit time base, in nanoseconds (R109). -/
abbrev Time := BitVec 48

end Sys2Proof
end

