-- ==== Sys2Proof/Syntax.lean ====
section
/-! DEFINITION. The transactions of the link and the commands of the part: one constructor per row of the table. -/

namespace Sys2Proof

/-- The four kinds of transaction the part carries, with the address and data of each (R1).
Addresses are byte addresses: of a word for the single kinds, of a block for the bursts. -/
inductive Transaction where
  /-- A single read of one word. -/
  | singleRead (address : Addr)
  /-- A burst read of one block, from word `start`, in wrapped order (R2). -/
  | burstRead (address : Addr) (start : BitVec 2)
  /-- A single write of the lanes that `lanes` names. -/
  | singleWrite (address : Addr) (data : Word) (lanes : BitVec 8)
  /-- A burst write of a whole block, word 0 first. -/
  | burstWrite (address : Addr) (word0 word1 word2 word3 : Word)
  deriving DecidableEq, Repr

/-- The commands of the part: one constructor per row of spec/opcode_table.json.
Only two carry an operand from outside: the transaction that the switch side newly presents at its port, and the
levels at the strap pins. All other rows act on what the part holds. -/
inductive Instr where
  /-- RESET_N_ASSERTED (R11). -/
  | resetNAsserted
  /-- RESET_N_RELEASED (R12), with the levels at CTLBASE[3:0]. -/
  | resetNReleased (straps : BitVec 4)
  /-- SLOT_GRANT (R7), with the transaction the switch side newly presents, if any. -/
  | slotGrant (presented : Option Transaction)
  /-- TRANSACTION_TAKEN (R3). -/
  | transactionTaken
  /-- FORWARDED_READ_RETURN (R5). -/
  | forwardedReadReturn
  /-- INJECTED_TRANSACTION_COMPLETE (R6). -/
  | injectedTransactionComplete
  /-- INTERVAL_TIMER_EXPIRY (R152). -/
  | intervalTimerExpiry
  /-- ENQUEUE (R35). -/
  | enqueue
  /-- DEQUEUE (R90). -/
  | dequeue
  /-- COMPLETION (R96). -/
  | completion
  /-- DISCARD_AT_HEAD (R20). -/
  | discardAtHead
  /-- COVERAGE_SWEEP (R24). -/
  | coverageSweep
  /-- EXPIRY (R116). -/
  | expiry
  /-- CONTROL_WRITE (R163). -/
  | controlWrite
  /-- GLOBALS_WRITE (R166). -/
  | globalsWrite
  /-- CONSUME_INDEX_WRITE (R148). -/
  | consumeIndexWrite
  /-- RING_GEOMETRY_WRITE (R165). -/
  | ringGeometryWrite
  /-- PING (R169). -/
  | ping
  /-- CLEAR_FLOW (R132). -/
  | clearFlow
  /-- CLEAR_ALL (R134). -/
  | clearAll
  /-- CLEAR_ALL_WALK_STEP (R134). -/
  | clearAllWalkStep
  /-- EVICT_FLOW (R50). -/
  | evictFlow
  /-- INTERROGATE (R159). -/
  | interrogate
  /-- SNAPSHOT (R157). -/
  | snapshot
  /-- ALARM_ACK (R140). -/
  | alarmAck
  /-- ALARM_HOLD (R141). -/
  | alarmHold
  /-- ALARM_RELEASE (R141). -/
  | alarmRelease
  /-- RELOAD_CONFIG (R174). -/
  | reloadConfig
  /-- RESTART (R175). -/
  | restart
  /-- UNKNOWN_COMMAND (R169). -/
  | unknownCommand
  /-- LOAD_READ_APPLY (R172). -/
  | loadReadApply
  /-- TIME_BASE_ADVANCE (R109). -/
  | timeBaseAdvance
  /-- INJECTED_READ_TAKEN (R9). -/
  | injectedReadTaken
  deriving DecidableEq, Repr

end Sys2Proof
end

