-- ==== Sys2Proof/Config.lean ====
section
/-! DEFINITION. What the part fixes as numbers (chapter 0, section 4), and the one value the spec leaves open. -/

namespace Sys2Proof.Config

/-- Records the observation queue holds (R17, R18). -/
def queueDepth : Nat := 64

/-- Forwarded transactions granted ahead of a waiting injection transaction (R7, R8). -/
def starvationLimit : Nat := 16

/-- Records the retire buffer holds (R48). -/
def retireDepth : Nat := 8

/-- Flow entries (chapter 3). -/
def flowCount : Nat := 1024

/-- Record slots of the report ring (R147). -/
def reportSlots : Nat := 480

/-- Transit slots of all enabled rings together (R165). -/
def slotTotal : Nat := 2048

/-- The ceiling of every tally counter (R127). -/
def counterMax : Nat := 4294967295

/-- The ceiling of an alarm's occurrence count (R137). -/
def occurrenceMax : Nat := 65535

/-- What a byte of SRAM that nothing has written reads as.
DESIGN CHOICE (log 3): the spec gives SRAM no contents before it is written; unsafe. -/
def sramPowerOn : Byte := 0

/-- FREE VALUE (log 12): the address the BLIND trigger captures at the end of a load when the first-lost
address is empty, for which R23 states none. It has no body, so nothing can be proved of its value. -/
opaque blindCaptureUnstated : Nat → Addr

end Sys2Proof.Config
end

