-- ==== Sys2Proof/Machine/State.lean ====
section
/-! DEFINITION. The state of the part, block by block, as plain data, and its value while RESET_N is asserted. -/

namespace Sys2Proof.Machine

/-- A sparse table keyed by number: pairs of strictly rising keys, none of them equal to the value an unlisted key
reads as. Memory, flow entries, slots, counters and settings are all held so; equal tables are equal data. -/
structure Store (α : Type) where
  cells : List (Nat × α)
  deriving DecidableEq, Repr

/-! ## Observations (chapter 2) -/

/-- What an observation says besides its place, time and address (section 2.3). -/
inductive ObservationBody where
  /-- ENQUEUE, with the descriptor fields of R176. -/
  | enqueue (port : BitVec 4) (tag : BitVec 20) (copy : BitVec 4) (sequence : BitVec 16) (sequenceValid : Bool)
  /-- DEQUEUE. -/
  | dequeue
  /-- COMPLETION, with its code. -/
  | completion (code : BitVec 3)
  /-- CONTROL_WRITE, with the control offset of the first word, the words and a lane mask for each. -/
  | controlWrite (offset : Nat) (data : List Word) (lanes : List (BitVec 8))
  deriving DecidableEq, Repr

/-- One record of the observation queue (section 2.3). `ring` is the ring as decoded; `place` is the transaction's
place in memory-side order (R3, log 8). -/
structure Observation where
  body : ObservationBody
  stamp : Time
  followsLoss : Bool
  address : Addr
  ring : Option Nat
  place : Nat
  deriving DecidableEq, Repr

/-- Coverage: the part's account of its own view (section 2.5). -/
inductive Coverage where
  | sighted | blind | paused
  deriving DecidableEq, Repr

/-- OQ's own state (chapter 2). `headSwept` says that the sweep R24 places ahead of the head record has run (log 13). -/
structure ObservationQueue where
  queue : List Observation
  coverage : Coverage
  lossMark : Bool
  firstLost : Option Addr
  reloadOwed : Bool
  headSwept : Bool
  deriving DecidableEq, Repr

/-! ## The forwarding path (chapter 1) -/

/-- What the request direction holds: a forwarded transaction, or a started injected one. `live` is clear when the
injected transaction's job no longer exists, so that its completion notice is not delivered (R11, R13). -/
inductive Request where
  | forwarded (t : Transaction)
  | injected (t : Transaction) (live : Bool)
  deriving DecidableEq, Repr

/-- Who a returning read's words go to: the switch side, the current job, or nobody, because the job no longer exists
and the data is received and discarded (R5, R11). -/
inductive ReadOwner where
  | switchSide | job | dropped
  deriving DecidableEq, Repr

/-- The read on the return direction, with its words in return order (R2, R5) and its place in memory-side order. -/
structure ReturnRead where
  owner : ReadOwner
  address : Addr
  words : List Word
  place : Nat
  deriving DecidableEq, Repr

/-- FP's own state (chapter 1): the sampled straps, the transaction waiting at the switch-side port, the request and
return directions, the starvation count, the words last returned on the SL return group, and the next place in
memory-side order. -/
structure ForwardingPath where
  straps : BitVec 4
  slPort : Option Transaction
  request : Option Request
  ret : Option ReturnRead
  starvation : Nat
  slReturn : List Word
  place : Nat
  deriving DecidableEq, Repr

/-! ## The flow table (chapter 3) -/

/-- The state of a flow entry (R32). -/
inductive EntryState where
  | vacant | tracking | silent
  deriving DecidableEq, Repr

/-- The mark of a window position (R58). -/
inductive Mark where
  | received | missing | unawaited
  deriving DecidableEq, Repr

/-- The sixteen tally counters of a flow entry, in the order of section 3.4. -/
inductive Tally where
  | accepted | anchors | inOrder | ahead | reorderedIn | duplicates | stale | unsequenced
  | gapDrops | discards | overruns | lateResidence | cadenceMisses | reorderedOut | silences | unresolved
  deriving DecidableEq, Repr

/-- A flow entry (section 3.4). `window` lists the marks, position 0 first. `checkOk` says that the stored check code
agrees with the code of the stored fields (R34, log 6). -/
structure FlowEntry where
  state : EntryState
  port : BitVec 4
  tag : BitVec 20
  profile : Nat
  generation : BitVec 8
  nextSeq : Nat
  window : List Mark
  reanchor : Bool
  staleRun : Nat
  departed : Option Nat
  due : Option Time
  misses : Nat
  lateRun : Nat
  worstResidence : Nat
  faultMask : BitVec 16
  tallies : Store Nat
  dirty : Bool
  checkOk : Bool
  deriving DecidableEq, Repr

/-- The three PLRU bits of a set (R43). -/
structure Plru where
  b0 : Bool
  b1 : Bool
  b2 : Bool
  deriving DecidableEq, Repr

/-- The cause of a RETIRE record (R48). -/
inductive RetireCause where
  | replaced | commanded
  deriving DecidableEq, Repr

/-- The type of a report record, with what only that type carries (R160). -/
inductive RecordType where
  | periodic
  | retire (cause : RetireCause)
  | interrogate (tag : BitVec 8)
  deriving DecidableEq, Repr

/-- A report record: a copy of the entry, its flow index, the drain number and the time (R48, R160). -/
structure ReportRecord where
  type : RecordType
  index : Nat
  entry : FlowEntry
  drainNumber : BitVec 16
  time : Time
  deriving DecidableEq, Repr

/-- FT's own state (chapter 3); the classifier copy, the pin count and the freeze flag are those CI holds (log 7). -/
structure FlowTable where
  flows : Store FlowEntry
  plru : Store Plru
  retire : List ReportRecord
  deriving DecidableEq, Repr

/-! ## The transit table (chapter 5) -/

/-- The flow reference of a slot (R86). -/
inductive FlowRef where
  | listed (index : Nat) (generation : BitVec 8)
  | unlisted (profile : Nat)
  deriving DecidableEq, Repr

/-- The fields of a QUEUED or DEPARTING slot (R86). -/
structure Frame where
  ref : FlowRef
  copy : BitVec 4
  sequence : Option (BitVec 16)
  enqueued : Time
  uncertain : Bool
  deriving DecidableEq, Repr

/-- A slot record (R86). -/
inductive Slot where
  | empty
  | queued (frame : Frame)
  | departing (frame : Frame) (departure : Time)
  deriving DecidableEq, Repr

/-! ## Cadence (chapter 6) -/

/-- CM's own state: the time base, the due list (by flow index, log 28) and the sight start. -/
structure CadenceMonitor where
  timeBase : Time
  due : Store Time
  sightStart : Time
  deriving DecidableEq, Repr

/-! ## Tallies and alarms (chapter 7) -/

/-- The sixteen aggregate counters (section 7.3). -/
inductive Aggregate where
  | unlistedArrivals | unlistedDiscards | unlistedOverruns | unlistedLate
  | orphanVerdicts | strayDequeues | strayCompletions | lostObservations
  | blindIntervals | allocationFailures | evictions | entryFaults
  | clampedFields | reportStalls | lostCommands | configReloads
  deriving DecidableEq, Repr

/-- The eight alarm kinds, in order of priority (section 7.6). -/
inductive AlarmKind where
  | entryFault | blind | overrun | gapBurst | silence | lateRun | tableFull | reportFull
  deriving DecidableEq, Repr

/-- A row of the alarm table but for ON, which is the kind's bit of the held ON mask (R137, log 7). -/
structure AlarmRow where
  held : Bool
  raised : Bool
  first : BitVec 32
  occurrences : Nat
  deriving DecidableEq, Repr

/-- TAU's own state (chapter 7): aggregates by number, alarm rows by priority, the alert record, the ALERT_N line. -/
structure TallyUnit where
  agg : Store Nat
  alarms : Store AlarmRow
  alertKind : Option AlarmKind
  alertValue : BitVec 32
  alertAsserted : Bool
  deriving DecidableEq, Repr

/-! ## The report writer (chapter 8) -/

/-- The drain state (section 8.3). -/
inductive DrainState where
  | idle | draining | stalled
  deriving DecidableEq, Repr

/-- The kinds of injection job, in order of priority (R149). -/
inductive JobKind where
  | load | status | interrogate | retire | drain
  deriving DecidableEq, Repr

/-- The current job: its transactions that are not yet complete, the first of them waiting or started (R6, R149). -/
structure Job where
  kind : JobKind
  todo : List Transaction
  started : Bool
  deriving DecidableEq, Repr

/-- RW's own state (chapter 8); C is the consume index CI holds, the dirty set is the entries' flags (log 7). -/
structure ReportWriter where
  produce : Nat
  drain : DrainState
  drainNumber : BitVec 16
  budget : Nat
  built : Nat
  written : List (Nat × BitVec 8)
  drainOwed : Bool
  intervalBase : Time
  intervalFired : Bool
  statusPending : Bool
  interrogate : Option ReportRecord
  job : Option Job
  deriving DecidableEq, Repr

/-! ## The control interface (chapter 9) -/

/-- The part state (R170). -/
inductive PartState where
  | offline | loading | running
  deriving DecidableEq, Repr

/-- The geometry of a ring as held (R83, R165). -/
structure RingGeometry where
  enabled : Bool
  base : Addr
  slots : Nat
  deriving DecidableEq, Repr

/-- A profile as held (section 3.3, section 10.2). -/
structure Profile where
  tracked : Bool
  evaluates : Bool
  width : Nat
  window : Nat
  staleLimit : Nat
  jumpLimit : Nat
  silenceLimit : Nat
  lateLimit : Nat
  period : Nat
  tolerance : Nat
  budget : Nat
  watched : BitVec 16
  gapThreshold : Nat
  priority : Nat
  deriving DecidableEq, Repr

/-- A classifier entry (section 3.2). -/
structure ClassifierEntry where
  enabled : Bool
  portMask : BitVec 16
  tagValue : BitVec 20
  tagMask : BitVec 20
  profile : Nat
  deriving DecidableEq, Repr

/-- The held settings: the values in force, after clamping (chapter 9). -/
structure Held where
  monitoring : Bool
  freeze : Bool
  pinCount : Nat
  alarmOn : BitVec 8
  interval : Nat
  dirtyThreshold : Nat
  consume : Nat
  rings : Store RingGeometry
  profiles : Store Profile
  classifier : Store ClassifierEntry
  deriving DecidableEq, Repr

/-- The mailbox commands, by their codes (section 10.2). -/
inductive MailboxCommand where
  | ping | clearFlow | clearAll | evictFlow | interrogate | snapshot
  | alarmAck | alarmHold | alarmRelease | reloadConfig | restart | unknown
  deriving DecidableEq, Repr

/-- The commands that stay in flight (R169); CLEAR_ALL with the index its walk reads next (R134). -/
inductive InFlight where
  | clearAll (next : Nat)
  | interrogate
  | reloadConfig
  | restart
  deriving DecidableEq, Repr

/-- The result codes (R168); an empty last result is the absence of a result. -/
inductive ResultCode where
  | done | clamped | busy | unknown | badArgument | noRoom
  deriving DecidableEq, Repr

/-- A mailbox result (R168). -/
structure MailboxResult where
  tag : BitVec 8
  code : ResultCode
  time : Time
  deriving DecidableEq, Repr

/-- The last-clamp record (R164). -/
structure ClampRecord where
  offset : Nat
  field : Nat
  written : Nat
  held : Nat
  time : Time
  deriving DecidableEq, Repr

/-- The origin of a reload (R174). -/
inductive ReloadOrigin where
  | sweep | command
  deriving DecidableEq, Repr

/-- The kind of a load (R171, R174). -/
inductive LoadKind where
  | initial
  | reload (origin : ReloadOrigin)
  deriving DecidableEq, Repr

/-- A load in progress; `issued` once its LOAD job has been selected (R149, R171). -/
structure Load where
  kind : LoadKind
  issued : Bool
  deriving DecidableEq, Repr

/-- A load read that has returned and is not yet applied (R172). -/
structure LoadRead where
  offset : Nat
  words : List Word
  place : Nat
  deriving DecidableEq, Repr

/-- CI's own state (chapter 9). -/
structure ControlInterface where
  image : Store Byte
  held : Held
  part : PartState
  lastTag : BitVec 8
  inFlight : Option (InFlight × BitVec 8)
  lastResult : Option MailboxResult
  lastClamp : Option ClampRecord
  load : Option Load
  loadReads : List LoadRead
  reloadWaiting : Option ReloadOrigin
  deriving DecidableEq, Repr

/-! ## The state -/

/-- The state of the part, its waiting commands and the SRAM behind it. `freeCount` numbers the uses of the free
value (log 12). -/
structure State where
  pending : List Instr
  mem : Store Byte
  fp : ForwardingPath
  oq : ObservationQueue
  ft : FlowTable
  tt : Store Slot
  cm : CadenceMonitor
  tau : TallyUnit
  rw : ReportWriter
  ci : ControlInterface
  freeCount : Nat
  deriving DecidableEq, Repr

/-- The ways a step could stop with a fault: none. The spec names no condition that stops the part; an entry fault, a
loss and a refused mailbox command are effects on the state (R21, R51, R167). -/
inductive Fault where
  deriving DecidableEq, Repr

/-- The ways a step is refused. -/
inductive Refusal where
  /-- Raised by `exec` for a command that has no meaning yet; safe. -/
  | notModelled (mnemonic : String)
  /-- Raised by SLOT_GRANT for an operand that is no transaction of the link: its address lacks the alignment its
  kind has (R1, log 5); safe. -/
  | misalignedTransaction
  deriving DecidableEq, Repr

/-- OQ while RESET_N is asserted (R27). -/
def ObservationQueue.atReset : ObservationQueue :=
  { queue := [], coverage := .sighted, lossMark := false, firstLost := none, reloadOwed := false, headSwept := false }

/-- FT while RESET_N is asserted: every entry VACANT with generation 0, PLRU bits 0, retire buffer empty (R53). -/
def FlowTable.atReset : FlowTable := { flows := ⟨[]⟩, plru := ⟨[]⟩, retire := [] }

/-- CM while RESET_N is asserted (R126). -/
def CadenceMonitor.atReset : CadenceMonitor := { timeBase := 0#48, due := ⟨[]⟩, sightStart := 0#48 }

/-- TAU while RESET_N is asserted (R145). -/
def TallyUnit.atReset : TallyUnit :=
  { agg := ⟨[]⟩, alarms := ⟨[]⟩, alertKind := none, alertValue := 0#32, alertAsserted := false }

/-- RW while RESET_N is asserted (R161). The interval base and the fired flag have no stated value while the timer is
stopped (DESIGN CHOICE 0 and clear, log 22). -/
def ReportWriter.atReset : ReportWriter :=
  { produce := 0, drain := .idle, drainNumber := 0#16, budget := 0, built := 0, written := [], drainOwed := false,
    intervalBase := 0#48, intervalFired := false, statusPending := false, interrogate := none, job := none }

/-- The held settings for a zero image after clamping (R175). The unlisted rings, profiles and classifier entries read
as those of a zero image. -/
def Held.atReset : Held :=
  { monitoring := false, freeze := false, pinCount := 0, alarmOn := 0#8, interval := 0, dirtyThreshold := 0,
    consume := 0, rings := ⟨[]⟩, profiles := ⟨[]⟩, classifier := ⟨[]⟩ }

/-- CI while RESET_N is asserted (R175). -/
def ControlInterface.atReset : ControlInterface :=
  { image := ⟨[]⟩, held := Held.atReset, part := .offline, lastTag := 0#8, inFlight := none, lastResult := none,
    lastClamp := none, load := none, loadReads := [], reloadWaiting := none }

/-- FP with an idle link (R11 gives the starvation count; the rest is DESIGN CHOICE, log 22). -/
def ForwardingPath.atReset : ForwardingPath :=
  { straps := 0#4, slPort := none, request := none, ret := none, starvation := 0, slReturn := [], place := 0 }

/-- The machine after reset: RESET_N asserted, the part OFFLINE, every block at its reset values, the link idle and
nothing written to SRAM (R11, R27, R53, R107, R126, R145, R161, R175; log 1, log 22). -/
def State.reset : State :=
  { pending := [], mem := ⟨[]⟩, fp := ForwardingPath.atReset, oq := ObservationQueue.atReset,
    ft := FlowTable.atReset, tt := ⟨[]⟩, cm := CadenceMonitor.atReset, tau := TallyUnit.atReset,
    rw := ReportWriter.atReset, ci := ControlInterface.atReset, freeCount := 0 }

end Sys2Proof.Machine
end

