-- ==== Sys2Proof/Machine/Operands.lean ====
section
/-! DEFINITION. The operand forms: sparse tables, byte order and lanes, times and sequences, the bytes and fields of
transactions, and the clamps of the configuration fields. -/

namespace Sys2Proof.Machine

/-! ## Sparse tables -/

/-- The entry listed at `k`, if any. -/
def lookupCell {α : Type} (k : Nat) : List (Nat × α) → Option α
  | [] => none
  | c :: rest => if c.1 = k then some c.2 else lookupCell k rest

/-- List `v` at `k`, keeping the keys rising. -/
def insertCell {α : Type} (k : Nat) (v : α) : List (Nat × α) → List (Nat × α)
  | [] => [(k, v)]
  | c :: rest =>
    if k < c.1 then (k, v) :: c :: rest
    else if c.1 = k then (k, v) :: rest
    else c :: insertCell k v rest

/-- Unlist `k`. -/
def eraseCell {α : Type} (k : Nat) : List (Nat × α) → List (Nat × α)
  | [] => []
  | c :: rest => if c.1 = k then eraseCell k rest else c :: eraseCell k rest

/-- The entry listed at `k`, if any. -/
def Store.find? {α : Type} (m : Store α) (k : Nat) : Option α := lookupCell k m.cells

/-- What the table reads as at `k`; an unlisted key reads as `d`. -/
def Store.get {α : Type} (m : Store α) (d : α) (k : Nat) : α := (m.find? k).getD d

/-- Unlist `k`. -/
def Store.erase {α : Type} (m : Store α) (k : Nat) : Store α := ⟨eraseCell k m.cells⟩

/-- List `v` at `k`. -/
def Store.put {α : Type} (m : Store α) (k : Nat) (v : α) : Store α := ⟨insertCell k v m.cells⟩

/-- Make the table read as `v` at `k`, keeping the canonical form: writing what an unlisted key reads as unlists it. -/
def Store.set {α : Type} [DecidableEq α] (m : Store α) (d : α) (k : Nat) (v : α) : Store α :=
  if v = d then m.erase k else m.put k v

/-- Apply `f` to every listed entry, keeping the canonical form. Every key is so changed when `f k d = d`. -/
def Store.update {α : Type} [DecidableEq α] (m : Store α) (d : α) (f : Nat → α → α) : Store α :=
  ⟨(m.cells.map fun c => (c.1, f c.1 c.2)).filter fun c => decide (c.2 ≠ d)⟩

/-- The listed keys, rising. -/
def Store.keys {α : Type} (m : Store α) : List Nat := m.cells.map Prod.fst

/-- The keys rise strictly from above `lo`. -/
def risingFrom {α : Type} : Option Nat → List (Nat × α) → Bool
  | _, [] => true
  | none, c :: rest => risingFrom (some c.1) rest
  | some lo, c :: rest => decide (lo < c.1) && risingFrom (some c.1) rest

/-- The canonical form: keys strictly rising, no entry equal to what an unlisted key reads as. -/
def Store.wf {α : Type} [DecidableEq α] (m : Store α) (d : α) : Bool :=
  risingFrom none m.cells && m.cells.all fun c => decide (c.2 ≠ d)

/-! ## Counting -/

/-- Saturating addition of the tally counters (R127). -/
def satAdd (old amount : Nat) : Nat := min (old + amount) Config.counterMax

/-! ## Bytes and words -/

/-- The number that bytes hold, the least significant byte first (chapter 10, head). -/
def natOfBytes : List Byte → Nat
  | [] => 0
  | b :: rest => b.toNat + 256 * natOfBytes rest

/-- The `n` low bytes of a number, the least significant first (chapter 10, head). -/
def bytesOfNat : Nat → Nat → List Byte
  | 0, _ => []
  | n + 1, v => BitVec.ofNat 8 v :: bytesOfNat n (v / 256)

/-- The word that eight bytes make: byte lane i carries bits 8i to 8i + 7 (section 1.1). -/
def wordOfBytes (bytes : List Byte) : Word := BitVec.ofNat 64 (natOfBytes bytes)

/-- The byte that lane `i` of a word carries (section 1.1). -/
def lane (w : Word) (i : Nat) : Byte := w.extractLsb' (8 * i) 8

/-- The bytes of the lanes that a mask names, each with its address (R1). -/
def laneBytes (address : Nat) (w : Word) (lanes : BitVec 8) : List (Nat × Byte) :=
  (List.range 8).filterMap fun i => if lanes.getLsbD i then some (address + i, lane w i) else none

/-- The bytes of whole words that follow one another. -/
def wordsBytes (address : Nat) : List Word → List (Nat × Byte)
  | [] => []
  | w :: rest => laneBytes address w 255#8 ++ wordsBytes (address + 8) rest

/-- The bytes of the named lanes of words that follow one another (R16). -/
def maskedBytes (address : Nat) : List Word → List (BitVec 8) → List (Nat × Byte)
  | w :: ws, m :: ms => laneBytes address w m ++ maskedBytes (address + 8) ws ms
  | _, _ => []

/-- Cut bytes into `n` words. -/
def wordsOfBytes : Nat → List Byte → List Word
  | 0, _ => []
  | n + 1, bytes => wordOfBytes (bytes.take 8) :: wordsOfBytes n (bytes.drop 8)

end Sys2Proof.Machine

namespace Sys2Proof

open Machine

/-! ## Transactions -/

/-- The byte address a transaction carries (R1). -/
def Transaction.address : Transaction → Addr
  | .singleRead a => a
  | .burstRead a _ => a
  | .singleWrite a _ _ => a
  | .burstWrite a _ _ _ _ => a

/-- Whether a transaction is a read (R5). -/
def Transaction.isRead : Transaction → Bool
  | .singleRead _ => true
  | .burstRead _ _ => true
  | .singleWrite _ _ _ => false
  | .burstWrite _ _ _ _ _ => false

/-- The bytes that a transaction changes in memory: the named lanes of a single write, the whole block of a burst write,
nothing for a read (R1). -/
def Transaction.writes : Transaction → List (Nat × Byte)
  | .singleRead _ => []
  | .burstRead _ _ => []
  | .singleWrite a w m => laneBytes a.toNat w m
  | .burstWrite a w0 w1 w2 w3 => wordsBytes a.toNat [w0, w1, w2, w3]

/-- The byte addresses of the words a read returns, in the order it returns them (R2). -/
def Transaction.readAddresses : Transaction → List Nat
  | .singleRead a => [a.toNat]
  | .burstRead a s => (List.range 4).map fun i => a.toNat + 8 * ((s.toNat + i) % 4)
  | .singleWrite _ _ _ => []
  | .burstWrite _ _ _ _ _ => []

end Sys2Proof

namespace Sys2Proof.Machine

/-! ## Times (R110, section 6 of the introduction) -/

/-- t1 is at or after t2 (R110). The test is applied as it stands to times 2^47 ns or more apart too, of which R110 says
that the part compares none (DESIGN CHOICE, log 41). -/
def atOrAfter (t1 t2 : Time) : Bool := decide ((t1 - t2).toNat < 2 ^ 47)

/-- Microseconds as a duration of the time base. -/
def ofMicroseconds (n : Nat) : Time := BitVec.ofNat 48 (n * 1000)

/-- Milliseconds as a duration of the time base. -/
def ofMilliseconds (n : Nat) : Time := BitVec.ofNat 48 (n * 1000000)

/-- Of two due list entries, the first stands ahead: its signed offset against the time base is smaller (R112). -/
def dueEarlier (now : Time) (a b : Nat × Time) : Bool := decide ((a.2 - now).toInt < (b.2 - now).toInt)

/-- The head of a due list: the earliest due time by signed offset, ties to the lower flow index (R112). -/
def dueFirst (now : Time) : List (Nat × Time) → Option (Nat × Time)
  | [] => none
  | c :: rest =>
    match dueFirst now rest with
    | none => some c
    | some b => if dueEarlier now b c then some b else some c

/-! ## Sequences (R60) -/

/-- The signed difference of sequence `s` against `t` under width `w` (R60). -/
def signedDiff (w s t : Nat) : Int :=
  let x := (s + (2 ^ w - t % 2 ^ w)) % 2 ^ w
  if x < 2 ^ (w - 1) then (x : Int) else (x : Int) - (2 ^ w : Nat)

/-! ## Names and their numbers -/

/-- The tallies in the order of a report record (section 3.4). -/
def Tally.all : List Tally :=
  [.accepted, .anchors, .inOrder, .ahead, .reorderedIn, .duplicates, .stale, .unsequenced,
    .gapDrops, .discards, .overruns, .lateResidence, .cadenceMisses, .reorderedOut, .silences, .unresolved]

/-- The place of a tally in a report record, from 0 (section 3.4). -/
def Tally.number : Tally → Nat
  | .accepted => 0
  | .anchors => 1
  | .inOrder => 2
  | .ahead => 3
  | .reorderedIn => 4
  | .duplicates => 5
  | .stale => 6
  | .unsequenced => 7
  | .gapDrops => 8
  | .discards => 9
  | .overruns => 10
  | .lateResidence => 11
  | .cadenceMisses => 12
  | .reorderedOut => 13
  | .silences => 14
  | .unresolved => 15

/-- The aggregates in their numbered order (section 7.3). -/
def Aggregate.all : List Aggregate :=
  [.unlistedArrivals, .unlistedDiscards, .unlistedOverruns, .unlistedLate, .orphanVerdicts, .strayDequeues,
    .strayCompletions, .lostObservations, .blindIntervals, .allocationFailures, .evictions, .entryFaults,
    .clampedFields, .reportStalls, .lostCommands, .configReloads]

/-- The number of an aggregate, 1 to 16 (section 7.3). -/
def Aggregate.number : Aggregate → Nat
  | .unlistedArrivals => 1
  | .unlistedDiscards => 2
  | .unlistedOverruns => 3
  | .unlistedLate => 4
  | .orphanVerdicts => 5
  | .strayDequeues => 6
  | .strayCompletions => 7
  | .lostObservations => 8
  | .blindIntervals => 9
  | .allocationFailures => 10
  | .evictions => 11
  | .entryFaults => 12
  | .clampedFields => 13
  | .reportStalls => 14
  | .lostCommands => 15
  | .configReloads => 16

/-- The alarm kinds, highest priority first (section 7.6). -/
def AlarmKind.all : List AlarmKind :=
  [.entryFault, .blind, .overrun, .gapBurst, .silence, .lateRun, .tableFull, .reportFull]

/-- The priority of an alarm kind, 1 to 8 (section 7.6). -/
def AlarmKind.priority : AlarmKind → Nat
  | .entryFault => 1
  | .blind => 2
  | .overrun => 3
  | .gapBurst => 4
  | .silence => 5
  | .lateRun => 6
  | .tableFull => 7
  | .reportFull => 8

/-- The bit of an alarm kind in the ON mask and in the alarm commands' argument (section 7.6). -/
def AlarmKind.inMask (k : AlarmKind) (mask : BitVec 8) : Bool := mask.getLsbD (k.priority - 1)

/-- The mailbox command of a code (section 10.2). -/
def MailboxCommand.ofCode (code : Byte) : MailboxCommand :=
  match code.toNat with
  | 1 => .ping
  | 2 => .clearFlow
  | 3 => .clearAll
  | 4 => .evictFlow
  | 5 => .interrogate
  | 6 => .snapshot
  | 7 => .alarmAck
  | 8 => .alarmHold
  | 9 => .alarmRelease
  | 10 => .reloadConfig
  | 11 => .restart
  | _ => .unknown

/-! ## What unlisted entries of the tables read as -/

/-- A VACANT entry of a generation: only the generation and the check code have meaning, the other fields are held at
zero or absent (R32, R159, log 33). -/
def vacantEntry (generation : BitVec 8) : FlowEntry :=
  { state := .vacant, port := 0#4, tag := 0#20, profile := 0, generation := generation, nextSeq := 0, window := [],
    reanchor := false, staleRun := 0, departed := none, due := none, misses := 0, lateRun := 0, worstResidence := 0,
    faultMask := 0#16, tallies := ⟨[]⟩, dirty := false, checkOk := true }

/-- The entry of a way never used: VACANT with generation 0 (R53). -/
def initialEntry : FlowEntry := vacantEntry 0#8

/-- The PLRU bits after reset (R53). -/
def initialPlru : Plru := { b0 := false, b1 := false, b2 := false }

/-- An alarm row after reset (R145). -/
def initialAlarm : AlarmRow := { held := false, raised := false, first := 0#32, occurrences := 0 }

/-- A ring of a zero image after clamping: disabled, a slot count of 0 held as 16 (R164, R175). -/
def initialRing : RingGeometry := { enabled := false, base := 0#27, slots := 16 }

/-- A profile of a zero image after clamping (R175). -/
def initialProfile : Profile :=
  { tracked := false, evaluates := false, width := 8, window := 1, staleLimit := 1, jumpLimit := 1,
    silenceLimit := 1, lateLimit := 0, period := 0, tolerance := 0, budget := 0, watched := 0#16, gapThreshold := 0,
    priority := 0 }

/-- A classifier entry of a zero image (R175). -/
def initialClassifier : ClassifierEntry :=
  { enabled := false, portMask := 0#16, tagValue := 0#20, tagMask := 0#20, profile := 0 }

/-! ## Clamps (R164) -/

/-- The held sequence width of a written value (R164). -/
def clampWidth (v : Nat) : Nat := if v ≤ 8 then 8 else if v ≤ 12 then 12 else 16

/-- The held value of a field whose legal values are `lo` to `hi` (R164). -/
def clampRange (lo hi v : Nat) : Nat := max lo (min hi v)

/-- The held slot count of a written value: the nearest legal one, the lower on a tie (R164). -/
def clampSlots (v : Nat) : Nat :=
  if v ≤ 24 then 16 else if v ≤ 48 then 32 else if v ≤ 96 then 64 else if v ≤ 192 then 128 else 256

/-- The held jump limit of a written value under the held width and window size (R164). -/
def clampJump (width window v : Nat) : Nat :=
  if v < window then window else if v > 2 ^ (width - 1) - 1 then 2 ^ (width - 1) - 1 else v

/-- The held base of a written one: the low five bits cleared (R164). -/
def clampBase (v : Nat) : Nat := v / 32 * 32

end Sys2Proof.Machine
end

