-- ==== Sys2Proof/Machine/Ops.lean ====
section
/-! DEFINITION. The named operations over the state: block updates, memory, registers and settings as read, counters,
flow entries and the due list. -/

namespace Sys2Proof.Machine

/-! ## Updating one block -/

/-- Change FP's state. -/
def State.onFp (s : State) (f : ForwardingPath → ForwardingPath) : State := { s with fp := f s.fp }

/-- Change OQ's state. -/
def State.onOq (s : State) (f : ObservationQueue → ObservationQueue) : State := { s with oq := f s.oq }

/-- Change FT's state. -/
def State.onFt (s : State) (f : FlowTable → FlowTable) : State := { s with ft := f s.ft }

/-- Change the slot records. -/
def State.onTt (s : State) (f : Store Slot → Store Slot) : State := { s with tt := f s.tt }

/-- Change CM's state. -/
def State.onCm (s : State) (f : CadenceMonitor → CadenceMonitor) : State := { s with cm := f s.cm }

/-- Change TAU's state. -/
def State.onTau (s : State) (f : TallyUnit → TallyUnit) : State := { s with tau := f s.tau }

/-- Change RW's state. -/
def State.onRw (s : State) (f : ReportWriter → ReportWriter) : State := { s with rw := f s.rw }

/-- Change CI's state. -/
def State.onCi (s : State) (f : ControlInterface → ControlInterface) : State := { s with ci := f s.ci }

/-- Change the held settings. -/
def State.onHeld (s : State) (f : Held → Held) : State := s.onCi fun c => { c with held := f c.held }

/-- Change memory. -/
def State.onMem (s : State) (f : Store Byte → Store Byte) : State := { s with mem := f s.mem }

/-! ## Memory (R1, R3, R10) -/

/-- The byte of SRAM at an address. -/
def State.memByte (s : State) (a : Nat) : Byte := s.mem.get Config.sramPowerOn a

/-- The word of SRAM at a byte address. -/
def State.memWord (s : State) (a : Nat) : Word := wordOfBytes ((List.range 8).map fun i => s.memByte (a + i))

/-- Memory has its canonical form: addresses strictly rising, no byte listed that an unlisted address reads as. -/
def State.memWf (s : State) : Bool := s.mem.wf Config.sramPowerOn

/-- Write bytes one after the other. -/
def writeBytes (m : Store Byte) (d : Byte) : List (Nat × Byte) → Store Byte
  | [] => m
  | b :: rest => writeBytes (m.set d b.1 b.2) d rest

/-- Memory takes a transaction: it changes exactly the bytes of the named lanes of a single write, all bytes of a
burst's block, and nothing at a read (R1). -/
def State.memTake (s : State) (t : Transaction) : State := s.onMem fun m => writeBytes m Config.sramPowerOn t.writes

/-- The words a read returns, in return order, from memory as it stands at the taken point (R2, R3, R10). -/
def State.readWords (s : State) (t : Transaction) : List Word := t.readAddresses.map s.memWord

/-! ## Settings as the Control Interface holds them -/

/-- The control region's base: the sampled straps × 8 MiB (R12). -/
def State.controlBase (s : State) : Nat := s.fp.straps.toNat * 8388608

/-- Ring r's geometry, the one copy of CI, TT and OQ (R83, log 7). -/
def State.ring (s : State) (r : Nat) : RingGeometry := s.ci.held.rings.get initialRing r

/-- Profile p as held (R31). -/
def State.profile (s : State) (p : Nat) : Profile := s.ci.held.profiles.get initialProfile p

/-- Classifier entry n as held (R29). -/
def State.classifierEntry (s : State) (n : Nat) : ClassifierEntry := s.ci.held.classifier.get initialClassifier n

/-- The byte of the control image at a control offset (R163). -/
def State.imageByte (s : State) (o : Nat) : Byte := s.ci.image.get 0#8 o

/-- The field of `n` bytes of the control image at a control offset, least significant byte first (R177). -/
def State.imageField (s : State) (o n : Nat) : Nat := natOfBytes ((List.range n).map fun i => s.imageByte (o + i))

/-- The value of the time base. -/
def State.now (s : State) : Time := s.cm.timeBase

/-! ## Aggregates (R127) -/

/-- The value of an aggregate counter. -/
def State.agg (s : State) (a : Aggregate) : Nat := s.tau.agg.get 0 a.number

/-- An aggregate counts one, saturating (R127). -/
def State.count (s : State) (a : Aggregate) : State :=
  s.onTau fun t => { t with agg := t.agg.set 0 a.number (satAdd (t.agg.get 0 a.number) 1) }

/-! ## Flow entries (R32, R34) -/

/-- A valid entry is TRACKING or SILENT (R32). -/
def FlowEntry.valid (e : FlowEntry) : Bool := decide (e.state ≠ .vacant)

/-- The value of a tally counter. -/
def FlowEntry.tally (e : FlowEntry) (t : Tally) : Nat := e.tallies.get 0 t.number

/-- A tally counter counts an amount, saturating (R127). -/
def FlowEntry.bump (e : FlowEntry) (t : Tally) (amount : Nat) : FlowEntry :=
  { e with tallies := e.tallies.set 0 t.number (satAdd (e.tally t) amount) }

/-- Set the dirty flag (R131). -/
def FlowEntry.mark (e : FlowEntry) : FlowEntry := { e with dirty := true }

/-- Flow entry i as stored. -/
def State.flow (s : State) (i : Nat) : FlowEntry := s.ft.flows.get initialEntry i

/-- Write flow entry i; a new check code is computed and stored with every write (R34). -/
def State.setFlow (s : State) (i : Nat) (e : FlowEntry) : State :=
  s.onFt fun t => { t with flows := t.flows.set initialEntry i { e with checkOk := true } }

/-- The profile of an entry, as held now (R31). -/
def State.profileOf (s : State) (e : FlowEntry) : Profile := s.profile e.profile

/-- The flow indexes whose entries may hold anything but a sound VACANT entry of generation 0, ascending. Reading
any other of the 1024 entries has no effect, so an event that reads all 1024 in ascending order visits these. -/
def State.flowIndexes (s : State) : List Nat := s.ft.flows.keys.filter fun i => decide (i < Config.flowCount)

/-- The dirty count: the valid entries whose dirty flag is set (chapter 8, head). -/
def State.dirtyCount (s : State) : Nat :=
  (s.flowIndexes.filter fun i => (s.flow i).valid && (s.flow i).dirty).length

/-! ## The due list (R111, R112) -/

/-- Flow i joins the due list or moves in it: the entry and the list hold the same due time (R111). -/
def State.setDue (s : State) (i : Nat) (due : Time) : State :=
  (s.onCm fun c => { c with due := c.due.put i due }).setFlow i { s.flow i with due := some due }

/-- Flow i leaves the due list, with any expiry of it not yet taken (R49, R113). -/
def State.leaveDue (s : State) (i : Nat) : State := s.onCm fun c => { c with due := c.due.erase i }

/-- The head of the due list (R112). -/
def State.dueHead (s : State) : Option (Nat × Time) := dueFirst s.now s.cm.due.cells

/-! ## Slots (R86) -/

/-- The number of slot i of ring r: r × 256 + i, as the OVERRUN trigger names it (R88). -/
def slotNumber (r i : Nat) : Nat := r * 256 + i

/-- Slot i of ring r. -/
def State.slot (s : State) (r i : Nat) : Slot := s.tt.get .empty (slotNumber r i)

/-- Write slot i of ring r. -/
def State.setSlot (s : State) (r i : Nat) (x : Slot) : State := s.onTt fun t => t.set .empty (slotNumber r i) x

/-! ## Injection jobs and memory-side order -/

/-- The next place in memory-side order goes to a transaction taken now (R3). -/
def State.nextPlace (s : State) : State := s.onFp fun f => { f with place := f.place + 1 }

/-- The waiting injection transaction: the first of the current job's, if it is not started (R6). -/
def State.waitingInjection (s : State) : Option Transaction :=
  match s.rw.job with
  | none => none
  | some j => if j.started then none else j.todo.head?

end Sys2Proof.Machine
end

