-- ==== Sys2Proof/Machine/Flags.lean ====
section
/-! DEFINITION. The flag computations: alarm rows, triggers, the alert record and ALERT_N, STATUS requests, mailbox
results, the clamp record, coverage. -/

namespace Sys2Proof.Machine

/-! ## Requests and results -/

/-- Request the STATUS job; a request already pending merges with it (R151). -/
def State.requestStatus (s : State) : State := s.onRw fun w => { w with statusPending := true }

/-- Record a mailbox result, with the time base as its completion time, and request STATUS (R168). -/
def State.result (s : State) (tag : BitVec 8) (code : ResultCode) : State :=
  (s.onCi fun c => { c with lastResult := some { tag := tag, code := code, time := s.now } }).requestStatus

/-- The command in flight leaves that state with its result (R168). -/
def State.finishCommand (s : State) (tag : BitVec 8) (code : ResultCode) : State :=
  (s.onCi fun c => { c with inFlight := none }).result tag code

/-- A field held at a value other than the one written counts clamped_fields and becomes the last clamp (R164). -/
def State.noteClamp (s : State) (offset field written held : Nat) : State :=
  if written = held then s
  else
    (s.count .clampedFields).onCi fun c =>
      { c with lastClamp := some { offset := offset, field := field, written := written, held := held, time := s.now } }

/-! ## Alarms (chapter 7) -/

/-- Whether an alarm kind is ON: its bit of the held ON mask (R137, R142). -/
def State.alarmOn (s : State) (k : AlarmKind) : Bool := k.inMask s.ci.held.alarmOn

/-- The row of an alarm kind. -/
def State.alarm (s : State) (k : AlarmKind) : AlarmRow := s.tau.alarms.get initialAlarm k.priority

/-- Write the row of an alarm kind. -/
def State.setAlarm (s : State) (k : AlarmKind) (row : AlarmRow) : State :=
  s.onTau fun t => { t with alarms := t.alarms.set initialAlarm k.priority row }

/-- A trigger of a kind with its captured value (R138): nothing while the kind is off; otherwise an occurrence counts,
and a kind not yet RAISED is raised and captures the value. -/
def State.trigger (s : State) (k : AlarmKind) (value : Nat) : State :=
  if s.alarmOn k then
    let row := s.alarm k
    s.setAlarm k
      { row with
        occurrences := min (row.occurrences + 1) Config.occurrenceMax
        raised := true
        first := if row.raised then row.first else BitVec.ofNat 32 value }
  else s

/-- Change the row of every kind of a list that a mask names. -/
def State.onMasked (s : State) (mask : BitVec 8) (f : AlarmRow → AlarmRow) : List AlarmKind → State
  | [] => s
  | k :: rest => (if k.inMask mask then s.setAlarm k (f (s.alarm k)) else s).onMasked mask f rest

/-- The kinds that drive the alert: RAISED and not HELD (R143). -/
def State.drives (s : State) (k : AlarmKind) : Bool := (s.alarm k).raised && !(s.alarm k).held

/-- The highest-priority kind RAISED and not HELD (R143). -/
def State.alertKindNow (s : State) : Option AlarmKind := AlarmKind.all.find? s.drives

/-- The value of the alert record: the first value of its kind, 0 for NONE (R143). -/
def State.alertValueNow (s : State) : BitVec 32 :=
  match s.alertKindNow with
  | none => 0#32
  | some k => (s.alarm k).first

/-- Recompute the alert record and ALERT_N; a record that changes requests STATUS (R143, R144). -/
def State.refreshAlert (s : State) : State :=
  let kind := s.alertKindNow
  let value := s.alertValueNow
  let driven := s.onTau fun t => { t with alertKind := kind, alertValue := value, alertAsserted := kind.isSome }
  if s.tau.alertKind = kind ∧ s.tau.alertValue = value then driven else driven.requestStatus

/-! ## Coverage (R23, R26, R121) -/

/-- Coverage changes, which requests STATUS (R151); becoming SIGHTED records the sight start (R121). -/
def State.setCoverage (s : State) (c : Coverage) : State :=
  let s := (s.onOq fun q => { q with coverage := c }).requestStatus
  match c with
  | .sighted => s.onCm fun m => { m with sightStart := m.timeBase }
  | .blind => s
  | .paused => s

/-- Coverage becomes BLIND: blind_intervals counts, the BLIND trigger fires with an address, STATUS is requested
(R21, R23). -/
def State.goBlind (s : State) (captured : Addr) : State :=
  ((s.count .blindIntervals).trigger .blind captured.toNat).setCoverage .blind

/-- Coverage returns from BLIND to SIGHTED when, in RUNNING, the queue is empty with the loss mark clear (R26). -/
def State.returnToSighted (s : State) : State :=
  if s.ci.part = .running ∧ s.oq.coverage = .blind ∧ s.oq.queue = [] ∧ s.oq.lossMark = false then
    s.setCoverage .sighted
  else s

end Sys2Proof.Machine
end

