-- ==== Sys2Proof/Machine/FlowTable.lean ====
section
/-! DEFINITION. The flow table (chapter 3): checks and entry faults, keys and the classifier, lookup, replacement,
allocation, the PLRU order. -/

namespace Sys2Proof.Machine

/-! ## Checks and entry faults (R34, R49, R51, R52) -/

/-- An entry fault (R51): the entry becomes VACANT with its generation advanced, its due entry goes, entry_faults counts,
ENTRY_FAULT fires with the flow index. -/
def State.entryFault (s : State) (i : Nat) : State :=
  (((s.leaveDue i).setFlow i (vacantEntry ((s.flow i).generation + 1))).count .entryFaults).trigger .entryFault i

/-- Read entry i with its check (R34): a failing entry is an entry fault, and the event goes on as for a VACANT entry
(R52). -/
def State.checked (s : State) (i : Nat) : State := if (s.flow i).checkOk then s else s.entryFault i

/-- Read a list of entries in order, each with its check. -/
def State.checkedAll (s : State) : List Nat → State
  | [] => s
  | i :: rest => (s.checked i).checkedAll rest

/-- Read all flow entries in ascending order, each with its check, and change those that are then valid. -/
def State.overFlows (s : State) (f : State → Nat → State) : List Nat → State
  | [] => s
  | i :: rest =>
    let c := s.checked i
    (if (c.flow i).valid then f c i else c).overFlows f rest

/-! ## Keys and the classifier (R28 to R30) -/

/-- The set index of a flow key (R28). -/
def setIndex (port : BitVec 4) (tag : BitVec 20) : Nat :=
  (tag.extractLsb' 0 8 ^^^ tag.extractLsb' 8 8 ^^^ (port ++ tag.extractLsb' 16 4 : BitVec 8)).toNat

/-- The flow index of way x of a set (R28). -/
def flowIndex (set way : Nat) : Nat := set * 4 + way

/-- A classifier entry matches a flow key (R29). -/
def ClassifierEntry.matchesKey (c : ClassifierEntry) (port : BitVec 4) (tag : BitVec 20) : Bool :=
  c.enabled && c.portMask.getLsbD port.toNat && decide (tag &&& c.tagMask = c.tagValue &&& c.tagMask)

/-- The classifier's profile for a key: that of the lowest-numbered matching entry, else 0 (R29). -/
def State.classify (s : State) (port : BitVec 4) (tag : BitVec 20) : Nat :=
  match (List.range 32).find? fun n => (s.classifierEntry n).matchesKey port tag with
  | some n => (s.classifierEntry n).profile
  | none => 0

/-! ## The PLRU order (R43) -/

/-- The PLRU way read from a set's bits (R43). -/
def Plru.way (b : Plru) : Nat := if b.b0 then (if b.b2 then 3 else 2) else (if b.b1 then 1 else 0)

/-- The bits after a use of way x (R43). -/
def Plru.use (b : Plru) (x : Nat) : Plru :=
  if x = 0 then { b with b0 := true, b1 := true }
  else if x = 1 then { b with b0 := true, b1 := false }
  else if x = 2 then { b with b0 := false, b2 := true }
  else { b with b0 := false, b2 := false }

/-- The PLRU bits of a set. -/
def State.plruOf (s : State) (set : Nat) : Plru := s.ft.plru.get initialPlru set

/-- Way x of a set is used (R35, R42, R43). -/
def State.useWay (s : State) (set x : Nat) : State :=
  s.onFt fun t => { t with plru := t.plru.set initialPlru set ((s.plruOf set).use x) }

/-! ## Lookup and replacement (R35, R38 to R42) -/

/-- The four ways of a set. -/
def setWays (set : Nat) : List Nat := [flowIndex set 0, flowIndex set 1, flowIndex set 2, flowIndex set 3]

/-- Whether an entry hits a key: it is valid and holds the key (R35). -/
def FlowEntry.holds (e : FlowEntry) (port : BitVec 4) (tag : BitVec 20) : Bool :=
  e.valid && decide (e.port = port) && decide (e.tag = tag)

/-- The way of a set that holds a key, if any (R35). -/
def State.hitWay (s : State) (set : Nat) (port : BitVec 4) (tag : BitVec 20) : Option Nat :=
  [0, 1, 2, 3].find? fun x => (s.flow (flowIndex set x)).holds port tag

/-- The victim way of an allocation (R39): the lowest VACANT way, else the PLRU way if it is not pinned, else the lowest
way not pinned. -/
def State.victimWay (s : State) (set : Nat) : Nat :=
  match [0, 1, 2, 3].find? fun x => !(s.flow (flowIndex set x)).valid with
  | some x => x
  | none =>
    let p := (s.plruOf set).way
    if s.ci.held.pinCount ≤ p then p else s.ci.held.pinCount

/-- A RETIRE record of entry i as it stands joins the retire buffer (R48). It carries the latest drain started at that
moment (log 20). -/
def State.retireEntry (s : State) (i : Nat) (cause : RetireCause) (time : Time) : State :=
  s.onFt fun t =>
    { t with
      retire := t.retire ++
        [{ type := .retire cause, index := i, entry := s.flow i, drainNumber := s.rw.drainNumber, time := time }] }

/-- A new entry of a key (R42), all positions of its window UNAWAITED (R58). -/
def newEntry (port : BitVec 4) (tag : BitVec 20) (profile window : Nat) (generation : BitVec 8) : FlowEntry :=
  { state := .tracking, port := port, tag := tag, profile := profile, generation := generation, nextSeq := 0,
    window := List.replicate window .unawaited, reanchor := true, staleRun := 0, departed := none, due := none,
    misses := 0, lateRun := 0, worstResidence := 0, faultMask := 0#16, tallies := ⟨[]⟩, dirty := true,
    checkOk := true }

/-- Fill a victim way with a new entry (R42); the entry given up leaves the due list (R49). -/
def State.fillWay (s : State) (set way : Nat) (port : BitVec 4) (tag : BitVec 20) (profile : Nat) : State :=
  let i := flowIndex set way
  ((s.leaveDue i).setFlow i
    (newEntry port tag profile (s.profile profile).window ((s.flow i).generation + 1))).useWay set way

/-- Dispose of a victim's contents (R40): nothing of a VACANT one, a clean one is discarded, a dirty one is retired;
`none` when a dirty victim finds the retire buffer full. -/
def State.dispose (s : State) (i : Nat) (time : Time) : Option State :=
  if !(s.flow i).valid then some s
  else if !(s.flow i).dirty then some (s.count .evictions)
  else if s.ft.retire.length < Config.retireDepth then some ((s.retireEntry i .replaced time).count .evictions)
  else none

/-- What FT makes of an ENQUEUE (R37). -/
inductive Listing where
  /-- A copy-0 frame listed under an entry. -/
  | arrival (index : Nat)
  /-- An additional copy listed under an entry. -/
  | copy (index : Nat)
  /-- No valid entry; the classifier's profile for the key. -/
  | unlisted (profile : Nat)
  deriving DecidableEq, Repr

/-- A copy-0 frame that misses and gets no entry: unlisted_arrivals counts (R46). -/
def State.unlistedArrival (s : State) (port : BitVec 4) (tag : BitVec 20) : State × Listing :=
  (s.count .unlistedArrivals, .unlisted (s.classify port tag))

/-- An allocation that fails for a full retire buffer (R41). -/
def State.allocationFailure (s : State) (port : BitVec 4) (tag : BitVec 20) : State :=
  (s.count .allocationFailures).trigger .tableFull (port.toNat * 2 ^ 20 + tag.toNat)

/-- Allocation for a copy-0 frame that missed (R38 to R42, R46, R47). -/
def State.allocate (s : State) (set : Nat) (port : BitVec 4) (tag : BitVec 20) (time : Time) : State × Listing :=
  let p := s.classify port tag
  if s.ci.held.freeze || !(s.profile p).tracked then s.unlistedArrival port tag
  else
    let way := s.victimWay set
    match s.dispose (flowIndex set way) time with
    | some t => (t.fillWay set way port tag p, .arrival (flowIndex set way))
    | none => (s.allocationFailure port tag).unlistedArrival port tag

/-- FT's part of an ENQUEUE (R35 to R37): read the four ways with their checks, test for a hit, allocate on a copy-0
miss. -/
def State.lookup (s : State) (port : BitVec 4) (tag : BitVec 20) (copy : BitVec 4) (time : Time) : State × Listing :=
  let set := setIndex port tag
  let s := s.checkedAll (setWays set)
  match s.hitWay set port tag with
  | some x =>
    if copy = 0#4 then (s.useWay set x, .arrival (flowIndex set x)) else (s, .copy (flowIndex set x))
  | none =>
    if copy = 0#4 then s.allocate set port tag time else (s, .unlisted (s.classify port tag))

/-! ## Clears and eviction (R50, R132) -/

/-- The entry after a clear: the sixteen counters, worst residence, late run, consecutive misses and ring fault mask
become 0, the dirty flag is set (R132). -/
def FlowEntry.cleared (e : FlowEntry) : FlowEntry :=
  { e with tallies := ⟨[]⟩, worstResidence := 0, lateRun := 0, misses := 0, faultMask := 0#16, dirty := true }

/-- CLEAR_FLOW's effect and result (R132). -/
def State.clearFlow (s : State) (a : Nat) : State × ResultCode :=
  if a < Config.flowCount then
    let s := s.checked a
    if (s.flow a).valid then (s.setFlow a (s.flow a).cleared, .done) else (s, .badArgument)
  else (s, .badArgument)

/-- The entry becomes VACANT with its generation kept and leaves the due list; evictions counts one (R49, R50). -/
def State.evict (s : State) (a : Nat) : State :=
  ((s.leaveDue a).setFlow a (vacantEntry (s.flow a).generation)).count .evictions

/-- EVICT_FLOW's effect and result (R50). -/
def State.evictFlow (s : State) (a : Nat) : State × ResultCode :=
  if a < Config.flowCount then
    let s := s.checked a
    if !(s.flow a).valid then (s, .badArgument)
    else if !(s.flow a).dirty then (s.evict a, .done)
    else if s.ft.retire.length < Config.retireDepth then ((s.retireEntry a .commanded s.now).evict a, .done)
    else (s, .noRoom)
  else (s, .badArgument)

/-- One step of the CLEAR_ALL walk at index i (R134). -/
def State.walkStep (s : State) (i : Nat) : State :=
  let s := s.checked i
  if (s.flow i).valid then s.setFlow i (s.flow i).cleared else s

end Sys2Proof.Machine
end

