-- ==== Sys2Proof/Machine/Sequence.lean ====
section
/-! DEFINITION. Sequence evaluation (chapter 4): classes of arrival, the window shift, confirmed drops, profile
changes. -/

namespace Sys2Proof.Machine

/-- The classes of an evaluated arrival (R61). FILLED and DUPLICATE carry the window position; STALE is split by
whether the arrival lies on an UNAWAITED position or below the window. -/
inductive ArrivalClass where
  | anchor
  | inOrder
  | ahead (d : Nat)
  | jump
  | duplicate
  | filled (k : Nat)
  | staleUnawaited
  | staleBelow
  deriving DecidableEq, Repr

/-- The class of an arrival at window position k (R66). -/
def classAtMark (k : Nat) : Mark → ArrivalClass
  | .received => .duplicate
  | .missing => .filled k
  | .unawaited => .staleUnawaited

/-- The class of an evaluated arrival with sequence s, cases in the order of R61; an arrival below the window anchors
when the stale run reaches K (R67). -/
def arrivalClass (p : Profile) (e : FlowEntry) (s : Nat) : ArrivalClass :=
  let d := signedDiff p.width s e.nextSeq
  if e.reanchor then .anchor
  else if d = 0 then .inOrder
  else if 0 < d then (if d ≤ p.jumpLimit then .ahead d.toNat else .jump)
  else if -(p.window : Int) ≤ d then
    classAtMark (-d - 1).toNat (e.window.getD (-d - 1).toNat .unawaited)
  else if p.staleLimit ≤ e.staleRun + 1 then .anchor
  else .staleBelow

/-- The window after an anchor: position 0 RECEIVED, the others UNAWAITED (R62). -/
def anchoredWindow (size : Nat) : List Mark := .received :: List.replicate (size - 1) .unawaited

/-- The entry after an ANCHOR or a JUMP with sequence s (R62, R65); D becomes absent (R93). -/
def FlowEntry.anchorAt (e : FlowEntry) (p : Profile) (s : Nat) : FlowEntry :=
  { e.bump .anchors 1 with
    nextSeq := (s + 1) % 2 ^ p.width, window := anchoredWindow p.window, reanchor := false, staleRun := 0,
    departed := none, dirty := true }

/-- The window after a shift by n: position 0 RECEIVED, the skipped sequences it still holds MISSING, the old marks n
positions higher (R70). -/
def shiftedWindow (size n : Nat) (window : List Mark) : List Mark :=
  (Mark.received :: List.replicate (min (n - 1) (size - 1)) Mark.missing ++ window).take size

/-- The drops a shift by n confirms: the MISSING marks among the positions that leave, and the sequences that pass
straight through (R71). -/
def shiftDrops (size n : Nat) (window : List Mark) : Nat :=
  ((window.take size).drop (size - min n size)).count .missing + (n - size)

/-- The entry after a shift by n (R70, R71, R73): `drops` are added to gap_drops. -/
def FlowEntry.shift (e : FlowEntry) (p : Profile) (n : Nat) : FlowEntry :=
  let drops := shiftDrops p.window n e.window
  let counted := if drops = 0 then e else (e.bump .gapDrops drops).mark
  { counted with
    nextSeq := (e.nextSeq + n) % 2 ^ p.width, window := shiftedWindow p.window n e.window, staleRun := 0 }

/-- The entry after an evaluated arrival of a class (R62 to R68, R73), accepted counted already. -/
def FlowEntry.arrive (e : FlowEntry) (p : Profile) (s : Nat) : ArrivalClass → FlowEntry
  | .anchor => e.anchorAt p s
  | .jump => e.anchorAt p s
  | .inOrder => (e.bump .inOrder 1).shift p 1
  | .ahead d => ((e.bump .ahead 1).mark).shift p (d + 1)
  | .duplicate => { (e.bump .duplicates 1).mark with staleRun := 0 }
  | .filled k => { (e.bump .reorderedIn 1).mark with window := e.window.set k .received, staleRun := 0 }
  | .staleUnawaited => (e.bump .stale 1).mark
  | .staleBelow => { (e.bump .stale 1).mark with staleRun := e.staleRun + 1 }

/-- The drops that an arrival of a class confirms (R63, R64, R71). -/
def FlowEntry.dropsOf (e : FlowEntry) (p : Profile) : ArrivalClass → Nat
  | .inOrder => shiftDrops p.window 1 e.window
  | .ahead d => shiftDrops p.window (d + 1) e.window
  | .anchor => 0
  | .jump => 0
  | .duplicate => 0
  | .filled _ => 0
  | .staleUnawaited => 0
  | .staleBelow => 0

/-- The sequence of an arrival: the low w bits of the descriptor's field (R56). -/
def arrivalSequence (p : Profile) (field : BitVec 16) : Nat := field.toNat % 2 ^ p.width

/-- The entry after an arrival and the drops it confirms (R56, R57, R61). -/
def FlowEntry.evaluate (e : FlowEntry) (p : Profile) (field : BitVec 16) (valid : Bool) : FlowEntry × Nat :=
  if valid && p.evaluates then
    let s := arrivalSequence p field
    let c := arrivalClass p e s
    ((e.bump .accepted 1).arrive p s c, e.dropsOf p c)
  else ((e.bump .accepted 1).bump .unsequenced 1, 0)

/-- SE's part of an ENQUEUE for a listed copy-0 arrival (R55), with the gap burst test (R74). -/
def State.evaluateArrival (s : State) (i : Nat) (field : BitVec 16) (valid : Bool) : State :=
  let e := s.flow i
  let p := s.profileOf e
  let r := e.evaluate p field valid
  let t := s.setFlow i r.1
  if p.gapThreshold ≠ 0 ∧ p.gapThreshold ≤ r.2 then t.trigger .gapBurst i else t

/-! ## Profile changes (R76 to R79) -/

/-- The window after a change of window size: positions kept from 0, new ones UNAWAITED (R78). -/
def resizedWindow (size : Nat) (window : List Mark) : List Mark :=
  window.take size ++ List.replicate (size - window.length) .unawaited

/-- An entry of the profile after a change of width, window size or sequence evaluation (R76 to R79). -/
def FlowEntry.reprofile (e : FlowEntry) (old new : Profile) : FlowEntry :=
  { e with
    reanchor := true
    nextSeq := if old.width = new.width then e.nextSeq else e.nextSeq % 2 ^ new.width
    window := if old.window = new.window then e.window else resizedWindow new.window e.window }

/-- The profile-change event of profile p (R76): every entry is read with its check, every valid entry of the profile
is moved to a fresh anchor. -/
def State.profileChange (s : State) (p : Nat) (old new : Profile) : State :=
  s.overFlows
    (fun t i => if (t.flow i).profile = p then t.setFlow i ((t.flow i).reprofile old new) else t) s.flowIndexes

end Sys2Proof.Machine
end

