-- ==== Sys2Proof/Machine/Cadence.lean ====
section
/-! DEFINITION. Cadence supervision (chapter 6): re-arms, expiries, silence, period changes. -/

namespace Sys2Proof.Machine

/-- The span of one cycle: (P + tolerance) × 1000 ns (R114, R121). -/
def Profile.span (p : Profile) : Time := ofMicroseconds (p.period + p.tolerance)

/-- A SILENT flow heard from returns to TRACKING: dirty, consecutive misses 0 (R115). -/
def FlowEntry.heard (e : FlowEntry) : FlowEntry :=
  if e.state = .silent then { e with state := .tracking, dirty := true, misses := 0 } else e

/-- CM's part of an ENQUEUE for a listed copy-0 arrival stamped `stamp` (R114, R115). -/
def State.reArm (s : State) (i : Nat) (stamp : Time) : State :=
  let p := s.profileOf (s.flow i)
  let heard := s.setFlow i (s.flow i).heard
  if p.period = 0 then heard
  else (heard.setFlow i { (s.flow i).heard with misses := 0 }).setDue i (stamp + p.span)

/-- An expiry of a flow with due time d counts: RUNNING, SIGHTED, and the whole cycle watched (R121). The sight start is
compared by R110's test as it stands: one that lies 2^47 ns or more before the cycle reads as after it, and the expiry
does not count (DESIGN CHOICE, log 41). -/
def State.expiryCounts (s : State) (p : Profile) (due : Time) : Bool :=
  decide (s.ci.part = .running) && decide (s.oq.coverage = .sighted) && atOrAfter (due - p.span) s.cm.sightStart

/-- The flow becomes SILENT (R120): silences counts, it leaves the due list, SILENCE fires. -/
def State.silence (s : State) (i : Nat) : State :=
  ((s.leaveDue i).setFlow i { (s.flow i).bump .silences 1 with state := .silent, due := none }).trigger .silence i

/-- A counted expiry (R119, R120). -/
def State.countedExpiry (s : State) (i : Nat) (due : Time) : State :=
  let p := s.profileOf (s.flow i)
  let e := { ((s.flow i).bump .cadenceMisses 1).mark with misses := (s.flow i).misses + 1 }
  let t := s.setFlow i e
  if p.silenceLimit ≤ e.misses then t.silence i else t.setDue i (due + ofMicroseconds p.period)

/-- An uncounted expiry re-arms the flow by one period (R122). -/
def State.uncountedExpiry (s : State) (i : Nat) (due : Time) : State :=
  s.setDue i (due + ofMicroseconds (s.profileOf (s.flow i)).period)

/-- Take the expiry of flow i with due time d (R118): the entry is read with its check; a due list entry without a
valid entry is removed without effect (log 29). -/
def State.takeExpiry (s : State) (i : Nat) (due : Time) : State :=
  let s := s.checked i
  if !(s.flow i).valid then s.leaveDue i
  else if s.expiryCounts (s.profileOf (s.flow i)) due then s.countedExpiry i due
  else s.uncountedExpiry i due

/-- The expiry of the head of the due list may be taken (R116): it is due, and no record of the observation queue is
stamped at or before the due time. The conditions are tested on what has been taken so far: at a time base equal to the due
time the expiry may be taken before a transaction of that same nanosecond, and its miss then stands though the stamp is in
time (DESIGN CHOICE, log 40). -/
def State.expiryReady (s : State) (due : Time) : Bool :=
  atOrAfter s.now due &&
    match s.oq.queue with
    | [] => true
    | r :: _ => !atOrAfter due r.stamp

/-- The effect of a period change on one valid entry (R123). -/
def State.periodChangeEntry (s : State) (i : Nat) (old new : Profile) : State :=
  if (s.flow i).state = .tracking then
    if new.period = 0 then (s.leaveDue i).setFlow i { s.flow i with due := none }
    else if old.period = 0 then s.setDue i (s.now + new.span)
    else s
  else s

/-- The period-change event of profile p (R123): every entry is read with its check. -/
def State.periodChange (s : State) (p : Nat) (old new : Profile) : State :=
  s.overFlows (fun t i => if (t.flow i).profile = p then t.periodChangeEntry i old new else t) s.flowIndexes

end Sys2Proof.Machine
end

