-- ==== Sys2Proof/Machine/Transit.lean ====
section
/-! DEFINITION. The transit table (chapter 5): verdicts and crediting, enqueue, dequeue, departure order, completion,
ring resolution. -/

namespace Sys2Proof.Machine

/-- The verdicts (chapter 5); LATE and ON_TIME carry the residence in nanoseconds. -/
inductive Verdict where
  | onTime (residence : Nat)
  | late (residence : Nat)
  | unjudged
  | discarded
  | overrun
  | unresolved
  deriving DecidableEq, Repr

/-! ## Crediting (R99, R101 to R104) -/

/-- The greater of the worst residence and a residence limited to 32 bits (R98). -/
def FlowEntry.worse (e : FlowEntry) (residence : Nat) : Nat := max e.worstResidence (min residence Config.counterMax)

/-- A flow's loss on ring r: the counter, ring r's fault bit, dirty (R101, R104). -/
def FlowEntry.lost (e : FlowEntry) (t : Tally) (r : Nat) : FlowEntry :=
  { (e.bump t 1).mark with faultMask := e.faultMask ||| BitVec.ofNat 16 (2 ^ r) }

/-- The entry after a verdict for a frame on ring r is credited to it (R98, R99, R101). -/
def FlowEntry.credit (e : FlowEntry) (r : Nat) : Verdict → FlowEntry
  | .overrun => e.lost .overruns r
  | .discarded => e.lost .discards r
  | .late x =>
    { (e.bump .lateResidence 1).mark with worstResidence := e.worse x, lateRun := min (e.lateRun + 1) 255 }
  | .onTime x =>
    { e with
      worstResidence := e.worse x
      lateRun := 0
      dirty := e.dirty || decide (e.worse x ≠ e.worstResidence) || decide (e.lateRun ≠ 0) }
  | .unjudged => e
  | .unresolved => (e.bump .unresolved 1).mark

/-- A LATE verdict fires LATE_RUN: it advances the late run to the profile's limit, and the limit is not 0 (R99). -/
def lateRunFires (p : Profile) (e : FlowEntry) : Verdict → Bool
  | .late _ => decide (p.lateLimit ≠ 0) && decide (e.lateRun < 255) && decide (e.lateRun + 1 = p.lateLimit)
  | .onTime _ => false
  | .unjudged => false
  | .discarded => false
  | .overrun => false
  | .unresolved => false

/-- The verdict of an unlisted frame is counted (R103). -/
def State.creditUnlisted (s : State) : Verdict → State
  | .overrun => s.count .unlistedOverruns
  | .discarded => s.count .unlistedDiscards
  | .late _ => s.count .unlistedLate
  | .onTime _ => s
  | .unjudged => s
  | .unresolved => s

/-- The verdict of a frame on ring r is credited to entry i, which holds its generation (R101, R99). -/
def State.creditFlow (s : State) (i r : Nat) (v : Verdict) : State :=
  let e := s.flow i
  let t := s.setFlow i (e.credit r v)
  if lateRunFires (s.profileOf e) e v then t.trigger .lateRun i else t

/-- The entry still holds the occupancy a reference names (R33, R101). -/
def FlowEntry.occupiedBy (e : FlowEntry) (generation : BitVec 8) : Bool :=
  e.valid && decide (e.generation = generation)

/-- A verdict for a frame on ring r is credited: to the flow, as an orphan, or to the unlisted aggregates
(R101 to R103). -/
def State.credit (s : State) (r : Nat) (ref : FlowRef) (v : Verdict) : State :=
  match ref with
  | .unlisted _ => s.creditUnlisted v
  | .listed i g =>
    let s := s.checked i
    if (s.flow i).occupiedBy g then s.creditFlow i r v else s.count .orphanVerdicts

/-! ## Judging (R96, R98) -/

/-- The residence of a frame, modulo 2^48 (R98). -/
def residence (enqueued departure : Time) : Nat := (departure - enqueued).toNat

/-- The residence verdict under a profile on ring r (R96). -/
def Profile.judge (p : Profile) (r x : Nat) : Verdict :=
  if p.watched.getLsbD r then
    if p.budget = 0 then .unjudged else if p.budget < x then .late x else .onTime x
  else .unjudged

/-- A SENT frame is judged and credited (R96). The entry is read with its check before it is judged, and an orphan is
not judged. -/
def State.sent (s : State) (r : Nat) (f : Frame) (departure : Time) : State :=
  if f.uncertain then s.credit r f.ref .unresolved
  else
    match f.ref with
    | .unlisted p => s.credit r f.ref ((s.profile p).judge r (residence f.enqueued departure))
    | .listed i _ =>
      let s := s.checked i
      s.credit r f.ref ((s.profileOf (s.flow i)).judge r (residence f.enqueued departure))

/-! ## Departure order (R92, R93) -/

/-- The entry after a checked departure with the sequence field q (R92). -/
def FlowEntry.depart (e : FlowEntry) (p : Profile) (q : BitVec 16) : FlowEntry :=
  let s := q.toNat % 2 ^ p.width
  match e.departed with
  | none => { e with departed := some s }
  | some d =>
    if 0 < signedDiff p.width s (d % 2 ^ p.width) then { e with departed := some s }
    else (e.bump .reorderedOut 1).mark

/-- The departure-order check of a frame that departs on ring r (R92). Watched rings and evaluation are those of the
flow's profile, so the entry is read, with its check, when the slot allows the check at all. -/
def State.departureCheck (s : State) (r : Nat) (f : Frame) : State :=
  match f.uncertain, f.ref, f.sequence with
  | false, .listed i g, some q =>
    if f.copy = 0#4 then
      let s := s.checked i
      let p := s.profileOf (s.flow i)
      if (s.flow i).occupiedBy g && p.watched.getLsbD r && p.evaluates then s.setFlow i ((s.flow i).depart p q)
      else s
    else s
  | _, _, _ => s

/-! ## Slot events (section 5.2) -/

/-- The flow reference TT receives from FT (R37). -/
def State.refOf (s : State) : Listing → FlowRef
  | .arrival i => .listed i (s.flow i).generation
  | .copy i => .listed i (s.flow i).generation
  | .unlisted p => .unlisted p

/-- A frame as it fills a slot (R87). -/
def newFrame (ref : FlowRef) (copy : BitVec 4) (sequence : BitVec 16) (sequenceValid : Bool) (stamp : Time) : Frame :=
  { ref := ref, copy := copy, sequence := if sequenceValid then some sequence else none, enqueued := stamp,
    uncertain := false }

/-- The frame in slot i of ring r is overwritten while QUEUED (R88, R105). -/
def State.overrun (s : State) (r i : Nat) (f : Frame) : State :=
  if f.uncertain then s.credit r f.ref .unresolved
  else (s.credit r f.ref .overrun).trigger .overrun (slotNumber r i)

/-- The frame already in slot i of ring r, if any, receives its verdict from an ENQUEUE (R87 to R89). -/
def State.displace (s : State) (r i : Nat) : State :=
  match s.slot r i with
  | .empty => s
  | .queued f => s.overrun r i f
  | .departing f _ => s.credit r f.ref .unresolved

/-- TT's part of an ENQUEUE (R87 to R89). -/
def State.fillSlot (s : State) (r i : Nat) (f : Frame) : State := (s.displace r i).setSlot r i (.queued f)

/-- TT's part of a DEQUEUE stamped `stamp` (R90, R91). -/
def State.dequeueSlot (s : State) (r i : Nat) (stamp : Time) : State :=
  match s.slot r i with
  | .empty => s.count .strayDequeues
  | .queued f => (s.setSlot r i (.departing f stamp)).departureCheck r f
  | .departing _ _ => s

/-- The frame of slot i of ring r is reported dropped (R97, R105). -/
def State.discardFrame (s : State) (r i : Nat) (f : Frame) : State :=
  (s.credit r f.ref (if f.uncertain then .unresolved else .discarded)).setSlot r i .empty

/-- TT's part of a COMPLETION with a code (R94 to R97). -/
def State.completeSlot (s : State) (r i : Nat) (code : BitVec 3) (stamp : Time) : State :=
  if code = 0#3 then s
  else
    match s.slot r i with
    | .empty => s.count .strayCompletions
    | .queued f =>
      if code = 1#3 then ((s.departureCheck r f).sent r f stamp).setSlot r i .empty else s.discardFrame r i f
    | .departing f departure =>
      if code = 1#3 then (s.sent r f departure).setSlot r i .empty else s.discardFrame r i f

/-! ## Ring geometry (R84, R85) -/

/-- A slot of a ring whose geometry changes gives its frame UNRESOLVED and is discarded (R84). -/
def State.resolveSlot (s : State) (r i : Nat) : State :=
  match s.slot r i with
  | .empty => s
  | .queued f => (s.credit r f.ref .unresolved).setSlot r i .empty
  | .departing f _ => (s.credit r f.ref .unresolved).setSlot r i .empty

/-- Resolve the slots of a list in order (R84). -/
def State.resolveSlots (s : State) (r : Nat) : List Nat → State
  | [] => s
  | i :: rest => (s.resolveSlot r i).resolveSlots r rest

/-- Every slot that holds a frame is marked uncertain (R24, R105). -/
def Slot.doubted : Slot → Slot
  | .empty => .empty
  | .queued f => .queued { f with uncertain := true }
  | .departing f d => .departing { f with uncertain := true } d

end Sys2Proof.Machine
end

