-- ==== Sys2Proof/Machine/Report.lean ====
section
/-! DEFINITION. The report writer (chapter 8) and the layouts it writes (chapter 10): records, the status block, drains,
injection jobs and their selection, and the end of every event. -/

namespace Sys2Proof.Machine

/-! ## The ring (R147) -/

/-- The consume index C. -/
def State.consume (s : State) : Nat := s.ci.held.consume

/-- The ring is full (R147). -/
def State.ringFull (s : State) : Bool := decide ((s.rw.produce + 1) % Config.reportSlots = s.consume)

/-- The number of unconsumed records (R147). -/
def State.unconsumed (s : State) : Nat :=
  (s.rw.produce + (Config.reportSlots - s.consume % Config.reportSlots)) % Config.reportSlots

/-! ## Record layout (section 10.4, R178) -/

/-- The code of a record type. -/
def RecordType.code : RecordType → Nat
  | .periodic => 1
  | .retire _ => 2
  | .interrogate _ => 3

/-- The cause byte of a record; 0 in PERIODIC and INTERROGATE records (R178). -/
def RecordType.cause : RecordType → Nat
  | .periodic => 0
  | .retire .replaced => 1
  | .retire .commanded => 2
  | .interrogate _ => 0

/-- The command tag of a record; 0 in PERIODIC and RETIRE records (R178). -/
def RecordType.tag : RecordType → Nat
  | .periodic => 0
  | .retire _ => 0
  | .interrogate t => t.toNat

/-- The code of an entry's state (section 10.4). -/
def EntryState.code : EntryState → Nat
  | .vacant => 0
  | .tracking => 1
  | .silent => 2

/-- A bit as a number. -/
def bit (b : Bool) (position : Nat) : Nat := if b then 2 ^ position else 0

/-- An entry of which any counter stands at its ceiling (R128). -/
def FlowEntry.saturated (e : FlowEntry) : Bool := Tally.all.any fun t => decide (e.tally t = Config.counterMax)

/-- The flags byte of a record (section 10.4). -/
def FlowEntry.flags (e : FlowEntry) : Nat :=
  bit e.saturated 0 + bit e.reanchor 1 + bit e.departed.isSome 2 + bit e.due.isSome 3

/-- The positions of a window that bear a mark, as bits from position k on (section 10.4). -/
def markBits (m : Mark) (k : Nat) : List Mark → Nat
  | [] => 0
  | x :: rest => bit (decide (x = m)) k + markBits m (k + 1) rest

/-- The 128 bytes of a record (section 10.4); positions without a field are 0 (R178). -/
def ReportRecord.bytes (x : ReportRecord) : List Byte :=
  bytesOfNat 1 x.type.code ++ bytesOfNat 1 x.entry.state.code ++ bytesOfNat 1 x.entry.flags
  ++ bytesOfNat 1 x.type.cause ++ bytesOfNat 2 x.index ++ bytesOfNat 1 x.entry.generation.toNat
  ++ bytesOfNat 1 x.entry.profile ++ bytesOfNat 4 (x.entry.tag.toNat + x.entry.port.toNat * 2 ^ 20)
  ++ bytesOfNat 2 x.drainNumber.toNat ++ bytesOfNat 1 x.type.tag ++ bytesOfNat 1 0
  ++ bytesOfNat 6 x.time.toNat ++ bytesOfNat 10 0
  ++ Tally.all.flatMap (fun t => bytesOfNat 4 (x.entry.tally t))
  ++ bytesOfNat 2 x.entry.nextSeq ++ bytesOfNat 1 x.entry.staleRun ++ bytesOfNat 1 x.entry.window.length
  ++ bytesOfNat 4 (markBits .received 0 x.entry.window) ++ bytesOfNat 4 (markBits .missing 0 x.entry.window)
  ++ bytesOfNat 2 (x.entry.departed.getD 0) ++ bytesOfNat 1 x.entry.misses ++ bytesOfNat 1 x.entry.lateRun
  ++ bytesOfNat 4 x.entry.worstResidence ++ bytesOfNat 2 x.entry.faultMask.toNat ++ bytesOfNat 2 0
  ++ bytesOfNat 6 ((x.entry.due.getD 0#48).toNat) ++ bytesOfNat 2 0

/-! ## Status block layout (section 10.3, R178) -/

/-- The code of the part state (section 10.3). No STATUS job is gathered in OFFLINE. -/
def PartState.code : PartState → Nat
  | .offline => 0
  | .loading => 1
  | .running => 2

/-- The code of coverage (section 10.3). -/
def Coverage.code : Coverage → Nat
  | .sighted => 0
  | .blind => 1
  | .paused => 2

/-- The code of the drain state (section 10.3). -/
def DrainState.code : DrainState → Nat
  | .idle => 0
  | .draining => 1
  | .stalled => 2

/-- The code of a result (section 10.3). -/
def ResultCode.code : ResultCode → Nat
  | .done => 1
  | .clamped => 2
  | .busy => 3
  | .unknown => 4
  | .badArgument => 5
  | .noRoom => 6

/-- The word of an alarm kind (section 10.3). -/
def State.alarmBytes (s : State) (k : AlarmKind) : List Byte :=
  bytesOfNat 4 (s.alarm k).first.toNat ++ bytesOfNat 2 (s.alarm k).occurrences
  ++ bytesOfNat 1 (bit (s.alarmOn k) 0 + bit (s.alarm k).held 1 + bit (s.alarm k).raised 2) ++ bytesOfNat 1 0

/-- The last result's tag and code, 0 while it is empty (R168, R178). -/
def resultBytes (r : Option MailboxResult) : List Byte :=
  match r with
  | none => bytesOfNat 2 0
  | some r => bytesOfNat 1 r.tag.toNat ++ bytesOfNat 1 r.code.code

/-- The last result's completion time, 0 while it is empty. -/
def resultTime (r : Option MailboxResult) : Nat :=
  match r with
  | none => 0
  | some r => r.time.toNat

/-- The last-clamp record, 0 while it is empty (section 10.3, R178). -/
def clampBytes (r : Option ClampRecord) : List Byte :=
  match r with
  | none => bytesOfNat 24 0
  | some r =>
    bytesOfNat 2 r.offset ++ bytesOfNat 1 r.field ++ bytesOfNat 1 1 ++ bytesOfNat 4 0
    ++ bytesOfNat 4 r.written ++ bytesOfNat 4 r.held ++ bytesOfNat 6 r.time.toNat ++ bytesOfNat 2 0

/-- The number of the alert record's kind, 0 for NONE (section 10.3). -/
def alertNumber (k : Option AlarmKind) : Nat :=
  match k with
  | none => 0
  | some k => k.priority

/-- The 256 bytes of the status block as gathered (R151, section 10.3). -/
def State.statusBytes (s : State) : List Byte :=
  bytesOfNat 6 s.now.toNat ++ bytesOfNat 1 s.ci.part.code ++ bytesOfNat 1 s.oq.coverage.code
  ++ bytesOfNat 8 s.rw.produce
  ++ bytesOfNat 2 s.consume ++ bytesOfNat 2 s.dirtyCount ++ bytesOfNat 1 s.ft.retire.length
  ++ bytesOfNat 1 s.rw.drain.code ++ bytesOfNat 1 (bit s.rw.drainOwed 0) ++ bytesOfNat 1 0
  ++ bytesOfNat 2 s.rw.drainNumber.toNat ++ resultBytes s.ci.lastResult ++ bytesOfNat 4 0
  ++ bytesOfNat 8 (resultTime s.ci.lastResult)
  ++ Aggregate.all.flatMap (fun a => bytesOfNat 4 (s.agg a))
  ++ AlarmKind.all.flatMap s.alarmBytes
  ++ bytesOfNat 4 (alertNumber s.tau.alertKind) ++ bytesOfNat 4 s.tau.alertValue.toNat
  ++ clampBytes s.ci.lastClamp
  ++ bytesOfNat 48 0
  ++ bytesOfNat 8 s.now.toNat

/-! ## Jobs (R149 to R151, R171) -/

/-- The link address of a control offset. -/
def State.controlAddress (s : State) (offset : Nat) : Addr := BitVec.ofNat 27 (s.controlBase + offset)

/-- The burst writes of `n` blocks from a control offset. -/
def State.burstWrites (s : State) (offset : Nat) : Nat → List Byte → List Transaction
  | 0, _ => []
  | n + 1, bytes =>
    .burstWrite (s.controlAddress offset) (wordOfBytes (bytes.take 8)) (wordOfBytes ((bytes.drop 8).take 8))
      (wordOfBytes ((bytes.drop 16).take 8)) (wordOfBytes ((bytes.drop 24).take 8))
    :: s.burstWrites (offset + 32) n (bytes.drop 32)

/-- The transactions of a record job (R150): four burst writes into slot P, then the produce word. -/
def State.recordJob (s : State) (x : ReportRecord) : List Transaction :=
  s.burstWrites (0x1000 + 128 * s.rw.produce) 4 x.bytes
  ++ [.singleWrite (s.controlAddress 0x808) (BitVec.ofNat 64 ((s.rw.produce + 1) % Config.reportSlots)) 255#8]

/-- The transactions of the STATUS job (R151). -/
def State.statusJob (s : State) : List Transaction := s.burstWrites 0x800 8 s.statusBytes

/-- The burst reads of `n` blocks from a control offset. -/
def State.burstReads (s : State) (offset : Nat) : Nat → List Transaction
  | 0 => []
  | n + 1 => .burstRead (s.controlAddress offset) 0#2 :: s.burstReads (offset + 32) n

/-- The 35 transactions of the LOAD job, in order (R171). -/
def State.loadJob (s : State) : List Transaction :=
  s.burstReads 0 1 ++ s.burstReads 0x100 8 ++ s.burstReads 0x200 16 ++ s.burstReads 0x400 8
  ++ [.singleRead (s.controlAddress 0x80), .singleRead (s.controlAddress 0)]

/-- A job becomes the current one, its first transaction waiting (R6, R149). -/
def State.startJob (s : State) (kind : JobKind) (todo : List Transaction) : State :=
  s.onRw fun w => { w with job := some { kind := kind, todo := todo, started := false } }

/-! ## Drains (R152 to R155) -/

/-- A drain starts (R153). -/
def State.startDrain (s : State) : State :=
  s.onRw fun w =>
    { w with
      drainNumber := w.drainNumber + 1, budget := s.dirtyCount, built := 0, written := [], intervalBase := s.now,
      intervalFired := false, drainOwed := false, drain := .draining }

/-- A drain trigger: a drain starts in IDLE, else one is owed (R152). -/
def State.triggerDrain (s : State) : State :=
  match s.rw.drain with
  | .idle => s.startDrain
  | .draining => s.onRw fun w => { w with drainOwed := true }
  | .stalled => s.onRw fun w => { w with drainOwed := true }

/-- The dirty count stands at or above a non-zero dirty threshold (R152). -/
def State.thresholdReached (s : State) : Bool :=
  decide (s.ci.held.dirtyThreshold ≠ 0) && decide (s.ci.held.dirtyThreshold ≤ s.dirtyCount)

/-- The report interval timer expires (R152): its fired flag is set and a drain is triggered. -/
def State.expireTimer (s : State) : State := (s.onRw fun w => { w with intervalFired := true }).triggerDrain

/-- The report interval timer stands to expire: it runs (in RUNNING), the interval is not 0, its fired flag is clear, and
the interval has passed since its base (R152, R161, log 25), by R110's test as it stands (log 41). -/
def State.intervalPassed (s : State) : Bool :=
  decide (s.ci.part = .running) && decide (s.ci.held.interval ≠ 0) && !s.rw.intervalFired
    && atOrAfter s.now (s.rw.intervalBase + ofMilliseconds s.ci.held.interval)

/-- The drain state becomes IDLE; a new drain starts if one is owed or the dirty threshold is reached (R148, R155). -/
def State.drainIdle (s : State) : State :=
  let s := s.onRw fun w => { w with drain := .idle }
  if s.rw.drainOwed || s.thresholdReached then s.startDrain else s

/-- The drain ends (R155). -/
def State.endDrain (s : State) : State := s.requestStatus.drainIdle

/-- The drain stalls on a full ring (R155). -/
def State.stallDrain (s : State) : State :=
  (((s.onRw fun w => { w with drain := .stalled }).count .reportStalls).trigger .reportFull s.rw.produce).requestStatus

/-- A flow is eligible for the drain in progress: valid, dirty, and not in the written set (R154). -/
def State.drainEligible (s : State) (i : Nat) : Bool :=
  (s.flow i).valid && (s.flow i).dirty && !s.rw.written.contains (i, (s.flow i).generation)

/-- Of two flows the second is taken before the first only with a higher report priority (R154). -/
def State.betterFlow (s : State) (best : Option Nat) (i : Nat) : Option Nat :=
  match best with
  | none => some i
  | some b => if (s.profileOf (s.flow b)).priority < (s.profileOf (s.flow i)).priority then some i else some b

/-- The eligible flow of highest report priority, the lowest flow index among equals (R154). -/
def State.drainChoice (s : State) : Option Nat :=
  (s.flowIndexes.filter s.drainEligible).foldl s.betterFlow none

/-- Choose the next flow of a drain, faulting on the way the chosen entries that fail their check (R154). -/
def State.drainPick (s : State) : Nat → State × Option Nat
  | 0 => (s, none)
  | n + 1 =>
    match s.drainChoice with
    | none => (s, none)
    | some i => if (s.flow i).checkOk then (s, some i) else (s.entryFault i).drainPick n

/-- Build the PERIODIC record of flow i and start its job (R154, R160). -/
def State.drainBuild (s : State) (i : Nat) : State :=
  let e := s.flow i
  let x : ReportRecord :=
    { type := .periodic, index := i, entry := e, drainNumber := s.rw.drainNumber, time := s.now }
  ((s.setFlow i { e with dirty := false }).onRw fun w =>
    { w with built := w.built + 1, written := w.written ++ [(i, e.generation)] }).startJob .drain (s.recordJob x)

/-- A drain step (R154): the end, a stall, or the record of the next flow. -/
def State.drainStep (s : State) : State :=
  if s.rw.built = s.rw.budget then s.endDrain
  else if s.ringFull then s.stallDrain
  else
    match s.drainPick (s.flowIndexes.length + 1) with
    | (t, none) => t.endDrain
    | (t, some i) => t.drainBuild i

/-! ## Selection (R149) -/

/-- The LOAD job is eligible: a load's reads are not yet issued (R149). -/
def State.loadEligible (s : State) : Bool :=
  match s.ci.load with
  | none => false
  | some l => !l.issued

/-- The STATUS job is selected: the request is cleared and the block gathered (R151). -/
def State.selectStatus (s : State) : State :=
  let s := s.onRw fun w => { w with statusPending := false }
  s.startJob .status s.statusJob

/-- The LOAD job is selected (R149, R171). -/
def State.selectLoad (s : State) : State :=
  (s.onCi fun c => { c with load := c.load.map fun l => { l with issued := true } }).startJob .load s.loadJob

/-- The tag of the command in flight. -/
def State.inFlightTag (s : State) : BitVec 8 :=
  match s.ci.inFlight with
  | none => 0#8
  | some c => c.2

/-- INTERROGATE is selected: NO_ROOM on a full ring, else its record job (R159). -/
def State.selectInterrogate (s : State) (x : ReportRecord) : State :=
  let t := s.onRw fun w => { w with interrogate := none }
  if s.ringFull then t.finishCommand s.inFlightTag .noRoom else t.startJob .interrogate (s.recordJob x)

/-- One selection over the eligible kinds, highest priority first (R149). -/
def State.selectOnce (s : State) : State :=
  if s.loadEligible then s.selectLoad
  else if s.rw.statusPending then s.selectStatus
  else
    match s.rw.interrogate with
    | some x => s.selectInterrogate x
    | none =>
      match s.ft.retire with
      | x :: _ =>
        if !s.ringFull then s.startJob .retire (s.recordJob x)
        else if s.rw.drain = .draining then s.drainStep.refreshAlert
        else s
      | [] => if s.rw.drain = .draining then s.drainStep.refreshAlert else s

/-- Selection, made afresh after one that produces no job (R149). A selection without a job requests STATUS, so the next
one finds a job, and three rounds are enough. -/
def State.selectRounds (s : State) : Nat → State
  | 0 => s
  | n + 1 => if s.rw.job.isSome then s else s.selectOnce.selectRounds n

/-- RW selects the next injection job if none is current (R149). -/
def State.select (s : State) : State := s.selectRounds 3

/-! ## The end of an event -/

/-- The dirty threshold is tested in every event that raises the dirty count (R152), once, after the event's own effects
(log 11): reached, it triggers a drain, which a drain that started earlier in the event turns into one owed. -/
def State.testThreshold (s before : State) : State :=
  if before.dirtyCount < s.dirtyCount ∧ s.thresholdReached = true then s.triggerDrain else s

/-- The end of every event, `before` being the state the event began in, or, for a control write or a load read, the
state its settings left (log 10, log 11): the return to SIGHTED (R26), the alert
record (R143), the dirty threshold (R152), job selection (R149). -/
def State.settle (s before : State) : State :=
  ((s.returnToSighted.refreshAlert).testThreshold before).select

end Sys2Proof.Machine
end

