-- ==== Sys2Proof/Machine/Observation.lean ====
section
/-! DEFINITION. Observations and coverage (chapter 2): decoding, admission, loss, reloads, the sweep, hand-out, and the
meanings of the ring hand-outs, the sweep, the expiry and the interval timer. -/

namespace Sys2Proof.Machine

/-! ## Decoding (R14 to R16, R176) -/

/-- An address lies in ring r's window (R14). -/
def RingGeometry.covers (g : RingGeometry) (a : Nat) : Bool :=
  g.enabled && decide (g.base.toNat ≤ a) && decide (a < g.base.toNat + 32 * g.slots)

/-- The ring and slot an address lies in, if any (R14, R20). -/
def State.findSlot (s : State) (a : Addr) : Option (Nat × Nat) :=
  match (List.range 16).find? fun r => (s.ring r).covers a.toNat with
  | some r => some (r, (a.toNat - (s.ring r).base.toNat) / 32)
  | none => none

/-- The shapes of a ring window (R15, R176). -/
def ringShape : Transaction → Option ObservationBody
  | .burstWrite _ w _ _ _ =>
    some (.enqueue (w.extractLsb' 20 4) (w.extractLsb' 0 20) (w.extractLsb' 24 4) (w.extractLsb' 32 16)
      (w.getLsbD 48))
  | .burstRead _ _ => some .dequeue
  | .singleRead a => if a.toNat % 32 = 8 then some .dequeue else none
  | .singleWrite a w m => if a.toNat % 32 = 24 ∧ m.getLsbD 0 = true then some (.completion (w.extractLsb' 0 3)) else none

/-- The shapes of the control window, at a control offset (R16). -/
def controlShape (offset : Nat) : Transaction → Option ObservationBody
  | .burstWrite _ w0 w1 w2 w3 => some (.controlWrite offset [w0, w1, w2, w3] [255#8, 255#8, 255#8, 255#8])
  | .singleWrite _ w m => if m = 0#8 then none else some (.controlWrite offset [w] [m])
  | .singleRead _ => none
  | .burstRead _ _ => none

/-- An address lies in the control window (R14). -/
def State.inControlWindow (s : State) (a : Nat) : Bool :=
  decide (s.controlBase ≤ a) && decide (a < s.controlBase + 0x500)

/-- What a taken transaction is, with its ring for a ring observation (R14 to R16). -/
def State.decode (s : State) (t : Transaction) : Option (ObservationBody × Option Nat) :=
  match s.findSlot t.address with
  | some (r, _) => (ringShape t).map fun b => (b, some r)
  | none =>
    if s.inControlWindow t.address.toNat then
      (controlShape (t.address.toNat - s.controlBase) t).map fun b => (b, none)
    else none

/-! ## Admission and loss (R17, R21, R22) -/

/-- A CONTROL_WRITE observation. -/
def ObservationBody.isControl : ObservationBody → Bool
  | .enqueue _ _ _ _ _ => false
  | .dequeue => false
  | .completion _ => false
  | .controlWrite _ _ _ => true

/-- The kinds admitted in a part state and coverage (R17). -/
def State.admits (s : State) (b : ObservationBody) : Bool :=
  match s.ci.part with
  | .offline => false
  | .loading => b.isControl
  | .running =>
    match s.oq.coverage with
    | .paused => b.isControl
    | .sighted => true
    | .blind => true

/-- The control offsets and bytes a control write names (R16, R163). -/
def ObservationBody.named : ObservationBody → List (Nat × Byte)
  | .controlWrite o data lanes => maskedBytes o data lanes
  | .enqueue _ _ _ _ _ => []
  | .dequeue => []
  | .completion _ => []

/-- An observation joins the queue, marked follows-loss if the loss mark is set, which clears the mark (R18, R22). -/
def State.enqueueRecord (s : State) (b : ObservationBody) (ring : Option Nat) (a : Addr) (place : Nat) : State :=
  s.onOq fun q =>
    { q with
      queue := q.queue ++
        [{ body := b, stamp := s.now, followsLoss := q.lossMark, address := a, ring := ring, place := place }]
      lossMark := false }

/-- The counts of a loss (R21). -/
def State.countLoss (s : State) (b : ObservationBody) : State :=
  let s := s.count .lostObservations
  if b.named.any fun c => decide (c.1 < 8) then s.count .lostCommands else s

/-- An observation is lost (R21). -/
def State.lose (s : State) (b : ObservationBody) (a : Addr) : State :=
  let s := (s.countLoss b).onOq fun q =>
    { q with
      reloadOwed := q.reloadOwed || b.named.any fun c => decide (8 ≤ c.1)
      lossMark := true
      firstLost := some (q.firstLost.getD a) }
  if s.ci.part = .running ∧ s.oq.coverage = .sighted then s.goBlind a else s

/-- The decoder examines a taken transaction, whose place in memory-side order is `place` (R14 to R17, R21). -/
def State.observe (s : State) (t : Transaction) (place : Nat) : State :=
  match s.decode t with
  | none => s
  | some (b, ring) =>
    if !s.admits b then s
    else if s.oq.queue.length < Config.queueDepth then s.enqueueRecord b ring t.address place
    else s.lose b t.address

/-! ## Loads (R171, R174) -/

/-- A load begins; its LOAD job becomes eligible (R171). -/
def State.beginLoad (s : State) (kind : LoadKind) : State :=
  s.onCi fun c => { c with load := some { kind := kind, issued := false }, loadReads := [] }

/-- The origin of a waiting reload after a further request (R174). -/
def mergeOrigin : Option ReloadOrigin → ReloadOrigin → ReloadOrigin
  | some .command, _ => .command
  | some .sweep, o => o
  | none, o => o

/-- A reload starts, counting config_reloads, or waits while a load is in progress (R174). -/
def State.requestReload (s : State) (origin : ReloadOrigin) : State :=
  match s.ci.load with
  | none => (s.count .configReloads).beginLoad (.reload origin)
  | some _ => s.onCi fun c => { c with reloadWaiting := some (mergeOrigin c.reloadWaiting origin) }

/-! ## The sweep (R24) -/

/-- The sweep's effect on a valid entry (R24). -/
def FlowEntry.swept (e : FlowEntry) : FlowEntry := { e with reanchor := true, staleRun := 0 }

/-- The coverage sweep (R24): entries re-anchor, occupied slots become uncertain, an owed reload starts, the loss mark
and the first-lost address are cleared. -/
def State.sweep (s : State) : State :=
  let s := s.overFlows (fun t i => t.setFlow i (t.flow i).swept) s.flowIndexes
  let s := s.onTt fun t => t.update .empty fun _ x => x.doubted
  let owed := s.oq.reloadOwed
  let s := s.onOq fun q => { q with lossMark := false, firstLost := none, reloadOwed := false }
  if owed then s.requestReload .sweep else s

/-- The sweep R24 places ahead of the head record is due: the record follows a loss and its sweep has not run. -/
def State.headSweepDue (s : State) : Bool :=
  match s.oq.queue with
  | [] => false
  | r :: _ => r.followsLoss && !s.oq.headSwept

/-- The sweep of an empty queue with the loss mark set is due (R24). -/
def State.emptySweepDue (s : State) : Bool := s.oq.queue.isEmpty && s.oq.lossMark

/-! ## Hand-out (R18, R20, R172) -/

/-- The places of the load reads taken and not yet applied: those returned, and one on the return direction (R172). -/
def State.loadPlaces (s : State) : List Nat :=
  s.ci.loadReads.map LoadRead.place ++
    match s.fp.ret with
    | none => []
    | some r => if r.owner = .job then [r.place] else []

/-- The record that may be handed out now: the head, once its sweep has run, if no load read taken before it is still
unapplied (R18, R24, R172). -/
def State.headReady (s : State) : Option Observation :=
  match s.oq.queue with
  | [] => none
  | r :: _ =>
    if s.headSweepDue then none
    else if s.loadPlaces.any fun p => decide (p < r.place) then none
    else some r

/-- The head record leaves the queue (R18). -/
def State.popHead (s : State) : State := s.onOq fun q => { q with queue := q.queue.tail, headSwept := false }

/-! ## Meanings -/

/-- ENQUEUE (R35): the head record, an ENQUEUE whose address still lies in a ring window, passes through FT, then SE and
CM for a listed copy 0, and last TT (R18, R20, R37, R55, R114, R87). -/
def State.takeEnqueue (s : State) (o : Observation) (ring slot : Nat) (port : BitVec 4) (tag : BitVec 20)
    (copy : BitVec 4) (sequence : BitVec 16) (valid : Bool) : State :=
  let r := s.lookup port tag copy o.stamp
  let t :=
    match r.2 with
    | .arrival i => (r.1.evaluateArrival i sequence valid).reArm i o.stamp
    | .copy _ => r.1
    | .unlisted _ => r.1
  t.fillSlot ring slot (newFrame (t.refOf r.2) copy sequence valid o.stamp)

/-- ENQUEUE (R35). -/
def execEnqueue (s : State) : Host.Outcome State Fault Refusal :=
  match s.headReady with
  | some o =>
    match o.body, s.findSlot o.address with
    | .enqueue port tag copy sequence valid, some (r, i) =>
      .next ((s.popHead.takeEnqueue o r i port tag copy sequence valid).settle s)
    | _, _ => .next s
  | none => .next s

/-- DEQUEUE (R90, R91). -/
def execDequeue (s : State) : Host.Outcome State Fault Refusal :=
  match s.headReady with
  | some o =>
    match o.body, s.findSlot o.address with
    | .dequeue, some (r, i) => .next ((s.popHead.dequeueSlot r i o.stamp).settle s)
    | _, _ => .next s
  | none => .next s

/-- COMPLETION (R94 to R97). -/
def execCompletion (s : State) : Host.Outcome State Fault Refusal :=
  match s.headReady with
  | some o =>
    match o.body, s.findSlot o.address with
    | .completion code, some (r, i) => .next ((s.popHead.completeSlot r i code o.stamp).settle s)
    | _, _ => .next s
  | none => .next s

/-- DISCARD_AT_HEAD (R20): a ring observation whose address lies in no ring window any more is discarded. -/
def execDiscardAtHead (s : State) : Host.Outcome State Fault Refusal :=
  match s.headReady with
  | some o =>
    if !o.body.isControl && (s.findSlot o.address).isNone then .next (s.popHead.settle s) else .next s
  | none => .next s

/-- COVERAGE_SWEEP (R24): ahead of a head record that follows a loss, or on an empty queue with the loss mark set. Only the
hand-out of that head waits for it: a taken transaction, an expiry, a load read's application and every other event may
come between the moment a sweep is due and the sweep (DESIGN CHOICE, log 42). -/
def execCoverageSweep (s : State) : Host.Outcome State Fault Refusal :=
  if s.headSweepDue then .next ((s.sweep.onOq fun q => { q with headSwept := true }).settle s)
  else if s.emptySweepDue then .next (s.sweep.settle s)
  else .next s

/-- EXPIRY (R116 to R122): the expiry of the head of the due list is taken. -/
def execExpiry (s : State) : Host.Outcome State Fault Refusal :=
  match s.dueHead with
  | some (i, due) => if s.expiryReady due then .next ((s.takeExpiry i due).settle s) else .next s
  | none => .next s

/-- INTERVAL_TIMER_EXPIRY (R152): the fired flag is set and a drain is triggered. -/
def execIntervalTimerExpiry (s : State) : Host.Outcome State Fault Refusal :=
  if s.intervalPassed then .next (s.expireTimer.settle s) else .next s

end Sys2Proof.Machine
end

