-- ==== Sys2Proof/Machine/Reset.lean ====
section
/-! DEFINITION. The two resets (R11 to R13, R27, R53, R54, R107, R108, R126, R145, R146, R161, R162, R175): the RESET_N
pin and the RESTART command's effect on every block. -/

namespace Sys2Proof.Machine

/-- A started injected transaction stays on the request direction with its notice suppressed (R11, R13). -/
def Request.suppressed : Request → Request
  | .forwarded t => .forwarded t
  | .injected t _ => .injected t false

/-- An injected read on the return direction has its data received and discarded (R11, R13). -/
def ReturnRead.suppressed (r : ReturnRead) : ReturnRead :=
  match r.owner with
  | .switchSide => r
  | .job => { r with owner := .dropped }
  | .dropped => r

/-- FP at either reset: forwarding goes on, started injected transactions complete without a notice, the starvation
count becomes 0 (R11, R13). While RESET_N is asserted again the straps sampled last stand until the next release samples
them afresh: R12 gives their value no further than the next assertion (DESIGN CHOICE, log 39). -/
def ForwardingPath.resetPath (f : ForwardingPath) : ForwardingPath :=
  { f with request := f.request.map Request.suppressed, ret := f.ret.map ReturnRead.suppressed, starvation := 0 }

/-- RESET_N is asserted: every block takes its reset values, FP goes on forwarding, SRAM keeps its contents (R11). -/
def State.assertReset (s : State) : State :=
  { s with
    fp := s.fp.resetPath, oq := ObservationQueue.atReset, ft := FlowTable.atReset, tt := ⟨[]⟩,
    cm := CadenceMonitor.atReset, tau := TallyUnit.atReset, rw := ReportWriter.atReset, ci := ControlInterface.atReset }

/-- RESET_N_ASSERTED (R11). -/
def execResetNAsserted (s : State) : Host.Outcome State Fault Refusal := .next s.assertReset

/-- RESET_N is released: the straps are sampled, the time base starts from 0, the starvation count is 0, the part is
LOADING with an INITIAL load (R12, R170, R171). -/
def State.releaseReset (s : State) (straps : BitVec 4) : State :=
  (((s.onFp fun f => { f with straps := straps, starvation := 0 }).onCm fun c => { c with timeBase := 0#48 }).onCi
    fun c => { c with part := .loading }).beginLoad .initial

/-- RESET_N_RELEASED (R12): only in OFFLINE is there a release. -/
def execResetNReleased (straps : BitVec 4) (s : State) : Host.Outcome State Fault Refusal :=
  if s.ci.part = .offline then .next ((s.releaseReset straps).settle s) else .next s

/-- OQ at RESTART (R27). -/
def ObservationQueue.restart (_ : ObservationQueue) : ObservationQueue := ObservationQueue.atReset

/-- FT at RESTART (R54). -/
def FlowTable.restart (_ : FlowTable) : FlowTable := FlowTable.atReset

/-- CM at RESTART: the due list is emptied, the time base runs on, the sight start is kept (R126). -/
def CadenceMonitor.restart (c : CadenceMonitor) : CadenceMonitor := { c with due := ⟨[]⟩ }

/-- TAU at RESTART; ON belongs to the held settings and is kept (R146). -/
def TallyUnit.restart (_ : TallyUnit) : TallyUnit := TallyUnit.atReset

/-- RW at RESTART: P is kept, everything else of the drain, the STATUS request and the jobs goes (R162, log 21). -/
def ReportWriter.restart (w : ReportWriter) : ReportWriter :=
  { w with
    drain := .idle, drainNumber := 0#16, budget := 0, built := 0, written := [], drainOwed := false,
    intervalFired := false, statusPending := false, interrogate := none, job := none }

/-- CI at RESTART: LOADING, the command in flight, the load in progress dropped (R175). -/
def ControlInterface.restart (c : ControlInterface) (tag : BitVec 8) : ControlInterface :=
  { c with
    part := .loading, inFlight := some (.restart, tag), load := none, loadReads := [], reloadWaiting := none }

/-- RESTART is taken with a tag (R13, R175): every block takes its restart values and an INITIAL load begins. -/
def State.restart (s : State) (tag : BitVec 8) : State :=
  { s with
    fp := s.fp.resetPath, oq := s.oq.restart, ft := s.ft.restart, tt := ⟨[]⟩, cm := s.cm.restart,
    tau := s.tau.restart, rw := s.rw.restart, ci := s.ci.restart tag }.beginLoad .initial

end Sys2Proof.Machine
end

