-- ==== Sys2Proof/Machine/Control.lean ====
section
/-! DEFINITION. The control interface (chapter 9): applying control writes and load reads, clamps and effects, the
mailbox, and the end of a load. -/

namespace Sys2Proof.Machine

/-! ## Named bytes -/

/-- Whether an application names any of the `n` bytes from a control offset. -/
def names (bytes : List (Nat × Byte)) (o n : Nat) : Bool := bytes.any fun b => decide (o ≤ b.1) && decide (b.1 < o + n)

/-- Merge bytes into the control image (R163). -/
def State.merge (s : State) (bytes : List (Nat × Byte)) : State :=
  s.onCi fun c => { c with image := writeBytes c.image 0#8 bytes }

/-- Bit `b` of the control image's byte at an offset. -/
def State.imageBit (s : State) (o b : Nat) : Bool := (s.imageByte o).getLsbD b

/-! ## Globals (R166) -/

/-- A change of monitoring enable acts on coverage in RUNNING (R23, R166). -/
def State.monitoringEffect (s : State) (enabled : Bool) : State :=
  if s.ci.part = .running then
    if enabled then (if s.oq.coverage = .paused then s.sweep.setCoverage .sighted else s)
    else (if s.oq.coverage = .paused then s else s.setCoverage .paused)
  else s

/-- Monitoring enable is applied (R23). -/
def State.applyMonitoring (s : State) : State :=
  let v := s.imageBit 8 0
  if v = s.ci.held.monitoring then s else (s.onHeld fun h => { h with monitoring := v }).monitoringEffect v

/-- Freeze is applied (R47). -/
def State.applyFreeze (s : State) : State := s.onHeld fun h => { h with freeze := s.imageBit 8 1 }

/-- The pin count is applied, above 3 held as 3 (R45, R164). -/
def State.applyPinCount (s : State) : State :=
  let v := s.imageField 9 1
  (s.onHeld fun h => { h with pinCount := min v 3 }).noteClamp 9 1 v (min v 3)

/-- The alarm ON mask is applied: a kind whose bit is cleared is no longer RAISED (R142). -/
def State.applyAlarmOn (s : State) : State :=
  let new := s.imageByte 10
  let old := s.ci.held.alarmOn
  (s.onHeld fun h => { h with alarmOn := new }).onMasked (old &&& ~~~new) (fun row => { row with raised := false })
    AlarmKind.all

/-- The report interval is applied; one that changes acts at once against the held base, and expires in this event if its
time has passed (R152, R166). -/
def State.applyInterval (s : State) : State :=
  let v := s.imageField 12 2
  if v = s.ci.held.interval then s
  else
    let t := s.onHeld fun h => { h with interval := v }
    if t.intervalPassed then t.expireTimer else t

/-- The dirty threshold is applied, above 1024 held as 1024 (R164); one that changes is tested at once (R152, R166). -/
def State.applyThreshold (s : State) : State :=
  let v := s.imageField 14 2
  let t := (s.onHeld fun h => { h with dirtyThreshold := min v 1024 }).noteClamp 14 2 v (min v 1024)
  if s.ci.held.dirtyThreshold ≠ min v 1024 ∧ t.thresholdReached = true then t.triggerDrain else t

/-- Apply the globals that an application names, in ascending offset order (R163, R166). -/
def State.applyGlobals (s : State) (bytes : List (Nat × Byte)) : State :=
  let s := if names bytes 8 1 then s.applyMonitoring.applyFreeze else s
  let s := if names bytes 9 1 then s.applyPinCount else s
  let s := if names bytes 10 1 then s.applyAlarmOn else s
  let s := if names bytes 12 2 then s.applyInterval else s
  if names bytes 14 2 then s.applyThreshold else s

/-! ## The consume index (R148) -/

/-- A new consume index acts on a stalled drain (R148). -/
def State.consumeEffect (s : State) : State :=
  if s.rw.drain = .stalled ∧ s.ringFull = false then s.drainIdle else s

/-- The consume index is applied: 480 and above leave C as held and count as a clamp (R148, R164). -/
def State.applyConsume (s : State) (bytes : List (Nat × Byte)) : State :=
  if names bytes 0x80 2 then
    let v := s.imageField 0x80 2
    if v < Config.reportSlots then
      if v = s.consume then s else (s.onHeld fun h => { h with consume := v }).consumeEffect
    else s.noteClamp 0x80 3 v s.consume
  else s

/-! ## Ring geometry (R165) -/

/-- The control offset of ring r's entry. -/
def ringOffset (r : Nat) : Nat := 0x100 + 16 * r

/-- The written base of ring r: bits 0 to 26 (R177). -/
def State.writtenBase (s : State) (r : Nat) : Nat := s.imageField (ringOffset r) 4 % 2 ^ 27

/-- The written slot count of ring r. -/
def State.writtenSlots (s : State) (r : Nat) : Nat := s.imageField (ringOffset r + 4) 2

/-- The written enable of ring r. -/
def State.writtenEnable (s : State) (r : Nat) : Bool := s.imageBit (ringOffset r + 6) 0

/-- Two windows of addresses overlap. -/
def overlaps (a aSize b bSize : Nat) : Bool := decide (a < b + bSize) && decide (b < a + aSize)

/-- A window may be enabled behind the lower-numbered rings held enabled in the evaluation (R165). -/
def mayEnable (control : Nat) (lower : List RingGeometry) (base slots : Nat) : Bool :=
  let on := lower.filter RingGeometry.enabled
  decide (base + 32 * slots ≤ 2 ^ 27)
    && !overlaps base (32 * slots) control 0x10000
    && !(on.any fun g => overlaps base (32 * slots) g.base.toNat (32 * g.slots))
    && decide (slots + (on.map RingGeometry.slots).sum ≤ Config.slotTotal)

/-- The geometry of ring r as the evaluation holds it, the lower-numbered rings evaluated before it (R165). -/
def State.evaluateRing (s : State) (lower : List RingGeometry) (r : Nat) : RingGeometry :=
  let base := clampBase (s.writtenBase r)
  let slots := clampSlots (s.writtenSlots r)
  { enabled := s.writtenEnable r && mayEnable s.controlBase lower base slots, base := BitVec.ofNat 27 base,
    slots := slots }

/-- Evaluate the rings of a list in order, behind those evaluated before (R165). -/
def State.evaluateRings (s : State) (lower : List RingGeometry) : List Nat → List RingGeometry
  | [] => lower
  | r :: rest => s.evaluateRings (lower ++ [s.evaluateRing lower r]) rest

/-- Ring r's held geometry changes: an enabled ring's slots are resolved, then the new geometry holds (R83 to R85). -/
def State.changeRing (s : State) (r : Nat) (new : RingGeometry) : State :=
  let old := s.ring r
  if old = new then s
  else
    let t := if old.enabled then s.resolveSlots r (List.range old.slots) else s
    t.onHeld fun h => { h with rings := h.rings.set initialRing r new }

/-- Hand the changed rings over in ascending order (R165). -/
def State.changeRings (s : State) (r : Nat) : List RingGeometry → State
  | [] => s
  | g :: rest => (s.changeRing r g).changeRings (r + 1) rest

/-- The clamps of ring r's entry in ascending offset order (R164, R165, log 18, log 30): base and slot count when named,
enable when the ring is written enabled and held disabled, and its entry was named or it was held enabled before. -/
def State.noteRing (s : State) (bytes : List (Nat × Byte)) (wasEnabled : Bool) (new : RingGeometry) (r : Nat) : State :=
  let o := ringOffset r
  let s := if names bytes o 4 then s.noteClamp o 10 (s.writtenBase r) (clampBase (s.writtenBase r)) else s
  let s := if names bytes (o + 4) 2 then s.noteClamp (o + 4) 11 (s.writtenSlots r) (clampSlots (s.writtenSlots r)) else s
  if s.writtenEnable r && !new.enabled && (names bytes o 7 || wasEnabled) then s.noteClamp (o + 6) 12 1 0 else s

/-- The clamps of all rings from r on, against the geometry held before and the geometry now. -/
def State.noteRings (s before : State) (bytes : List (Nat × Byte)) (r : Nat) : List RingGeometry → State
  | [] => s
  | g :: rest => (s.noteRing bytes (before.ring r).enabled g r).noteRings before bytes (r + 1) rest

/-- The ring geometry after an application whose image was `old` before: all sixteen rings evaluated afresh when the
image bytes of any entry changed, else as held (R165). -/
def State.ringsAfter (s : State) (old : Store Byte) : List RingGeometry :=
  if (List.range 256).any fun k => decide (s.ci.image.get 0#8 (0x100 + k) ≠ old.get 0#8 (0x100 + k)) then
    s.evaluateRings [] (List.range 16)
  else (List.range 16).map s.ring

/-- Apply the ring geometry that an application names (R165). -/
def State.applyRings (s : State) (bytes : List (Nat × Byte)) (old : Store Byte) : State :=
  if names bytes 0x100 256 then
    let rings := s.ringsAfter old
    (s.noteRings s bytes 0 rings).changeRings 0 rings
  else s

/-! ## Profiles (R31, R76, R123, R164) -/

/-- The control offset of profile p's entry. -/
def profileOffset (p : Nat) : Nat := 0x200 + 32 * p

/-- The fields of profile p that an application names, but for the jump limit, clamped (R163, R164). -/
def State.readProfile (s : State) (bytes : List (Nat × Byte)) (p : Nat) : Profile :=
  let o := profileOffset p
  let old := s.profile p
  { tracked := if names bytes o 1 then s.imageBit o 0 else old.tracked
    evaluates := if names bytes o 1 then s.imageBit o 1 else old.evaluates
    width := if names bytes (o + 1) 1 then clampWidth (s.imageField (o + 1) 1) else old.width
    window := if names bytes (o + 2) 1 then clampRange 1 32 (s.imageField (o + 2) 1) else old.window
    staleLimit := if names bytes (o + 3) 1 then clampRange 1 15 (s.imageField (o + 3) 1) else old.staleLimit
    jumpLimit := old.jumpLimit
    silenceLimit := if names bytes (o + 6) 1 then clampRange 1 255 (s.imageField (o + 6) 1) else old.silenceLimit
    lateLimit := if names bytes (o + 7) 1 then s.imageField (o + 7) 1 else old.lateLimit
    period := if names bytes (o + 8) 2 then s.imageField (o + 8) 2 else old.period
    tolerance := if names bytes (o + 10) 2 then s.imageField (o + 10) 2 else old.tolerance
    budget := if names bytes (o + 12) 4 then min (s.imageField (o + 12) 4) 16777215 else old.budget
    watched := if names bytes (o + 16) 2 then BitVec.ofNat 16 (s.imageField (o + 16) 2) else old.watched
    gapThreshold := if names bytes (o + 18) 1 then s.imageField (o + 18) 1 else old.gapThreshold
    priority := if names bytes (o + 19) 1 then s.imageField (o + 19) 1 else old.priority }

/-- The jump limit after an application: read again and clamped against the held width and window size when it is named
or when the width or window size changed, else as held (R164). -/
def State.readJump (s : State) (bytes : List (Nat × Byte)) (p : Nat) (new : Profile) : Nat :=
  let o := profileOffset p
  let old := s.profile p
  if names bytes (o + 4) 2 || decide (new.width ≠ old.width) || decide (new.window ≠ old.window) then
    clampJump new.width new.window (s.imageField (o + 4) 2)
  else old.jumpLimit

/-- The clamps of profile p in ascending offset order (R164): every named field, and a jump limit not named when its
held value changes (log 19). -/
def State.noteProfile (s : State) (bytes : List (Nat × Byte)) (p : Nat) (new : Profile) : State :=
  let o := profileOffset p
  let oldJump := (s.profile p).jumpLimit
  let s := if names bytes (o + 1) 1 then s.noteClamp (o + 1) 4 (s.imageField (o + 1) 1) new.width else s
  let s := if names bytes (o + 2) 1 then s.noteClamp (o + 2) 5 (s.imageField (o + 2) 1) new.window else s
  let s := if names bytes (o + 3) 1 then s.noteClamp (o + 3) 7 (s.imageField (o + 3) 1) new.staleLimit else s
  let s := if names bytes (o + 4) 2 || decide (new.jumpLimit ≠ oldJump) then
    s.noteClamp (o + 4) 6 (s.imageField (o + 4) 2) new.jumpLimit else s
  let s := if names bytes (o + 6) 1 then s.noteClamp (o + 6) 8 (s.imageField (o + 6) 1) new.silenceLimit else s
  if names bytes (o + 12) 4 then s.noteClamp (o + 12) 9 (s.imageField (o + 12) 4) new.budget else s

/-- Apply profile p: hold the new values, then the profile-change event (R76) and the period-change event (R123). The
period, at byte 8, acts before the tolerance, at byte 10, of the same application (R163), so a due time made of a new
period uses the tolerance held before (DEDUCED, log 38). -/
def State.applyProfile (s : State) (bytes : List (Nat × Byte)) (p : Nat) : State :=
  let old := s.profile p
  let read := s.readProfile bytes p
  let new := { read with jumpLimit := s.readJump bytes p read }
  let s := (s.noteProfile bytes p new).onHeld fun h => { h with profiles := h.profiles.set initialProfile p new }
  let s := if old.width ≠ new.width ∨ old.window ≠ new.window ∨ old.evaluates ≠ new.evaluates then
    s.profileChange p old new else s
  if old.period ≠ new.period then s.periodChange p old { new with tolerance := old.tolerance } else s

/-- Apply the profiles of a list that an application names. -/
def State.applyProfiles (s : State) (bytes : List (Nat × Byte)) : List Nat → State
  | [] => s
  | p :: rest =>
    (if names bytes (profileOffset p) 20 then s.applyProfile bytes p else s).applyProfiles bytes rest

/-! ## The classifier (R29, R30) -/

/-- The control offset of classifier entry n. -/
def classifierOffset (n : Nat) : Nat := 0x400 + 8 * n

/-- Classifier entry n as read from the image (section 10.2). -/
def State.readClassifier (s : State) (n : Nat) : ClassifierEntry :=
  let w : Word := BitVec.ofNat 64 (s.imageField (classifierOffset n) 8)
  { enabled := w.getLsbD 63, portMask := w.extractLsb' 0 16, tagValue := w.extractLsb' 16 20,
    tagMask := w.extractLsb' 36 20, profile := (w.extractLsb' 56 4).toNat }

/-- Apply the classifier entries of a list that an application names. -/
def State.applyClassifier (s : State) (bytes : List (Nat × Byte)) : List Nat → State
  | [] => s
  | n :: rest =>
    (if names bytes (classifierOffset n) 8 then
      s.onHeld fun h => { h with classifier := h.classifier.set initialClassifier n (s.readClassifier n) }
    else s).applyClassifier bytes rest

/-- Apply the settings that an application names, in ascending offset order (R163), with the threshold test of a dirty
count that they raised (R152): all of it before the command word is considered (log 11). -/
def State.applySettings (s : State) (bytes : List (Nat × Byte)) : State :=
  let old := s.ci.image
  (((((((s.merge bytes).applyGlobals bytes).applyConsume bytes).applyRings bytes old).applyProfiles bytes
    (List.range 16)).applyClassifier bytes (List.range 32))).testThreshold s

/-! ## The mailbox (R167 to R169) -/

/-- The tag of the command word in the image. -/
def State.commandTag (s : State) : BitVec 8 := s.imageByte 0

/-- The command of the command word in the image. -/
def State.commandCode (s : State) : MailboxCommand := .ofCode (s.imageByte 1)

/-- The argument A of the command word in the image. -/
def State.commandArgument (s : State) : Nat := s.imageField 2 2

/-- The kind mask of an argument: its low eight bits (R140, R141). -/
def kindMask (a : Nat) : BitVec 8 := BitVec.ofNat 8 a

/-- CLEAR_ALL stays in flight, its walk before index 0 (R134). -/
def State.startClearAll (s : State) (tag : BitVec 8) : State :=
  s.onCi fun c => { c with inFlight := some (.clearAll 0, tag) }

/-- The entry as an INTERROGATE record shows it: a VACANT one with its generation and every other field 0 or absent
(R159, R178). -/
def FlowEntry.interrogated (e : FlowEntry) : FlowEntry := if e.valid then e else vacantEntry e.generation

/-- INTERROGATE builds a record of entry A, which is read with its check, and stays in flight (R159). -/
def State.startInterrogate (s : State) (tag : BitVec 8) (a : Nat) : State :=
  if a < Config.flowCount then
    let s := s.checked a
    let x : ReportRecord :=
      { type := .interrogate tag, index := a, entry := (s.flow a).interrogated, drainNumber := s.rw.drainNumber,
        time := s.now }
    (s.onRw fun w => { w with interrogate := some x }).onCi fun c => { c with inFlight := some (.interrogate, tag) }
  else s.result tag .badArgument

/-- SNAPSHOT marks every valid entry dirty and triggers a drain (R157). -/
def State.takeSnapshot (s : State) : State :=
  (s.overFlows (fun t i => t.setFlow i (t.flow i).mark) s.flowIndexes).triggerDrain

/-- ALARM_ACK (R140). -/
def State.acknowledge (s : State) (mask : BitVec 8) : State :=
  s.onMasked mask (fun row => { row with raised := false }) AlarmKind.all

/-- ALARM_HOLD (R141). -/
def State.hold (s : State) (mask : BitVec 8) : State :=
  s.onMasked mask (fun row => { row with held := true }) AlarmKind.all

/-- ALARM_RELEASE (R141). -/
def State.release (s : State) (mask : BitVec 8) : State :=
  s.onMasked mask (fun row => { row with held := false }) AlarmKind.all

/-- RELOAD_CONFIG starts a reload of origin COMMAND, or sets reload waiting, and stays in flight (R174). -/
def State.startReload (s : State) (tag : BitVec 8) : State :=
  (s.onCi fun c => { c with inFlight := some (.reloadConfig, tag) }).requestReload .command

/-- A taken command acts (R169). -/
def State.act (s : State) (tag : BitVec 8) (a : Nat) : MailboxCommand → State
  | .ping => s.result tag .done
  | .clearFlow => (s.clearFlow a).1.result tag (s.clearFlow a).2
  | .clearAll => s.startClearAll tag
  | .evictFlow => (s.evictFlow a).1.result tag (s.evictFlow a).2
  | .interrogate => s.startInterrogate tag a
  | .snapshot => s.takeSnapshot.result tag .done
  | .alarmAck => (s.acknowledge (kindMask a)).result tag .done
  | .alarmHold => (s.hold (kindMask a)).result tag .done
  | .alarmRelease => (s.release (kindMask a)).result tag .done
  | .reloadConfig => s.startReload tag
  | .restart => s.restart tag
  | .unknown => s.result tag .unknown

/-- A command may be taken: RUNNING, with no command in flight (R167). -/
def State.takesCommands (s : State) : Bool := decide (s.ci.part = .running) && s.ci.inFlight.isNone

/-- The tag becomes the last-taken tag (R167). -/
def State.takeTag (s : State) (tag : BitVec 8) : State := s.onCi fun c => { c with lastTag := tag }

/-- A command word with a tag not just used: the command is taken, or refused with BUSY (R167). -/
def State.mailbox (s : State) : State :=
  let tag := s.commandTag
  if tag = s.ci.lastTag then s
  else if s.takesCommands then (s.takeTag tag).act tag s.commandArgument s.commandCode
  else (s.takeTag tag).result tag .busy

/-- The command word of a control write, if it names any byte of it, is considered after the settings (R163). -/
def State.considerCommand (s : State) (bytes : List (Nat × Byte)) : State := if names bytes 0 8 then s.mailbox else s

/-- Apply a control write, to the end of the event: the settings it names, then the command word (R163). The settings have
had their threshold test when the command is considered (log 11). -/
def State.applyWrite (s : State) (bytes : List (Nat × Byte)) : State :=
  let v := s.applySettings bytes
  (v.considerCommand bytes).settle v

/-! ## Loads (R171 to R174) -/

/-- A held field of profile p differs from its written value. -/
def State.profileClamped (s : State) (p : Nat) : Bool :=
  let o := profileOffset p
  let h := s.profile p
  decide (h.width ≠ s.imageField (o + 1) 1) || decide (h.window ≠ s.imageField (o + 2) 1)
    || decide (h.staleLimit ≠ s.imageField (o + 3) 1) || decide (h.jumpLimit ≠ s.imageField (o + 4) 2)
    || decide (h.silenceLimit ≠ s.imageField (o + 6) 1) || decide (h.budget ≠ s.imageField (o + 12) 4)

/-- A held field of ring r differs from its written value. -/
def State.ringClamped (s : State) (r : Nat) : Bool :=
  decide ((s.ring r).base.toNat ≠ s.writtenBase r) || decide ((s.ring r).slots ≠ s.writtenSlots r)
    || decide ((s.ring r).enabled ≠ s.writtenEnable r)

/-- Some held field differs from its written value (R168, R174). -/
def State.anyClamped (s : State) : Bool :=
  decide (s.ci.held.pinCount ≠ s.imageField 9 1) || decide (s.ci.held.dirtyThreshold ≠ s.imageField 14 2)
    || decide (s.consume ≠ s.imageField 0x80 2) || (List.range 16).any s.ringClamped
    || (List.range 16).any s.profileClamped

/-- A waiting reload starts with the origin it held (R173, R174). -/
def State.startWaiting (s : State) : State :=
  match s.ci.reloadWaiting with
  | none => s
  | some o => (s.onCi fun c => { c with reloadWaiting := none }).requestReload o

/-- The queue or the loss mark shows a loss that BLIND covers at the end of a load (R23). -/
def State.lossOutstanding (s : State) : Bool := s.oq.lossMark || s.oq.queue.any Observation.followsLoss

/-- The BLIND trigger's address at the end of a load: the first-lost address, or, when that is empty, the free value
(R23, log 12). -/
def State.blindCapture (s : State) : Addr := s.oq.firstLost.getD (Config.blindCaptureUnstated s.freeCount)

/-- A use of the free value advances its counter. -/
def State.useFree (s : State) : State :=
  if s.oq.firstLost.isNone then { s with freeCount := s.freeCount + 1 } else s

/-- Coverage at the end of an INITIAL load (R23). -/
def State.coverageAtLoadEnd (s : State) : State :=
  if !s.ci.held.monitoring then s.setCoverage .paused
  else if s.lossOutstanding then (s.goBlind s.blindCapture).useFree
  else s.setCoverage .sighted

/-- RW at the end of an INITIAL load: P is set equal to C, the interval timer starts (R161, R173). -/
def State.startWriter (s : State) : State :=
  s.onRw fun w => { w with produce := s.consume, intervalBase := s.now, intervalFired := false }

/-- The RESTART in flight, if any, is answered (R173). -/
def State.answerRestart (s : State) : State :=
  match s.ci.inFlight with
  | some (.restart, tag) => s.finishCommand tag .done
  | _ => s

/-- The end of an INITIAL load (R173). -/
def State.endInitial (s : State) : State :=
  ((((s.onCi fun c => { c with part := .running }).coverageAtLoadEnd).startWriter).requestStatus).answerRestart.startWaiting

/-- The result of a reload of origin COMMAND (R174). -/
def State.answerReload (s : State) (origin : ReloadOrigin) : State :=
  match origin, s.ci.inFlight with
  | .command, some (.reloadConfig, tag) => s.finishCommand tag (if s.anyClamped then .clamped else .done)
  | _, _ => s

/-- The end of a reload (R174); the end of any load requests STATUS (R151, log 27). -/
def State.endReload (s : State) (origin : ReloadOrigin) : State :=
  ((s.answerReload origin).requestStatus).startWaiting

/-- A load ends (R173, R174). -/
def State.endLoad (s : State) : State :=
  match s.ci.load with
  | none => s
  | some l =>
    let s := s.onCi fun c => { c with load := none }
    match l.kind with
    | .initial => s.endInitial
    | .reload o => s.endReload o

/-- The read of the command word, the last of a load (R171). -/
def LoadRead.isCommandWord (r : LoadRead) : Bool := decide (r.offset = 0) && decide (r.words.length = 1)

/-- The bytes a load read applies: all bytes of every word returned, but for the command word of the block at 0x0000
(R163, R171, log 17). -/
def LoadRead.bytes (r : LoadRead) : List (Nat × Byte) :=
  if r.offset = 0 ∧ r.words.length ≠ 1 then wordsBytes 8 r.words.tail else wordsBytes r.offset r.words

/-- After its settings, a load read of the command word sets only the last-taken tag and ends the load
(R167, R172, R173). -/
def State.considerLoadRead (s : State) (r : LoadRead) : State :=
  if r.isCommandWord then (s.takeTag s.commandTag).endLoad else s

/-- Apply a load read, to the end of the event (R172). -/
def State.applyLoadRead (s : State) (r : LoadRead) : State :=
  let v := s.applySettings r.bytes
  (v.considerLoadRead r).settle v

/-- The load read that may be applied now: the first returned, once the queue holds no record taken before it (R172). -/
def State.loadReady (s : State) : Option LoadRead :=
  match s.ci.loadReads with
  | [] => none
  | r :: _ => if s.oq.queue.any fun o => decide (o.place < r.place) then none else some r

/-- LOAD_READ_APPLY (R172). -/
def execLoadReadApply (s : State) : Host.Outcome State Fault Refusal :=
  match s.loadReady with
  | some r =>
    .next ((s.onCi fun c => { c with loadReads := c.loadReads.tail }).applyLoadRead r)
  | none => .next s

end Sys2Proof.Machine
end

