-- ==== Sys2Proof/WellFormed.lean ====
section
/-! DEFINITION. Which commands the link can carry: transactions are word or block aligned (section 1.1, R1). -/

namespace Sys2Proof

/-- The address a transaction carries has the alignment its kind gives it: a word address for the single kinds, a
block address for the bursts (R1). -/
def Transaction.wellFormed : Transaction → Bool
  | .singleRead a => a.toNat % 8 == 0
  | .burstRead a _ => a.toNat % 32 == 0
  | .singleWrite a _ _ => a.toNat % 8 == 0
  | .burstWrite a _ _ _ _ => a.toNat % 32 == 0

/-- A command is well formed when every transaction it carries is. -/
def Instr.wellFormed : Instr → Bool
  | .slotGrant (some t) => t.wellFormed
  | .slotGrant none => true
  | .resetNAsserted => true
  | .resetNReleased _ => true
  | .transactionTaken => true
  | .forwardedReadReturn => true
  | .injectedTransactionComplete => true
  | .intervalTimerExpiry => true
  | .enqueue => true
  | .dequeue => true
  | .completion => true
  | .discardAtHead => true
  | .coverageSweep => true
  | .expiry => true
  | .controlWrite => true
  | .globalsWrite => true
  | .consumeIndexWrite => true
  | .ringGeometryWrite => true
  | .ping => true
  | .clearFlow => true
  | .clearAll => true
  | .clearAllWalkStep => true
  | .evictFlow => true
  | .interrogate => true
  | .snapshot => true
  | .alarmAck => true
  | .alarmHold => true
  | .alarmRelease => true
  | .reloadConfig => true
  | .restart => true
  | .unknownCommand => true
  | .loadReadApply => true
  | .timeBaseAdvance => true
  | .injectedReadTaken => true

end Sys2Proof
end

