-- ==== Sys2Proof/Machine/Forwarding.lean ====
section
/-! DEFINITION. The forwarding path (chapter 1): slots, taking, returning, completing; and the tick of the time base. -/

namespace Sys2Proof.Machine

/-! ## Slots (R7, R8, R9) -/

/-- The switch side presents a transaction at its port, unless one still waits there, which keeps the port (R4, log 4). -/
def State.present (s : State) (t : Option Transaction) : State :=
  s.onFp fun f => { f with slPort := match f.slPort with | some w => some w | none => t }

/-- The forwarded transaction waiting at the port is granted the slot; the starvation count is `count` after it. -/
def State.grantForwarded (s : State) (t : Transaction) (count : Nat) : State :=
  s.onFp fun f => { f with slPort := none, request := some (.forwarded t), starvation := count }

/-- The waiting injection transaction is granted the slot and is started; the starvation count becomes 0 (R6, R8). -/
def State.grantInjection (s : State) (t : Transaction) : State :=
  (s.onFp fun f => { f with request := some (.injected t true), starvation := 0 }).onRw fun w =>
    { w with job := w.job.map fun j => { j with started := true } }

/-- The grant rule while the request direction is free (R7, R8). -/
def State.grant (s : State) : State :=
  match s.fp.slPort, s.waitingInjection with
  | some t, none => s.grantForwarded t s.fp.starvation
  | none, some i => s.grantInjection i
  | some t, some i =>
    if s.fp.starvation < Config.starvationLimit then s.grantForwarded t (s.fp.starvation + 1) else s.grantInjection i
  | none, none => s

/-- SLOT_GRANT (R7): the switch side may newly present a transaction; the slot is granted if the request direction is
free. A transaction newly presented in the event counts as waiting at the same moment as an injection transaction that
already waits, so it is granted ahead of it and counts one below 16 (DESIGN CHOICE, log 4). An operand without the
alignment of its kind is no transaction of the link (R1, log 5). -/
def execSlotGrant (presented : Option Transaction) (s : State) : Host.Outcome State Fault Refusal :=
  if (Instr.slotGrant presented).wellFormed then
    let t := s.present presented
    .next (if t.fp.request = none then t.grant else t)
  else .refused .misalignedTransaction

/-! ## Taking (R3, R5, R9, R10) -/

/-- A read is taken: its owner, its words as memory holds them now, and its place go to the return direction (R5). -/
def State.startReturn (s : State) (t : Transaction) (owner : ReadOwner) : State :=
  s.onFp fun f =>
    { f with ret := some { owner := owner, address := t.address, words := s.readWords t, place := f.place } }

/-- The memory side takes the transaction on the request direction: the direction is free, memory changes, and the next
place in memory-side order is used up (R3). -/
def State.takeRequest (s : State) (t : Transaction) : State :=
  ((s.onFp fun f => { f with request := none }).memTake t).nextPlace

/-- The memory side takes a forwarded transaction, which is handed to the decoder (R3). -/
def State.takeForwarded (s : State) (t : Transaction) : State :=
  ((if t.isRead then s.startReturn t .switchSide else s).takeRequest t).observe t s.fp.place

/-- TRANSACTION_TAKEN (R3): the memory side takes the presented switch-side transaction; a read waits until the return
direction is free (R5). -/
def execTransactionTaken (s : State) : Host.Outcome State Fault Refusal :=
  match s.fp.request with
  | some (.forwarded t) =>
    if t.isRead && s.fp.ret.isSome then .next s else .next ((s.takeForwarded t).settle s)
  | _ => .next s

/-- FORWARDED_READ_RETURN (R5): the last word of a forwarded read returns, the words having gone to the switch side
unchanged and in order. -/
def execForwardedReadReturn (s : State) : Host.Outcome State Fault Refusal :=
  match s.fp.ret with
  | some r =>
    if r.owner = .switchSide then .next (s.onFp fun f => { f with ret := none, slReturn := r.words }) else .next s
  | none => .next s

/-- INJECTED_READ_TAKEN (R9): the memory side accepts the presented injected read once the return direction is free. -/
def execInjectedReadTaken (s : State) : Host.Outcome State Fault Refusal :=
  match s.fp.request with
  | some (.injected t live) =>
    if t.isRead && s.fp.ret.isNone then
      .next ((s.startReturn t (if live then .job else .dropped)).takeRequest t)
    else .next s
  | _ => .next s

/-! ## Completion of injected transactions (R6, R150, R158, R159) -/

/-- P advances by one (R147, R150). -/
def State.advanceProduce (s : State) : State :=
  s.onRw fun w => { w with produce := (w.produce + 1) % Config.reportSlots }

/-- What the end of a job does by its kind: a record job's produce word advances P; a RETIRE job's record leaves the
buffer; an INTERROGATE ends with DONE (R48, R150, R158, R159). -/
def State.jobEffect (s : State) : JobKind → State
  | .load => s
  | .status => s
  | .interrogate => s.advanceProduce.finishCommand s.inFlightTag .done
  | .retire => s.advanceProduce.onFt fun t => { t with retire := t.retire.tail }
  | .drain => s.advanceProduce

/-- A transaction of the current job is complete: the next waits, or the job ends (R6). -/
def State.advanceJob (s : State) : State :=
  match s.rw.job with
  | none => s
  | some j =>
    if j.todo.tail = [] then (s.onRw fun w => { w with job := none }).jobEffect j.kind
    else s.onRw fun w => { w with job := some { j with todo := j.todo.tail, started := false } }

/-- The words of an injected read go to the Control Interface, unapplied (R5, R172). -/
def State.receiveLoad (s : State) (r : ReturnRead) : State :=
  s.onCi fun c =>
    { c with
      loadReads := c.loadReads ++
        [{ offset := r.address.toNat - s.controlBase, words := r.words, place := r.place }] }

/-- The last word of an injected read returns: the data goes to its job's owner, or is discarded (R5, R6, R11). -/
def State.completeRead (s : State) (r : ReturnRead) : State :=
  let s := s.onFp fun f => { f with ret := none }
  if r.owner = .job then (s.receiveLoad r).advanceJob else s

/-- An injected write is taken, which completes it; its notice is delivered if its job still exists (R6, R11). -/
def State.completeWrite (s : State) (t : Transaction) (live : Bool) : State :=
  let s := s.takeRequest t
  if live then s.advanceJob else s

/-- INJECTED_TRANSACTION_COMPLETE (R6): the last word of the injected read on the return direction returns, or else the
memory side takes the presented injected write (log 26). -/
def execInjectedTransactionComplete (s : State) : Host.Outcome State Fault Refusal :=
  match s.fp.ret, s.fp.request with
  | some r, q =>
    if r.owner = .switchSide then
      match q with
      | some (.injected t live) => if t.isRead then .next s else .next ((s.completeWrite t live).settle s)
      | _ => .next s
    else .next ((s.completeRead r).settle s)
  | none, some (.injected t live) =>
    if t.isRead then .next s else .next ((s.completeWrite t live).settle s)
  | none, _ => .next s

/-! ## Time (R109) -/

/-- TIME_BASE_ADVANCE (R109): one nanosecond of the reference; the time base is held at 0 while RESET_N is asserted. -/
def execTimeBaseAdvance (s : State) : Host.Outcome State Fault Refusal :=
  if s.ci.part = .offline then .next s else .next (s.onCm fun c => { c with timeBase := c.timeBase + 1 })

end Sys2Proof.Machine
end

