-- ==== Sys2Proof/Machine/Mailbox.lean ====
section
/-! DEFINITION. The rows of a control write: the hand-out itself, its cases by what it names or commands (log 15), and
the CLEAR_ALL walk. -/

namespace Sys2Proof.Machine

/-! ## Handing out a control write (R163, R18) -/

/-- The control write that may be handed out now (R18, R172). -/
def State.controlReady (s : State) : Option Observation :=
  match s.headReady with
  | some o => if o.body.isControl then some o else none
  | none => none

/-- The control write is handed out and applied in one event (R163). -/
def State.handOutControl (s : State) (o : Observation) : State := s.popHead.applyWrite o.body.named

/-- The control write at the head is handed out if it is a case of the row asked for (log 15). -/
def State.controlCase (s : State) (case : Observation → Bool) : Host.Outcome State Fault Refusal :=
  match s.controlReady with
  | some o => if case o then .next (s.handOutControl o) else .next s
  | none => .next s

/-- A control write names a byte of `n` from a control offset (R163). -/
def namesField (offset n : Nat) (o : Observation) : Bool := names o.body.named offset n

/-- The control image as the merge of a control write leaves it (R163). -/
def State.mergedWith (s : State) (o : Observation) : State := s.merge o.body.named

/-- A control write whose command word, read after the merge, is taken as a given command (R167). -/
def State.takesAs (s : State) (k : MailboxCommand) (o : Observation) : Bool :=
  names o.body.named 0 8 && s.takesCommands && decide ((s.mergedWith o).commandTag ≠ s.ci.lastTag)
    && decide ((s.mergedWith o).commandCode = k)

/-! ## Meanings: what a control write names -/

/-- CONTROL_WRITE (R163): the control write at the head of the queue is handed out and applied. -/
def execControlWrite (s : State) : Host.Outcome State Fault Refusal := s.controlCase fun _ => true

/-- GLOBALS_WRITE (R166): the control write at the head names a byte of the globals. -/
def execGlobalsWrite (s : State) : Host.Outcome State Fault Refusal := s.controlCase (namesField 0x08 8)

/-- CONSUME_INDEX_WRITE (R148): the control write at the head names a byte of the consume index. -/
def execConsumeIndexWrite (s : State) : Host.Outcome State Fault Refusal := s.controlCase (namesField 0x80 2)

/-- RING_GEOMETRY_WRITE (R165): the control write at the head names a byte of the ring geometry table. -/
def execRingGeometryWrite (s : State) : Host.Outcome State Fault Refusal := s.controlCase (namesField 0x100 256)

/-! ## Meanings: what a control write commands (R167, R169) -/

/-- PING (R169). -/
def execPing (s : State) : Host.Outcome State Fault Refusal := s.controlCase (s.takesAs .ping)

/-- CLEAR_FLOW (R132). -/
def execClearFlow (s : State) : Host.Outcome State Fault Refusal := s.controlCase (s.takesAs .clearFlow)

/-- CLEAR_ALL (R134): the walk starts. -/
def execClearAll (s : State) : Host.Outcome State Fault Refusal := s.controlCase (s.takesAs .clearAll)

/-- EVICT_FLOW (R50). -/
def execEvictFlow (s : State) : Host.Outcome State Fault Refusal := s.controlCase (s.takesAs .evictFlow)

/-- INTERROGATE (R159). -/
def execInterrogate (s : State) : Host.Outcome State Fault Refusal := s.controlCase (s.takesAs .interrogate)

/-- SNAPSHOT (R157). -/
def execSnapshot (s : State) : Host.Outcome State Fault Refusal := s.controlCase (s.takesAs .snapshot)

/-- ALARM_ACK (R140). -/
def execAlarmAck (s : State) : Host.Outcome State Fault Refusal := s.controlCase (s.takesAs .alarmAck)

/-- ALARM_HOLD (R141). -/
def execAlarmHold (s : State) : Host.Outcome State Fault Refusal := s.controlCase (s.takesAs .alarmHold)

/-- ALARM_RELEASE (R141). -/
def execAlarmRelease (s : State) : Host.Outcome State Fault Refusal := s.controlCase (s.takesAs .alarmRelease)

/-- RELOAD_CONFIG (R174). -/
def execReloadConfig (s : State) : Host.Outcome State Fault Refusal := s.controlCase (s.takesAs .reloadConfig)

/-- RESTART (R175). -/
def execRestart (s : State) : Host.Outcome State Fault Refusal := s.controlCase (s.takesAs .restart)

/-- UNKNOWN_COMMAND (R169). -/
def execUnknownCommand (s : State) : Host.Outcome State Fault Refusal := s.controlCase (s.takesAs .unknown)

/-! ## The CLEAR_ALL walk (R134 to R136) -/

/-- The occurrence counts of all kinds become 0; first values, RAISED and HELD are kept (R134). -/
def State.clearOccurrences (s : State) : List AlarmKind → State
  | [] => s
  | k :: rest => (s.setAlarm k { s.alarm k with occurrences := 0 }).clearOccurrences rest

/-- The final event of a CLEAR_ALL: the aggregates and occurrence counts become 0, DONE is recorded (R134, log 16). -/
def State.endWalk (s : State) (tag : BitVec 8) : State :=
  ((s.onTau fun t => { t with agg := ⟨[]⟩ }).clearOccurrences AlarmKind.all).finishCommand tag .done

/-- The next step of the walk whose next index is n. -/
def State.advanceWalk (s : State) (n : Nat) (tag : BitVec 8) : State :=
  if n < Config.flowCount then
    (s.walkStep n).onCi fun c => { c with inFlight := some (.clearAll (n + 1), tag) }
  else s.endWalk tag

/-- CLEAR_ALL_WALK_STEP (R134): one index of the walk, or its final event. -/
def execClearAllWalkStep (s : State) : Host.Outcome State Fault Refusal :=
  match s.ci.inFlight with
  | some (.clearAll n, tag) => .next ((s.advanceWalk n tag).settle s)
  | _ => .next s

end Sys2Proof.Machine
end

