-- ==== Sys2Proof/Machine/Dispatch.lean ====
section
/-! DEFINITION. The dispatch: one arm per command, one direct call each. -/

namespace Sys2Proof.Machine

def exec (i : Instr) (s : State) : Host.Outcome State Fault Refusal :=
  match i with
  | .resetNAsserted => Sys2Proof.Machine.execResetNAsserted s
  | .resetNReleased straps => Sys2Proof.Machine.execResetNReleased straps s
  | .slotGrant presented => Sys2Proof.Machine.execSlotGrant presented s
  | .transactionTaken => Sys2Proof.Machine.execTransactionTaken s
  | .forwardedReadReturn => Sys2Proof.Machine.execForwardedReadReturn s
  | .injectedTransactionComplete => Sys2Proof.Machine.execInjectedTransactionComplete s
  | .intervalTimerExpiry => Sys2Proof.Machine.execIntervalTimerExpiry s
  | .enqueue => Sys2Proof.Machine.execEnqueue s
  | .dequeue => Sys2Proof.Machine.execDequeue s
  | .completion => Sys2Proof.Machine.execCompletion s
  | .discardAtHead => Sys2Proof.Machine.execDiscardAtHead s
  | .coverageSweep => Sys2Proof.Machine.execCoverageSweep s
  | .expiry => Sys2Proof.Machine.execExpiry s
  | .controlWrite => Sys2Proof.Machine.execControlWrite s
  | .globalsWrite => Sys2Proof.Machine.execGlobalsWrite s
  | .consumeIndexWrite => Sys2Proof.Machine.execConsumeIndexWrite s
  | .ringGeometryWrite => Sys2Proof.Machine.execRingGeometryWrite s
  | .ping => Sys2Proof.Machine.execPing s
  | .clearFlow => Sys2Proof.Machine.execClearFlow s
  | .clearAll => Sys2Proof.Machine.execClearAll s
  | .clearAllWalkStep => Sys2Proof.Machine.execClearAllWalkStep s
  | .evictFlow => Sys2Proof.Machine.execEvictFlow s
  | .interrogate => Sys2Proof.Machine.execInterrogate s
  | .snapshot => Sys2Proof.Machine.execSnapshot s
  | .alarmAck => Sys2Proof.Machine.execAlarmAck s
  | .alarmHold => Sys2Proof.Machine.execAlarmHold s
  | .alarmRelease => Sys2Proof.Machine.execAlarmRelease s
  | .reloadConfig => Sys2Proof.Machine.execReloadConfig s
  | .restart => Sys2Proof.Machine.execRestart s
  | .unknownCommand => Sys2Proof.Machine.execUnknownCommand s
  | .loadReadApply => Sys2Proof.Machine.execLoadReadApply s
  | .timeBaseAdvance => Sys2Proof.Machine.execTimeBaseAdvance s
  | .injectedReadTaken => Sys2Proof.Machine.execInjectedReadTaken s

end Sys2Proof.Machine
end

