-- ==== Sys2Proof/Safety.lean ====
section
/-! DEFINITION. What a lawful state is, in the terms the statements use: one predicate for each invariant of the spec. -/

namespace Sys2Proof.Machine

/-! ## Bounds and order -/

/-- The numbers of the spec: starvation count (R8), queue (R18), pin count (R44), retire buffer (R48), P and C (R147),
dirty threshold (R164). -/
def State.WithinBounds (s : State) : Prop :=
  s.fp.starvation ≤ 16 ∧ s.oq.queue.length ≤ 64 ∧ s.ft.retire.length ≤ 8 ∧ s.rw.produce < 480 ∧ s.consume < 480
    ∧ s.ci.held.pinCount ≤ 3 ∧ s.ci.held.dirtyThreshold ≤ 1024

/-! ## Alarms (R143, R144) -/

/-- The alert record names the highest-priority kind RAISED and not HELD with its first value, or NONE with 0, and
ALERT_N is asserted exactly when there is such a kind. -/
def State.AlertFollowsTable (s : State) : Prop :=
  s.tau.alertKind = AlarmKind.all.find? (fun k => (s.alarm k).raised && !(s.alarm k).held)
    ∧ s.tau.alertValue = (match s.tau.alertKind with | none => 0#32 | some k => (s.alarm k).first)
    ∧ (s.tau.alertAsserted = true ↔ ∃ k, (s.alarm k).raised = true ∧ (s.alarm k).held = false)

/-! ## Flow entries -/

/-- The sum rule of one entry (R69): while none of the eight counters has saturated, accepted is the sum of the others. -/
def FlowEntry.SumRule (e : FlowEntry) : Prop :=
  (∀ t ∈ [Tally.accepted, .anchors, .inOrder, .ahead, .reorderedIn, .duplicates, .stale, .unsequenced],
      e.tally t < 4294967295) →
    e.tally .accepted = e.tally .anchors + e.tally .inOrder + e.tally .ahead + e.tally .reorderedIn
      + e.tally .duplicates + e.tally .stale + e.tally .unsequenced

/-- Every valid entry keeps the sum rule (R69). -/
def State.SumRuleHolds (s : State) : Prop := ∀ i, (s.flow i).valid = true → (s.flow i).SumRule

/-- The pin count is legal (R44), every valid entry stands in the set of its key, and no two hold one key (R28, R35). -/
def State.KeysUnique (s : State) : Prop :=
  s.ci.held.pinCount ≤ 3 ∧
  (∀ i < 1024, (s.flow i).valid = true → i / 4 = setIndex (s.flow i).port (s.flow i).tag) ∧
  ∀ i < 1024, ∀ j < 1024, (s.flow i).valid = true → (s.flow j).valid = true →
    (s.flow i).port = (s.flow j).port → (s.flow i).tag = (s.flow j).tag → i = j

/-- The due list and the entries hold the same due times, and a flow has one exactly when it is TRACKING under a
non-zero cycle period (R111, R112). -/
def State.DueListAgrees (s : State) : Prop :=
  ∀ i < 1024, s.cm.due.find? i = (s.flow i).due ∧
    ((s.flow i).due.isSome = true ↔ (s.flow i).state = .tracking ∧ (s.profileOf (s.flow i)).period ≠ 0)

/-! ## Rings and slots -/

/-- Every slot that holds a frame is a slot of an enabled ring (R86), and the slot table has its canonical form. -/
def State.OccupiedSlotsEnabled (s : State) : Prop :=
  s.tt.wf .empty = true ∧ (∀ r, (s.ring r).slots ≤ 256) ∧
  ∀ n, s.tt.get .empty n ≠ .empty → (s.ring (n / 256)).enabled = true ∧ n % 256 < (s.ring (n / 256)).slots

/-- The held geometry is lawful (R164, R165): legal base and slot count everywhere; every enabled ring's window ends in
the address space, keeps off the control region and off every other enabled ring; at most 2048 slots are enabled. While
the part is OFFLINE, before the control region is placed, no ring is enabled (R107). -/
def State.RingsLawful (s : State) : Prop :=
  (∀ r < 16, (s.ring r).base.toNat % 32 = 0 ∧ (s.ring r).slots ∈ [16, 32, 64, 128, 256]) ∧
  (∀ r < 16, (s.ring r).enabled = true →
    (s.ring r).base.toNat + 32 * (s.ring r).slots ≤ 2 ^ 27 ∧
    ((s.ring r).base.toNat + 32 * (s.ring r).slots ≤ s.controlBase ∨ s.controlBase + 65536 ≤ (s.ring r).base.toNat)) ∧
  (∀ q < 16, ∀ r < 16, q ≠ r → (s.ring q).enabled = true → (s.ring r).enabled = true →
    (s.ring q).base.toNat + 32 * (s.ring q).slots ≤ (s.ring r).base.toNat ∨
    (s.ring r).base.toNat + 32 * (s.ring r).slots ≤ (s.ring q).base.toNat) ∧
  (((List.range 16).filter fun r => (s.ring r).enabled).map fun r => (s.ring r).slots).sum ≤ 2048 ∧
  (s.ci.part = .offline → ∀ r < 16, (s.ring r).enabled = false)

/-! ## Reset (R11, R27, R53, R107, R126, R145, R161, R175) -/

/-- The link holds no injected transaction whose job still exists. -/
def State.NoLiveInjection (s : State) : Prop :=
  (∀ t, s.fp.request ≠ some (.injected t true)) ∧ ∀ r, s.fp.ret = some r → r.owner ≠ .job

/-- While the part is OFFLINE every block holds its reset values (R11, R27, R53, R107, R126, R145, R161, R175). Of RW's,
the interval base 0 and the clear fired flag are the model's choice (log 22), and OQ's headSwept is the model's own
field (log 13). -/
def State.OfflineHeldAtReset (s : State) : Prop :=
  s.ci.part = .offline →
    s.oq = State.reset.oq ∧ s.ft = State.reset.ft ∧ s.tt = State.reset.tt ∧ s.cm = State.reset.cm ∧
    s.tau = State.reset.tau ∧ s.rw = State.reset.rw ∧ s.ci = State.reset.ci ∧ s.NoLiveInjection ∧ s.fp.starvation = 0

/-! ## Terms of the statements -/

/-- A change of state that touches neither the link, nor memory, nor the waiting commands. -/
def SameLink (s t : State) : Prop := t.fp = s.fp ∧ t.mem = s.mem ∧ t.pending = s.pending

/-- Slot i of ring r is the one slot record that may differ between two states. -/
def SameSlotsBut (r i : Nat) (s t : State) : Prop :=
  ∀ n, n ≠ slotNumber r i → t.tt.get .empty n = s.tt.get .empty n

/-- The memory side can take the transaction on the request direction: a read needs the return direction free (R5). -/
def State.Takeable (s : State) (t : Transaction) : Prop :=
  s.fp.request = some (.forwarded t) ∧ (t.isRead = true → s.fp.ret = none)

/-- The state `u` is `v` after a command answered at take: the tag is taken, its result recorded (R167, R168), and link,
memory, queue and slots stand. -/
def AnswersAtTake (v u : State) (code : ResultCode) : Prop :=
  SameLink v u ∧ u.oq = v.oq ∧ u.tt = v.tt ∧ u.rw.statusPending = true ∧ u.rw.job = v.rw.job ∧
  u.rw.produce = v.rw.produce ∧
  u.ci = { v.ci with
    lastTag := v.imageByte 0, lastResult := some { tag := v.imageByte 0, code := code, time := v.cm.timeBase } }

/-- The state after the settings of the control write `o`, before its command word is considered (R163). -/
def State.afterSettings (s : State) (o : Observation) : State := s.popHead.applySettings o.body.named

/-- The control write `o` is handed out now and its command word is taken as command `k`; `v` is the state after its
settings, from which tag, code and argument are read (R163, R167). -/
def State.TakesCommand (s : State) (k : MailboxCommand) (o : Observation) (v : State) : Prop :=
  s.controlReady = some o ∧ s.takesAs k o = true ∧ v = s.afterSettings o

/-- The rows that hand out the head of the queue (R18). -/
def handOuts : List Instr :=
  [.enqueue, .dequeue, .completion, .discardAtHead, .controlWrite, .globalsWrite, .consumeIndexWrite, .ringGeometryWrite,
    .ping, .clearFlow, .clearAll, .evictFlow, .interrogate, .snapshot, .alarmAck, .alarmHold, .alarmRelease,
    .reloadConfig, .restart, .unknownCommand]

/-- Way x of a set hits a key: its entry is valid and holds the key (R35). -/
def State.HitsAt (s : State) (port : BitVec 4) (tag : BitVec 20) (x : Nat) : Prop :=
  (s.flow (4 * setIndex port tag + x)).state ≠ .vacant ∧ (s.flow (4 * setIndex port tag + x)).port = port
    ∧ (s.flow (4 * setIndex port tag + x)).tag = tag

/-- `b` is `a` after the listed copy-0 arrival of entry n, stamped `stamp` (R55, R74, R114, R115): in the flow entries, the
due list and TAU. -/
def ArrivalEffect (a b : State) (n : Nat) (sequence : BitVec 16) (valid : Bool) (stamp : Time) : Prop :=
  ∃ (p : Profile) (e : FlowEntry) (drops : Nat) (due : Time), p = a.profileOf (a.flow n) ∧
    (e, drops) = (a.flow n).evaluate p sequence valid ∧
    due = stamp + BitVec.ofNat 48 ((p.period + p.tolerance) * 1000) ∧
    (∀ j, j ≠ n → b.flow j = a.flow j ∧ b.cm.due.find? j = a.cm.due.find? j) ∧
    (p.gapThreshold ≠ 0 ∧ p.gapThreshold ≤ drops → b.tau = (a.trigger .gapBurst n).tau) ∧
    (p.gapThreshold = 0 ∨ drops < p.gapThreshold → b.tau = a.tau) ∧
    (p.period = 0 → b.cm = a.cm) ∧
    (e.state = .tracking → p.period = 0 → b.flow n = { e with checkOk := true }) ∧
    (e.state = .silent → p.period = 0 →
      b.flow n = { e with state := .tracking, misses := 0, dirty := true, checkOk := true }) ∧
    (p.period ≠ 0 → b.cm.due.find? n = some due ∧
      b.flow n = { e with
        state := .tracking, misses := 0, dirty := e.dirty || decide (e.state = .silent), checkOk := true,
        due := some due })

/-- The dirty count stands at or above a dirty threshold that is not 0 (R152). -/
def State.ThresholdStands (s : State) : Prop :=
  s.ci.held.dirtyThreshold ≠ 0 ∧ s.ci.held.dirtyThreshold ≤ s.dirtyCount

/-- RW after a drain start at a dirty count and a time (R153). -/
def ReportWriter.started (w : ReportWriter) (dirty : Nat) (now : Time) : ReportWriter :=
  { w with
    drain := .draining, drainNumber := w.drainNumber + 1, budget := dirty, built := 0, written := [],
    intervalBase := now, intervalFired := false, drainOwed := false }

/-- RW after a drain trigger: a start in IDLE, else a drain owed (R152). -/
def ReportWriter.triggered (w : ReportWriter) (dirty : Nat) (now : Time) : ReportWriter :=
  if w.drain = .idle then w.started dirty now else { w with drainOwed := true }

/-- `r` is `s` with the alert record and ALERT_N brought up to the alarm table; a record that changes requests STATUS
(R143, R144). -/
def AlertRefreshed (s r : State) : Prop :=
  r = { s with tau := r.tau, rw := r.rw } ∧
  r.tau = { s.tau with
    alertKind := r.tau.alertKind, alertValue := r.tau.alertValue, alertAsserted := r.tau.alertAsserted } ∧
  r.AlertFollowsTable ∧
  r.rw = { s.rw with
    statusPending :=
      s.rw.statusPending || decide (r.tau.alertKind ≠ s.tau.alertKind ∨ r.tau.alertValue ≠ s.tau.alertValue) }

/-- BLIND ends: in RUNNING, the queue is empty with the loss mark clear (R26). -/
def State.BlindEnds (s : State) : Prop :=
  s.ci.part = .running ∧ s.oq.coverage = .blind ∧ s.oq.queue = [] ∧ s.oq.lossMark = false

/-- The slot holds a frame of the occupancy of flow j with generation g (R33, R86). -/
def Slot.holdsFrameOf (x : Slot) (j : Nat) (g : BitVec 8) : Bool :=
  match x with
  | .empty => false
  | .queued f => decide (f.ref = .listed j g)
  | .departing f _ => decide (f.ref = .listed j g)

/-- The frames of an occupancy in the slots that a change of geometry empties: those of the enabled rings whose geometry
differs between two states (R84). -/
def State.lostFrames (s u : State) (j : Nat) (g : BitVec 8) : Nat :=
  (((List.range 16).flatMap fun r => (List.range (s.ring r).slots).map fun i => (r, i)).filter fun c =>
    decide (u.ring c.1 ≠ s.ring c.1) && (s.ring c.1).enabled && (s.slot c.1 c.2).holdsFrameOf j g).length

/-- A saturating counter after `n` single counts (R127). -/
def counted (old n : Nat) : Nat := if n = 0 then old else min (old + n) 4294967295

/-! ## Applications of settings, by a control write or a load read (R163) -/

/-- The clamp of a field, if it is considered and its held value differs from the written one (R164). -/
def clampOf (considered : Bool) (offset field written held : Nat) (now : Time) : List ClampRecord :=
  if considered = true ∧ written ≠ held then
    [{ offset := offset, field := field, written := written, held := held, time := now }]
  else []

/-- The clamps of an application, in ascending offset order, are counted, and the last of them is the last-clamp record
(R164; the order within one application is log 30's). -/
def ClampsNoted (s u : State) (clamps : List ClampRecord) : Prop :=
  u.agg .clampedFields = counted (s.agg .clampedFields) clamps.length ∧
  u.ci.lastClamp = match clamps.getLast? with | none => s.ci.lastClamp | some c => some c

/-- What the coverage sweep does (R24): every valid entry re-anchors with stale run 0, an entry that fails its check is
faulted (R52), every occupied slot becomes uncertain, loss mark, first-lost address and reload owed are cleared, and an
owed reload starts or waits (R174). -/
def Swept (s u : State) : Prop :=
  (∀ i < 1024, (s.flow i).checkOk = true → (s.flow i).valid = true →
    u.flow i = { s.flow i with reanchor := true, staleRun := 0 }) ∧
  (∀ i < 1024, (s.flow i).checkOk = true → (s.flow i).valid = false → u.flow i = s.flow i) ∧
  (∀ i < 1024, (s.flow i).checkOk = false →
    u.flow i = vacantEntry ((s.flow i).generation + 1) ∧ u.cm.due.find? i = none) ∧
  (s.tt.wf .empty = true → ∀ n, u.tt.get .empty n = match s.tt.get .empty n with
    | .empty => .empty
    | .queued f => .queued { f with uncertain := true }
    | .departing f d => .departing { f with uncertain := true } d) ∧
  u.oq.lossMark = false ∧ u.oq.firstLost = none ∧ u.oq.reloadOwed = false ∧
  (s.oq.reloadOwed = false → u.ci.load = s.ci.load ∧ u.ci.reloadWaiting = s.ci.reloadWaiting ∧
    u.agg .configReloads = s.agg .configReloads) ∧
  (s.oq.reloadOwed = true → s.ci.load = none → u.ci.load = some { kind := .reload .sweep, issued := false } ∧
    u.agg .configReloads = min (s.agg .configReloads + 1) 4294967295) ∧
  (s.oq.reloadOwed = true → s.ci.load ≠ none → u.ci.load = s.ci.load ∧
    u.agg .configReloads = s.agg .configReloads ∧
    (u.ci.reloadWaiting = some .sweep ∨
      (s.ci.reloadWaiting = some .command ∧ u.ci.reloadWaiting = some .command)))

/-- Monitoring is set in RUNNING with coverage PAUSED (R23). -/
def State.Resumes (s u : State) : Prop :=
  s.ci.part = .running ∧ s.oq.coverage = .paused ∧ s.ci.held.monitoring = false ∧ u.ci.held.monitoring = true

/-- RW after globals that lead from `s` to the settings of `u`: a change of coverage requests STATUS (R151); a changed
interval whose time has passed expires (R152, log 23), in RUNNING alone (log 25), by R110's test as it stands
(log 41); then a changed dirty threshold that is
reached triggers a drain (R152). -/
def State.writerAfterGlobals (s u : State) : ReportWriter :=
  let asked := { s.rw with statusPending := s.rw.statusPending || decide (u.oq.coverage ≠ s.oq.coverage) }
  let timed :=
    if u.ci.held.interval ≠ s.ci.held.interval ∧ u.ci.held.interval ≠ 0 ∧ s.ci.part = .running ∧
        s.rw.intervalFired = false ∧
        atOrAfter s.cm.timeBase (s.rw.intervalBase + BitVec.ofNat 48 (u.ci.held.interval * 1000000)) = true then
      { asked with intervalFired := true }.triggered u.dirtyCount s.cm.timeBase
    else asked
  if u.ci.held.dirtyThreshold ≠ s.ci.held.dirtyThreshold ∧ u.ci.held.dirtyThreshold ≠ 0 ∧
      u.ci.held.dirtyThreshold ≤ u.dirtyCount then timed.triggered u.dirtyCount s.cm.timeBase
  else timed

/-- `u` holds the globals that an application of `bytes` to `s` names, and has their effects (R23, R142, R152, R164,
R166): all of them where the bytes are of the globals' block alone. -/
def HoldsGlobals (bytes : List (Nat × Byte)) (s u : State) : Prop :=
  ∀ n : Nat → Nat → Bool, n = names bytes →
    u.ci.held.monitoring = (if n 8 1 then (u.imageByte 8).getLsbD 0 else s.ci.held.monitoring) ∧
    u.ci.held.freeze = (if n 8 1 then (u.imageByte 8).getLsbD 1 else s.ci.held.freeze) ∧
    u.ci.held.pinCount = (if n 9 1 then min (u.imageByte 9).toNat 3 else s.ci.held.pinCount) ∧
    u.ci.held.alarmOn = (if n 10 1 then u.imageByte 10 else s.ci.held.alarmOn) ∧
    u.ci.held.interval =
      (if n 12 2 then (u.imageByte 12).toNat + 256 * (u.imageByte 13).toNat else s.ci.held.interval) ∧
    u.ci.held.dirtyThreshold =
      (if n 14 2 then min ((u.imageByte 14).toNat + 256 * (u.imageByte 15).toNat) 1024
        else s.ci.held.dirtyThreshold) ∧
    (∀ k, s.alarmOn k = true → u.alarmOn k = false → (u.alarm k).raised = false) ∧
    (n 0 8 = false →
      (s.ci.part ≠ .running ∨ u.ci.held.monitoring = s.ci.held.monitoring ∨
          (u.ci.held.monitoring = true ∧ s.oq.coverage ≠ .paused) → u.oq.coverage = s.oq.coverage) ∧
      (s.ci.part = .running → s.ci.held.monitoring = true → u.ci.held.monitoring = false →
        u.oq.coverage = .paused) ∧
      (s.Resumes u → u.oq.coverage = .sighted ∧ u.cm.sightStart = s.cm.timeBase ∧ u.oq.lossMark = false ∧
        u.oq.firstLost = none)) ∧
    ((∀ c ∈ bytes, 8 ≤ c.1 ∧ c.1 < 0x80) →
      (s.Resumes u → Swept s u) ∧
      (¬ s.Resumes u → u.ft = s.ft ∧ u.tt = s.tt ∧ u.cm = s.cm ∧ u.oq.lossMark = s.oq.lossMark ∧
        u.oq.firstLost = s.oq.firstLost ∧ u.oq.reloadOwed = s.oq.reloadOwed ∧ u.ci.load = s.ci.load ∧
        u.ci.reloadWaiting = s.ci.reloadWaiting) ∧
      u.ft.plru = s.ft.plru ∧ u.ft.retire = s.ft.retire ∧
      (∀ k, k ≠ .entryFault ∨ ¬ s.Resumes u ∨ (∀ i < 1024, (s.flow i).checkOk = true) →
        u.alarm k = if s.alarmOn k = true ∧ u.alarmOn k = false then { s.alarm k with raised := false } else s.alarm k) ∧
      (∀ a, a ≠ .clampedFields → (a ≠ .entryFaults ∧ a ≠ .configReloads) ∨ ¬ s.Resumes u → u.agg a = s.agg a) ∧
      u.tau.alertKind = s.tau.alertKind ∧ u.tau.alertValue = s.tau.alertValue ∧
      u.tau.alertAsserted = s.tau.alertAsserted ∧
      ClampsNoted s u
        (clampOf (n 9 1) 9 1 (u.imageByte 9).toNat u.ci.held.pinCount s.cm.timeBase ++
         clampOf (n 14 2) 14 2 ((u.imageByte 14).toNat + 256 * (u.imageByte 15).toNat) u.ci.held.dirtyThreshold
           s.cm.timeBase) ∧
      ((s.Resumes u → risingFrom none s.ft.flows.cells = true) → u.rw = s.writerAfterGlobals u))

/-- `u` holds the consume index that an application of `bytes` to `s` names, and has its effects (R147, R148, R164). -/
def HoldsConsume (bytes : List (Nat × Byte)) (s u : State) : Prop :=
  ∀ v : Nat, v = (u.imageByte 0x80).toNat + 256 * (u.imageByte 0x81).toNat →
    (v < 480 → u.consume = v) ∧ (480 ≤ v → u.consume = s.consume) ∧
    (s.rw.drain = .stalled → v < 480 → v ≠ s.consume → (s.rw.produce + 1) % 480 ≠ v → u.rw.drain ≠ .stalled) ∧
    ((∀ c ∈ bytes, 0x80 ≤ c.1 ∧ c.1 < 0x100) →
      u.ft = s.ft ∧ u.tt = s.tt ∧ u.cm = s.cm ∧ u.oq.coverage = s.oq.coverage ∧ (∀ k, u.alarm k = s.alarm k) ∧
      (∀ a, a ≠ .clampedFields → u.agg a = s.agg a) ∧
      (s.rw.drain ≠ .stalled ∨ 480 ≤ v ∨ v = s.consume ∨ (s.rw.produce + 1) % 480 = v → u.rw = s.rw) ∧
      (s.rw.drain = .stalled → v < 480 → v ≠ s.consume → (s.rw.produce + 1) % 480 ≠ v →
        (s.rw.drainOwed = true ∨ s.ThresholdStands → u.rw = s.rw.started s.dirtyCount s.cm.timeBase) ∧
        (s.rw.drainOwed = false → ¬ s.ThresholdStands → u.rw = { s.rw with drain := .idle })) ∧
      ClampsNoted s u (clampOf true 0x80 3 v u.consume s.cm.timeBase))

/-- The slot count held for a written one (R164). -/
def heldSlots (w : Nat) : Nat :=
  if w ≤ 24 then 16 else if w ≤ 48 then 32 else if w ≤ 96 then 64 else if w ≤ 192 then 128 else 256

/-- The clamps of ring r's entry in an application of `bytes` to `s` that leads to `u`: a named base and slot count, and a
ring written enabled and held disabled that was named or was enabled before (R164, R165, log 18). -/
def ringClamps (bytes : List (Nat × Byte)) (s u : State) (r : Nat) : List ClampRecord :=
  let o := 0x100 + 16 * r
  let base := u.imageField o 4 % 2 ^ 27
  clampOf (names bytes o 4) o 10 base (base / 32 * 32) s.cm.timeBase ++
  clampOf (names bytes (o + 4) 2) (o + 4) 11 (u.imageField (o + 4) 2) (heldSlots (u.imageField (o + 4) 2))
    s.cm.timeBase ++
  clampOf ((u.imageByte (o + 6)).getLsbD 0 && (names bytes o 7 || (s.ring r).enabled)) (o + 6) 12 1
    (if (u.ring r).enabled then 1 else 0) s.cm.timeBase

/-- `u` holds the ring geometry that an application of `bytes` to `s` names, and has its effects (R84, R164, R165): all of
them where the bytes are of the geometry table alone. -/
def HoldsRings (bytes : List (Nat × Byte)) (s u : State) : Prop :=
  ((∃ k < 256, u.imageByte (0x100 + k) ≠ s.imageByte (0x100 + k)) → ∀ r < 16,
    (u.ring r).base.toNat = u.imageField (0x100 + 16 * r) 4 % 2 ^ 27 / 32 * 32 ∧
    (u.ring r).slots = heldSlots (u.imageField (0x104 + 16 * r) 2) ∧
    ((u.ring r).enabled = true ↔
      (u.imageByte (0x106 + 16 * r)).getLsbD 0 = true ∧
      (u.ring r).base.toNat + 32 * (u.ring r).slots ≤ 2 ^ 27 ∧
      ((u.ring r).base.toNat + 32 * (u.ring r).slots ≤ s.controlBase ∨
        s.controlBase + 65536 ≤ (u.ring r).base.toNat) ∧
      (∀ q < r, (u.ring q).enabled = true →
        (u.ring r).base.toNat + 32 * (u.ring r).slots ≤ (u.ring q).base.toNat ∨
        (u.ring q).base.toNat + 32 * (u.ring q).slots ≤ (u.ring r).base.toNat) ∧
      (u.ring r).slots +
        (((List.range r).filter fun q => (u.ring q).enabled).map fun q => (u.ring q).slots).sum ≤ 2048)) ∧
  ((∀ k < 256, u.imageByte (0x100 + k) = s.imageByte (0x100 + k)) → ∀ r, u.ring r = s.ring r) ∧
  (∀ r, u.ring r ≠ s.ring r → (s.ring r).enabled = true → ∀ i < (s.ring r).slots, u.slot r i = .empty) ∧
  ((∀ c ∈ bytes, 0x100 ≤ c.1) → ∀ r, u.ring r = s.ring r → ∀ i < 256, u.slot r i = s.slot r i) ∧
  ((∀ c ∈ bytes, 0x100 ≤ c.1 ∧ c.1 < 0x200) →
    (∀ (j m : Nat) (e : FlowEntry), e = s.flow j → e.checkOk = true → m = s.lostFrames u j e.generation →
      (e.valid = false ∨ m = 0 → u.flow j = e) ∧
      (e.valid = true → m ≠ 0 → u.flow j = { e with
        tallies := e.tallies.set 0 15 (min (e.tally .unresolved + m) 4294967295), dirty := true })) ∧
    (∀ j, (s.flow j).checkOk = false →
      ((∃ g, s.lostFrames u j g ≠ 0) → u.flow j = vacantEntry ((s.flow j).generation + 1)) ∧
      ((∀ g, s.lostFrames u j g = 0) → u.flow j = s.flow j)) ∧
    ClampsNoted s u ((List.range 16).flatMap (ringClamps bytes s u)))

/-- The clamps of profile p's entry in an application of `bytes` to `s` that leads to `u`: every named field that can be
clamped, and a jump limit not named whose held value changes (R164, log 19). -/
def profileClamps (bytes : List (Nat × Byte)) (s u : State) (p : Nat) : List ClampRecord :=
  let o := 0x200 + 32 * p
  clampOf (names bytes (o + 1) 1) (o + 1) 4 (u.imageByte (o + 1)).toNat (u.profile p).width s.cm.timeBase ++
  clampOf (names bytes (o + 2) 1) (o + 2) 5 (u.imageByte (o + 2)).toNat (u.profile p).window s.cm.timeBase ++
  clampOf (names bytes (o + 3) 1) (o + 3) 7 (u.imageByte (o + 3)).toNat (u.profile p).staleLimit s.cm.timeBase ++
  clampOf (names bytes (o + 4) 2 || decide ((u.profile p).jumpLimit ≠ (s.profile p).jumpLimit)) (o + 4) 6
    (u.imageField (o + 4) 2) (u.profile p).jumpLimit s.cm.timeBase ++
  clampOf (names bytes (o + 6) 1) (o + 6) 8 (u.imageByte (o + 6)).toNat (u.profile p).silenceLimit s.cm.timeBase ++
  clampOf (names bytes (o + 12) 4) (o + 12) 9 (u.imageField (o + 12) 4) (u.profile p).budget s.cm.timeBase

/-- `u` holds the profile fields that an application of `bytes` to `s` names, clamped, and the jump limit also when the
held width or window size changes (R31, R164). -/
def HoldsProfileFields (bytes : List (Nat × Byte)) (s u : State) : Prop :=
  ∀ (n : Nat → Nat → Bool) (p b : Nat) (h g : Profile), n = names bytes → p < 16 → b = 0x200 + 32 * p →
    h = s.profile p → g = u.profile p →
    g.tracked = (if n b 1 then (u.imageByte b).getLsbD 0 else h.tracked) ∧
    g.evaluates = (if n b 1 then (u.imageByte b).getLsbD 1 else h.evaluates) ∧
    (n (b + 1) 1 = false → g.width = h.width) ∧
    (n (b + 1) 1 = true → g.width = if (u.imageByte (b + 1)).toNat ≤ 8 then 8
      else if (u.imageByte (b + 1)).toNat ≤ 12 then 12 else 16) ∧
    g.window = (if n (b + 2) 1 then max 1 (min 32 (u.imageByte (b + 2)).toNat) else h.window) ∧
    g.staleLimit = (if n (b + 3) 1 then max 1 (min 15 (u.imageByte (b + 3)).toNat) else h.staleLimit) ∧
    (n (b + 4) 2 = true ∨ g.width ≠ h.width ∨ g.window ≠ h.window → g.jumpLimit =
      if u.imageField (b + 4) 2 < g.window then g.window
      else min (u.imageField (b + 4) 2) (2 ^ (g.width - 1) - 1)) ∧
    (n (b + 4) 2 = false → g.width = h.width → g.window = h.window → g.jumpLimit = h.jumpLimit) ∧
    g.silenceLimit = (if n (b + 6) 1 then max 1 (u.imageByte (b + 6)).toNat else h.silenceLimit) ∧
    g.lateLimit = (if n (b + 7) 1 then (u.imageByte (b + 7)).toNat else h.lateLimit) ∧
    g.period = (if n (b + 8) 2 then u.imageField (b + 8) 2 else h.period) ∧
    g.tolerance = (if n (b + 10) 2 then u.imageField (b + 10) 2 else h.tolerance) ∧
    g.budget = (if n (b + 12) 4 then min (u.imageField (b + 12) 4) 16777215 else h.budget) ∧
    g.watched.toNat = (if n (b + 16) 2 then u.imageField (b + 16) 2 else h.watched.toNat) ∧
    g.gapThreshold = (if n (b + 18) 1 then (u.imageByte (b + 18)).toNat else h.gapThreshold) ∧
    g.priority = (if n (b + 19) 1 then (u.imageByte (b + 19)).toNat else h.priority)

/-- A change of profiles from `s` to `u` on the entries (R76 to R79, R123): a sound valid entry of a profile whose width,
window size or evaluation changes re-anchors, with T reduced and the window resized; one that is TRACKING leaves the due
list with its period, or joins it under a new one with the tolerance held before (log 38). Either change reads every entry,
and faults those that fail their check (R51). -/
def ProfileChangesReachEntries (s u : State) : Prop :=
  (∀ (j : Nat) (e : FlowEntry) (h g : Profile) (new : Time), j < 1024 → e = s.flow j → e.checkOk = true →
    h = s.profile e.profile → g = u.profile e.profile →
    new = s.cm.timeBase + BitVec.ofNat 48 ((g.period + h.tolerance) * 1000) →
    (e.valid = false → u.flow j = e ∧ u.cm.due.find? j = s.cm.due.find? j) ∧
    (e.valid = true → u.flow j = { e with
      reanchor := e.reanchor || decide (h.width ≠ g.width ∨ h.window ≠ g.window ∨ h.evaluates ≠ g.evaluates)
      nextSeq := if h.width = g.width then e.nextSeq else e.nextSeq % 2 ^ g.width
      window := if h.window = g.window then e.window
        else e.window.take g.window ++ List.replicate (g.window - e.window.length) .unawaited
      due := if e.state = .tracking ∧ h.period ≠ 0 ∧ g.period = 0 then none
        else if e.state = .tracking ∧ h.period = 0 ∧ g.period ≠ 0 then some new else e.due } ∧
      u.cm.due.find? j = if e.state = .tracking ∧ h.period ≠ 0 ∧ g.period = 0 then none
        else if e.state = .tracking ∧ h.period = 0 ∧ g.period ≠ 0 then some new else s.cm.due.find? j)) ∧
  ∀ (changed : Nat → Prop), changed = (fun p => (s.profile p).width ≠ (u.profile p).width ∨
      (s.profile p).window ≠ (u.profile p).window ∨ (s.profile p).evaluates ≠ (u.profile p).evaluates ∨
      (s.profile p).period ≠ (u.profile p).period) →
    ∀ j < 1024, (s.flow j).checkOk = false →
      ((∃ p < 16, changed p) → u.flow j = vacantEntry ((s.flow j).generation + 1) ∧ u.cm.due.find? j = none) ∧
      ((∀ p < 16, ¬ changed p) → u.flow j = s.flow j ∧ u.cm.due.find? j = s.cm.due.find? j)

/-- `u` holds the classifier entries that an application of `bytes` to `s` names (R29, section 10.2). -/
def HoldsClassifier (bytes : List (Nat × Byte)) (s u : State) : Prop :=
  ∀ (c b : Nat), c < 32 → b = 0x400 + 8 * c →
    (names bytes b 8 = false → u.classifierEntry c = s.classifierEntry c) ∧
    (names bytes b 8 = true →
      (u.classifierEntry c).enabled = (u.imageByte (b + 7)).getLsbD 7 ∧
      (u.classifierEntry c).portMask.toNat = u.imageField b 2 ∧
      (u.classifierEntry c).tagValue.toNat = u.imageField (b + 2) 3 % 2 ^ 20 ∧
      (u.classifierEntry c).tagMask.toNat = u.imageField (b + 4) 3 / 2 ^ 4 ∧
      (u.classifierEntry c).profile = (u.imageByte (b + 7)).toNat % 16)

/-- `u` holds the profile fields and classifier entries that an application of `bytes` to `s` names, and has their effects:
all of them where the bytes are of the profile table alone. -/
def HoldsProfiles (bytes : List (Nat × Byte)) (s u : State) : Prop :=
  HoldsProfileFields bytes s u ∧ HoldsClassifier bytes s u ∧
  ((∀ c ∈ bytes, 0x200 ≤ c.1 ∧ c.1 < 0x400) →
    ProfileChangesReachEntries s u ∧ ClampsNoted s u ((List.range 16).flatMap (profileClamps bytes s u)))

/-! ## Layouts -/

/-- Bytes hold the low `n` bytes of a number from offset `o` on, the least significant first (chapter 10, head). -/
def FieldAt (bytes : List Byte) (o n v : Nat) : Prop := ∀ k < n, bytes[o + k]? = some (BitVec.ofNat 8 (v / 256 ^ k))

/-- Bit `b` of the field at offset `o`, as the layouts number bits (chapter 10, head). -/
def BitAt (bytes : List Byte) (o b : Nat) (v : Prop) : Prop :=
  ∃ x, bytes[o + b / 8]? = some x ∧ (x.getLsbD (b % 8) = true ↔ v)

/-- The transaction is the burst write to an address that carries the 32 bytes from offset `o` on (R1). -/
def CarriesBlock (t : Option Transaction) (a : Addr) (bytes : List Byte) (o : Nat) : Prop :=
  ∃ w0 w1 w2 w3, t = some (.burstWrite a w0 w1 w2 w3) ∧ ∀ i < 8,
    bytes[o + i]? = some (w0.extractLsb' (8 * i) 8) ∧ bytes[o + 8 + i]? = some (w1.extractLsb' (8 * i) 8) ∧
    bytes[o + 16 + i]? = some (w2.extractLsb' (8 * i) 8) ∧ bytes[o + 24 + i]? = some (w3.extractLsb' (8 * i) 8)

/-- The layout of a report record (section 10.4, R160, R178). -/
def RecordLayout (x : ReportRecord) (b : List Byte) : Prop :=
  b.length = 128 ∧
  FieldAt b 0 1 (match x.type with | .periodic => 1 | .retire _ => 2 | .interrogate _ => 3) ∧
  FieldAt b 1 1 (match x.entry.state with | .vacant => 0 | .tracking => 1 | .silent => 2) ∧
  BitAt b 2 0 (∃ t, x.entry.tally t = 4294967295) ∧ BitAt b 2 1 (x.entry.reanchor = true) ∧
  BitAt b 2 2 (x.entry.departed ≠ none) ∧ BitAt b 2 3 (x.entry.due ≠ none) ∧
  (∀ k, 4 ≤ k → k < 8 → BitAt b 2 k False) ∧
  FieldAt b 3 1 (match x.type with
    | .periodic => 0 | .retire .replaced => 1 | .retire .commanded => 2 | .interrogate _ => 0) ∧
  FieldAt b 4 2 x.index ∧ FieldAt b 6 1 x.entry.generation.toNat ∧ FieldAt b 7 1 x.entry.profile ∧
  FieldAt b 8 4 (x.entry.tag.toNat + 2 ^ 20 * x.entry.port.toNat) ∧ FieldAt b 12 2 x.drainNumber.toNat ∧
  FieldAt b 14 1 (match x.type with | .periodic => 0 | .retire _ => 0 | .interrogate tag => tag.toNat) ∧
  FieldAt b 15 1 0 ∧ FieldAt b 16 6 x.time.toNat ∧ FieldAt b 22 10 0 ∧
  FieldAt b 32 4 (x.entry.tally .accepted) ∧ FieldAt b 36 4 (x.entry.tally .anchors) ∧
  FieldAt b 40 4 (x.entry.tally .inOrder) ∧ FieldAt b 44 4 (x.entry.tally .ahead) ∧
  FieldAt b 48 4 (x.entry.tally .reorderedIn) ∧ FieldAt b 52 4 (x.entry.tally .duplicates) ∧
  FieldAt b 56 4 (x.entry.tally .stale) ∧ FieldAt b 60 4 (x.entry.tally .unsequenced) ∧
  FieldAt b 64 4 (x.entry.tally .gapDrops) ∧ FieldAt b 68 4 (x.entry.tally .discards) ∧
  FieldAt b 72 4 (x.entry.tally .overruns) ∧ FieldAt b 76 4 (x.entry.tally .lateResidence) ∧
  FieldAt b 80 4 (x.entry.tally .cadenceMisses) ∧ FieldAt b 84 4 (x.entry.tally .reorderedOut) ∧
  FieldAt b 88 4 (x.entry.tally .silences) ∧ FieldAt b 92 4 (x.entry.tally .unresolved) ∧
  FieldAt b 96 2 x.entry.nextSeq ∧ FieldAt b 98 1 x.entry.staleRun ∧ FieldAt b 99 1 x.entry.window.length ∧
  (∀ k < 32, BitAt b 100 k (x.entry.window[k]? = some .received) ∧
    BitAt b 104 k (x.entry.window[k]? = some .missing)) ∧
  FieldAt b 108 2 (match x.entry.departed with | none => 0 | some d => d) ∧
  FieldAt b 110 1 x.entry.misses ∧ FieldAt b 111 1 x.entry.lateRun ∧ FieldAt b 112 4 x.entry.worstResidence ∧
  FieldAt b 116 2 x.entry.faultMask.toNat ∧ FieldAt b 118 2 0 ∧
  FieldAt b 120 6 (match x.entry.due with | none => 0 | some d => d.toNat) ∧ FieldAt b 126 2 0

/-- The layout of the status block gathered from a state (section 10.3, R151, R178). Aggregate n stands at
0x28 + 4 × (n − 1), the word of the alarm kind of priority k at 0x68 + 8 × (k − 1). -/
def StatusLayout (s : State) (b : List Byte) : Prop :=
  b.length = 256 ∧
  FieldAt b 0x00 6 s.cm.timeBase.toNat ∧
  FieldAt b 0x06 1 (match s.ci.part with | .offline => 0 | .loading => 1 | .running => 2) ∧
  FieldAt b 0x07 1 (match s.oq.coverage with | .sighted => 0 | .blind => 1 | .paused => 2) ∧
  FieldAt b 0x08 8 s.rw.produce ∧
  FieldAt b 0x10 2 s.consume ∧ FieldAt b 0x12 2 s.dirtyCount ∧ FieldAt b 0x14 1 s.ft.retire.length ∧
  FieldAt b 0x15 1 (match s.rw.drain with | .idle => 0 | .draining => 1 | .stalled => 2) ∧
  FieldAt b 0x16 2 (if s.rw.drainOwed then 1 else 0) ∧
  FieldAt b 0x18 2 s.rw.drainNumber.toNat ∧
  FieldAt b 0x1A 1 (match s.ci.lastResult with | none => 0 | some r => r.tag.toNat) ∧
  FieldAt b 0x1B 1 (match s.ci.lastResult with
    | none => 0
    | some r =>
      match r.code with | .done => 1 | .clamped => 2 | .busy => 3 | .unknown => 4 | .badArgument => 5 | .noRoom => 6) ∧
  FieldAt b 0x1C 4 0 ∧ FieldAt b 0x20 8 (match s.ci.lastResult with | none => 0 | some r => r.time.toNat) ∧
  FieldAt b 0x28 4 (s.agg .unlistedArrivals) ∧ FieldAt b 0x2C 4 (s.agg .unlistedDiscards) ∧
  FieldAt b 0x30 4 (s.agg .unlistedOverruns) ∧ FieldAt b 0x34 4 (s.agg .unlistedLate) ∧
  FieldAt b 0x38 4 (s.agg .orphanVerdicts) ∧ FieldAt b 0x3C 4 (s.agg .strayDequeues) ∧
  FieldAt b 0x40 4 (s.agg .strayCompletions) ∧ FieldAt b 0x44 4 (s.agg .lostObservations) ∧
  FieldAt b 0x48 4 (s.agg .blindIntervals) ∧ FieldAt b 0x4C 4 (s.agg .allocationFailures) ∧
  FieldAt b 0x50 4 (s.agg .evictions) ∧ FieldAt b 0x54 4 (s.agg .entryFaults) ∧
  FieldAt b 0x58 4 (s.agg .clampedFields) ∧ FieldAt b 0x5C 4 (s.agg .reportStalls) ∧
  FieldAt b 0x60 4 (s.agg .lostCommands) ∧ FieldAt b 0x64 4 (s.agg .configReloads) ∧
  (∀ k : AlarmKind, ∀ o, o = 0x60 + 8 * k.priority →
    FieldAt b o 4 (s.alarm k).first.toNat ∧ FieldAt b (o + 4) 2 (s.alarm k).occurrences ∧
    BitAt b (o + 6) 0 (s.alarmOn k = true) ∧ BitAt b (o + 6) 1 ((s.alarm k).held = true) ∧
    BitAt b (o + 6) 2 ((s.alarm k).raised = true) ∧ (∀ i, 3 ≤ i → i < 16 → BitAt b (o + 6) i False)) ∧
  FieldAt b 0xA8 4 (match s.tau.alertKind with
    | none => 0 | some .entryFault => 1 | some .blind => 2 | some .overrun => 3 | some .gapBurst => 4
    | some .silence => 5 | some .lateRun => 6 | some .tableFull => 7 | some .reportFull => 8) ∧
  FieldAt b 0xAC 4 s.tau.alertValue.toNat ∧
  FieldAt b 0xB0 2 (match s.ci.lastClamp with | none => 0 | some c => c.offset) ∧
  FieldAt b 0xB2 1 (match s.ci.lastClamp with | none => 0 | some c => c.field) ∧
  FieldAt b 0xB3 1 (match s.ci.lastClamp with | none => 0 | some _ => 1) ∧ FieldAt b 0xB4 4 0 ∧
  FieldAt b 0xB8 4 (match s.ci.lastClamp with | none => 0 | some c => c.written) ∧
  FieldAt b 0xBC 4 (match s.ci.lastClamp with | none => 0 | some c => c.held) ∧
  FieldAt b 0xC0 8 (match s.ci.lastClamp with | none => 0 | some c => c.time.toNat) ∧
  FieldAt b 0xC8 48 0 ∧ FieldAt b 0xF8 8 s.cm.timeBase.toNat

end Sys2Proof.Machine
end

