-- ==== Sys2Proof/Certificates/Slice0/Obligations.lean ====
section
/-! DEFINITION. The statements for the provers. In a statement about an event, `u` is the state its own effect leaves and
`u.settle s` the state at the end of the event, after alert record, threshold test and job selection
(EndOfEventKeepsTheLink, SelectionTakesHighestPriority and the invariants say what those do). A control write and a load
read settle against the state their settings left, in which the threshold has been tested already (log 11). -/

open Sys2Proof Sys2Proof.Machine

/-! ## The step -/

/-- A step carries out the front command on the state with the queue's rest; an empty queue idles (log 1). -/
def Obligations.StepRunsTheFrontCommand : Prop :=
  (∀ (s : State) (c : Instr) (rest : List Instr), s.pending = c :: rest → step s = exec c { s with pending := rest }) ∧
  ∀ s : State, s.pending = [] → step s = .next s

/-- What the end of an event leaves alone: link, memory, slots, waiting commands, the time base, the queue, the
replacement order, and all of CI that the Report Writer does not own. In RUNNING, an event that leaves the queue empty
with the loss mark clear ends BLIND (R26): the sight start is the time base (R121), STATUS is requested or current. The
alert record follows the table (R143); a dirty count that the event raised to the threshold triggers a drain (R152); then
a job is selected (R149). This order, and that the test comes once, after the event's effects, are the model's reading
(logs 10 and 11). -/
def Obligations.EndOfEventKeepsTheLink : Prop :=
  (∀ s b : State,
    SameLink s (s.settle b) ∧ (s.settle b).tt = s.tt ∧ (s.settle b).cm.timeBase = s.cm.timeBase ∧
    (s.settle b).oq.queue = s.oq.queue ∧ (s.settle b).oq.lossMark = s.oq.lossMark ∧
    (s.settle b).ft.plru = s.ft.plru ∧ (s.settle b).ft.retire = s.ft.retire ∧
    (s.settle b).ci.image = s.ci.image ∧ (s.settle b).ci.held = s.ci.held ∧ (s.settle b).ci.part = s.ci.part ∧
    (s.settle b).ci.lastTag = s.ci.lastTag ∧ (s.settle b).ci.lastClamp = s.ci.lastClamp ∧
    (s.settle b).ci.loadReads = s.ci.loadReads ∧ (s.settle b).ci.reloadWaiting = s.ci.reloadWaiting ∧
    (s.settle b).rw.produce = s.rw.produce ∧
    (∀ i, (s.flow i).checkOk = true → ∃ d, (s.settle b).flow i = { s.flow i with dirty := d }) ∧
    (s.ci.part = .running → s.oq.coverage = .blind → s.oq.queue = [] → s.oq.lossMark = false →
      (s.settle b).oq.coverage = .sighted ∧ (s.settle b).cm.sightStart = s.cm.timeBase ∧
      ((s.settle b).rw.statusPending = true ∨ ∃ j, (s.settle b).rw.job = some j ∧ j.kind = .status))) ∧
  ∀ s b : State, ∃ c r d : State, s.settle b = d.select ∧ AlertRefreshed c r ∧
    (s.BlindEnds → c = { s with
      oq := { s.oq with coverage := .sighted }
      cm := { s.cm with sightStart := s.cm.timeBase }
      rw := { s.rw with statusPending := true } }) ∧
    (¬ s.BlindEnds → c = s) ∧
    (b.dirtyCount < s.dirtyCount → s.ThresholdStands →
      d = { r with rw := r.rw.triggered s.dirtyCount s.cm.timeBase }) ∧
    (s.dirtyCount ≤ b.dirtyCount ∨ ¬ s.ThresholdStands → d = r)

/-! ## Resets and time -/

/-- The values the spec states for RESET_N asserted, as State.reset holds them. -/
def Obligations.ResetHoldsTheStatedValues : Prop :=
  State.reset.ci.part = .offline ∧ State.reset.fp.starvation = 0 ∧
  State.reset.oq.queue = [] ∧ State.reset.oq.coverage = .sighted ∧ State.reset.oq.lossMark = false ∧
  State.reset.oq.reloadOwed = false ∧ State.reset.oq.firstLost = none ∧
  (∀ i, (State.reset.flow i).state = .vacant ∧ (State.reset.flow i).generation = 0#8) ∧
  (∀ n, State.reset.plruOf n = { b0 := false, b1 := false, b2 := false }) ∧ State.reset.ft.retire = [] ∧
  (∀ r i, State.reset.slot r i = .empty) ∧ (∀ r, (State.reset.ring r).enabled = false) ∧
  State.reset.cm.timeBase = 0#48 ∧ State.reset.cm.due.cells = [] ∧ State.reset.cm.sightStart = 0#48 ∧
  (∀ a, State.reset.agg a = 0) ∧
  (∀ k, State.reset.alarmOn k = false ∧ State.reset.alarm k = { held := false, raised := false, first := 0#32, occurrences := 0 }) ∧
  State.reset.tau.alertKind = none ∧ State.reset.tau.alertValue = 0#32 ∧ State.reset.tau.alertAsserted = false ∧
  State.reset.rw.produce = 0 ∧ State.reset.consume = 0 ∧ State.reset.rw.drain = .idle ∧
  State.reset.rw.drainNumber = 0#16 ∧ State.reset.rw.drainOwed = false ∧ State.reset.rw.statusPending = false ∧
  State.reset.rw.budget = 0 ∧ State.reset.rw.built = 0 ∧ State.reset.rw.written = [] ∧
  State.reset.dirtyCount = 0 ∧
  State.reset.ci.held.monitoring = false ∧ State.reset.ci.held.freeze = false ∧ State.reset.ci.held.pinCount = 0 ∧
  State.reset.ci.held.interval = 0 ∧ State.reset.ci.held.dirtyThreshold = 0 ∧
  State.reset.rw.interrogate = none ∧ State.reset.rw.job = none ∧
  (∀ o, State.reset.imageByte o = 0#8) ∧
  (∀ p, State.reset.profile p =
    { tracked := false, evaluates := false, width := 8, window := 1, staleLimit := 1, jumpLimit := 1,
      silenceLimit := 1, lateLimit := 0, period := 0, tolerance := 0, budget := 0, watched := 0#16, gapThreshold := 0,
      priority := 0 }) ∧
  (∀ n, (State.reset.classifierEntry n).enabled = false) ∧
  State.reset.ci.lastTag = 0#8 ∧ State.reset.ci.inFlight = none ∧ State.reset.ci.lastResult = none ∧
  State.reset.ci.lastClamp = none ∧ State.reset.ci.load = none ∧ State.reset.ci.loadReads = [] ∧
  State.reset.ci.reloadWaiting = none

/-- RESET_N_ASSERTED (R11): every block takes its reset values (R27, R53, R107, R126, R145, R161, R175), among them RW's
interval base 0 and clear fired flag, which R161 does not give and the model chooses (log 22); memory, the forwarded transaction and the forwarded
read stay; a started injected transaction completes without its notice. That the straps keep their value from then to the
next release is the model's choice (log 39). RESET_N_RELEASED (R12): in OFFLINE the straps are
sampled, the time base starts from 0, the starvation count is 0 and an INITIAL load begins in LOADING; all else stands.
With RESET_N not asserted there is no release (log 2). -/
def Obligations.ResetNHoldsAndReleasesEveryBlock : Prop :=
  (∀ s : State, ∃ u : State, exec .resetNAsserted s = .next u ∧ u.mem = s.mem ∧ u.pending = s.pending ∧
    u.oq = State.reset.oq ∧ u.ft = State.reset.ft ∧ u.tt = State.reset.tt ∧ u.cm = State.reset.cm ∧
    u.tau = State.reset.tau ∧ u.rw = State.reset.rw ∧ u.ci = State.reset.ci ∧ u.fp.starvation = 0 ∧
    u.fp.straps = s.fp.straps ∧ u.fp.slPort = s.fp.slPort ∧ u.fp.slReturn = s.fp.slReturn ∧
    (∀ t, s.fp.request = some (.forwarded t) → u.fp.request = some (.forwarded t)) ∧
    (∀ t l, s.fp.request = some (.injected t l) → u.fp.request = some (.injected t false)) ∧
    (s.fp.request = none → u.fp.request = none) ∧
    (∀ r, s.fp.ret = some r → r.owner = .switchSide → u.fp.ret = some r) ∧
    (∀ r, s.fp.ret = some r → r.owner ≠ .switchSide → u.fp.ret = some { r with owner := .dropped }) ∧
    (s.fp.ret = none → u.fp.ret = none)) ∧
  ∀ (s : State) (straps : BitVec 4),
    (s.ci.part = .offline → ∃ u : State, exec (.resetNReleased straps) s = .next (u.settle s) ∧
      u.fp = { s.fp with straps := straps, starvation := 0 } ∧ u.controlBase = straps.toNat * 8388608 ∧
      u.cm = { s.cm with timeBase := 0#48 } ∧
      u.ci = { s.ci with part := .loading, load := some { kind := .initial, issued := false }, loadReads := [] } ∧
      u.mem = s.mem ∧ u.oq = s.oq ∧ u.ft = s.ft ∧ u.tt = s.tt ∧ u.tau = s.tau ∧ u.rw = s.rw ∧ u.pending = s.pending) ∧
    (s.ci.part ≠ .offline → exec (.resetNReleased straps) s = .next s)

/-- TIME_BASE_ADVANCE (R109): one nanosecond, wrapping at 2^48; held while RESET_N is asserted; nothing else changes. No
other command but RESET_N's two moves the time base. -/
def Obligations.TimeBaseFollowsTheReference : Prop :=
  (∀ s : State,
    (s.ci.part ≠ .offline → exec .timeBaseAdvance s =
      .next { s with cm := { s.cm with timeBase := BitVec.ofNat 48 ((s.cm.timeBase.toNat + 1) % 2 ^ 48) } }) ∧
    (s.ci.part = .offline → exec .timeBaseAdvance s = .next s)) ∧
  ∀ (c : Instr) (s u : State), exec c s = .next u →
    c ≠ .timeBaseAdvance → c ≠ .resetNAsserted → (∀ straps, c ≠ .resetNReleased straps) →
    u.cm.timeBase = s.cm.timeBase

/-- Times are compared by their difference modulo 2^48, and a duration is that difference (R110). -/
def Obligations.TimesCompareModulo : Prop :=
  ∀ t1 t2 : Time, (atOrAfter t1 t2 = true ↔ (t1.toNat + 2 ^ 48 - t2.toNat) % 2 ^ 48 < 2 ^ 47) ∧
    (t1 ≠ t2 → (t1 - t2).toNat ≠ 2 ^ 47 → (atOrAfter t1 t2 = true ↔ atOrAfter t2 t1 = false)) ∧
    atOrAfter t1 t1 = true ∧ residence t2 t1 = (t1.toNat + 2 ^ 48 - t2.toNat) % 2 ^ 48

/-! ## The forwarding path -/

/-- SLOT_GRANT (R7, R8): with the request direction free, the four cases of the grant rule and the starvation count of
each; with it held, the switch side only presents. `p` is what waits at the port; nothing else changes. That a port
already occupied keeps its transaction and the newly presented one is not taken in, and that a transaction newly presented
counts as waiting beside an injection that already waits, are the model's choices (log 4). A presented transaction without
its kind's alignment is no transaction of the link and is refused (R1; the model's choice, log 5). -/
def Obligations.SlotGrantFollowsTheGrantRule : Prop :=
  (∀ (s : State) (t : Transaction), exec (.slotGrant (some t)) s = .refused .misalignedTransaction ↔
    match t with
    | .singleRead a => a.toNat % 8 ≠ 0
    | .burstRead a _ => a.toNat % 32 ≠ 0
    | .singleWrite a _ _ => a.toNat % 8 ≠ 0
    | .burstWrite a _ _ _ _ => a.toNat % 32 ≠ 0) ∧
  ∀ (s : State) (presented p : Option Transaction), (Instr.slotGrant presented).wellFormed = true →
    p = (match s.fp.slPort with | some w => some w | none => presented) →
    (s.fp.request ≠ none → exec (.slotGrant presented) s = .next { s with fp := { s.fp with slPort := p } }) ∧
    (s.fp.request = none → p = none → s.waitingInjection = none →
      exec (.slotGrant presented) s = .next { s with fp := { s.fp with slPort := none } }) ∧
    (∀ t, s.fp.request = none → p = some t → s.waitingInjection = none →
      exec (.slotGrant presented) s =
        .next { s with fp := { s.fp with slPort := none, request := some (.forwarded t) } }) ∧
    (∀ t i, s.fp.request = none → p = some t → s.waitingInjection = some i → s.fp.starvation < 16 →
      exec (.slotGrant presented) s =
        .next { s with fp := { s.fp with
          slPort := none, request := some (.forwarded t), starvation := s.fp.starvation + 1 } }) ∧
    (∀ i, s.fp.request = none → s.waitingInjection = some i → (p = none ∨ 16 ≤ s.fp.starvation) →
      exec (.slotGrant presented) s =
        .next { s with
          fp := { s.fp with slPort := p, request := some (.injected i true), starvation := 0 }
          rw := { s.rw with job := s.rw.job.map fun j => { j with started := true } } })

/-- A forwarded write is taken (R1, R3): memory changes exactly the named lanes of a single write's word, or all 32 bytes
of a burst write's block; the request direction is free; the return direction and the starvation count stand. -/
def Obligations.ForwardedWriteChangesExactlyItsBytes : Prop :=
  ∀ (s : State) (t : Transaction), s.fp.request = some (.forwarded t) → t.isRead = false →
    ∃ u : State, exec .transactionTaken s = .next (u.settle s) ∧ u.pending = s.pending ∧
      u.fp = { s.fp with request := none, place := s.fp.place + 1 } ∧
      (∀ a w m, t = .singleWrite a w m →
        (∀ k < 8, u.memByte (a.toNat + k) = if m.getLsbD k then w.extractLsb' (8 * k) 8 else s.memByte (a.toNat + k)) ∧
        ∀ b, (b < a.toNat ∨ a.toNat + 8 ≤ b) → u.memByte b = s.memByte b) ∧
      (∀ a w0 w1 w2 w3, t = .burstWrite a w0 w1 w2 w3 →
        (∀ k < 8, u.memByte (a.toNat + k) = w0.extractLsb' (8 * k) 8 ∧
          u.memByte (a.toNat + 8 + k) = w1.extractLsb' (8 * k) 8 ∧
          u.memByte (a.toNat + 16 + k) = w2.extractLsb' (8 * k) 8 ∧
          u.memByte (a.toNat + 24 + k) = w3.extractLsb' (8 * k) 8) ∧
        ∀ b, (b < a.toNat ∨ a.toNat + 32 ≤ b) → u.memByte b = s.memByte b)

/-- A forwarded read is taken once the return direction is free (R5): its words, as memory holds them now (R3, R10), go
to the return direction under the switch side's name, and memory stands. Until then it waits. A burst
read returns its block in wrapped order (R2). -/
def Obligations.ForwardedReadTakesTheReturnDirection : Prop :=
  ∀ (s : State) (t : Transaction), s.fp.request = some (.forwarded t) → t.isRead = true →
    (s.fp.ret = none → ∃ u : State, exec .transactionTaken s = .next (u.settle s) ∧ u.mem = s.mem ∧ u.pending = s.pending ∧
      u.fp = { s.fp with
        request := none, place := s.fp.place + 1,
        ret := some { owner := .switchSide, address := t.address, words := s.readWords t, place := s.fp.place } }) ∧
    (s.fp.ret ≠ none → exec .transactionTaken s = .next s) ∧
    (∀ a, t = .singleRead a → s.readWords t = [s.memWord a.toNat]) ∧
    ∀ a st, t = .burstRead a st → s.readWords t =
      [s.memWord (a.toNat + 8 * st.toNat), s.memWord (a.toNat + 8 * ((st.toNat + 1) % 4)),
       s.memWord (a.toNat + 8 * ((st.toNat + 2) % 4)), s.memWord (a.toNat + 8 * ((st.toNat + 3) % 4))]

/-- FORWARDED_READ_RETURN (R5): the words go to the switch side in order and the return direction is free.
INJECTED_READ_TAKEN (R9): the accepted injected read frees the request direction while its data still returns, to its
job or, if that is gone, to nobody (R11). Nothing else changes at either. -/
def Obligations.ReadsHandOverTheirDirections : Prop :=
  (∀ (s : State) (r : ReturnRead), s.fp.ret = some r → r.owner = .switchSide →
    exec .forwardedReadReturn s = .next { s with fp := { s.fp with ret := none, slReturn := r.words } }) ∧
  ∀ (s : State) (t : Transaction) (live : Bool), s.fp.request = some (.injected t live) → t.isRead = true →
    s.fp.ret = none →
    exec .injectedReadTaken s = .next { s with fp := { s.fp with
      request := none, place := s.fp.place + 1,
      ret := some { owner := if live then .job else .dropped, address := t.address, words := s.readWords t,
                    place := s.fp.place } } }

/-- INJECTED_TRANSACTION_COMPLETE, a write (R6, R150, R158, R159): it changes memory as R1 says; the job goes on to its
next transaction, or ends: P advances after a record job, a RETIRE record leaves the buffer, an INTERROGATE answers
DONE. A write whose job is gone changes only memory and the link (R11, R13). -/
def Obligations.InjectedWriteCompletesItsTransaction : Prop :=
  ∀ (s : State) (t : Transaction) (live : Bool), s.fp.request = some (.injected t live) → t.isRead = false →
    (∀ r, s.fp.ret = some r → r.owner = .switchSide) →
    ∃ u : State, exec .injectedTransactionComplete s = .next (u.settle s) ∧ u.mem = (s.memTake t).mem ∧ u.pending = s.pending ∧
      u.fp = { s.fp with request := none, place := s.fp.place + 1 } ∧
      u.oq = s.oq ∧ u.tt = s.tt ∧ u.cm = s.cm ∧ u.tau = s.tau ∧ u.ft.flows = s.ft.flows ∧ u.ft.plru = s.ft.plru ∧
      (live = false → u.rw = s.rw ∧ u.ft = s.ft ∧ u.ci = s.ci) ∧
      ∀ j, live = true → s.rw.job = some j →
        (j.todo.tail ≠ [] → u.rw = { s.rw with job := some { j with todo := j.todo.tail, started := false } } ∧
          u.ft = s.ft ∧ u.ci = s.ci) ∧
        (j.todo.tail = [] → u.rw.job = none ∧
          (j.kind ∈ [JobKind.load, .status] → u.rw.produce = s.rw.produce ∧ u.ft = s.ft ∧ u.ci = s.ci) ∧
          (j.kind ∈ [JobKind.interrogate, .retire, .drain] → u.rw.produce = (s.rw.produce + 1) % 480) ∧
          (j.kind = .retire → u.ft.retire = s.ft.retire.tail ∧ u.ci = s.ci) ∧
          (j.kind = .drain → u.ft = s.ft ∧ u.ci = s.ci) ∧
          (j.kind = .interrogate → u.ft = s.ft ∧ u.ci.inFlight = none ∧
            u.ci.lastResult = some { tag := s.inFlightTag, code := .done, time := s.now }))

/-- INJECTED_TRANSACTION_COMPLETE, a read (R5, R6): the words of a live job's read wait to be applied, at its control
offset, and the job goes on or ends; the words of a read whose job is gone are discarded. Memory stands. -/
def Obligations.InjectedReadCompletesItsTransaction : Prop :=
  ∀ (s : State) (r : ReturnRead), s.fp.ret = some r → r.owner ≠ .switchSide →
    ∃ u : State, exec .injectedTransactionComplete s = .next (u.settle s) ∧ u.mem = s.mem ∧ u.pending = s.pending ∧
      u.fp = { s.fp with ret := none } ∧ u.oq = s.oq ∧ u.tt = s.tt ∧ u.cm = s.cm ∧ u.tau = s.tau ∧
      (r.owner = .dropped → u.rw = s.rw ∧ u.ci = s.ci ∧ u.ft = s.ft) ∧
      (r.owner = .job → u.ci.loadReads = s.ci.loadReads ++
        [{ offset := r.address.toNat - s.controlBase, words := r.words, place := r.place }]) ∧
      ∀ j, r.owner = .job → s.rw.job = some j → j.kind = .load →
        u.rw.job = if j.todo.tail = [] then none else some { j with todo := j.todo.tail, started := false }

/-- Memory changes only at a taken point (R3, R10): no other command changes a byte. -/
def Obligations.MemoryChangesOnlyWhenTaken : Prop :=
  ∀ (c : Instr) (s u : State), exec c s = .next u → c ≠ .transactionTaken → c ≠ .injectedTransactionComplete →
    u.mem = s.mem

/-! ## Observations and coverage -/

/-- The address of a taken transaction lies in the window of an enabled ring, at the slot of its block (R14), the lowest
such ring; where no ring is found, no enabled ring's window covers it. -/
def Obligations.RingWindowsCoverTheirSlots : Prop :=
  ∀ (s : State) (a : Addr),
    (∀ r i, s.findSlot a = some (r, i) → r < 16 ∧ (s.ring r).enabled = true ∧
      (s.ring r).base.toNat + 32 * i ≤ a.toNat ∧ a.toNat < (s.ring r).base.toNat + 32 * i + 32 ∧ i < (s.ring r).slots ∧
      ∀ q < r, (s.ring q).enabled = true →
        a.toNat < (s.ring q).base.toNat ∨ (s.ring q).base.toNat + 32 * (s.ring q).slots ≤ a.toNat) ∧
    (s.findSlot a = none → ∀ r < 16, (s.ring r).enabled = true →
      a.toNat < (s.ring r).base.toNat ∨ (s.ring r).base.toNat + 32 * (s.ring r).slots ≤ a.toNat)

/-- What the decoder makes of a transaction in a ring window and in the control window (R15, R16, R176). -/
def Obligations.DecoderKeepsTheStatedShapes : Prop :=
  (∀ (s : State) (a : Addr) (r i : Nat), s.findSlot a = some (r, i) →
    (∀ w0 w1 w2 w3, s.decode (.burstWrite a w0 w1 w2 w3) = some
      (.enqueue (w0.extractLsb' 20 4) (w0.extractLsb' 0 20) (w0.extractLsb' 24 4) (w0.extractLsb' 32 16) (w0.getLsbD 48),
        some r)) ∧
    (∀ st, s.decode (.burstRead a st) = some (.dequeue, some r)) ∧
    (a.toNat % 32 = 8 → s.decode (.singleRead a) = some (.dequeue, some r)) ∧
    (a.toNat % 32 ≠ 8 → s.decode (.singleRead a) = none) ∧
    (∀ w m, a.toNat % 32 = 24 → m.getLsbD 0 = true →
      s.decode (.singleWrite a w m) = some (.completion (w.extractLsb' 0 3), some r)) ∧
    (∀ w m, a.toNat % 32 ≠ 24 ∨ m.getLsbD 0 = false → s.decode (.singleWrite a w m) = none)) ∧
  (∀ (s : State) (a : Addr) (o : Nat), s.findSlot a = none → a.toNat = s.controlBase + o → o < 0x500 →
    (∀ w0 w1 w2 w3, s.decode (.burstWrite a w0 w1 w2 w3) =
      some (.controlWrite o [w0, w1, w2, w3] [255#8, 255#8, 255#8, 255#8], none)) ∧
    (∀ w m, m ≠ 0#8 → s.decode (.singleWrite a w m) = some (.controlWrite o [w] [m], none)) ∧
    (∀ w, s.decode (.singleWrite a w 0#8) = none) ∧ s.decode (.singleRead a) = none ∧
    ∀ st, s.decode (.burstRead a st) = none) ∧
  ∀ (s : State) (t : Transaction), s.findSlot t.address = none →
    (t.address.toNat < s.controlBase ∨ s.controlBase + 0x500 ≤ t.address.toNat) → s.decode t = none

/-- A taken transaction that is decoded and admitted with room in the queue joins its tail, stamped, with follows-loss as
the loss mark says, which is cleared (R17, R18, R22). One that is not decoded, or whose kind is not admitted, is
forwarded and nothing more (R14, R17). The kinds admitted are those of R17's table: none in OFFLINE, CONTROL_WRITE alone
in LOADING and while PAUSED, every kind in RUNNING while SIGHTED or BLIND. -/
def Obligations.AdmittedObservationJoinsTheTail : Prop :=
  (∀ (s : State) (b : ObservationBody),
    (s.ci.part = .offline → s.admits b = false) ∧
    (s.ci.part = .loading → (s.admits b = true ↔ ∃ offset data lanes, b = .controlWrite offset data lanes)) ∧
    (s.ci.part = .running → s.oq.coverage = .paused →
      (s.admits b = true ↔ ∃ offset data lanes, b = .controlWrite offset data lanes)) ∧
    (s.ci.part = .running → s.oq.coverage = .sighted ∨ s.oq.coverage = .blind → s.admits b = true)) ∧
  ∀ (s : State) (t : Transaction), s.Takeable t →
    (∀ b ring, s.decode t = some (b, ring) → s.admits b = true → s.oq.queue.length < 64 →
      ∃ u : State, exec .transactionTaken s = .next (u.settle s) ∧
        u.oq = { s.oq with
          queue := s.oq.queue ++ [{ body := b, stamp := s.cm.timeBase, followsLoss := s.oq.lossMark,
                                    address := t.address, ring := ring, place := s.fp.place }]
          lossMark := false } ∧
        u.ft = s.ft ∧ u.tt = s.tt ∧ u.cm = s.cm ∧ u.tau = s.tau ∧ u.rw = s.rw ∧ u.ci = s.ci ∧ u.pending = s.pending) ∧
    ((∀ b ring, s.decode t = some (b, ring) → s.admits b = false) →
      ∃ u : State, exec .transactionTaken s = .next (u.settle s) ∧ u.oq = s.oq ∧ u.ft = s.ft ∧ u.tt = s.tt ∧
        u.cm = s.cm ∧ u.tau = s.tau ∧ u.rw = s.rw ∧ u.ci = s.ci ∧ u.pending = s.pending)

/-- An admitted kind that finds 64 records is lost (R21): the queue stands, the loss mark and the first-lost address are
set, the losses count, a lost setting is owed a reload, and in RUNNING a SIGHTED part becomes BLIND. -/
def Obligations.FullQueueLosesTheObservation : Prop :=
  ∀ (s : State) (t : Transaction) (b : ObservationBody) (ring : Option Nat), s.Takeable t →
    s.decode t = some (b, ring) → s.admits b = true → 64 ≤ s.oq.queue.length →
    ∃ u : State, exec .transactionTaken s = .next (u.settle s) ∧
      u.oq.queue = s.oq.queue ∧ u.oq.lossMark = true ∧
      u.oq.firstLost = some (match s.oq.firstLost with | some f => f | none => t.address) ∧
      u.oq.reloadOwed = (s.oq.reloadOwed || b.named.any fun c => decide (8 ≤ c.1)) ∧
      u.agg .lostObservations = min (s.agg .lostObservations + 1) 4294967295 ∧
      u.agg .lostCommands = (if (b.named.any fun c => decide (c.1 < 8)) = true
        then min (s.agg .lostCommands + 1) 4294967295 else s.agg .lostCommands) ∧
      (s.ci.part = .running → s.oq.coverage = .sighted →
        u.oq.coverage = .blind ∧ u.agg .blindIntervals = min (s.agg .blindIntervals + 1) 4294967295 ∧
        u.rw.statusPending = true ∧
        (s.alarmOn .blind = true → (s.alarm .blind).raised = false →
          (u.alarm .blind).raised = true ∧ (u.alarm .blind).first = BitVec.ofNat 32 t.address.toNat)) ∧
      (s.ci.part ≠ .running ∨ s.oq.coverage ≠ .sighted →
        u.oq.coverage = s.oq.coverage ∧ u.agg .blindIntervals = s.agg .blindIntervals ∧ u.rw = s.rw ∧
        u.alarm .blind = s.alarm .blind) ∧
      u.ft = s.ft ∧ u.tt = s.tt ∧ u.ci = s.ci

/-- COVERAGE_SWEEP (R24): due ahead of a head record that follows a loss and on an empty queue with the loss mark set.
Every valid entry re-anchors with its stale run 0, every occupied slot becomes uncertain, loss mark, first-lost address
and reload owed are cleared, and an owed reload starts or waits. Nothing else of a sound entry changes; one that fails its
check is faulted (R52). Until its sweep has
run, a head record that follows a loss is not handed out; a head with nothing to wait for is ready (R18, R24, R172). That a
row which cannot act leaves the state, and that the sweep is an event of its own, are the model's (logs 2 and 14), and so is that
any event but that hand-out may come before a sweep that is due (log 42). -/
def Obligations.CoverageSweepWithholdsJudgement : Prop :=
  (∀ s : State, s.oq.queue = [] ∨ (∃ o rest, s.oq.queue = o :: rest ∧ o.followsLoss = true ∧ s.oq.headSwept = false) →
    ∀ c ∈ handOuts, exec c s = .next s) ∧
  (∀ (s : State) (o : Observation) (rest : List Observation), s.oq.queue = o :: rest →
    (o.followsLoss = false ∨ s.oq.headSwept = true) → (∀ r ∈ s.ci.loadReads, o.place ≤ r.place) →
    (∀ r, s.fp.ret = some r → r.owner = .job → o.place ≤ r.place) → s.headReady = some o) ∧
  (∀ s : State, (∀ o rest, s.oq.queue = o :: rest → o.followsLoss = false ∨ s.oq.headSwept = true) →
    (s.oq.queue = [] → s.oq.lossMark = false) → exec .coverageSweep s = .next s) ∧
  ∀ s : State, s.tt.wf .empty = true →
    ((∃ o rest, s.oq.queue = o :: rest ∧ o.followsLoss = true ∧ s.oq.headSwept = false) ∨
      (s.oq.queue = [] ∧ s.oq.lossMark = true)) →
    ∃ u : State, exec .coverageSweep s = .next (u.settle s) ∧ SameLink s u ∧
      (s.oq.queue ≠ [] → u.oq.headSwept = true) ∧ Swept s u ∧
      u.oq.queue = s.oq.queue ∧ u.oq.coverage = s.oq.coverage ∧ (s.oq.reloadOwed = false → u.ci = s.ci)

/-- DISCARD_AT_HEAD (R20): a ring observation whose address lies in no window any more leaves the queue without effect. -/
def Obligations.DiscardAtHeadOnlyRemovesTheRecord : Prop :=
  ∀ (s : State) (o : Observation), s.headReady = some o → o.body.isControl = false → s.findSlot o.address = none →
    exec .discardAtHead s =
      .next (State.settle { s with oq := { s.oq with queue := s.oq.queue.tail, headSwept := false } } s)

/-! ## The flow table -/

/-- The set index is the exclusive or of three 8-bit values, and way x of set s is flow 4s + x (R28). The lowest-numbered
matching classifier entry gives the profile, and profile 0 where none matches (R29). -/
def Obligations.KeyGivesSetAndProfile : Prop :=
  (∀ (port : BitVec 4) (tag : BitVec 20),
    setIndex port tag = (tag.toNat % 256) ^^^ (tag.toNat / 256 % 256) ^^^ (port.toNat * 16 + tag.toNat / 65536) ∧
    setIndex port tag < 256 ∧ ∀ x < 4, flowIndex (setIndex port tag) x = 4 * setIndex port tag + x) ∧
  ∀ (s : State) (port : BitVec 4) (tag : BitVec 20),
    (∀ n < 32, (s.classifierEntry n).enabled = true → (s.classifierEntry n).portMask.getLsbD port.toNat = true →
      tag &&& (s.classifierEntry n).tagMask = (s.classifierEntry n).tagValue &&& (s.classifierEntry n).tagMask →
      (∀ m < n, (s.classifierEntry m).matchesKey port tag = false) →
      s.classify port tag = (s.classifierEntry n).profile) ∧
    ((∀ n < 32, (s.classifierEntry n).matchesKey port tag = false) → s.classify port tag = 0)

/-- A listed copy-0 arrival (R55, R74, R114, R115), in any state: the entry is evaluated, a count of drops at a threshold
that is not 0 fires GAP_BURST, and under a non-zero period the flow is re-armed from the stamp; all else stands. A hand-out
of an ENQUEUE whose key hits a sound way, copy 0, on an EMPTY slot (R35, R87): the way is used, the arrival has that effect
on the entry, and the slot is QUEUED with the flow. -/
def Obligations.EnqueueOfAListedFlow : Prop :=
  (∀ (a b : State) (n : Nat) (sequence : BitVec 16) (valid : Bool) (stamp : Time), (a.flow n).state ≠ .vacant →
    b = (a.evaluateArrival n sequence valid).reArm n stamp →
    ArrivalEffect a b n sequence valid stamp ∧
      b = { a with ft := { a.ft with flows := b.ft.flows }, cm := { a.cm with due := b.cm.due }, tau := b.tau }) ∧
  ∀ (s : State) (o : Observation) (port : BitVec 4) (tag : BitVec 20) (sequence : BitVec 16) (valid : Bool)
    (r i x n : Nat), s.headReady = some o → o.body = .enqueue port tag 0#4 sequence valid →
    s.findSlot o.address = some (r, i) → s.slot r i = .empty →
    (∀ w < 4, (s.flow (4 * setIndex port tag + w)).checkOk = true) →
    x < 4 → s.HitsAt port tag x → (∀ y < x, ¬ s.HitsAt port tag y) → n = 4 * setIndex port tag + x →
    ∃ u : State, exec .enqueue s = .next (u.settle s) ∧ SameLink s u ∧
      u.oq = { s.oq with queue := s.oq.queue.tail, headSwept := false } ∧ u.ci = s.ci ∧ u.rw = s.rw ∧
      u.slot r i = .queued { ref := .listed n (s.flow n).generation, copy := 0#4,
                             sequence := (if valid then some sequence else none), enqueued := o.stamp,
                             uncertain := false } ∧
      SameSlotsBut r i s u ∧ ArrivalEffect s u n sequence valid o.stamp ∧ u.ft.retire = s.ft.retire ∧
      u.plruOf (setIndex port tag) = (s.plruOf (setIndex port tag)).use x ∧
      ∀ m, m ≠ setIndex port tag → u.plruOf m = s.plruOf m

/-- Every hand-out of an ENQUEUE in a ring window takes its record out of the queue and leaves its frame QUEUED in its slot
with the descriptor's fields and the stamp, and every other slot as it was (R37, R87 to R89). The four ways are read with
their checks, in ascending order (R35). On a hit copy 0 uses the way and is an arrival of its entry; another copy is listed
and moves nothing (R36). On a miss another copy is unlisted (R36); copy 0 is unlisted and counted where the table is frozen
or the profile untracked (R46, R47), and else allocated (R38). The frame already in the slot is displaced. -/
def Obligations.EnqueueFillsItsSlot : Prop :=
  ∀ (s v c : State) (o : Observation) (port : BitVec 4) (tag : BitVec 20) (copy : BitVec 4) (sequence : BitVec 16)
    (valid : Bool) (r i set : Nat), s.headReady = some o → o.body = .enqueue port tag copy sequence valid →
    s.findSlot o.address = some (r, i) → set = setIndex port tag →
    v = { s with oq := { s.oq with queue := s.oq.queue.tail, headSwept := false } } →
    c = (((v.checked (4 * set)).checked (4 * set + 1)).checked (4 * set + 2)).checked (4 * set + 3) →
    ∃ (u w : State) (ref : FlowRef), exec .enqueue s = .next (u.settle s) ∧ SameLink s u ∧ u.ci = s.ci ∧ u.rw = s.rw ∧
      u.oq = v.oq ∧
      u.slot r i = .queued { ref := ref, copy := copy, sequence := (if valid then some sequence else none),
                             enqueued := o.stamp, uncertain := false } ∧ SameSlotsBut r i s u ∧
      u = (w.displace r i).setSlot r i (u.slot r i) ∧ w = { v with ft := w.ft, cm := w.cm, tau := w.tau } ∧
      (∀ x n, x < 4 → c.HitsAt port tag x → (∀ y < x, ¬ c.HitsAt port tag y) → n = 4 * set + x →
        ref = .listed n (c.flow n).generation ∧
        (copy ≠ 0#4 → w = c) ∧
        (copy = 0#4 → w = ((c.useWay set x).evaluateArrival n sequence valid).reArm n o.stamp)) ∧
      ((∀ x < 4, ¬ c.HitsAt port tag x) →
        (copy ≠ 0#4 → w = c ∧ ref = .unlisted (s.classify port tag)) ∧
        (copy = 0#4 → s.ci.held.freeze = true ∨ (s.profile (s.classify port tag)).tracked = false →
          w = { c with tau := w.tau } ∧ ref = .unlisted (s.classify port tag) ∧ (∀ k, w.alarm k = c.alarm k) ∧
          ∀ a, w.agg a = if a = .unlistedArrivals then min (c.agg a + 1) 4294967295 else c.agg a) ∧
        (copy = 0#4 → s.ci.held.freeze = false → (s.profile (s.classify port tag)).tracked = true →
          ∃ (t : State) (l : Listing), c.allocate set port tag o.stamp = (t, l) ∧
            (∀ n, l = .arrival n → w = (t.evaluateArrival n sequence valid).reArm n o.stamp ∧
              ref = .listed n (t.flow n).generation) ∧
            (∀ n, l ≠ .copy n) ∧ ∀ p, l = .unlisted p → w = t ∧ ref = .unlisted p))

/-- The victim way of an allocation (R39): the lowest VACANT way, pinned ones included; else the PLRU way unless it is
pinned, then the lowest way not pinned. An allocation whose victim is VACANT, clean, or dirty with room in the retire buffer fills the way with a new entry,
and disposes of the victim's contents (R40, R42, R48, R49). One whose dirty victim finds eight retire records fails
(R41, R46): the set and the buffer stand, allocation_failures and unlisted_arrivals count, TABLE_FULL fires, the frame
is unlisted. The drain number of the record is the model's choice (log 20). The PLRU way, and the bits after a use, are
those of R43's tables. -/
def Obligations.AllocationFillsOrFails : Prop :=
  (∀ b : Plru,
    (b.b0 = false → b.b1 = false → b.way = 0) ∧ (b.b0 = false → b.b1 = true → b.way = 1) ∧
    (b.b0 = true → b.b2 = false → b.way = 2) ∧ (b.b0 = true → b.b2 = true → b.way = 3) ∧
    b.use 0 = { b0 := true, b1 := true, b2 := b.b2 } ∧ b.use 1 = { b0 := true, b1 := false, b2 := b.b2 } ∧
    b.use 2 = { b0 := false, b1 := b.b1, b2 := true } ∧ b.use 3 = { b0 := false, b1 := b.b1, b2 := false }) ∧
  (∀ (s : State) (set : Nat), s.ci.held.pinCount ≤ 3 → s.victimWay set < 4 ∧
    (∀ x < 4, (s.flow (flowIndex set x)).valid = false →
      (s.flow (flowIndex set (s.victimWay set))).valid = false ∧ s.victimWay set ≤ x) ∧
    ((∀ x < 4, (s.flow (flowIndex set x)).valid = true) →
      s.victimWay set =
        if s.ci.held.pinCount ≤ (s.plruOf set).way then (s.plruOf set).way else s.ci.held.pinCount)) ∧
  (∀ (s : State) (port : BitVec 4) (tag : BitVec 20) (time : Time) (set v p : Nat),
    v = flowIndex set (s.victimWay set) → p = s.classify port tag →
    s.ci.held.freeze = false → (s.profile p).tracked = true →
    ((s.flow v).valid = true → (s.flow v).dirty = true → s.ft.retire.length < 8) →
    ∃ u : State, s.allocate set port tag time = (u, .arrival v) ∧
      u.flow v = { state := .tracking, port := port, tag := tag, profile := p, generation := (s.flow v).generation + 1,
                   nextSeq := 0, window := List.replicate (s.profile p).window .unawaited, reanchor := true,
                   staleRun := 0, departed := none, due := none, misses := 0, lateRun := 0, worstResidence := 0,
                   faultMask := 0#16, tallies := ⟨[]⟩, dirty := true, checkOk := true } ∧
      (∀ j, j ≠ v → u.flow j = s.flow j) ∧ u.cm.due.find? v = none ∧
      u.plruOf set = (s.plruOf set).use (s.victimWay set) ∧ u.tt = s.tt ∧ u.oq = s.oq ∧ u.rw = s.rw ∧ u.ci = s.ci ∧
      ((s.flow v).valid = false → u.tau = s.tau ∧ u.ft.retire = s.ft.retire) ∧
      ((s.flow v).valid = true → u.agg .evictions = min (s.agg .evictions + 1) 4294967295) ∧
      ((s.flow v).valid = true → (s.flow v).dirty = false → u.ft.retire = s.ft.retire) ∧
      ((s.flow v).valid = true → (s.flow v).dirty = true → u.ft.retire = s.ft.retire ++
        [{ type := .retire .replaced, index := v, entry := s.flow v, drainNumber := s.rw.drainNumber, time := time }])) ∧
  ∀ (s : State) (port : BitVec 4) (tag : BitVec 20) (time : Time) (set v : Nat),
    v = flowIndex set (s.victimWay set) → s.ci.held.freeze = false →
    (s.profile (s.classify port tag)).tracked = true →
    (s.flow v).valid = true → (s.flow v).dirty = true → 8 ≤ s.ft.retire.length →
    ∃ u : State, s.allocate set port tag time = (u, .unlisted (s.classify port tag)) ∧ u.ft = s.ft ∧ u.cm = s.cm ∧
      u.agg .allocationFailures = min (s.agg .allocationFailures + 1) 4294967295 ∧
      u.agg .unlistedArrivals = min (s.agg .unlistedArrivals + 1) 4294967295 ∧
      (s.alarmOn .tableFull = true → (u.alarm .tableFull).raised = true ∧
        (u.alarm .tableFull).first = if (s.alarm .tableFull).raised then (s.alarm .tableFull).first
          else BitVec.ofNat 32 (port.toNat * 1048576 + tag.toNat))

/-- An entry fault (R51): the entry is VACANT with the generation advanced and a sound check code, it leaves the due list,
entry_faults counts, ENTRY_FAULT fires with the index; every other entry and the PLRU bits stand. The read of an entry
that passes its check changes nothing (R34). -/
def Obligations.EntryFaultVacatesTheEntry : Prop :=
  (∀ (s : State) (i : Nat), (s.flow i).checkOk = true → s.checked i = s) ∧
  ∀ (s : State) (i : Nat), (s.flow i).checkOk = false →
    ((s.checked i).flow i).state = .vacant ∧ ((s.checked i).flow i).generation = (s.flow i).generation + 1 ∧
    ((s.checked i).flow i).checkOk = true ∧ ((s.checked i).flow i).dirty = false ∧
    (∀ j, j ≠ i → (s.checked i).flow j = s.flow j) ∧ (s.checked i).cm.due.find? i = none ∧
    (s.checked i).ft.plru = s.ft.plru ∧ (s.checked i).ft.retire = s.ft.retire ∧
    (s.checked i).agg .entryFaults = min (s.agg .entryFaults + 1) 4294967295 ∧
    (s.alarmOn .entryFault = true → ((s.checked i).alarm .entryFault).raised = true ∧
      ((s.checked i).alarm .entryFault).occurrences = min ((s.alarm .entryFault).occurrences + 1) 65535 ∧
      ((s.alarm .entryFault).raised = false → ((s.checked i).alarm .entryFault).first = BitVec.ofNat 32 i))

/-! ## Sequence evaluation -/

/-- The signed difference is the one number congruent to s − T modulo 2^w that lies in −2^(w−1) to 2^(w−1) − 1 (R60). -/
def Obligations.SignedDifferenceIsCentred : Prop :=
  ∀ w s t : Nat, 1 ≤ w →
    -(2 ^ (w - 1) : Int) ≤ signedDiff w s t ∧ signedDiff w s t < (2 ^ (w - 1) : Int) ∧
    ∃ q : Int, (s : Int) - (t : Int) = signedDiff w s t + q * 2 ^ w

/-- The classes of an evaluated arrival, each by its condition (R61, R66, R67). -/
def Obligations.ArrivalFallsInItsClass : Prop :=
  ∀ (p : Profile) (e : FlowEntry) (s : Nat) (d : Int), d = signedDiff p.width s e.nextSeq →
    (e.reanchor = true → arrivalClass p e s = .anchor) ∧
    (e.reanchor = false → d = 0 → arrivalClass p e s = .inOrder) ∧
    (e.reanchor = false → 1 ≤ d → d ≤ p.jumpLimit → arrivalClass p e s = .ahead d.toNat) ∧
    (e.reanchor = false → 1 ≤ d → (p.jumpLimit : Int) < d → arrivalClass p e s = .jump) ∧
    (∀ k : Nat, e.reanchor = false → d = -(k : Int) - 1 → k < p.window → k < e.window.length →
      (e.window[k]? = some .received → arrivalClass p e s = .duplicate) ∧
      (e.window[k]? = some .missing → arrivalClass p e s = .filled k) ∧
      (e.window[k]? = some .unawaited → arrivalClass p e s = .staleUnawaited)) ∧
    (e.reanchor = false → d < -(p.window : Int) → e.staleRun + 1 < p.staleLimit → arrivalClass p e s = .staleBelow) ∧
    (e.reanchor = false → d < -(p.window : Int) → p.staleLimit ≤ e.staleRun + 1 → arrivalClass p e s = .anchor)

/-- What each class does to T, the window, the stale run, the flags and D, and that nothing else but tallies changes
(R62 to R68, R73, R93). An arrival counts accepted once and, evaluated, one class counter by its class; one that is not
evaluated counts unsequenced and changes nothing else (R57, R61, R69). Only IN_ORDER and AHEAD confirm drops, those of their shift,
and gap_drops adds them (R63, R64, R71); every other tally stands. -/
def Obligations.EachClassMovesItsFields : Prop :=
  (∀ (p : Profile) (e : FlowEntry) (s : Nat),
    (∀ c ∈ [ArrivalClass.anchor, .jump], ∃ m, e.arrive p s c = { e with
      nextSeq := (s + 1) % 2 ^ p.width, window := Mark.received :: List.replicate (p.window - 1) .unawaited,
      reanchor := false, staleRun := 0, departed := none, dirty := true, tallies := m }) ∧
    (∃ m, e.arrive p s .inOrder = { e with
      nextSeq := (e.nextSeq + 1) % 2 ^ p.width, window := shiftedWindow p.window 1 e.window, staleRun := 0,
      dirty := e.dirty || decide (shiftDrops p.window 1 e.window ≠ 0), tallies := m }) ∧
    (∀ d, ∃ m, e.arrive p s (.ahead d) = { e with
      nextSeq := (e.nextSeq + (d + 1)) % 2 ^ p.width, window := shiftedWindow p.window (d + 1) e.window,
      staleRun := 0, dirty := true, tallies := m }) ∧
    (∃ m, e.arrive p s .duplicate = { e with staleRun := 0, dirty := true, tallies := m }) ∧
    (∀ k, ∃ m, e.arrive p s (.filled k) = { e with
      window := e.window.set k .received, staleRun := 0, dirty := true, tallies := m }) ∧
    (∃ m, e.arrive p s .staleUnawaited = { e with dirty := true, tallies := m }) ∧
    ∃ m, e.arrive p s .staleBelow = { e with staleRun := e.staleRun + 1, dirty := true, tallies := m }) ∧
  (∀ (p : Profile) (e : FlowEntry) (q : BitVec 16) (v : Bool) (s : Nat), s = q.toNat % 2 ^ p.width →
    ((v && p.evaluates) = true → (∃ m, (e.evaluate p q v).1 = { e.arrive p s (arrivalClass p e s) with tallies := m }) ∧
      (e.evaluate p q v).2 = match arrivalClass p e s with
        | .inOrder => shiftDrops p.window 1 e.window
        | .ahead d => shiftDrops p.window (d + 1) e.window
        | _ => 0) ∧
    ((v && p.evaluates) = false → (e.evaluate p q v).2 = 0) ∧
    (e.evaluate p q v).1.tally .gapDrops = counted (e.tally .gapDrops) (e.evaluate p q v).2) ∧
  ∀ (p : Profile) (e : FlowEntry) (q : BitVec 16) (v : Bool) (t : Tally), e.tally .accepted < 4294967295 →
    (∀ u ∈ [Tally.anchors, .inOrder, .ahead, .reorderedIn, .duplicates, .stale, .unsequenced], e.tally u < 4294967295) →
    (e.evaluate p q v).1.tally .accepted = e.tally .accepted + 1 ∧
    ((v && p.evaluates) = false → ∃ m, (e.evaluate p q v).1 = { e with tallies := m }) ∧
    (t ∉ [Tally.accepted, .gapDrops] → (e.evaluate p q v).1.tally t = e.tally t +
      if t = (if (v && p.evaluates) = false then Tally.unsequenced
        else match arrivalClass p e (q.toNat % 2 ^ p.width) with
          | .anchor => .anchors
          | .jump => .anchors
          | .inOrder => .inOrder
          | .ahead _ => .ahead
          | .duplicate => .duplicates
          | .filled _ => .reorderedIn
          | .staleUnawaited => .stale
          | .staleBelow => .stale) then 1 else 0)

/-- A shift by n moves every mark n positions up, opens MISSING positions for the skipped sequences and marks the arrival
RECEIVED (R70); it confirms at most n drops (R72). -/
def Obligations.ShiftMovesTheMarks : Prop :=
  ∀ (size n : Nat) (window : List Mark), window.length = size → 1 ≤ n →
    (shiftedWindow size n window).length = size ∧ shiftDrops size n window ≤ n ∧
    ∀ k < size, (shiftedWindow size n window)[k]? =
      if k = 0 then some .received else if k < n then some .missing else window[k - n]?

/-- The drops a shift confirms are the MISSING marks among the m highest positions, m the smaller of n and W, plus n − W
when n exceeds W; gap_drops adds them, saturating, and is untouched where there are none (R71). -/
def Obligations.ShiftConfirmsItsDrops : Prop :=
  (∀ (size n : Nat) (window : List Mark), window.length = size →
    shiftDrops size n window =
      ((List.range (min n size)).filter fun k => decide (window[size - 1 - k]? = some Mark.missing)).length
        + (if size < n then n - size else 0)) ∧
  ∀ (e : FlowEntry) (p : Profile) (n : Nat),
    (shiftDrops p.window n e.window = 0 → (e.shift p n).tallies = e.tallies) ∧
    (shiftDrops p.window n e.window ≠ 0 →
      (e.shift p n).tally .gapDrops = min (e.tally .gapDrops + shiftDrops p.window n e.window) 4294967295)

/-! ## The transit table -/

/-- DEQUEUE (R90, R91): a QUEUED slot departs at the stamp; a DEPARTING one is left as it was; an EMPTY one counts
stray_dequeues. No other slot changes, and no entry but the frame's own, by the departure-order check (R92). -/
def Obligations.DequeueActsBySlotState : Prop :=
  ∀ (s v : State) (o : Observation) (r i : Nat), s.headReady = some o → o.body = .dequeue →
    s.findSlot o.address = some (r, i) → v = { s with oq := { s.oq with queue := s.oq.queue.tail, headSwept := false } } →
    (s.slot r i = .empty → ∃ u : State, exec .dequeue s = .next (u.settle s) ∧
      u = { v with tau := u.tau } ∧ (∀ k, u.alarm k = s.alarm k) ∧
      ∀ a, u.agg a = if a = .strayDequeues then min (s.agg a + 1) 4294967295 else s.agg a) ∧
    (∀ f d, s.slot r i = .departing f d → exec .dequeue s = .next (v.settle s)) ∧
    (∀ f, s.slot r i = .queued f → ∃ u : State, exec .dequeue s = .next (u.settle s) ∧ SameLink s u ∧ u.oq = v.oq ∧
      u = (v.setSlot r i (.departing f o.stamp)).departureCheck r f ∧ u.ci = s.ci ∧ u.rw = s.rw ∧ u.slot r i = .departing f o.stamp ∧ SameSlotsBut r i s u ∧
      (∀ j g, f.ref = .listed j g → ∀ n, n ≠ j → u.flow n = s.flow n) ∧
      (f.uncertain = true ∨ (∃ p, f.ref = .unlisted p) ∨ f.copy ≠ 0#4 ∨ f.sequence = none →
        u.ft = s.ft ∧ u.cm = s.cm ∧ u.tau = s.tau))

/-- COMPLETION (R94 to R97, R105): code 0 is ignored; another code on an EMPTY slot counts stray_completions; on a slot
with a frame the slot becomes EMPTY, and the verdict is credited to the frame's entry alone, or as an orphan when that
occupancy is gone (R33, R102) or fails its check, its fault being handled first (R51, R52). With code 1, SENT, a QUEUED frame departs at the stamp, with the departure-order check, and
a DEPARTING one at its departure; the frame is judged (R95, R96). An unlisted dropped frame counts unlisted_discards
(R103). -/
def Obligations.CompletionActsBySlotAndCode : Prop :=
  ∀ (s v : State) (o : Observation) (code : BitVec 3) (r i : Nat), s.headReady = some o → o.body = .completion code →
    s.findSlot o.address = some (r, i) → v = { s with oq := { s.oq with queue := s.oq.queue.tail, headSwept := false } } →
    (code = 0#3 → exec .completion s = .next (v.settle s)) ∧
    (code ≠ 0#3 → s.slot r i = .empty → ∃ u : State, exec .completion s = .next (u.settle s) ∧
      u = { v with tau := u.tau } ∧ (∀ k, u.alarm k = s.alarm k) ∧
      ∀ a, u.agg a = if a = .strayCompletions then min (s.agg a + 1) 4294967295 else s.agg a) ∧
    (code ≠ 0#3 → s.slot r i ≠ .empty → ∃ u : State, exec .completion s = .next (u.settle s) ∧ SameLink s u ∧
      u.oq = v.oq ∧ u.ci = s.ci ∧ u.rw = s.rw ∧ u.slot r i = .empty ∧ SameSlotsBut r i s u ∧
      (∀ f, code = 1#3 → s.slot r i = .queued f →
        u = ((v.departureCheck r f).sent r f o.stamp).setSlot r i .empty) ∧
      (∀ f d, code = 1#3 → s.slot r i = .departing f d → u = (v.sent r f d).setSlot r i .empty) ∧
      (∀ f, (s.slot r i = .queued f ∨ ∃ d, s.slot r i = .departing f d) →
        (∀ j g, f.ref = .listed j g → ∀ n, n ≠ j → u.flow n = s.flow n) ∧
        (∀ p, f.ref = .unlisted p → u.ft = s.ft ∧ u.cm = s.cm ∧ (f.uncertain = true → u.tau = s.tau) ∧
          (f.uncertain = false → code ≠ 1#3 → (∀ k, u.alarm k = s.alarm k) ∧
            ∀ a, u.agg a = if a = .unlistedDiscards then min (s.agg a + 1) 4294967295 else s.agg a)) ∧
        (∀ j g, f.ref = .listed j g → (s.flow j).checkOk = true →
          ((s.flow j).valid = false ∨ (s.flow j).generation ≠ g) → u.ft = s.ft ∧ u.cm = s.cm ∧
          (∀ k, u.alarm k = s.alarm k) ∧
          ∀ a, u.agg a = if a = .orphanVerdicts then min (s.agg a + 1) 4294967295 else s.agg a) ∧
        (∀ j g, f.ref = .listed j g → (s.flow j).checkOk = false →
          u.flow j = vacantEntry ((s.flow j).generation + 1) ∧ u.ft = (s.checked j).ft ∧ u.cm = (s.checked j).cm ∧
          (∀ k, u.alarm k = (s.checked j).alarm k) ∧
          ∀ a, u.agg a = if a = .orphanVerdicts then min (s.agg a + 1) 4294967295 else (s.checked j).agg a) ∧
        (∀ j g, f.ref = .listed j g → (s.flow j).checkOk = true → (s.flow j).valid = true → (s.flow j).generation = g →
          (f.uncertain = false → code ≠ 1#3 → u.flow j = { s.flow j with
            tallies := (s.flow j).tallies.set 0 9 (min ((s.flow j).tally .discards + 1) 4294967295)
            faultMask := (s.flow j).faultMask ||| BitVec.ofNat 16 (2 ^ r), dirty := true }) ∧
          (f.uncertain = true → u.flow j = { s.flow j with
            tallies := (s.flow j).tallies.set 0 15 (min ((s.flow j).tally .unresolved + 1) 4294967295)
            dirty := true }))))

/-- The frame an ENQUEUE overwrites (R88, R89, R105): a certain QUEUED frame of a flow is an OVERRUN, with its counter,
fault bit and trigger; a DEPARTING or uncertain one is UNRESOLVED, without trigger or fault bit. An unlisted frame's
OVERRUN counts unlisted_overruns, its UNRESOLVED nothing (R103); an EMPTY slot gives no verdict (R87). A frame whose
occupancy is gone is an orphan (R102): it counts, no entry is touched, and a certain QUEUED one still fires OVERRUN (R88).
An entry that fails its check is faulted first (R52). -/
def Obligations.OverwrittenFrameGetsItsVerdict : Prop :=
  (∀ (s : State) (r i : Nat), s.slot r i = .empty → s.displace r i = s) ∧
  (∀ (s : State) (r i p : Nat) (f : Frame), f.ref = .unlisted p →
    (s.slot r i = .queued f → f.uncertain = false →
      s.displace r i = { s with tau := (s.displace r i).tau } ∧
      (s.alarmOn .overrun = true → ((s.displace r i).alarm .overrun).raised = true ∧
        ((s.displace r i).alarm .overrun).occurrences = min ((s.alarm .overrun).occurrences + 1) 65535) ∧
      ∀ a, (s.displace r i).agg a = if a = .unlistedOverruns then min (s.agg a + 1) 4294967295 else s.agg a) ∧
    (((∃ d, s.slot r i = .departing f d) ∨ (s.slot r i = .queued f ∧ f.uncertain = true)) → s.displace r i = s)) ∧
  (∀ (s : State) (r i j : Nat) (g : BitVec 8) (f : Frame), f.ref = .listed j g →
    (s.slot r i = .queued f ∨ ∃ d, s.slot r i = .departing f d) →
    ((s.flow j).checkOk = false → s.displace r i = (s.checked j).displace r i) ∧
    ((s.flow j).checkOk = true → (s.flow j).valid = false ∨ (s.flow j).generation ≠ g →
      s.displace r i = { s with tau := (s.displace r i).tau } ∧
      (∀ a, (s.displace r i).agg a = if a = .orphanVerdicts then min (s.agg a + 1) 4294967295 else s.agg a) ∧
      (∀ k, k ≠ .overrun → (s.displace r i).alarm k = s.alarm k) ∧
      (s.slot r i = .queued f → f.uncertain = false → s.alarmOn .overrun = true →
        (s.displace r i).alarm .overrun = { s.alarm .overrun with
          raised := true, occurrences := min ((s.alarm .overrun).occurrences + 1) 65535
          first := if (s.alarm .overrun).raised then (s.alarm .overrun).first else BitVec.ofNat 32 (r * 256 + i) }) ∧
      ((∃ d, s.slot r i = .departing f d) ∨ f.uncertain = true ∨ s.alarmOn .overrun = false →
        (s.displace r i).alarm .overrun = s.alarm .overrun))) ∧
  ∀ (s : State) (r i j : Nat) (g : BitVec 8) (f : Frame), f.ref = .listed j g → (s.flow j).checkOk = true →
    (s.flow j).valid = true → (s.flow j).generation = g →
    (s.slot r i = .queued f → f.uncertain = false →
      (s.displace r i).flow j = { s.flow j with
        tallies := (s.flow j).tallies.set 0 10 (min ((s.flow j).tally .overruns + 1) 4294967295)
        faultMask := (s.flow j).faultMask ||| BitVec.ofNat 16 (2 ^ r), dirty := true } ∧
      (s.alarmOn .overrun = true → ((s.displace r i).alarm .overrun).raised = true ∧
        ((s.displace r i).alarm .overrun).occurrences = min ((s.alarm .overrun).occurrences + 1) 65535 ∧
        ((s.alarm .overrun).raised = false →
          ((s.displace r i).alarm .overrun).first = BitVec.ofNat 32 (r * 256 + i)))) ∧
    (((∃ d, s.slot r i = .departing f d) ∨ (s.slot r i = .queued f ∧ f.uncertain = true)) →
      (s.displace r i).flow j = { s.flow j with
        tallies := (s.flow j).tallies.set 0 15 (min ((s.flow j).tally .unresolved + 1) 4294967295), dirty := true } ∧
      (s.displace r i).tau = s.tau)

/-- A certain SENT frame of a listed flow (R96, R98, R99): LATE above a non-zero budget on a watched ring, ON_TIME within
it, UNJUDGED otherwise; worst residence, late run and the LATE_RUN trigger as the rules say. An unlisted one is judged by
its reference's profile, and only LATE counts (R103). An uncertain frame of a flow is UNRESOLVED (R105). -/
def Obligations.SentFrameIsJudgedOnResidence : Prop :=
  (∀ (s : State) (r q : Nat) (f : Frame) (dep : Time) (p : Profile) (x : Nat), f.ref = .unlisted q → p = s.profile q →
    x = (dep.toNat + 2 ^ 48 - f.enqueued.toNat) % 2 ^ 48 →
    (f.uncertain = true ∨ p.watched.getLsbD r = false ∨ p.budget = 0 ∨ x ≤ p.budget → s.sent r f dep = s) ∧
    (f.uncertain = false → p.watched.getLsbD r = true → 0 < p.budget → p.budget < x →
      s.sent r f dep = { s with tau := (s.sent r f dep).tau } ∧ (∀ k, (s.sent r f dep).alarm k = s.alarm k) ∧
      ∀ a, (s.sent r f dep).agg a = if a = .unlistedLate then min (s.agg a + 1) 4294967295 else s.agg a)) ∧
  (∀ (s : State) (r j : Nat) (g : BitVec 8) (f : Frame) (dep : Time), f.ref = .listed j g → f.uncertain = true →
    (s.flow j).checkOk = true → (s.flow j).valid = true → (s.flow j).generation = g →
    (s.sent r f dep).tau = s.tau ∧ (s.sent r f dep).flow j = { s.flow j with
      tallies := (s.flow j).tallies.set 0 15 (min ((s.flow j).tally .unresolved + 1) 4294967295), dirty := true }) ∧
  ∀ (s : State) (r j : Nat) (g : BitVec 8) (f : Frame) (dep : Time) (p : Profile) (x : Nat), f.ref = .listed j g →
    f.uncertain = false → (s.flow j).checkOk = true → (s.flow j).valid = true → (s.flow j).generation = g →
    p = s.profileOf (s.flow j) → x = (dep.toNat + 2 ^ 48 - f.enqueued.toNat) % 2 ^ 48 →
    (p.watched.getLsbD r = false ∨ p.budget = 0 → (s.sent r f dep).flow j = s.flow j ∧ (s.sent r f dep).tau = s.tau) ∧
    (p.watched.getLsbD r = true → 0 < p.budget → x ≤ p.budget →
      (s.sent r f dep).tau = s.tau ∧
      (s.sent r f dep).flow j = { s.flow j with
        worstResidence := max (s.flow j).worstResidence (min x 4294967295), lateRun := 0
        dirty := (s.flow j).dirty || decide (max (s.flow j).worstResidence (min x 4294967295) ≠ (s.flow j).worstResidence)
          || decide ((s.flow j).lateRun ≠ 0) }) ∧
    (p.watched.getLsbD r = true → 0 < p.budget → p.budget < x →
      (s.sent r f dep).flow j = { s.flow j with
        worstResidence := max (s.flow j).worstResidence (min x 4294967295), lateRun := min ((s.flow j).lateRun + 1) 255
        tallies := (s.flow j).tallies.set 0 11 (min ((s.flow j).tally .lateResidence + 1) 4294967295), dirty := true } ∧
      (p.lateLimit ≠ (s.flow j).lateRun + 1 → (s.sent r f dep).tau = s.tau) ∧
      (p.lateLimit = (s.flow j).lateRun + 1 → (s.flow j).lateRun < 255 → s.alarmOn .lateRun = true →
        ((s.sent r f dep).alarm .lateRun).raised = true ∧
        ((s.sent r f dep).alarm .lateRun).occurrences = min ((s.alarm .lateRun).occurrences + 1) 65535 ∧
        ((s.alarm .lateRun).raised = false → ((s.sent r f dep).alarm .lateRun).first = BitVec.ofNat 32 j)))

/-- The departure-order check (R92) of a certain copy-0 frame with its sequence, on a watched ring of an evaluating
profile: D follows a frame that leaves ahead of it, reordered_out counts one that does not. Any other departing frame
changes nothing, its sound entry being read; an entry that fails its check is faulted, and the check is not made. That a
certain copy-0 frame with its sequence has its entry read, and so faulted, before the ring and evaluation conditions are
known is the model's reading (log 37): they are the profile's, which the entry names. -/
def Obligations.DepartureOrderIsChecked : Prop :=
  (∀ (s : State) (r : Nat) (f : Frame), (f.uncertain = true ∨ (∃ p, f.ref = .unlisted p) ∨ f.copy ≠ 0#4 ∨
      f.sequence = none ∨ ∃ j g, f.ref = .listed j g ∧ (s.flow j).checkOk = true ∧
        ((s.flow j).valid = false ∨ (s.flow j).generation ≠ g ∨
          (s.profileOf (s.flow j)).watched.getLsbD r = false ∨ (s.profileOf (s.flow j)).evaluates = false)) →
    s.departureCheck r f = s) ∧
  (∀ (s : State) (r j : Nat) (g : BitVec 8) (f : Frame) (q : BitVec 16), f.ref = .listed j g → f.uncertain = false →
    f.copy = 0#4 → f.sequence = some q → (s.flow j).checkOk = false → s.departureCheck r f = s.checked j) ∧
  ∀ (s : State) (r j : Nat) (g : BitVec 8) (f : Frame) (q : BitVec 16) (p : Profile) (x : Nat), f.ref = .listed j g →
    f.uncertain = false → f.copy = 0#4 → f.sequence = some q → (s.flow j).checkOk = true → (s.flow j).valid = true →
    (s.flow j).generation = g → p = s.profileOf (s.flow j) → p.watched.getLsbD r = true → p.evaluates = true →
    x = q.toNat % 2 ^ p.width →
    ((s.flow j).departed = none → (s.departureCheck r f).flow j = { s.flow j with departed := some x }) ∧
    ∀ d, (s.flow j).departed = some d →
      (0 < signedDiff p.width x (d % 2 ^ p.width) →
        (s.departureCheck r f).flow j = { s.flow j with departed := some x }) ∧
      (signedDiff p.width x (d % 2 ^ p.width) ≤ 0 →
        (s.departureCheck r f).flow j = { s.flow j with
          tallies := (s.flow j).tallies.set 0 13 (min ((s.flow j).tally .reorderedOut + 1) 4294967295), dirty := true })

/-! ## Cadence -/

/-- The head of the due list has the smallest signed offset against the time base, the lowest flow index among equals
(R112). Its EXPIRY waits while it is not due or the head record is stamped at or before its due time (R116, R117). That
of a sound valid entry counts when the whole cycle was watched, silences the flow at its limit, else re-arms by one
period from the due time (R118 to R122); an entry that fails its check is faulted, and no more (R52, R118). That an expiry at
the time base of its due time does not wait for a transaction taken later in that nanosecond is the model's choice (log 40),
and so is R110's test as it stands for times 2^47 ns or more apart, such as an old sight start (log 41). -/
def Obligations.ExpiryTakesTheEarliestDueFlow : Prop :=
  (∀ (s : State) (i : Nat) (d : Time), risingFrom none s.cm.due.cells = true → s.dueHead = some (i, d) →
    s.cm.due.find? i = some d ∧
    ∀ j c, s.cm.due.find? j = some c → (d - s.cm.timeBase).toInt ≤ (c - s.cm.timeBase).toInt ∧
      ((d - s.cm.timeBase).toInt = (c - s.cm.timeBase).toInt → i ≤ j)) ∧
  (∀ (s : State) (i : Nat) (d : Time), s.dueHead = some (i, d) →
    (atOrAfter s.cm.timeBase d = false ∨ ∃ o rest, s.oq.queue = o :: rest ∧ atOrAfter d o.stamp = true) →
    exec .expiry s = .next s) ∧
  (∀ (s : State) (i : Nat) (d : Time), s.dueHead = some (i, d) → atOrAfter s.cm.timeBase d = true →
    (∀ o rest, s.oq.queue = o :: rest → atOrAfter d o.stamp = false) → (s.flow i).checkOk = false →
    ∃ u : State, exec .expiry s = .next (u.settle s) ∧ u = { s.checked i with cm := u.cm } ∧
      u.cm.due.find? i = none ∧ (∀ j, j ≠ i → u.cm.due.find? j = s.cm.due.find? j) ∧
      u.cm.sightStart = s.cm.sightStart) ∧
  ∀ (s : State) (i : Nat) (d : Time) (p : Profile), s.dueHead = some (i, d) → atOrAfter s.cm.timeBase d = true →
    (∀ o rest, s.oq.queue = o :: rest → atOrAfter d o.stamp = false) →
    (s.flow i).checkOk = true → (s.flow i).valid = true → p = s.profileOf (s.flow i) →
    ∃ u : State, exec .expiry s = .next (u.settle s) ∧ SameLink s u ∧ u.oq = s.oq ∧ u.tt = s.tt ∧ u.rw = s.rw ∧
      u.ci = s.ci ∧ (∀ j, j ≠ i → u.flow j = s.flow j ∧ u.cm.due.find? j = s.cm.due.find? j) ∧
      (s.ci.part = .running ∧ s.oq.coverage = .sighted ∧
          atOrAfter (d - BitVec.ofNat 48 ((p.period + p.tolerance) * 1000)) s.cm.sightStart = true →
        ((s.flow i).misses + 1 < p.silenceLimit →
          u.cm.due.find? i = some (d + BitVec.ofNat 48 (p.period * 1000)) ∧ u.tau = s.tau ∧
          u.flow i = { s.flow i with
            tallies := (s.flow i).tallies.set 0 12 (min ((s.flow i).tally .cadenceMisses + 1) 4294967295)
            misses := (s.flow i).misses + 1, dirty := true, due := some (d + BitVec.ofNat 48 (p.period * 1000)) }) ∧
        (p.silenceLimit ≤ (s.flow i).misses + 1 →
          u.cm.due.find? i = none ∧ (u.flow i).state = .silent ∧ (u.flow i).due = none ∧
          (u.flow i).misses = (s.flow i).misses + 1 ∧ (u.flow i).dirty = true ∧
          (u.flow i).tally .cadenceMisses = min ((s.flow i).tally .cadenceMisses + 1) 4294967295 ∧
          (u.flow i).tally .silences = min ((s.flow i).tally .silences + 1) 4294967295 ∧
          (s.alarmOn .silence = true → (u.alarm .silence).raised = true ∧
            ((s.alarm .silence).raised = false → (u.alarm .silence).first = BitVec.ofNat 32 i)))) ∧
      (s.ci.part ≠ .running ∨ s.oq.coverage ≠ .sighted ∨
          atOrAfter (d - BitVec.ofNat 48 ((p.period + p.tolerance) * 1000)) s.cm.sightStart = false →
        u.cm.due.find? i = some (d + BitVec.ofNat 48 (p.period * 1000)) ∧ u.tau = s.tau ∧
        u.flow i = { s.flow i with due := some (d + BitVec.ofNat 48 (p.period * 1000)) })

/-! ## Tallies and alarms -/

/-- A trigger (R138): without effect while its kind is off; else it counts an occurrence, raises the kind and captures
its value unless the kind was RAISED; HELD and every other row and counter stand. -/
def Obligations.TriggerFollowsItsTable : Prop :=
  ∀ (s : State) (k : AlarmKind) (value : Nat),
    (s.alarmOn k = false → s.trigger k value = s) ∧
    (s.alarmOn k = true → s.trigger k value = { s with tau := (s.trigger k value).tau } ∧
      (s.trigger k value).alarm k = { s.alarm k with
        raised := true, occurrences := min ((s.alarm k).occurrences + 1) 65535
        first := if (s.alarm k).raised then (s.alarm k).first else BitVec.ofNat 32 value } ∧
      (∀ j, j ≠ k → (s.trigger k value).alarm j = s.alarm j) ∧ ∀ a, (s.trigger k value).agg a = s.agg a)

/-! ## Control writes -/

/-- CONTROL_WRITE (R163, R167): the named lanes enter the image, and no other byte of it changes. A command word not
named, or with the last-taken tag, is no command, and the settings are all its effect; one met in LOADING or with a
command in flight is answered BUSY. The event settles against the state its settings left (log 11). -/
def Obligations.ControlWriteMergesItsLanes : Prop :=
  ∀ (s : State) (o : Observation) (offset : Nat) (data : List Word) (lanes : List (BitVec 8)),
    s.headReady = some o → o.body = .controlWrite offset data lanes →
    ∃ u : State, exec .controlWrite s = .next (u.settle (s.afterSettings o)) ∧ u.mem = s.mem ∧ u.pending = s.pending ∧
      (∀ (k : Nat) (w : Word) (m : BitVec 8), data[k]? = some w → lanes[k]? = some m → ∀ i < 8,
        u.imageByte (offset + 8 * k + i) =
          if m.getLsbD i then w.extractLsb' (8 * i) 8 else s.imageByte (offset + 8 * k + i)) ∧
      (∀ b, b < offset ∨ offset + 8 * data.length ≤ b → u.imageByte b = s.imageByte b) ∧
      (names o.body.named 0 8 = false ∨ u.imageByte 0 = s.ci.lastTag →
        u.ci.lastTag = s.ci.lastTag ∧ u.ci.lastResult = s.ci.lastResult ∧ u.ci.inFlight = s.ci.inFlight ∧
        u.ci.part = s.ci.part ∧ u.oq.queue = s.oq.queue.tail ∧ u = s.afterSettings o) ∧
      (names o.body.named 0 8 = true → u.imageByte 0 ≠ s.ci.lastTag → u.ci.lastTag = u.imageByte 0) ∧
      (names o.body.named 0 8 = true → u.imageByte 0 ≠ s.ci.lastTag → (s.ci.part ≠ .running ∨ s.ci.inFlight ≠ none) →
        u.ci.lastResult = some { tag := u.imageByte 0, code := .busy, time := s.cm.timeBase } ∧
        u.ci.inFlight = s.ci.inFlight ∧ u.ci.part = s.ci.part ∧ u.rw.statusPending = true ∧
        AnswersAtTake (s.afterSettings o) u .busy)

/-- GLOBALS_WRITE (R163, R164, R166): each named global is held as the merged image gives it, pin count and dirty threshold
clamped, the others stand. A change of monitoring moves coverage in RUNNING only (R23); set with coverage PAUSED, it runs the
coverage sweep first: flows re-anchor with stale run 0, frames are uncertain, an owed reload starts (R24). A kind switched off
is no longer RAISED; HELD, first value, occurrence count, and the rows of kinds whose bit does not change stand (R142). A
clamped pin count or dirty threshold is counted and recorded, the last in offset order (R164, log 30). A report interval that
changes acts at once, and expires inside the event if its time has passed (R152; the model's reading, log 23; in RUNNING
alone, log 25; by R110's test as it stands, log 41); a dirty threshold that changes is tested at once (R152). -/
def Obligations.GlobalsWriteHoldsWhatItNames : Prop :=
  ∀ (s : State) (o : Observation), s.controlReady = some o → names o.body.named 8 8 = true →
    ∃ u : State, exec .globalsWrite s = .next (u.settle (s.afterSettings o)) ∧ u.mem = s.mem ∧ u.pending = s.pending ∧
      HoldsGlobals o.body.named s u

/-- CONSUME_INDEX_WRITE (R147, R148, R164): a value below 480 becomes C, and a drain stalled on a ring that is no longer
full stalls no more, and is followed at once by a new drain where one is owed or the dirty threshold stands; 480 and above
leave C as held and count as a clamp (not where C already is the written value, in states that no run reaches). -/
def Obligations.ConsumeIndexWriteFreesTheRing : Prop :=
  ∀ (s : State) (o : Observation), s.controlReady = some o → names o.body.named 0x80 2 = true →
    ∃ u : State, exec .consumeIndexWrite s = .next (u.settle (s.afterSettings o)) ∧ u.mem = s.mem ∧
      u.pending = s.pending ∧ HoldsConsume o.body.named s u

/-- RING_GEOMETRY_WRITE (R84, R164, R165): when an image byte of an entry changes, all sixteen rings are evaluated afresh
in ascending order, each behind the lower-numbered ones; a changed ring that was enabled loses its frames; else
every ring stands, and the write of geometry alone leaves the slots of a ring that stands. Each frame lost credits its
sound flow with UNRESOLVED alone (R84), and faults an entry that fails its check (R52). Every clamp counts: a named base or
slot count that is not legal, and a ring written enabled but held disabled that was named or was enabled before (when a ring
counts is the model's reading, log 18). The last clamp in offset order is the last-clamp record (the model's reading,
log 30). -/
def Obligations.RingGeometryWriteEvaluatesAllRings : Prop :=
  ∀ (s : State) (o : Observation), s.controlReady = some o → names o.body.named 0x100 256 = true →
    (∀ r, (s.ring r).slots ≤ 256) →
    ∃ u : State, exec .ringGeometryWrite s = .next (u.settle (s.afterSettings o)) ∧ u.mem = s.mem ∧
      u.pending = s.pending ∧ HoldsRings o.body.named s u

/-- A control write of profiles and classifier entries (R29, R163, R164): every named field is held as the merged image
gives it, clamped to its legal range; the jump limit also when the held width or window size changes; the rest stands. Each
sound valid entry of a profile whose width, window size or evaluation changes re-anchors, with T reduced and the window
resized (R76 to R79); one that is TRACKING leaves the due list with its period, or joins it under a new one (R123), with
the tolerance held before (the model's reading, log 38); an entry that fails its check in such a change is faulted (R52).
Every clamp counts (R164; a jump limit not named, log 19), and the last in offset order is the last-clamp record (the model's
reading, log 30). -/
def Obligations.ProfileWritesHoldWhatTheyName : Prop :=
  ∀ (s : State) (o : Observation), s.controlReady = some o →
    ∃ u : State, exec .controlWrite s = .next (u.settle (s.afterSettings o)) ∧ u.mem = s.mem ∧ u.pending = s.pending ∧
      HoldsProfiles o.body.named s u

/-! ## The mailbox -/

/-- Commands answered DONE or UNKNOWN at take (R169): PING and an unassigned code change nothing else; ALARM_ACK,
ALARM_HOLD and ALARM_RELEASE change one mark of exactly the kinds their argument names (R140, R141); SNAPSHOT marks every
sound valid entry dirty, faults those that fail their check (R52), and triggers a drain (R152, R153, R157). A command is taken in RUNNING with none in flight and a
new tag (R167); its code names it by the table of section 10.2. -/
def Obligations.CommandsAtTakeAnswerAtOnce : Prop :=
  (MailboxCommand.ofCode 1#8 = .ping ∧ MailboxCommand.ofCode 2#8 = .clearFlow ∧ MailboxCommand.ofCode 3#8 = .clearAll ∧
    MailboxCommand.ofCode 4#8 = .evictFlow ∧ MailboxCommand.ofCode 5#8 = .interrogate ∧
    MailboxCommand.ofCode 6#8 = .snapshot ∧ MailboxCommand.ofCode 7#8 = .alarmAck ∧
    MailboxCommand.ofCode 8#8 = .alarmHold ∧ MailboxCommand.ofCode 9#8 = .alarmRelease ∧
    MailboxCommand.ofCode 10#8 = .reloadConfig ∧ MailboxCommand.ofCode 11#8 = .restart ∧
    ∀ code : Byte, code = 0#8 ∨ 12 ≤ code.toNat → MailboxCommand.ofCode code = .unknown) ∧
  (∀ (s v : State) (o : Observation) (k : MailboxCommand), v = s.afterSettings o →
    (s.takesAs k o = true ↔ names o.body.named 0 8 = true ∧ s.ci.part = .running ∧ s.ci.inFlight = none ∧
      v.imageByte 0 ≠ s.ci.lastTag ∧ MailboxCommand.ofCode (v.imageByte 1) = k)) ∧
  ∀ (s v : State) (o : Observation) (named : AlarmKind → Bool),
    named = (fun k => (v.imageByte 2).getLsbD (k.priority - 1)) →
    (s.TakesCommand .ping o v → ∃ u : State, exec .ping s = .next (u.settle v) ∧ AnswersAtTake v u .done ∧
      u.ft = v.ft ∧ u.cm = v.cm ∧ u.tau = v.tau ∧ u.rw = { v.rw with statusPending := true }) ∧
    (s.TakesCommand .unknown o v → ∃ u : State, exec .unknownCommand s = .next (u.settle v) ∧
      AnswersAtTake v u .unknown ∧ u.ft = v.ft ∧ u.cm = v.cm ∧ u.tau = v.tau ∧
      u.rw = { v.rw with statusPending := true }) ∧
    (s.TakesCommand .alarmAck o v → ∃ u : State, exec .alarmAck s = .next (u.settle v) ∧ AnswersAtTake v u .done ∧
      u.ft = v.ft ∧ u.cm = v.cm ∧ u.rw = { v.rw with statusPending := true } ∧ (∀ a, u.agg a = v.agg a) ∧
      ∀ k, u.alarm k = if named k then { v.alarm k with raised := false } else v.alarm k) ∧
    (s.TakesCommand .alarmHold o v → ∃ u : State, exec .alarmHold s = .next (u.settle v) ∧ AnswersAtTake v u .done ∧
      u.ft = v.ft ∧ u.cm = v.cm ∧ u.rw = { v.rw with statusPending := true } ∧ (∀ a, u.agg a = v.agg a) ∧
      ∀ k, u.alarm k = if named k then { v.alarm k with held := true } else v.alarm k) ∧
    (s.TakesCommand .alarmRelease o v → ∃ u : State, exec .alarmRelease s = .next (u.settle v) ∧
      AnswersAtTake v u .done ∧ u.ft = v.ft ∧ u.cm = v.cm ∧ u.rw = { v.rw with statusPending := true } ∧
      (∀ a, u.agg a = v.agg a) ∧ ∀ k, u.alarm k = if named k then { v.alarm k with held := false } else v.alarm k) ∧
    (s.TakesCommand .snapshot o v → ∃ u : State, exec .snapshot s = .next (u.settle v) ∧ AnswersAtTake v u .done ∧
      (∀ i < 1024, (v.flow i).checkOk = true →
        u.flow i = if (v.flow i).valid then { v.flow i with dirty := true } else v.flow i) ∧
      (∀ i < 1024, (v.flow i).checkOk = false → u.flow i = vacantEntry ((v.flow i).generation + 1) ∧
        u.cm.due.find? i = none) ∧
      (v.rw.drain = .idle → u.rw.drain = .draining ∧ u.rw.drainNumber = v.rw.drainNumber + 1 ∧
        u.rw.budget = u.dirtyCount ∧ u.rw.built = 0 ∧ u.rw.written = [] ∧ u.rw.drainOwed = false ∧
        u.rw.intervalBase = v.cm.timeBase ∧ u.rw.intervalFired = false) ∧
      (v.rw.drain ≠ .idle → u.rw = { v.rw with statusPending := true, drainOwed := true }))

/-- CLEAR_FLOW (R132) and EVICT_FLOW (R49, R50) of flow A: BAD_ARGUMENT for an index above 1023 or an entry that is not
valid, an entry that fails its check being faulted first (R51, R52); a cleared entry keeps all but its counters; an evicted one is VACANT with its generation kept, retired if it was
dirty; NO_ROOM, and nothing evicted, when the retire buffer is full. The drain number of the record is log 20's. -/
def Obligations.FlowCommandsActOnTheirEntry : Prop :=
  ∀ (s v : State) (o : Observation) (a : Nat), a = (v.imageByte 2).toNat + 256 * (v.imageByte 3).toNat →
    (∀ k ∈ [MailboxCommand.clearFlow, .evictFlow], s.TakesCommand k o v →
      (1024 ≤ a ∨ ((v.flow a).checkOk = true ∧ (v.flow a).valid = false)) →
      ∃ u : State, exec (if k = MailboxCommand.clearFlow then Instr.clearFlow else Instr.evictFlow) s = .next (u.settle v) ∧
        AnswersAtTake v u .badArgument ∧ u.ft = v.ft ∧ u.cm = v.cm ∧ u.tau = v.tau) ∧
    (∀ k ∈ [MailboxCommand.clearFlow, .evictFlow], s.TakesCommand k o v → a < 1024 → (v.flow a).checkOk = false →
      ∃ u : State, exec (if k = MailboxCommand.clearFlow then Instr.clearFlow else Instr.evictFlow) s = .next (u.settle v) ∧
        AnswersAtTake v u .badArgument ∧ u.flow a = vacantEntry ((v.flow a).generation + 1) ∧
        u.ft = (v.checked a).ft ∧ u.cm = (v.checked a).cm ∧ u.tau = (v.checked a).tau) ∧
    (s.TakesCommand .clearFlow o v → a < 1024 → (v.flow a).checkOk = true → (v.flow a).valid = true →
      ∃ u : State, exec .clearFlow s = .next (u.settle v) ∧ AnswersAtTake v u .done ∧ u.cm = v.cm ∧ u.tau = v.tau ∧
        u.flow a = { v.flow a with
          tallies := ⟨[]⟩, worstResidence := 0, lateRun := 0, misses := 0, faultMask := 0#16, dirty := true } ∧
        ∀ j, j ≠ a → u.flow j = v.flow j) ∧
    (s.TakesCommand .evictFlow o v → a < 1024 → (v.flow a).checkOk = true → (v.flow a).valid = true →
      ((v.flow a).dirty = true → v.ft.retire.length < 8) →
      ∃ u : State, exec .evictFlow s = .next (u.settle v) ∧ AnswersAtTake v u .done ∧
        (u.flow a).state = .vacant ∧ (u.flow a).generation = (v.flow a).generation ∧ u.cm.due.find? a = none ∧
        (∀ j, j ≠ a → u.flow j = v.flow j ∧ u.cm.due.find? j = v.cm.due.find? j) ∧
        u.agg .evictions = min (v.agg .evictions + 1) 4294967295 ∧
        u.ft.retire = v.ft.retire ++ (if (v.flow a).dirty then
          [{ type := .retire .commanded, index := a, entry := v.flow a, drainNumber := v.rw.drainNumber,
             time := v.cm.timeBase }] else [])) ∧
    (s.TakesCommand .evictFlow o v → a < 1024 → (v.flow a).checkOk = true → (v.flow a).valid = true →
      (v.flow a).dirty = true → 8 ≤ v.ft.retire.length →
      ∃ u : State, exec .evictFlow s = .next (u.settle v) ∧ AnswersAtTake v u .noRoom ∧ u.ft = v.ft ∧ u.cm = v.cm ∧
        u.tau = v.tau)

/-- The commands that stay in flight (R134, R159, R174, R175): CLEAR_ALL before index 0 of its walk; INTERROGATE with the
record it built of its entry, VACANT with the generation advanced where that fails its check (R52); RELOAD_CONFIG with its reload begun, or waiting behind the load in progress; RESTART
(R13, R27, R54, R108, R126, R146, R162) in LOADING with an INITIAL load, every block but the link, memory, the settings,
the time base, the sight start and P at its reset values; that a pending INTERROGATE record goes too is the model's choice
(log 21). -/
def Obligations.CommandsInFlightStart : Prop :=
  ∀ (s v : State) (o : Observation) (a : Nat) (tag : BitVec 8), tag = v.imageByte 0 →
    a = (v.imageByte 2).toNat + 256 * (v.imageByte 3).toNat →
    (s.TakesCommand .clearAll o v → exec .clearAll s = .next (State.settle
      { v with ci := { v.ci with lastTag := tag, inFlight := some (.clearAll 0, tag) } } v)) ∧
    (∀ x : ReportRecord, x = { type := .interrogate tag, index := a, drainNumber := v.rw.drainNumber,
                               time := v.cm.timeBase,
                               entry := if (v.flow a).valid then v.flow a else vacantEntry (v.flow a).generation } →
      s.TakesCommand .interrogate o v → a < 1024 → (v.flow a).checkOk = true → exec .interrogate s = .next (State.settle
        { v with
          ci := { v.ci with lastTag := tag, inFlight := some (.interrogate, tag) }
          rw := { v.rw with interrogate := some x } } v)) ∧
    (∀ x : ReportRecord, x = { type := .interrogate tag, index := a, drainNumber := v.rw.drainNumber,
                               time := v.cm.timeBase, entry := vacantEntry ((v.flow a).generation + 1) } →
      s.TakesCommand .interrogate o v → a < 1024 → (v.flow a).checkOk = false →
      exec .interrogate s = .next (State.settle
        { v.checked a with
          ci := { v.ci with lastTag := tag, inFlight := some (.interrogate, tag) }
          rw := { v.rw with interrogate := some x } } v)) ∧
    (s.TakesCommand .interrogate o v → 1024 ≤ a → ∃ u : State, exec .interrogate s = .next (u.settle v) ∧
      AnswersAtTake v u .badArgument ∧ u.ft = v.ft ∧ u.cm = v.cm ∧ u.tau = v.tau ∧ u.rw.interrogate = v.rw.interrogate) ∧
    (s.TakesCommand .reloadConfig o v → v.ci.load ≠ none → exec .reloadConfig s = .next (State.settle
      { v with ci := { v.ci with
          lastTag := tag, inFlight := some (.reloadConfig, tag), reloadWaiting := some .command } } v)) ∧
    (s.TakesCommand .reloadConfig o v → v.ci.load = none → ∃ u : State, exec .reloadConfig s = .next (u.settle v) ∧
      u = { v with
        tau := u.tau
        ci := { v.ci with
          lastTag := tag, inFlight := some (.reloadConfig, tag), loadReads := [],
          load := some { kind := .reload .command, issued := false } } } ∧
      (∀ k, u.alarm k = v.alarm k) ∧
      ∀ c, u.agg c = if c = .configReloads then min (v.agg c + 1) 4294967295 else v.agg c) ∧
    (s.TakesCommand .restart o v →
    ∃ u : State, exec .restart s = .next (u.settle v) ∧ u.mem = s.mem ∧ u.pending = s.pending ∧
      u.ci = { v.ci with
        lastTag := v.imageByte 0, part := .loading, inFlight := some (.restart, v.imageByte 0),
        load := some { kind := .initial, issued := false }, loadReads := [], reloadWaiting := none } ∧
      u.oq = State.reset.oq ∧ u.ft = State.reset.ft ∧ u.tt = State.reset.tt ∧ u.tau = State.reset.tau ∧
      u.cm = { v.cm with due := ⟨[]⟩ } ∧
      u.rw.produce = v.rw.produce ∧ u.rw.drain = .idle ∧ u.rw.drainNumber = 0#16 ∧ u.rw.drainOwed = false ∧
      u.rw.statusPending = false ∧ u.rw.job = none ∧ u.rw.interrogate = none ∧
      u.fp.straps = s.fp.straps ∧ u.fp.slPort = s.fp.slPort ∧ u.fp.starvation = 0 ∧
      (∀ t, s.fp.request = some (.forwarded t) → u.fp.request = s.fp.request) ∧
      (∀ t l, s.fp.request = some (.injected t l) → u.fp.request = some (.injected t false)) ∧
      (s.fp.request = none → u.fp.request = none) ∧ (s.fp.ret = none → u.fp.ret = none) ∧
      (∀ r, s.fp.ret = some r → u.fp.ret = some { r with owner := if r.owner = .switchSide then .switchSide else .dropped }))

/-- CLEAR_ALL_WALK_STEP (R134 to R136): below 1024 it clears the counters of that sound valid entry and goes on to the
next index, an entry that fails its check being faulted and passed over (R52); after index 1023 the aggregates and occurrence counts become 0 and DONE is recorded (log 16). -/
def Obligations.WalkClearsEachEntryOnce : Prop :=
  ∀ (s : State) (n : Nat) (tag : BitVec 8), s.ci.inFlight = some (.clearAll n, tag) →
    (n < 1024 → (s.flow n).checkOk = true → ∃ u : State, exec .clearAllWalkStep s = .next (u.settle s) ∧
      SameLink s u ∧ u.oq = s.oq ∧ u.tt = s.tt ∧ u.cm = s.cm ∧ u.tau = s.tau ∧ u.rw = s.rw ∧
      u.ci = { s.ci with inFlight := some (.clearAll (n + 1), tag) } ∧ (∀ j, j ≠ n → u.flow j = s.flow j) ∧
      u.ft.retire = s.ft.retire ∧ u.ft.plru = s.ft.plru ∧
      u.flow n = if (s.flow n).valid then { s.flow n with
        tallies := ⟨[]⟩, worstResidence := 0, lateRun := 0, misses := 0, faultMask := 0#16, dirty := true }
        else s.flow n) ∧
    (n < 1024 → (s.flow n).checkOk = false → exec .clearAllWalkStep s = .next (State.settle
      { s.checked n with ci := { s.ci with inFlight := some (.clearAll (n + 1), tag) } } s)) ∧
    (1024 ≤ n → ∃ u : State, exec .clearAllWalkStep s = .next (u.settle s) ∧ SameLink s u ∧ u.oq = s.oq ∧ u.ft = s.ft ∧
      u.tt = s.tt ∧ u.cm = s.cm ∧ u.rw = { s.rw with statusPending := true } ∧
      u.ci = { s.ci with
        inFlight := none, lastResult := some { tag := tag, code := .done, time := s.cm.timeBase } } ∧
      (∀ a, u.agg a = 0) ∧ ∀ k, u.alarm k = { s.alarm k with occurrences := 0 })

/-! ## Loads -/

/-- LOAD_READ_APPLY of a read that brings settings (R163, R171, R172): with no record taken before it in the queue, the
bytes of its words enter the image, but for word 0 of the block at offset 0, and no other byte changes; the load goes on.
It is an application of those bytes as a control write is (R163 to R166): the globals, consume index, rings, profiles and
classifier entries they name are held as the statements of the control writes say, with clamps and effects.
That word 0 of that block does not enter the image is the model's choice (DEDUCED, log 17). While a record taken before it
waits in the queue, or no read has returned, nothing is applied; a record taken after a load read that is not yet applied is
not handed out (R172): the row leaves the state (log 2). -/
def Obligations.LoadReadMergesItsWords : Prop :=
  (∀ s : State, (s.ci.loadReads = [] ∨ ∃ r rest, s.ci.loadReads = r :: rest ∧ ∃ o ∈ s.oq.queue, o.place < r.place) →
    exec .loadReadApply s = .next s) ∧
  (∀ (s : State) (o : Observation) (rest : List Observation), s.oq.queue = o :: rest →
    ((∃ r ∈ s.ci.loadReads, r.place < o.place) ∨ ∃ r, s.fp.ret = some r ∧ r.owner = .job ∧ r.place < o.place) →
    ∀ c ∈ handOuts, exec c s = .next s) ∧
  ∀ (s : State) (r : LoadRead) (rest : List LoadRead), s.ci.loadReads = r :: rest →
    (∀ o ∈ s.oq.queue, r.place ≤ o.place) → s.ci.load ≠ none → (r.offset ≠ 0 ∨ r.words.length ≠ 1) →
    ∃ u : State, exec .loadReadApply s = .next (u.settle u) ∧ u.mem = s.mem ∧ u.pending = s.pending ∧ u.fp = s.fp ∧
      u.ci.loadReads = rest ∧ u.ci.load = s.ci.load ∧ u.ci.part = s.ci.part ∧ u.ci.lastTag = s.ci.lastTag ∧
      u.ci.lastResult = s.ci.lastResult ∧ u.ci.inFlight = s.ci.inFlight ∧ u.oq.queue = s.oq.queue ∧
      u.rw.produce = s.rw.produce ∧ u = State.applySettings { s with ci := { s.ci with loadReads := rest } } r.bytes ∧
      (∀ b, names r.bytes b 1 = true ↔
        r.offset ≤ b ∧ b < r.offset + 8 * r.words.length ∧ (r.offset = 0 → 8 ≤ b)) ∧
      (names r.bytes 8 8 = true → HoldsGlobals r.bytes s u) ∧
      (names r.bytes 0x80 2 = true → HoldsConsume r.bytes s u) ∧
      (names r.bytes 0x100 256 = true → (∀ q, (s.ring q).slots ≤ 256) → HoldsRings r.bytes s u) ∧
      HoldsProfiles r.bytes s u ∧
      (∀ (k : Nat) (w : Word), r.words[k]? = some w → (r.offset ≠ 0 ∨ k ≠ 0) → ∀ i < 8,
        u.imageByte (r.offset + 8 * k + i) = w.extractLsb' (8 * i) 8) ∧
      (∀ b, b < r.offset ∨ r.offset + 8 * r.words.length ≤ b ∨ (r.offset = 0 ∧ b < 8) →
        u.imageByte b = s.imageByte b)

/-- LOAD_READ_APPLY of the command word's read sets the last-taken tag and ends the load (R167, R171, R173, R174). An
INITIAL load ends in RUNNING, with coverage as R23 states, P equal to C and a RESTART answered; BLIND fires its trigger with
the first-lost address (where that is empty, with a free value, log 12); a reload of origin
COMMAND is answered, CLAMPED where a held field differs from its written value (R168), else DONE; either way STATUS is
requested (R151, log 27) and a waiting reload starts. -/
def Obligations.CommandWordReadEndsTheLoad : Prop :=
  (∀ s : State, s.anyClamped = true ↔
    s.ci.held.pinCount ≠ s.imageField 9 1 ∨ s.ci.held.dirtyThreshold ≠ s.imageField 14 2 ∨
    s.consume ≠ s.imageField 0x80 2 ∨
    (∃ r < 16, ∃ b, b = 0x100 + 16 * r ∧ ((s.ring r).base.toNat ≠ s.imageField b 4 % 2 ^ 27 ∨
      (s.ring r).slots ≠ s.imageField (b + 4) 2 ∨ (s.ring r).enabled ≠ (s.imageByte (b + 6)).getLsbD 0)) ∨
    ∃ p < 16, ∃ b, b = 0x200 + 32 * p ∧ ((s.profile p).width ≠ s.imageField (b + 1) 1 ∨
      (s.profile p).window ≠ s.imageField (b + 2) 1 ∨ (s.profile p).staleLimit ≠ s.imageField (b + 3) 1 ∨
      (s.profile p).jumpLimit ≠ s.imageField (b + 4) 2 ∨ (s.profile p).silenceLimit ≠ s.imageField (b + 6) 1 ∨
      (s.profile p).budget ≠ s.imageField (b + 12) 4)) ∧
  ∀ (s : State) (r : LoadRead) (rest : List LoadRead) (w : Word) (l : Load), s.ci.loadReads = r :: rest →
    (∀ o ∈ s.oq.queue, r.place ≤ o.place) → s.ci.load = some l → r.offset = 0 → r.words = [w] →
    ∃ u : State, exec .loadReadApply s = .next (u.settle s) ∧ u.mem = s.mem ∧ u.pending = s.pending ∧ u.fp = s.fp ∧
      u.ci.held = s.ci.held ∧ u.ci.lastTag = w.extractLsb' 0 8 ∧ (∀ i < 8, u.imageByte i = w.extractLsb' (8 * i) 8) ∧
      u.rw.statusPending = true ∧ u.ci.reloadWaiting = none ∧ u.oq.queue = s.oq.queue ∧ u.ft = s.ft ∧ u.tt = s.tt ∧
      u.ci.load = s.ci.reloadWaiting.map (fun o => { kind := .reload o, issued := false }) ∧
      u.agg .configReloads = (if s.ci.reloadWaiting = none then s.agg .configReloads
        else min (s.agg .configReloads + 1) 4294967295) ∧
      (l.kind = .initial →
        u.ci.part = .running ∧ u.rw.produce = s.consume ∧ u.rw.intervalBase = s.cm.timeBase ∧
        u.rw.intervalFired = false ∧
        (s.ci.held.monitoring = false → u.oq.coverage = .paused) ∧
        (s.ci.held.monitoring = true →
          (s.oq.lossMark = true ∨ ∃ o ∈ s.oq.queue, o.followsLoss = true) →
          u.oq.coverage = .blind ∧ u.agg .blindIntervals = min (s.agg .blindIntervals + 1) 4294967295 ∧
          (s.alarmOn .blind = false → u.alarm .blind = s.alarm .blind) ∧
          (s.alarmOn .blind = true → (u.alarm .blind).raised = true ∧ (u.alarm .blind).held = (s.alarm .blind).held ∧
            (u.alarm .blind).occurrences = min ((s.alarm .blind).occurrences + 1) 65535 ∧
            ((s.alarm .blind).raised = true → (u.alarm .blind).first = (s.alarm .blind).first) ∧
            ∀ a, s.oq.firstLost = some a → (s.alarm .blind).raised = false →
              (u.alarm .blind).first = BitVec.ofNat 32 a.toNat)) ∧
        (s.ci.held.monitoring = true → s.oq.lossMark = false → (∀ o ∈ s.oq.queue, o.followsLoss = false) →
          u.oq.coverage = .sighted ∧ u.cm.sightStart = s.cm.timeBase) ∧
        (∀ tag, s.ci.inFlight = some (.restart, tag) → u.ci.inFlight = none ∧
          u.ci.lastResult = some { tag := tag, code := .done, time := s.cm.timeBase })) ∧
      (∀ g, l.kind = .reload g → u.ci.part = s.ci.part ∧ u.rw.produce = s.rw.produce ∧ u.oq = s.oq ∧
        u.rw.intervalBase = s.rw.intervalBase) ∧
      (∀ tag, l.kind = .reload .command → s.ci.inFlight = some (.reloadConfig, tag) → u.ci.inFlight = none ∧
        u.ci.lastResult =
          some { tag := tag, code := if s.anyClamped then .clamped else .done, time := s.cm.timeBase })

/-! ## The report writer -/

/-- INTERVAL_TIMER_EXPIRY (R152, R153, R161): in RUNNING, the interval non-zero and passed since its base, the fired flag
clear. An idle drain starts, numbered one up, its budget the dirty count, its base the time base; else a drain is owed
and the flag is set. Otherwise the timer does not expire. That it runs in RUNNING alone is the model's reading (log 25), and
R110's test as it stands for a base 2^47 ns or more back its choice (log 41). -/
def Obligations.IntervalExpiryTriggersADrain : Prop :=
  ∀ (s : State) (passed : Bool),
    passed = atOrAfter s.cm.timeBase (s.rw.intervalBase + BitVec.ofNat 48 (s.ci.held.interval * 1000000)) →
    (s.ci.part = .running → s.ci.held.interval ≠ 0 → s.rw.intervalFired = false → passed = true → s.rw.drain = .idle →
      exec .intervalTimerExpiry s = .next (State.settle
        { s with rw := { s.rw with
            drain := .draining, drainNumber := s.rw.drainNumber + 1, budget := s.dirtyCount, built := 0, written := [],
            intervalBase := s.cm.timeBase, intervalFired := false, drainOwed := false } } s)) ∧
    (s.ci.part = .running → s.ci.held.interval ≠ 0 → s.rw.intervalFired = false → passed = true → s.rw.drain ≠ .idle →
      exec .intervalTimerExpiry s = .next (State.settle
        { s with rw := { s.rw with intervalFired := true, drainOwed := true } } s)) ∧
    (s.ci.part ≠ .running ∨ s.ci.held.interval = 0 ∨ s.rw.intervalFired = true ∨ passed = false →
      exec .intervalTimerExpiry s = .next s)

/-- Job selection (R149, R151, R159): nothing while a job is current; else LOAD, STATUS, INTERROGATE, RETIRE in this order
of priority, an INTERROGATE that finds the ring full being answered NO_ROOM and a full ring holding RETIRE back; a
pending drain that is not DRAINING gives no job. With nothing higher eligible, a drain in DRAINING makes its step, and
selection is made afresh. -/
def Obligations.SelectionTakesHighestPriority : Prop :=
  (∀ s : State, s.rw.job ≠ none → s.select = s) ∧
  ∀ s : State, s.rw.job = none →
    (∀ l, s.ci.load = some l → l.issued = false → s.select = { s with
      ci := { s.ci with load := some { l with issued := true } }
      rw := { s.rw with job := some { kind := .load, todo := s.loadJob, started := false } } }) ∧
    ((∀ l, s.ci.load = some l → l.issued = true) →
      (s.rw.statusPending = true → s.select = { s with rw := { s.rw with
        statusPending := false, job := some { kind := .status, todo := s.statusJob, started := false } } }) ∧
      (s.rw.statusPending = false →
        (∀ x, s.rw.interrogate = some x → (s.rw.produce + 1) % 480 ≠ s.consume → s.select = { s with rw := { s.rw with
          interrogate := none,
          job := some { kind := .interrogate, todo := s.recordJob x, started := false } } }) ∧
        (∀ x, s.rw.interrogate = some x → (s.rw.produce + 1) % 480 = s.consume →
          s.select.ci.inFlight = none ∧ s.select.rw.interrogate = none ∧ s.select.rw.produce = s.rw.produce ∧
          s.select.ci.lastResult = some { tag := s.inFlightTag, code := .noRoom, time := s.cm.timeBase } ∧
          ∃ j, s.select.rw.job = some j ∧ j.kind = .status) ∧
        (∀ x rest, s.rw.interrogate = none → s.ft.retire = x :: rest → (s.rw.produce + 1) % 480 ≠ s.consume →
          s.select = { s with rw := { s.rw with
            job := some { kind := .retire, todo := s.recordJob x, started := false } } }) ∧
        (s.rw.interrogate = none → (s.ft.retire = [] ∨ (s.rw.produce + 1) % 480 = s.consume) →
          s.rw.drain ≠ .draining → s.select = s) ∧
        (s.rw.interrogate = none → (s.ft.retire = [] ∨ (s.rw.produce + 1) % 480 = s.consume) →
          s.rw.drain = .draining → ∃ r, AlertRefreshed s.drainStep r ∧ s.select = r.select)))

/-- A step of a drain (R154, R155): with its budget built it ends; on a full ring it stalls, counts report_stalls and
fires REPORT_FULL; else the eligible flow of highest report priority, lowest index among equals, is chosen, and the
record of a sound one is built, its dirty flag cleared, while one that fails its check is faulted and the choice made again;
with no flow eligible the drain ends. The end requests STATUS and, with a drain owed or the dirty threshold standing, starts
the next drain: number one up, budget the dirty count, written set empty, base the time base (R153). A flow is eligible that is
valid, dirty and, with its generation, not in the written set. -/
def Obligations.DrainStepTakesTheMostUrgentFlow : Prop :=
  (∀ (s : State) (i : Nat), s.drainEligible i = true ↔
    (s.flow i).state ≠ .vacant ∧ (s.flow i).dirty = true ∧ (i, (s.flow i).generation) ∉ s.rw.written) ∧
  ∀ (s : State) (record : Nat → ReportRecord), record = (fun i =>
      { type := .periodic, index := i, entry := s.flow i, drainNumber := s.rw.drainNumber, time := s.cm.timeBase }) →
    risingFrom none s.ft.flows.cells = true →
    (s.rw.built = s.rw.budget → s.drainStep = s.endDrain) ∧
    (s.rw.built ≠ s.rw.budget → (s.rw.produce + 1) % 480 = s.consume →
      s.drainStep.rw = { s.rw with drain := .stalled, statusPending := true } ∧ s.drainStep.ft = s.ft ∧
      s.drainStep.agg .reportStalls = min (s.agg .reportStalls + 1) 4294967295 ∧
      (s.alarmOn .reportFull = true → (s.drainStep.alarm .reportFull).raised = true ∧
        ((s.alarm .reportFull).raised = false →
          (s.drainStep.alarm .reportFull).first = BitVec.ofNat 32 s.rw.produce))) ∧
    (s.rw.built ≠ s.rw.budget → (s.rw.produce + 1) % 480 ≠ s.consume →
      (∀ i < 1024, s.drainEligible i = true → (s.flow i).checkOk = true →
        (∀ j < 1024, s.drainEligible j = true → j ≠ i →
          (s.profileOf (s.flow j)).priority < (s.profileOf (s.flow i)).priority ∨
          ((s.profileOf (s.flow j)).priority = (s.profileOf (s.flow i)).priority ∧ i < j)) →
        ∃ u : State, s.drainStep = u ∧ u.flow i = { s.flow i with dirty := false } ∧
          (∀ j, j ≠ i → u.flow j = s.flow j) ∧ u.tau = s.tau ∧ u.ci = s.ci ∧
          u.rw = { s.rw with
            built := s.rw.built + 1, written := s.rw.written ++ [(i, (s.flow i).generation)],
            job := some { kind := .drain, todo := s.recordJob (record i), started := false } }) ∧
      (∀ i < 1024, s.drainEligible i = true → (s.flow i).checkOk = false →
        (∀ j < 1024, s.drainEligible j = true → j ≠ i →
          (s.profileOf (s.flow j)).priority < (s.profileOf (s.flow i)).priority ∨
          ((s.profileOf (s.flow j)).priority = (s.profileOf (s.flow i)).priority ∧ i < j)) →
        s.drainStep = (s.checked i).drainStep) ∧
      ((∀ i < 1024, s.drainEligible i = false) → s.drainStep = s.endDrain)) ∧
    (s.rw.drainOwed = true ∨ s.ThresholdStands → s.endDrain =
      { s with rw := { s.rw with statusPending := true }.started s.dirtyCount s.cm.timeBase }) ∧
    (s.rw.drainOwed = false → ¬ s.ThresholdStands → s.endDrain =
      { s with rw := { s.rw with statusPending := true, drain := .idle } })

/-- What the jobs carry (R147, R150, R151, R160, R171, R178): a record has the 128 bytes of its layout and goes in four
burst writes to slot P before the produce write; the status block has the 256 bytes of its layout, in eight burst writes;
a load is 35 reads, of the block at offset 0, the rings, the profiles, the classifier, the consume index and the command
word, in this order. -/
def Obligations.JobsFillTheirBlocks : Prop :=
  ∀ (s : State) (x : ReportRecord) (a : Nat → Addr), a = s.controlAddress →
    (∀ o < 0x10000, (a o).toNat = s.fp.straps.toNat * 0x800000 + o) ∧
    RecordLayout x x.bytes ∧ StatusLayout s s.statusBytes ∧
    s.statusJob.length = 8 ∧ (∀ k < 8, CarriesBlock s.statusJob[k]? (a (0x800 + 32 * k)) s.statusBytes (32 * k)) ∧
    (s.recordJob x).length = 5 ∧
    (∀ k < 4, CarriesBlock (s.recordJob x)[k]? (a (0x1000 + 128 * s.rw.produce + 32 * k)) x.bytes (32 * k)) ∧
    (s.recordJob x)[4]? = some (.singleWrite (a 0x808) (BitVec.ofNat 64 ((s.rw.produce + 1) % 480)) 255#8) ∧
    s.loadJob = .burstRead (a 0) 0#2
      :: ((List.range 8).map (fun k => .burstRead (a (0x100 + 32 * k)) 0#2)
      ++ (List.range 16).map (fun k => .burstRead (a (0x200 + 32 * k)) 0#2)
      ++ (List.range 8).map (fun k => .burstRead (a (0x400 + 32 * k)) 0#2)
      ++ [.singleRead (a 0x80), .singleRead (a 0)])

/-! ## Invariants -/

/-- The state after reset is lawful in every respect that the invariants below keep (among them RW's
interval base 0 and clear fired flag, the model's choice, log 22). -/
def Obligations.ResetIsLawful : Prop :=
  State.reset.AlertFollowsTable ∧ State.reset.SumRuleHolds ∧ State.reset.DueListAgrees ∧ State.reset.KeysUnique ∧
  State.reset.RingsLawful ∧ State.reset.OccupiedSlotsEnabled ∧ State.reset.WithinBounds ∧
  State.reset.OfflineHeldAtReset ∧ State.reset.memWf = true

/-- Every step keeps the alert record and ALERT_N at what the alarm table says (R143, R144). -/
def Obligations.StepsKeepTheAlertTrue : Prop :=
  ∀ s u : State, s.AlertFollowsTable → step s = .next u → u.AlertFollowsTable

/-- Every step keeps the sum rule of every valid entry (R69). -/
def Obligations.StepsKeepTheSumRule : Prop :=
  ∀ s u : State, s.SumRuleHolds → step s = .next u → u.SumRuleHolds

/-- Every step keeps the due list and the entries in agreement (R111, R112, R123). -/
def Obligations.StepsKeepTheDueListTrue : Prop :=
  ∀ s u : State, s.DueListAgrees → step s = .next u → u.DueListAgrees

/-- No step lets two valid entries hold one key, or an entry stand outside its key's set (R28, R35, R38). -/
def Obligations.StepsKeepKeysUnique : Prop :=
  ∀ s u : State, s.KeysUnique → step s = .next u → u.KeysUnique

/-- While RESET_N is asserted nothing but the link and the release moves any block from its reset values (R11, R27,
R53, R107, R126, R145, R161, R175). Two of them, RW's interval base 0 and clear fired flag, are the model's choice (log 22):
R161 says only that the timer is stopped. -/
def Obligations.StepsHoldEveryBlockWhileOffline : Prop :=
  ∀ s u : State, s.OfflineHeldAtReset → step s = .next u → u.OfflineHeldAtReset

/-- Every step keeps the held ring geometry lawful (R164, R165), given what holds while RESET_N is asserted (its RW
values in part the model's choice, log 22). -/
def Obligations.StepsKeepRingsLawful : Prop :=
  ∀ s u : State, s.RingsLawful → s.OfflineHeldAtReset → step s = .next u → u.RingsLawful

/-- No step leaves a frame in a slot of a ring that is not enabled (R84, R86, R87). -/
def Obligations.StepsKeepFramesInEnabledRings : Prop :=
  ∀ s u : State, s.OccupiedSlotsEnabled → step s = .next u → u.OccupiedSlotsEnabled

/-- Every step keeps the spec's bounds (R8, R18, R44, R48, R147, R164) and the canonical form of memory. -/
def Obligations.StepsKeepTheBounds : Prop :=
  ∀ s u : State, s.WithinBounds → s.memWf = true → step s = .next u → u.WithinBounds ∧ u.memWf = true
end

