-- ==== Sys2Proof/Laws/State.lean ====
section
/-! SUPPORT. One lemma per field, and per reading of the state, for each update of one block; all by rfl. -/

namespace Sys2Proof.Machine

variable (s : State)

/-! ## onFp -/

@[simp] theorem State.onFp_pending (g : ForwardingPath → ForwardingPath) : (s.onFp g).pending = s.pending := rfl
@[simp] theorem State.onFp_mem (g : ForwardingPath → ForwardingPath) : (s.onFp g).mem = s.mem := rfl
@[simp] theorem State.onFp_fp (g : ForwardingPath → ForwardingPath) : (s.onFp g).fp = g s.fp := rfl
@[simp] theorem State.onFp_oq (g : ForwardingPath → ForwardingPath) : (s.onFp g).oq = s.oq := rfl
@[simp] theorem State.onFp_ft (g : ForwardingPath → ForwardingPath) : (s.onFp g).ft = s.ft := rfl
@[simp] theorem State.onFp_tt (g : ForwardingPath → ForwardingPath) : (s.onFp g).tt = s.tt := rfl
@[simp] theorem State.onFp_cm (g : ForwardingPath → ForwardingPath) : (s.onFp g).cm = s.cm := rfl
@[simp] theorem State.onFp_tau (g : ForwardingPath → ForwardingPath) : (s.onFp g).tau = s.tau := rfl
@[simp] theorem State.onFp_rw (g : ForwardingPath → ForwardingPath) : (s.onFp g).rw = s.rw := rfl
@[simp] theorem State.onFp_ci (g : ForwardingPath → ForwardingPath) : (s.onFp g).ci = s.ci := rfl
@[simp] theorem State.onFp_freeCount (g : ForwardingPath → ForwardingPath) : (s.onFp g).freeCount = s.freeCount := rfl
@[simp] theorem State.onFp_memByte (g : ForwardingPath → ForwardingPath) (a : Nat) : (s.onFp g).memByte a = s.memByte a := rfl
@[simp] theorem State.onFp_ring (g : ForwardingPath → ForwardingPath) (r : Nat) : (s.onFp g).ring r = s.ring r := rfl
@[simp] theorem State.onFp_profile (g : ForwardingPath → ForwardingPath) (p : Nat) : (s.onFp g).profile p = s.profile p := rfl
@[simp] theorem State.onFp_classifierEntry (g : ForwardingPath → ForwardingPath) (n : Nat) : (s.onFp g).classifierEntry n = s.classifierEntry n := rfl
@[simp] theorem State.onFp_imageByte (g : ForwardingPath → ForwardingPath) (o : Nat) : (s.onFp g).imageByte o = s.imageByte o := rfl
@[simp] theorem State.onFp_consume (g : ForwardingPath → ForwardingPath) : (s.onFp g).consume = s.consume := rfl
@[simp] theorem State.onFp_now (g : ForwardingPath → ForwardingPath) : (s.onFp g).now = s.now := rfl
@[simp] theorem State.onFp_agg (g : ForwardingPath → ForwardingPath) (a : Aggregate) : (s.onFp g).agg a = s.agg a := rfl
@[simp] theorem State.onFp_alarm (g : ForwardingPath → ForwardingPath) (k : AlarmKind) : (s.onFp g).alarm k = s.alarm k := rfl
@[simp] theorem State.onFp_alarmOn (g : ForwardingPath → ForwardingPath) (k : AlarmKind) : (s.onFp g).alarmOn k = s.alarmOn k := rfl
@[simp] theorem State.onFp_flow (g : ForwardingPath → ForwardingPath) (i : Nat) : (s.onFp g).flow i = s.flow i := rfl
@[simp] theorem State.onFp_plruOf (g : ForwardingPath → ForwardingPath) (n : Nat) : (s.onFp g).plruOf n = s.plruOf n := rfl
@[simp] theorem State.onFp_slot (g : ForwardingPath → ForwardingPath) (r i : Nat) : (s.onFp g).slot r i = s.slot r i := rfl

/-! ## onOq -/

@[simp] theorem State.onOq_pending (g : ObservationQueue → ObservationQueue) : (s.onOq g).pending = s.pending := rfl
@[simp] theorem State.onOq_mem (g : ObservationQueue → ObservationQueue) : (s.onOq g).mem = s.mem := rfl
@[simp] theorem State.onOq_fp (g : ObservationQueue → ObservationQueue) : (s.onOq g).fp = s.fp := rfl
@[simp] theorem State.onOq_oq (g : ObservationQueue → ObservationQueue) : (s.onOq g).oq = g s.oq := rfl
@[simp] theorem State.onOq_ft (g : ObservationQueue → ObservationQueue) : (s.onOq g).ft = s.ft := rfl
@[simp] theorem State.onOq_tt (g : ObservationQueue → ObservationQueue) : (s.onOq g).tt = s.tt := rfl
@[simp] theorem State.onOq_cm (g : ObservationQueue → ObservationQueue) : (s.onOq g).cm = s.cm := rfl
@[simp] theorem State.onOq_tau (g : ObservationQueue → ObservationQueue) : (s.onOq g).tau = s.tau := rfl
@[simp] theorem State.onOq_rw (g : ObservationQueue → ObservationQueue) : (s.onOq g).rw = s.rw := rfl
@[simp] theorem State.onOq_ci (g : ObservationQueue → ObservationQueue) : (s.onOq g).ci = s.ci := rfl
@[simp] theorem State.onOq_freeCount (g : ObservationQueue → ObservationQueue) : (s.onOq g).freeCount = s.freeCount := rfl
@[simp] theorem State.onOq_memByte (g : ObservationQueue → ObservationQueue) (a : Nat) : (s.onOq g).memByte a = s.memByte a := rfl
@[simp] theorem State.onOq_ring (g : ObservationQueue → ObservationQueue) (r : Nat) : (s.onOq g).ring r = s.ring r := rfl
@[simp] theorem State.onOq_profile (g : ObservationQueue → ObservationQueue) (p : Nat) : (s.onOq g).profile p = s.profile p := rfl
@[simp] theorem State.onOq_classifierEntry (g : ObservationQueue → ObservationQueue) (n : Nat) : (s.onOq g).classifierEntry n = s.classifierEntry n := rfl
@[simp] theorem State.onOq_imageByte (g : ObservationQueue → ObservationQueue) (o : Nat) : (s.onOq g).imageByte o = s.imageByte o := rfl
@[simp] theorem State.onOq_consume (g : ObservationQueue → ObservationQueue) : (s.onOq g).consume = s.consume := rfl
@[simp] theorem State.onOq_controlBase (g : ObservationQueue → ObservationQueue) : (s.onOq g).controlBase = s.controlBase := rfl
@[simp] theorem State.onOq_now (g : ObservationQueue → ObservationQueue) : (s.onOq g).now = s.now := rfl
@[simp] theorem State.onOq_agg (g : ObservationQueue → ObservationQueue) (a : Aggregate) : (s.onOq g).agg a = s.agg a := rfl
@[simp] theorem State.onOq_alarm (g : ObservationQueue → ObservationQueue) (k : AlarmKind) : (s.onOq g).alarm k = s.alarm k := rfl
@[simp] theorem State.onOq_alarmOn (g : ObservationQueue → ObservationQueue) (k : AlarmKind) : (s.onOq g).alarmOn k = s.alarmOn k := rfl
@[simp] theorem State.onOq_flow (g : ObservationQueue → ObservationQueue) (i : Nat) : (s.onOq g).flow i = s.flow i := rfl
@[simp] theorem State.onOq_plruOf (g : ObservationQueue → ObservationQueue) (n : Nat) : (s.onOq g).plruOf n = s.plruOf n := rfl
@[simp] theorem State.onOq_slot (g : ObservationQueue → ObservationQueue) (r i : Nat) : (s.onOq g).slot r i = s.slot r i := rfl

/-! ## onFt -/

@[simp] theorem State.onFt_pending (g : FlowTable → FlowTable) : (s.onFt g).pending = s.pending := rfl
@[simp] theorem State.onFt_mem (g : FlowTable → FlowTable) : (s.onFt g).mem = s.mem := rfl
@[simp] theorem State.onFt_fp (g : FlowTable → FlowTable) : (s.onFt g).fp = s.fp := rfl
@[simp] theorem State.onFt_oq (g : FlowTable → FlowTable) : (s.onFt g).oq = s.oq := rfl
@[simp] theorem State.onFt_ft (g : FlowTable → FlowTable) : (s.onFt g).ft = g s.ft := rfl
@[simp] theorem State.onFt_tt (g : FlowTable → FlowTable) : (s.onFt g).tt = s.tt := rfl
@[simp] theorem State.onFt_cm (g : FlowTable → FlowTable) : (s.onFt g).cm = s.cm := rfl
@[simp] theorem State.onFt_tau (g : FlowTable → FlowTable) : (s.onFt g).tau = s.tau := rfl
@[simp] theorem State.onFt_rw (g : FlowTable → FlowTable) : (s.onFt g).rw = s.rw := rfl
@[simp] theorem State.onFt_ci (g : FlowTable → FlowTable) : (s.onFt g).ci = s.ci := rfl
@[simp] theorem State.onFt_freeCount (g : FlowTable → FlowTable) : (s.onFt g).freeCount = s.freeCount := rfl
@[simp] theorem State.onFt_memByte (g : FlowTable → FlowTable) (a : Nat) : (s.onFt g).memByte a = s.memByte a := rfl
@[simp] theorem State.onFt_ring (g : FlowTable → FlowTable) (r : Nat) : (s.onFt g).ring r = s.ring r := rfl
@[simp] theorem State.onFt_profile (g : FlowTable → FlowTable) (p : Nat) : (s.onFt g).profile p = s.profile p := rfl
@[simp] theorem State.onFt_classifierEntry (g : FlowTable → FlowTable) (n : Nat) : (s.onFt g).classifierEntry n = s.classifierEntry n := rfl
@[simp] theorem State.onFt_imageByte (g : FlowTable → FlowTable) (o : Nat) : (s.onFt g).imageByte o = s.imageByte o := rfl
@[simp] theorem State.onFt_consume (g : FlowTable → FlowTable) : (s.onFt g).consume = s.consume := rfl
@[simp] theorem State.onFt_controlBase (g : FlowTable → FlowTable) : (s.onFt g).controlBase = s.controlBase := rfl
@[simp] theorem State.onFt_now (g : FlowTable → FlowTable) : (s.onFt g).now = s.now := rfl
@[simp] theorem State.onFt_agg (g : FlowTable → FlowTable) (a : Aggregate) : (s.onFt g).agg a = s.agg a := rfl
@[simp] theorem State.onFt_alarm (g : FlowTable → FlowTable) (k : AlarmKind) : (s.onFt g).alarm k = s.alarm k := rfl
@[simp] theorem State.onFt_alarmOn (g : FlowTable → FlowTable) (k : AlarmKind) : (s.onFt g).alarmOn k = s.alarmOn k := rfl
@[simp] theorem State.onFt_slot (g : FlowTable → FlowTable) (r i : Nat) : (s.onFt g).slot r i = s.slot r i := rfl

/-! ## onTt -/

@[simp] theorem State.onTt_pending (g : Store Slot → Store Slot) : (s.onTt g).pending = s.pending := rfl
@[simp] theorem State.onTt_mem (g : Store Slot → Store Slot) : (s.onTt g).mem = s.mem := rfl
@[simp] theorem State.onTt_fp (g : Store Slot → Store Slot) : (s.onTt g).fp = s.fp := rfl
@[simp] theorem State.onTt_oq (g : Store Slot → Store Slot) : (s.onTt g).oq = s.oq := rfl
@[simp] theorem State.onTt_ft (g : Store Slot → Store Slot) : (s.onTt g).ft = s.ft := rfl
@[simp] theorem State.onTt_tt (g : Store Slot → Store Slot) : (s.onTt g).tt = g s.tt := rfl
@[simp] theorem State.onTt_cm (g : Store Slot → Store Slot) : (s.onTt g).cm = s.cm := rfl
@[simp] theorem State.onTt_tau (g : Store Slot → Store Slot) : (s.onTt g).tau = s.tau := rfl
@[simp] theorem State.onTt_rw (g : Store Slot → Store Slot) : (s.onTt g).rw = s.rw := rfl
@[simp] theorem State.onTt_ci (g : Store Slot → Store Slot) : (s.onTt g).ci = s.ci := rfl
@[simp] theorem State.onTt_freeCount (g : Store Slot → Store Slot) : (s.onTt g).freeCount = s.freeCount := rfl
@[simp] theorem State.onTt_memByte (g : Store Slot → Store Slot) (a : Nat) : (s.onTt g).memByte a = s.memByte a := rfl
@[simp] theorem State.onTt_ring (g : Store Slot → Store Slot) (r : Nat) : (s.onTt g).ring r = s.ring r := rfl
@[simp] theorem State.onTt_profile (g : Store Slot → Store Slot) (p : Nat) : (s.onTt g).profile p = s.profile p := rfl
@[simp] theorem State.onTt_classifierEntry (g : Store Slot → Store Slot) (n : Nat) : (s.onTt g).classifierEntry n = s.classifierEntry n := rfl
@[simp] theorem State.onTt_imageByte (g : Store Slot → Store Slot) (o : Nat) : (s.onTt g).imageByte o = s.imageByte o := rfl
@[simp] theorem State.onTt_consume (g : Store Slot → Store Slot) : (s.onTt g).consume = s.consume := rfl
@[simp] theorem State.onTt_controlBase (g : Store Slot → Store Slot) : (s.onTt g).controlBase = s.controlBase := rfl
@[simp] theorem State.onTt_now (g : Store Slot → Store Slot) : (s.onTt g).now = s.now := rfl
@[simp] theorem State.onTt_agg (g : Store Slot → Store Slot) (a : Aggregate) : (s.onTt g).agg a = s.agg a := rfl
@[simp] theorem State.onTt_alarm (g : Store Slot → Store Slot) (k : AlarmKind) : (s.onTt g).alarm k = s.alarm k := rfl
@[simp] theorem State.onTt_alarmOn (g : Store Slot → Store Slot) (k : AlarmKind) : (s.onTt g).alarmOn k = s.alarmOn k := rfl
@[simp] theorem State.onTt_flow (g : Store Slot → Store Slot) (i : Nat) : (s.onTt g).flow i = s.flow i := rfl
@[simp] theorem State.onTt_plruOf (g : Store Slot → Store Slot) (n : Nat) : (s.onTt g).plruOf n = s.plruOf n := rfl

/-! ## onCm -/

@[simp] theorem State.onCm_pending (g : CadenceMonitor → CadenceMonitor) : (s.onCm g).pending = s.pending := rfl
@[simp] theorem State.onCm_mem (g : CadenceMonitor → CadenceMonitor) : (s.onCm g).mem = s.mem := rfl
@[simp] theorem State.onCm_fp (g : CadenceMonitor → CadenceMonitor) : (s.onCm g).fp = s.fp := rfl
@[simp] theorem State.onCm_oq (g : CadenceMonitor → CadenceMonitor) : (s.onCm g).oq = s.oq := rfl
@[simp] theorem State.onCm_ft (g : CadenceMonitor → CadenceMonitor) : (s.onCm g).ft = s.ft := rfl
@[simp] theorem State.onCm_tt (g : CadenceMonitor → CadenceMonitor) : (s.onCm g).tt = s.tt := rfl
@[simp] theorem State.onCm_cm (g : CadenceMonitor → CadenceMonitor) : (s.onCm g).cm = g s.cm := rfl
@[simp] theorem State.onCm_tau (g : CadenceMonitor → CadenceMonitor) : (s.onCm g).tau = s.tau := rfl
@[simp] theorem State.onCm_rw (g : CadenceMonitor → CadenceMonitor) : (s.onCm g).rw = s.rw := rfl
@[simp] theorem State.onCm_ci (g : CadenceMonitor → CadenceMonitor) : (s.onCm g).ci = s.ci := rfl
@[simp] theorem State.onCm_freeCount (g : CadenceMonitor → CadenceMonitor) : (s.onCm g).freeCount = s.freeCount := rfl
@[simp] theorem State.onCm_memByte (g : CadenceMonitor → CadenceMonitor) (a : Nat) : (s.onCm g).memByte a = s.memByte a := rfl
@[simp] theorem State.onCm_ring (g : CadenceMonitor → CadenceMonitor) (r : Nat) : (s.onCm g).ring r = s.ring r := rfl
@[simp] theorem State.onCm_profile (g : CadenceMonitor → CadenceMonitor) (p : Nat) : (s.onCm g).profile p = s.profile p := rfl
@[simp] theorem State.onCm_classifierEntry (g : CadenceMonitor → CadenceMonitor) (n : Nat) : (s.onCm g).classifierEntry n = s.classifierEntry n := rfl
@[simp] theorem State.onCm_imageByte (g : CadenceMonitor → CadenceMonitor) (o : Nat) : (s.onCm g).imageByte o = s.imageByte o := rfl
@[simp] theorem State.onCm_consume (g : CadenceMonitor → CadenceMonitor) : (s.onCm g).consume = s.consume := rfl
@[simp] theorem State.onCm_controlBase (g : CadenceMonitor → CadenceMonitor) : (s.onCm g).controlBase = s.controlBase := rfl
@[simp] theorem State.onCm_agg (g : CadenceMonitor → CadenceMonitor) (a : Aggregate) : (s.onCm g).agg a = s.agg a := rfl
@[simp] theorem State.onCm_alarm (g : CadenceMonitor → CadenceMonitor) (k : AlarmKind) : (s.onCm g).alarm k = s.alarm k := rfl
@[simp] theorem State.onCm_alarmOn (g : CadenceMonitor → CadenceMonitor) (k : AlarmKind) : (s.onCm g).alarmOn k = s.alarmOn k := rfl
@[simp] theorem State.onCm_flow (g : CadenceMonitor → CadenceMonitor) (i : Nat) : (s.onCm g).flow i = s.flow i := rfl
@[simp] theorem State.onCm_plruOf (g : CadenceMonitor → CadenceMonitor) (n : Nat) : (s.onCm g).plruOf n = s.plruOf n := rfl
@[simp] theorem State.onCm_slot (g : CadenceMonitor → CadenceMonitor) (r i : Nat) : (s.onCm g).slot r i = s.slot r i := rfl

/-! ## onTau -/

@[simp] theorem State.onTau_pending (g : TallyUnit → TallyUnit) : (s.onTau g).pending = s.pending := rfl
@[simp] theorem State.onTau_mem (g : TallyUnit → TallyUnit) : (s.onTau g).mem = s.mem := rfl
@[simp] theorem State.onTau_fp (g : TallyUnit → TallyUnit) : (s.onTau g).fp = s.fp := rfl
@[simp] theorem State.onTau_oq (g : TallyUnit → TallyUnit) : (s.onTau g).oq = s.oq := rfl
@[simp] theorem State.onTau_ft (g : TallyUnit → TallyUnit) : (s.onTau g).ft = s.ft := rfl
@[simp] theorem State.onTau_tt (g : TallyUnit → TallyUnit) : (s.onTau g).tt = s.tt := rfl
@[simp] theorem State.onTau_cm (g : TallyUnit → TallyUnit) : (s.onTau g).cm = s.cm := rfl
@[simp] theorem State.onTau_tau (g : TallyUnit → TallyUnit) : (s.onTau g).tau = g s.tau := rfl
@[simp] theorem State.onTau_rw (g : TallyUnit → TallyUnit) : (s.onTau g).rw = s.rw := rfl
@[simp] theorem State.onTau_ci (g : TallyUnit → TallyUnit) : (s.onTau g).ci = s.ci := rfl
@[simp] theorem State.onTau_freeCount (g : TallyUnit → TallyUnit) : (s.onTau g).freeCount = s.freeCount := rfl
@[simp] theorem State.onTau_memByte (g : TallyUnit → TallyUnit) (a : Nat) : (s.onTau g).memByte a = s.memByte a := rfl
@[simp] theorem State.onTau_ring (g : TallyUnit → TallyUnit) (r : Nat) : (s.onTau g).ring r = s.ring r := rfl
@[simp] theorem State.onTau_profile (g : TallyUnit → TallyUnit) (p : Nat) : (s.onTau g).profile p = s.profile p := rfl
@[simp] theorem State.onTau_classifierEntry (g : TallyUnit → TallyUnit) (n : Nat) : (s.onTau g).classifierEntry n = s.classifierEntry n := rfl
@[simp] theorem State.onTau_imageByte (g : TallyUnit → TallyUnit) (o : Nat) : (s.onTau g).imageByte o = s.imageByte o := rfl
@[simp] theorem State.onTau_consume (g : TallyUnit → TallyUnit) : (s.onTau g).consume = s.consume := rfl
@[simp] theorem State.onTau_controlBase (g : TallyUnit → TallyUnit) : (s.onTau g).controlBase = s.controlBase := rfl
@[simp] theorem State.onTau_now (g : TallyUnit → TallyUnit) : (s.onTau g).now = s.now := rfl
@[simp] theorem State.onTau_alarmOn (g : TallyUnit → TallyUnit) (k : AlarmKind) : (s.onTau g).alarmOn k = s.alarmOn k := rfl
@[simp] theorem State.onTau_flow (g : TallyUnit → TallyUnit) (i : Nat) : (s.onTau g).flow i = s.flow i := rfl
@[simp] theorem State.onTau_plruOf (g : TallyUnit → TallyUnit) (n : Nat) : (s.onTau g).plruOf n = s.plruOf n := rfl
@[simp] theorem State.onTau_slot (g : TallyUnit → TallyUnit) (r i : Nat) : (s.onTau g).slot r i = s.slot r i := rfl

/-! ## onRw -/

@[simp] theorem State.onRw_pending (g : ReportWriter → ReportWriter) : (s.onRw g).pending = s.pending := rfl
@[simp] theorem State.onRw_mem (g : ReportWriter → ReportWriter) : (s.onRw g).mem = s.mem := rfl
@[simp] theorem State.onRw_fp (g : ReportWriter → ReportWriter) : (s.onRw g).fp = s.fp := rfl
@[simp] theorem State.onRw_oq (g : ReportWriter → ReportWriter) : (s.onRw g).oq = s.oq := rfl
@[simp] theorem State.onRw_ft (g : ReportWriter → ReportWriter) : (s.onRw g).ft = s.ft := rfl
@[simp] theorem State.onRw_tt (g : ReportWriter → ReportWriter) : (s.onRw g).tt = s.tt := rfl
@[simp] theorem State.onRw_cm (g : ReportWriter → ReportWriter) : (s.onRw g).cm = s.cm := rfl
@[simp] theorem State.onRw_tau (g : ReportWriter → ReportWriter) : (s.onRw g).tau = s.tau := rfl
@[simp] theorem State.onRw_rw (g : ReportWriter → ReportWriter) : (s.onRw g).rw = g s.rw := rfl
@[simp] theorem State.onRw_ci (g : ReportWriter → ReportWriter) : (s.onRw g).ci = s.ci := rfl
@[simp] theorem State.onRw_freeCount (g : ReportWriter → ReportWriter) : (s.onRw g).freeCount = s.freeCount := rfl
@[simp] theorem State.onRw_memByte (g : ReportWriter → ReportWriter) (a : Nat) : (s.onRw g).memByte a = s.memByte a := rfl
@[simp] theorem State.onRw_ring (g : ReportWriter → ReportWriter) (r : Nat) : (s.onRw g).ring r = s.ring r := rfl
@[simp] theorem State.onRw_profile (g : ReportWriter → ReportWriter) (p : Nat) : (s.onRw g).profile p = s.profile p := rfl
@[simp] theorem State.onRw_classifierEntry (g : ReportWriter → ReportWriter) (n : Nat) : (s.onRw g).classifierEntry n = s.classifierEntry n := rfl
@[simp] theorem State.onRw_imageByte (g : ReportWriter → ReportWriter) (o : Nat) : (s.onRw g).imageByte o = s.imageByte o := rfl
@[simp] theorem State.onRw_consume (g : ReportWriter → ReportWriter) : (s.onRw g).consume = s.consume := rfl
@[simp] theorem State.onRw_controlBase (g : ReportWriter → ReportWriter) : (s.onRw g).controlBase = s.controlBase := rfl
@[simp] theorem State.onRw_now (g : ReportWriter → ReportWriter) : (s.onRw g).now = s.now := rfl
@[simp] theorem State.onRw_agg (g : ReportWriter → ReportWriter) (a : Aggregate) : (s.onRw g).agg a = s.agg a := rfl
@[simp] theorem State.onRw_alarm (g : ReportWriter → ReportWriter) (k : AlarmKind) : (s.onRw g).alarm k = s.alarm k := rfl
@[simp] theorem State.onRw_alarmOn (g : ReportWriter → ReportWriter) (k : AlarmKind) : (s.onRw g).alarmOn k = s.alarmOn k := rfl
@[simp] theorem State.onRw_flow (g : ReportWriter → ReportWriter) (i : Nat) : (s.onRw g).flow i = s.flow i := rfl
@[simp] theorem State.onRw_plruOf (g : ReportWriter → ReportWriter) (n : Nat) : (s.onRw g).plruOf n = s.plruOf n := rfl
@[simp] theorem State.onRw_slot (g : ReportWriter → ReportWriter) (r i : Nat) : (s.onRw g).slot r i = s.slot r i := rfl

/-! ## onCi -/

@[simp] theorem State.onCi_pending (g : ControlInterface → ControlInterface) : (s.onCi g).pending = s.pending := rfl
@[simp] theorem State.onCi_mem (g : ControlInterface → ControlInterface) : (s.onCi g).mem = s.mem := rfl
@[simp] theorem State.onCi_fp (g : ControlInterface → ControlInterface) : (s.onCi g).fp = s.fp := rfl
@[simp] theorem State.onCi_oq (g : ControlInterface → ControlInterface) : (s.onCi g).oq = s.oq := rfl
@[simp] theorem State.onCi_ft (g : ControlInterface → ControlInterface) : (s.onCi g).ft = s.ft := rfl
@[simp] theorem State.onCi_tt (g : ControlInterface → ControlInterface) : (s.onCi g).tt = s.tt := rfl
@[simp] theorem State.onCi_cm (g : ControlInterface → ControlInterface) : (s.onCi g).cm = s.cm := rfl
@[simp] theorem State.onCi_tau (g : ControlInterface → ControlInterface) : (s.onCi g).tau = s.tau := rfl
@[simp] theorem State.onCi_rw (g : ControlInterface → ControlInterface) : (s.onCi g).rw = s.rw := rfl
@[simp] theorem State.onCi_ci (g : ControlInterface → ControlInterface) : (s.onCi g).ci = g s.ci := rfl
@[simp] theorem State.onCi_freeCount (g : ControlInterface → ControlInterface) : (s.onCi g).freeCount = s.freeCount := rfl
@[simp] theorem State.onCi_memByte (g : ControlInterface → ControlInterface) (a : Nat) : (s.onCi g).memByte a = s.memByte a := rfl
@[simp] theorem State.onCi_controlBase (g : ControlInterface → ControlInterface) : (s.onCi g).controlBase = s.controlBase := rfl
@[simp] theorem State.onCi_now (g : ControlInterface → ControlInterface) : (s.onCi g).now = s.now := rfl
@[simp] theorem State.onCi_agg (g : ControlInterface → ControlInterface) (a : Aggregate) : (s.onCi g).agg a = s.agg a := rfl
@[simp] theorem State.onCi_alarm (g : ControlInterface → ControlInterface) (k : AlarmKind) : (s.onCi g).alarm k = s.alarm k := rfl
@[simp] theorem State.onCi_flow (g : ControlInterface → ControlInterface) (i : Nat) : (s.onCi g).flow i = s.flow i := rfl
@[simp] theorem State.onCi_plruOf (g : ControlInterface → ControlInterface) (n : Nat) : (s.onCi g).plruOf n = s.plruOf n := rfl
@[simp] theorem State.onCi_slot (g : ControlInterface → ControlInterface) (r i : Nat) : (s.onCi g).slot r i = s.slot r i := rfl

/-! ## onMem -/

@[simp] theorem State.onMem_pending (g : Store Byte → Store Byte) : (s.onMem g).pending = s.pending := rfl
@[simp] theorem State.onMem_mem (g : Store Byte → Store Byte) : (s.onMem g).mem = g s.mem := rfl
@[simp] theorem State.onMem_fp (g : Store Byte → Store Byte) : (s.onMem g).fp = s.fp := rfl
@[simp] theorem State.onMem_oq (g : Store Byte → Store Byte) : (s.onMem g).oq = s.oq := rfl
@[simp] theorem State.onMem_ft (g : Store Byte → Store Byte) : (s.onMem g).ft = s.ft := rfl
@[simp] theorem State.onMem_tt (g : Store Byte → Store Byte) : (s.onMem g).tt = s.tt := rfl
@[simp] theorem State.onMem_cm (g : Store Byte → Store Byte) : (s.onMem g).cm = s.cm := rfl
@[simp] theorem State.onMem_tau (g : Store Byte → Store Byte) : (s.onMem g).tau = s.tau := rfl
@[simp] theorem State.onMem_rw (g : Store Byte → Store Byte) : (s.onMem g).rw = s.rw := rfl
@[simp] theorem State.onMem_ci (g : Store Byte → Store Byte) : (s.onMem g).ci = s.ci := rfl
@[simp] theorem State.onMem_freeCount (g : Store Byte → Store Byte) : (s.onMem g).freeCount = s.freeCount := rfl
@[simp] theorem State.onMem_ring (g : Store Byte → Store Byte) (r : Nat) : (s.onMem g).ring r = s.ring r := rfl
@[simp] theorem State.onMem_profile (g : Store Byte → Store Byte) (p : Nat) : (s.onMem g).profile p = s.profile p := rfl
@[simp] theorem State.onMem_classifierEntry (g : Store Byte → Store Byte) (n : Nat) : (s.onMem g).classifierEntry n = s.classifierEntry n := rfl
@[simp] theorem State.onMem_imageByte (g : Store Byte → Store Byte) (o : Nat) : (s.onMem g).imageByte o = s.imageByte o := rfl
@[simp] theorem State.onMem_consume (g : Store Byte → Store Byte) : (s.onMem g).consume = s.consume := rfl
@[simp] theorem State.onMem_controlBase (g : Store Byte → Store Byte) : (s.onMem g).controlBase = s.controlBase := rfl
@[simp] theorem State.onMem_now (g : Store Byte → Store Byte) : (s.onMem g).now = s.now := rfl
@[simp] theorem State.onMem_agg (g : Store Byte → Store Byte) (a : Aggregate) : (s.onMem g).agg a = s.agg a := rfl
@[simp] theorem State.onMem_alarm (g : Store Byte → Store Byte) (k : AlarmKind) : (s.onMem g).alarm k = s.alarm k := rfl
@[simp] theorem State.onMem_alarmOn (g : Store Byte → Store Byte) (k : AlarmKind) : (s.onMem g).alarmOn k = s.alarmOn k := rfl
@[simp] theorem State.onMem_flow (g : Store Byte → Store Byte) (i : Nat) : (s.onMem g).flow i = s.flow i := rfl
@[simp] theorem State.onMem_plruOf (g : Store Byte → Store Byte) (n : Nat) : (s.onMem g).plruOf n = s.plruOf n := rfl
@[simp] theorem State.onMem_slot (g : Store Byte → Store Byte) (r i : Nat) : (s.onMem g).slot r i = s.slot r i := rfl

/-! ## onHeld -/

@[simp] theorem State.onHeld_pending (g : Held → Held) : (s.onHeld g).pending = s.pending := rfl
@[simp] theorem State.onHeld_mem (g : Held → Held) : (s.onHeld g).mem = s.mem := rfl
@[simp] theorem State.onHeld_fp (g : Held → Held) : (s.onHeld g).fp = s.fp := rfl
@[simp] theorem State.onHeld_oq (g : Held → Held) : (s.onHeld g).oq = s.oq := rfl
@[simp] theorem State.onHeld_ft (g : Held → Held) : (s.onHeld g).ft = s.ft := rfl
@[simp] theorem State.onHeld_tt (g : Held → Held) : (s.onHeld g).tt = s.tt := rfl
@[simp] theorem State.onHeld_cm (g : Held → Held) : (s.onHeld g).cm = s.cm := rfl
@[simp] theorem State.onHeld_tau (g : Held → Held) : (s.onHeld g).tau = s.tau := rfl
@[simp] theorem State.onHeld_rw (g : Held → Held) : (s.onHeld g).rw = s.rw := rfl
@[simp] theorem State.onHeld_ci (g : Held → Held) : (s.onHeld g).ci = { s.ci with held := g s.ci.held } := rfl
@[simp] theorem State.onHeld_freeCount (g : Held → Held) : (s.onHeld g).freeCount = s.freeCount := rfl
@[simp] theorem State.onHeld_memByte (g : Held → Held) (a : Nat) : (s.onHeld g).memByte a = s.memByte a := rfl
@[simp] theorem State.onHeld_imageByte (g : Held → Held) (o : Nat) : (s.onHeld g).imageByte o = s.imageByte o := rfl
@[simp] theorem State.onHeld_controlBase (g : Held → Held) : (s.onHeld g).controlBase = s.controlBase := rfl
@[simp] theorem State.onHeld_now (g : Held → Held) : (s.onHeld g).now = s.now := rfl
@[simp] theorem State.onHeld_agg (g : Held → Held) (a : Aggregate) : (s.onHeld g).agg a = s.agg a := rfl
@[simp] theorem State.onHeld_alarm (g : Held → Held) (k : AlarmKind) : (s.onHeld g).alarm k = s.alarm k := rfl
@[simp] theorem State.onHeld_flow (g : Held → Held) (i : Nat) : (s.onHeld g).flow i = s.flow i := rfl
@[simp] theorem State.onHeld_plruOf (g : Held → Held) (n : Nat) : (s.onHeld g).plruOf n = s.plruOf n := rfl
@[simp] theorem State.onHeld_slot (g : Held → Held) (r i : Nat) : (s.onHeld g).slot r i = s.slot r i := rfl

/-! ## Flow entries -/

@[simp] theorem FlowEntry.bump_state (e : FlowEntry) (t : Tally) (n : Nat) : (e.bump t n).state = e.state := rfl
@[simp] theorem FlowEntry.bump_port (e : FlowEntry) (t : Tally) (n : Nat) : (e.bump t n).port = e.port := rfl
@[simp] theorem FlowEntry.bump_tag (e : FlowEntry) (t : Tally) (n : Nat) : (e.bump t n).tag = e.tag := rfl
@[simp] theorem FlowEntry.bump_profile (e : FlowEntry) (t : Tally) (n : Nat) : (e.bump t n).profile = e.profile := rfl
@[simp] theorem FlowEntry.bump_generation (e : FlowEntry) (t : Tally) (n : Nat) : (e.bump t n).generation = e.generation := rfl
@[simp] theorem FlowEntry.bump_nextSeq (e : FlowEntry) (t : Tally) (n : Nat) : (e.bump t n).nextSeq = e.nextSeq := rfl
@[simp] theorem FlowEntry.bump_window (e : FlowEntry) (t : Tally) (n : Nat) : (e.bump t n).window = e.window := rfl
@[simp] theorem FlowEntry.bump_reanchor (e : FlowEntry) (t : Tally) (n : Nat) : (e.bump t n).reanchor = e.reanchor := rfl
@[simp] theorem FlowEntry.bump_staleRun (e : FlowEntry) (t : Tally) (n : Nat) : (e.bump t n).staleRun = e.staleRun := rfl
@[simp] theorem FlowEntry.bump_departed (e : FlowEntry) (t : Tally) (n : Nat) : (e.bump t n).departed = e.departed := rfl
@[simp] theorem FlowEntry.bump_due (e : FlowEntry) (t : Tally) (n : Nat) : (e.bump t n).due = e.due := rfl
@[simp] theorem FlowEntry.bump_misses (e : FlowEntry) (t : Tally) (n : Nat) : (e.bump t n).misses = e.misses := rfl
@[simp] theorem FlowEntry.bump_lateRun (e : FlowEntry) (t : Tally) (n : Nat) : (e.bump t n).lateRun = e.lateRun := rfl
@[simp] theorem FlowEntry.bump_worstResidence (e : FlowEntry) (t : Tally) (n : Nat) : (e.bump t n).worstResidence = e.worstResidence := rfl
@[simp] theorem FlowEntry.bump_faultMask (e : FlowEntry) (t : Tally) (n : Nat) : (e.bump t n).faultMask = e.faultMask := rfl
@[simp] theorem FlowEntry.bump_dirty (e : FlowEntry) (t : Tally) (n : Nat) : (e.bump t n).dirty = e.dirty := rfl
@[simp] theorem FlowEntry.bump_checkOk (e : FlowEntry) (t : Tally) (n : Nat) : (e.bump t n).checkOk = e.checkOk := rfl
@[simp] theorem FlowEntry.mark_state (e : FlowEntry) : e.mark.state = e.state := rfl
@[simp] theorem FlowEntry.mark_port (e : FlowEntry) : e.mark.port = e.port := rfl
@[simp] theorem FlowEntry.mark_tag (e : FlowEntry) : e.mark.tag = e.tag := rfl
@[simp] theorem FlowEntry.mark_profile (e : FlowEntry) : e.mark.profile = e.profile := rfl
@[simp] theorem FlowEntry.mark_generation (e : FlowEntry) : e.mark.generation = e.generation := rfl
@[simp] theorem FlowEntry.mark_nextSeq (e : FlowEntry) : e.mark.nextSeq = e.nextSeq := rfl
@[simp] theorem FlowEntry.mark_window (e : FlowEntry) : e.mark.window = e.window := rfl
@[simp] theorem FlowEntry.mark_reanchor (e : FlowEntry) : e.mark.reanchor = e.reanchor := rfl
@[simp] theorem FlowEntry.mark_staleRun (e : FlowEntry) : e.mark.staleRun = e.staleRun := rfl
@[simp] theorem FlowEntry.mark_departed (e : FlowEntry) : e.mark.departed = e.departed := rfl
@[simp] theorem FlowEntry.mark_due (e : FlowEntry) : e.mark.due = e.due := rfl
@[simp] theorem FlowEntry.mark_misses (e : FlowEntry) : e.mark.misses = e.misses := rfl
@[simp] theorem FlowEntry.mark_lateRun (e : FlowEntry) : e.mark.lateRun = e.lateRun := rfl
@[simp] theorem FlowEntry.mark_worstResidence (e : FlowEntry) : e.mark.worstResidence = e.worstResidence := rfl
@[simp] theorem FlowEntry.mark_faultMask (e : FlowEntry) : e.mark.faultMask = e.faultMask := rfl
@[simp] theorem FlowEntry.mark_tallies (e : FlowEntry) : e.mark.tallies = e.tallies := rfl
@[simp] theorem FlowEntry.mark_checkOk (e : FlowEntry) : e.mark.checkOk = e.checkOk := rfl
@[simp] theorem FlowEntry.mark_dirty (e : FlowEntry) : e.mark.dirty = true := rfl
@[simp] theorem FlowEntry.mark_tally (e : FlowEntry) (t : Tally) : e.mark.tally t = e.tally t := rfl
@[simp] theorem FlowEntry.mark_valid (e : FlowEntry) : e.mark.valid = e.valid := rfl
@[simp] theorem FlowEntry.bump_valid (e : FlowEntry) (t : Tally) (n : Nat) : (e.bump t n).valid = e.valid := rfl

end Sys2Proof.Machine
end

