-- ==== Sys2Proof/Laws/Store.lean ====
section
/-! SUPPORT. The sparse tables: what a read finds after a write, and that every operation keeps the canonical form. -/

namespace Sys2Proof.Machine

variable {α : Type}

/-! ## Reading after writing -/

theorem lookupCell_insertCell (k j : Nat) (v : α) (l : List (Nat × α)) :
    lookupCell j (insertCell k v l) = if j = k then some v else lookupCell j l := by
  induction l with
  | nil => simp [insertCell, lookupCell, eq_comm]
  | cons c rest ih =>
    simp only [insertCell]
    split
    · simp only [lookupCell]; by_cases h : j = k
      · simp [h]
      · simp [h, Ne.symm h]
    · split
      · next h1 h2 =>
        simp only [lookupCell]; by_cases h : j = k
        · simp [h]
        · simp [h, Ne.symm h, h2 ▸ Ne.symm h]
      · next h1 h2 =>
        simp only [lookupCell, ih]; by_cases h : j = k
        · subst h; simp [h2]
        · simp [h]

theorem lookupCell_eraseCell (k j : Nat) (l : List (Nat × α)) :
    lookupCell j (eraseCell k l) = if j = k then none else lookupCell j l := by
  induction l with
  | nil => simp [eraseCell, lookupCell]
  | cons c rest ih =>
    simp only [eraseCell]
    split
    · next h =>
      rw [ih]; by_cases hj : j = k
      · simp [hj]
      · simp [hj, lookupCell, h ▸ Ne.symm hj]
    · next h =>
      simp only [lookupCell, ih]; by_cases hj : j = k
      · subst hj; simp [h]
      · simp [hj]

theorem Store.find?_put (m : Store α) (k j : Nat) (v : α) : (m.put k v).find? j = if j = k then some v else m.find? j :=
  lookupCell_insertCell k j v m.cells

theorem Store.find?_erase (m : Store α) (k j : Nat) : (m.erase k).find? j = if j = k then none else m.find? j :=
  lookupCell_eraseCell k j m.cells

/-- What a table reads as after a write: the value written at its key, and as before everywhere else. -/
@[simp] theorem Store.get_set [DecidableEq α] (m : Store α) (d : α) (k j : Nat) (v : α) :
    (m.set d k v).get d j = if j = k then v else m.get d j := by
  unfold Store.set
  split
  · next h => simp only [Store.get, Store.find?_erase]; split <;> simp [h]
  · simp only [Store.get, Store.find?_put]; split <;> simp

@[simp] theorem Store.get_erase (m : Store α) (d : α) (k j : Nat) :
    (m.erase k).get d j = if j = k then d else m.get d j := by
  simp only [Store.get, Store.find?_erase]; split <;> simp

/-! ## The canonical form -/

theorem risingFrom_weaken (lo lo' : Nat) (l : List (Nat × α)) (h : lo' ≤ lo) (hl : risingFrom (some lo) l = true) :
    risingFrom (some lo') l = true := by
  cases l with
  | nil => rfl
  | cons c rest => simp only [risingFrom, Bool.and_eq_true, decide_eq_true_eq] at hl ⊢; exact ⟨by omega, hl.2⟩

theorem risingFrom_none (lo : Nat) (l : List (Nat × α)) (hl : risingFrom (some lo) l = true) :
    risingFrom none l = true := by
  cases l with
  | nil => rfl
  | cons c rest => simp only [risingFrom, Bool.and_eq_true] at hl ⊢; exact hl.2

theorem risingFrom_insertCell (k lo : Nat) (v : α) (l : List (Nat × α)) (hk : lo < k)
    (hl : risingFrom (some lo) l = true) : risingFrom (some lo) (insertCell k v l) = true := by
  induction l generalizing lo with
  | nil => simp [insertCell, risingFrom, hk]
  | cons c rest ih =>
    simp only [risingFrom, Bool.and_eq_true, decide_eq_true_eq] at hl
    simp only [insertCell]
    split
    · next h => simp [risingFrom, hk, h, hl.2]
    · split
      · next h => simp [risingFrom, hk]; exact h ▸ hl.2
      · next h1 h2 => simp only [risingFrom, hl.1, decide_true, Bool.true_and]; exact ih c.1 (by omega) hl.2

theorem risingFrom_none_insertCell (k : Nat) (v : α) (l : List (Nat × α)) (hl : risingFrom none l = true) :
    risingFrom none (insertCell k v l) = true := by
  cases l with
  | nil => rfl
  | cons c rest =>
    simp only [insertCell]
    split
    · next h => simpa [risingFrom, h] using hl
    · split
      · next h => simp only [risingFrom] at hl ⊢; exact h ▸ hl
      · next h1 h2 => exact risingFrom_insertCell k c.1 v rest (by omega) hl

theorem risingFrom_eraseCell (k lo : Nat) (l : List (Nat × α)) (hl : risingFrom (some lo) l = true) :
    risingFrom (some lo) (eraseCell k l) = true := by
  induction l generalizing lo with
  | nil => rfl
  | cons c rest ih =>
    simp only [risingFrom, Bool.and_eq_true, decide_eq_true_eq] at hl
    simp only [eraseCell]
    split
    · exact ih lo (risingFrom_weaken c.1 lo rest (by omega) hl.2)
    · simp only [risingFrom, hl.1, decide_true, Bool.true_and]; exact ih c.1 hl.2

theorem risingFrom_none_eraseCell (k : Nat) (l : List (Nat × α)) (hl : risingFrom none l = true) :
    risingFrom none (eraseCell k l) = true := by
  cases l with
  | nil => rfl
  | cons c rest =>
    simp only [eraseCell]
    split
    · exact risingFrom_none c.1 _ (risingFrom_eraseCell k c.1 rest hl)
    · exact risingFrom_eraseCell k c.1 rest hl

theorem risingFrom_filter (p : Nat × α → Bool) (lo : Nat) (l : List (Nat × α)) (hl : risingFrom (some lo) l = true) :
    risingFrom (some lo) (l.filter p) = true := by
  induction l generalizing lo with
  | nil => rfl
  | cons c rest ih =>
    simp only [risingFrom, Bool.and_eq_true, decide_eq_true_eq] at hl
    simp only [List.filter_cons]
    split
    · simp only [risingFrom, hl.1, decide_true, Bool.true_and]; exact ih c.1 hl.2
    · exact ih lo (risingFrom_weaken c.1 lo rest (by omega) hl.2)

theorem risingFrom_none_filter (p : Nat × α → Bool) (l : List (Nat × α)) (hl : risingFrom none l = true) :
    risingFrom none (l.filter p) = true := by
  cases l with
  | nil => rfl
  | cons c rest =>
    simp only [List.filter_cons]
    split
    · exact risingFrom_filter p c.1 rest hl
    · exact risingFrom_none c.1 _ (risingFrom_filter p c.1 rest hl)

theorem risingFrom_map {β : Type} (f : Nat → α → β) (lo : Option Nat) (l : List (Nat × α)) :
    risingFrom lo (l.map fun c => (c.1, f c.1 c.2)) = risingFrom lo l := by
  induction l generalizing lo with
  | nil => cases lo <;> rfl
  | cons c rest ih => cases lo <;> simp [risingFrom, ih]

theorem mem_insertCell (k : Nat) (v : α) (l : List (Nat × α)) (x : Nat × α) (h : x ∈ insertCell k v l) :
    x = (k, v) ∨ x ∈ l := by
  induction l with
  | nil => simpa [insertCell] using h
  | cons c rest ih =>
    simp only [insertCell] at h
    split at h
    · simpa using h
    · split at h
      · rcases List.mem_cons.1 h with h | h
        · exact .inl h
        · exact .inr (List.mem_cons_of_mem _ h)
      · rcases List.mem_cons.1 h with h | h
        · exact .inr (h ▸ List.mem_cons_self)
        · exact (ih h).imp_right (List.mem_cons_of_mem _)

theorem mem_eraseCell (k : Nat) (l : List (Nat × α)) (x : Nat × α) (h : x ∈ eraseCell k l) : x ∈ l := by
  induction l with
  | nil => simp [eraseCell] at h
  | cons c rest ih =>
    simp only [eraseCell] at h
    split at h
    · exact List.mem_cons_of_mem _ (ih h)
    · rcases List.mem_cons.1 h with h | h
      · exact h ▸ List.mem_cons_self
      · exact List.mem_cons_of_mem _ (ih h)

variable [DecidableEq α]

theorem Store.wf_erase (m : Store α) (d : α) (k : Nat) (h : m.wf d = true) : (m.erase k).wf d = true := by
  simp only [Store.wf, Bool.and_eq_true, List.all_eq_true] at h ⊢
  exact ⟨risingFrom_none_eraseCell k _ h.1, fun x hx => h.2 x (mem_eraseCell k _ x hx)⟩

theorem Store.wf_put (m : Store α) (d : α) (k : Nat) (v : α) (hv : v ≠ d) (h : m.wf d = true) :
    (m.put k v).wf d = true := by
  simp only [Store.wf, Bool.and_eq_true, List.all_eq_true] at h ⊢
  refine ⟨risingFrom_none_insertCell k v _ h.1, fun x hx => ?_⟩
  rcases mem_insertCell k v _ x hx with rfl | hx
  · simpa using hv
  · exact h.2 x hx

/-- A write keeps the canonical form. -/
theorem Store.wf_set (m : Store α) (d : α) (k : Nat) (v : α) (h : m.wf d = true) : (m.set d k v).wf d = true := by
  unfold Store.set
  split
  · exact m.wf_erase d k h
  · next hv => exact m.wf_put d k v hv h

/-- A change of every entry keeps the canonical form. -/
theorem Store.wf_update (m : Store α) (d : α) (f : Nat → α → α) (h : m.wf d = true) : (m.update d f).wf d = true := by
  simp only [Store.wf, Bool.and_eq_true, List.all_eq_true] at h ⊢
  refine ⟨risingFrom_none_filter _ _ ?_, fun x hx => ?_⟩
  · rw [risingFrom_map]; exact h.1
  · have := List.mem_filter.1 hx; simpa using this.2

omit [DecidableEq α] in
theorem lookupCell_rising_lt (lo : Nat) (l : List (Nat × α)) (hl : risingFrom (some lo) l = true) (k : Nat) (hk : k ≤ lo) :
    lookupCell k l = none := by
  induction l generalizing lo with
  | nil => rfl
  | cons c rest ih =>
    simp only [risingFrom, Bool.and_eq_true, decide_eq_true_eq] at hl
    have : c.1 ≠ k := by omega
    simp only [lookupCell, this, if_false]
    exact ih c.1 hl.2 (by omega)

theorem lookupCell_filter_map (f : Nat → α → α) (d : α) (k : Nat) (lo : Option Nat) (l : List (Nat × α))
    (hl : risingFrom lo l = true) :
    (lookupCell k ((l.map fun c => (c.1, f c.1 c.2)).filter fun c => decide (c.2 ≠ d))).getD d
      = ((lookupCell k l).map (f k)).getD d := by
  induction l generalizing lo with
  | nil => rfl
  | cons c rest ih =>
    have hr : risingFrom (some c.1) rest = true := by
      cases lo with
      | none => exact hl
      | some lo => simp only [risingFrom, Bool.and_eq_true] at hl; exact hl.2
    simp only [List.map_cons, List.filter_cons, lookupCell]
    by_cases hc : f c.1 c.2 = d
    · simp only [hc, ne_eq, not_true_eq_false, decide_false, Bool.false_eq_true, if_false]
      rw [ih (some c.1) hr]
      by_cases hk : c.1 = k
      · subst hk; simp [lookupCell_rising_lt c.1 rest hr c.1 (Nat.le_refl _), hc]
      · simp [hk]
    · simp only [ne_eq, hc, not_false_eq_true, decide_true, if_true, lookupCell]
      by_cases hk : c.1 = k
      · subst hk; simp
      · simp only [hk, if_false]; exact ih (some c.1) hr

/-- What a canonical table reads as after a change of every entry by a function that keeps the unlisted value. -/
theorem Store.get_update (m : Store α) (d : α) (f : Nat → α → α) (h : m.wf d = true) (hf : ∀ k, f k d = d) (k : Nat) :
    (m.update d f).get d k = f k (m.get d k) := by
  simp only [Store.wf, Bool.and_eq_true] at h
  have := lookupCell_filter_map f d k none m.cells h.1
  simp only [Store.get, Store.find?, Store.update]
  rw [this]
  cases lookupCell k m.cells <;> simp [hf]

end Sys2Proof.Machine
end

