-- ==== Sys2Proof/Laws/Ops.lean ====
section
/-! SUPPORT. One lemma for each shared operation over flow entries, slots, the due list, counters and alarm rows. -/

namespace Sys2Proof.Machine

variable (s : State)

/-! ## Flow entries and slots -/

@[simp] theorem State.flow_setFlow (i j : Nat) (e : FlowEntry) :
    (s.setFlow i e).flow j = if j = i then { e with checkOk := true } else s.flow j := by
  simp [State.flow, State.setFlow]

@[simp] theorem State.plruOf_setFlow (i n : Nat) (e : FlowEntry) : (s.setFlow i e).plruOf n = s.plruOf n := rfl

@[simp] theorem State.retire_setFlow (i : Nat) (e : FlowEntry) : (s.setFlow i e).ft.retire = s.ft.retire := rfl

@[simp] theorem State.plruOf_useWay (set x n : Nat) :
    (s.useWay set x).plruOf n = if n = set then (s.plruOf set).use x else s.plruOf n := by
  simp [State.plruOf, State.useWay]

@[simp] theorem State.flow_useWay (set x i : Nat) : (s.useWay set x).flow i = s.flow i := rfl

theorem slotNumber_inj (r r' i i' : Nat) (hi : i < 256) (hi' : i' < 256) (h : slotNumber r i = slotNumber r' i') :
    r = r' ∧ i = i' := by
  unfold slotNumber at h; omega

theorem State.slot_setSlot (r i r' i' : Nat) (x : Slot) :
    (s.setSlot r i x).slot r' i' = if slotNumber r' i' = slotNumber r i then x else s.slot r' i' := by
  simp [State.slot, State.setSlot]

@[simp] theorem State.slot_setSlot_self (r i : Nat) (x : Slot) : (s.setSlot r i x).slot r i = x := by
  simp [State.slot_setSlot]

/-! ## The due list -/

/-- The due time listed for a flow. -/
def State.dueOf (s : State) (i : Nat) : Option Time := s.cm.due.find? i

@[simp] theorem State.dueOf_setDue (i j : Nat) (d : Time) : (s.setDue i d).dueOf j = if j = i then some d else s.dueOf j :=
  Store.find?_put s.cm.due i j d

@[simp] theorem State.flow_setDue (i j : Nat) (d : Time) :
    (s.setDue i d).flow j = if j = i then { s.flow i with due := some d, checkOk := true } else s.flow j := by
  simp [State.setDue]

@[simp] theorem State.dueOf_leaveDue (i j : Nat) : (s.leaveDue i).dueOf j = if j = i then none else s.dueOf j :=
  Store.find?_erase s.cm.due i j

@[simp] theorem State.flow_leaveDue (i j : Nat) : (s.leaveDue i).flow j = s.flow j := rfl

@[simp] theorem State.dueOf_setFlow (i j : Nat) (e : FlowEntry) : (s.setFlow i e).dueOf j = s.dueOf j := rfl

/-! ## Counters and alarm rows -/

theorem Aggregate.number_inj (a b : Aggregate) (h : a.number = b.number) : a = b := by cases a <;> cases b <;> first | rfl | cases h

theorem Tally.number_inj (a b : Tally) (h : a.number = b.number) : a = b := by cases a <;> cases b <;> first | rfl | cases h

theorem AlarmKind.priority_inj (a b : AlarmKind) (h : a.priority = b.priority) : a = b := by
  cases a <;> cases b <;> first | rfl | cases h

/-- A count adds one, saturating, to its own aggregate and leaves the others (R127). -/
@[simp] theorem State.agg_count (a b : Aggregate) : (s.count a).agg b = if b = a then satAdd (s.agg a) 1 else s.agg b := by
  by_cases h : b = a
  · simp [State.agg, State.count, h]
  · have : b.number ≠ a.number := fun h' => h (Aggregate.number_inj b a h')
    simp [State.agg, State.count, h, this]

@[simp] theorem State.alarm_count (a : Aggregate) (k : AlarmKind) : (s.count a).alarm k = s.alarm k := rfl

/-- A bump adds its amount, saturating, to its own tally and leaves the others (R127). -/
@[simp] theorem FlowEntry.tally_bump (e : FlowEntry) (t u : Tally) (n : Nat) :
    (e.bump t n).tally u = if u = t then satAdd (e.tally t) n else e.tally u := by
  by_cases h : u = t
  · simp [FlowEntry.tally, FlowEntry.bump, h]
  · have : u.number ≠ t.number := fun h' => h (Tally.number_inj u t h')
    simp [FlowEntry.tally, FlowEntry.bump, h, this]

@[simp] theorem State.alarm_setAlarm (k j : AlarmKind) (row : AlarmRow) :
    (s.setAlarm k row).alarm j = if j = k then row else s.alarm j := by
  by_cases h : j = k
  · simp [State.alarm, State.setAlarm, h]
  · have : j.priority ≠ k.priority := fun h' => h (AlarmKind.priority_inj j k h')
    simp [State.alarm, State.setAlarm, h, this]

@[simp] theorem State.agg_setAlarm (k : AlarmKind) (row : AlarmRow) (a : Aggregate) : (s.setAlarm k row).agg a = s.agg a := rfl

/-- A counter never passes its ceiling, and saturates there (R127). -/
theorem satAdd_le (old amount : Nat) : satAdd old amount ≤ Config.counterMax := Nat.min_le_right _ _

theorem le_satAdd (old amount : Nat) (h : old ≤ Config.counterMax) : old ≤ satAdd old amount := by
  unfold satAdd; omega

/-! ## Triggers -/

/-- All that a trigger can do (R138). -/
theorem State.trigger_cases (k : AlarmKind) (v : Nat) :
    (s.alarmOn k = false ∧ s.trigger k v = s) ∨
    (s.alarmOn k = true ∧
      ∃ row, row = { s.alarm k with
          occurrences := min ((s.alarm k).occurrences + 1) Config.occurrenceMax, raised := true,
          first := if (s.alarm k).raised then (s.alarm k).first else BitVec.ofNat 32 v }
        ∧ s.trigger k v = s.setAlarm k row) := by
  unfold State.trigger
  cases h : s.alarmOn k
  · exact .inl ⟨rfl, rfl⟩
  · exact .inr ⟨rfl, _, rfl, rfl⟩

/-- A trigger changes nothing but its own kind's row: every block but TAU stands, and so do all counters. -/
theorem State.trigger_onTau (k : AlarmKind) (v : Nat) : ∃ f, s.trigger k v = s.onTau f ∧ (∀ t, (f t).agg = t.agg) := by
  rcases s.trigger_cases k v with ⟨_, h⟩ | ⟨_, row, _, h⟩
  · exact ⟨id, h, fun _ => rfl⟩
  · exact ⟨_, h, fun _ => rfl⟩

/-! ## Entry faults -/

/-- A read of an entry is sound, or it is an entry fault (R34). -/
theorem State.checked_cases (i : Nat) :
    ((s.flow i).checkOk = true ∧ s.checked i = s) ∨ ((s.flow i).checkOk = false ∧ s.checked i = s.entryFault i) := by
  unfold State.checked
  cases h : (s.flow i).checkOk
  · exact .inr ⟨rfl, rfl⟩
  · exact .inl ⟨rfl, rfl⟩

@[simp] theorem State.flow_count (a : Aggregate) (i : Nat) : (s.count a).flow i = s.flow i := rfl

@[simp] theorem State.flow_trigger (k : AlarmKind) (v i : Nat) : (s.trigger k v).flow i = s.flow i := by
  unfold State.trigger; split <;> rfl

/-- What an entry fault leaves in the table: the faulted entry VACANT with its generation advanced, all others as they
were (R51). -/
theorem State.flow_entryFault (i j : Nat) :
    (s.entryFault i).flow j = if j = i then vacantEntry ((s.flow i).generation + 1) else s.flow j := by
  simp only [State.entryFault, State.flow_trigger, State.flow_count, State.flow_setFlow, State.flow_leaveDue]
  split <;> rfl

/-- After a read with its check, the entry read is sound. -/
theorem State.checked_ok (i : Nat) : ((s.checked i).flow i).checkOk = true := by
  rcases s.checked_cases i with ⟨h, h'⟩ | ⟨_, h'⟩
  · rw [h']; exact h
  · rw [h', State.flow_entryFault]; simp [vacantEntry]

/-! ## Drain triggers and the end of an event -/

/-- All a drain trigger can do (R152): a start in IDLE, else a drain owed. -/
theorem State.triggerDrain_cases :
    (s.rw.drain = .idle ∧ s.triggerDrain = s.startDrain) ∨
    (s.rw.drain ≠ .idle ∧ s.triggerDrain = { s with rw := { s.rw with drainOwed := true } }) := by
  unfold State.triggerDrain
  cases h : s.rw.drain
  · exact .inl ⟨rfl, rfl⟩
  · exact .inr ⟨by decide, rfl⟩
  · exact .inr ⟨by decide, rfl⟩

/-- The dirty count hangs on the flow table alone. -/
theorem State.dirtyCount_congr {a b : State} (h : a.ft = b.ft) : a.dirtyCount = b.dirtyCount := by
  simp only [State.dirtyCount, State.flowIndexes, State.flow, h]

/-- All the threshold test can do (R152): a trigger where the event raised the dirty count to the threshold. -/
theorem State.testThreshold_cases (b : State) :
    (b.dirtyCount < s.dirtyCount ∧ s.thresholdReached = true ∧ s.testThreshold b = s.triggerDrain) ∨
    ((s.dirtyCount ≤ b.dirtyCount ∨ s.thresholdReached = false) ∧ s.testThreshold b = s) := by
  unfold State.testThreshold
  split
  · exact .inl ⟨(‹_ ∧ _›).1, (‹_ ∧ _›).2, rfl⟩
  · rename_i h
    refine .inr ⟨?_, rfl⟩
    by_cases hc : b.dirtyCount < s.dirtyCount
    · exact .inr (by simpa [hc] using h)
    · exact .inl (Nat.le_of_not_lt hc)

/-- The end of an event looks at the state before it for its dirty count alone. -/
theorem State.settle_congr {a b : State} (h : a.dirtyCount = b.dirtyCount) : s.settle a = s.settle b := by
  simp only [State.settle, State.testThreshold, h]

end Sys2Proof.Machine
end

