-- ==== Sys2Proof/Laws/Frames.lean ====
section
/-! SUPPORT. Which blocks each operation leaves as they stand: one lemma per operation and block. -/

namespace Sys2Proof.Machine

set_option Elab.async false

variable (s : State)

/-- A pass over flow entries leaves what every change it makes leaves. -/
theorem State.overFlows_keep {β : Type} (g : State → β) (f : State → Nat → State) (l : List Nat)
    (hc : ∀ t i, g (State.checked t i) = g t) (hf : ∀ t i, g (f t i) = g t) : g (s.overFlows f l) = g s := by
  induction l generalizing s with
  | nil => rfl
  | cons i rest ih => simp only [State.overFlows]; rw [ih]; split <;> simp [hc, hf]

/-! ## count -/

@[simp] theorem State.count_pending (a : Aggregate) : (s.count a).pending = s.pending := rfl
@[simp] theorem State.count_mem (a : Aggregate) : (s.count a).mem = s.mem := rfl
@[simp] theorem State.count_fp (a : Aggregate) : (s.count a).fp = s.fp := rfl
@[simp] theorem State.count_oq (a : Aggregate) : (s.count a).oq = s.oq := rfl
@[simp] theorem State.count_ft (a : Aggregate) : (s.count a).ft = s.ft := rfl
@[simp] theorem State.count_tt (a : Aggregate) : (s.count a).tt = s.tt := rfl
@[simp] theorem State.count_cm (a : Aggregate) : (s.count a).cm = s.cm := rfl
@[simp] theorem State.count_rw (a : Aggregate) : (s.count a).rw = s.rw := rfl
@[simp] theorem State.count_ci (a : Aggregate) : (s.count a).ci = s.ci := rfl
@[simp] theorem State.count_freeCount (a : Aggregate) : (s.count a).freeCount = s.freeCount := rfl

/-! ## trigger -/

@[simp] theorem State.trigger_pending (k : AlarmKind) (v : Nat) : (s.trigger k v).pending = s.pending := by unfold State.trigger; split <;> rfl
@[simp] theorem State.trigger_mem (k : AlarmKind) (v : Nat) : (s.trigger k v).mem = s.mem := by unfold State.trigger; split <;> rfl
@[simp] theorem State.trigger_fp (k : AlarmKind) (v : Nat) : (s.trigger k v).fp = s.fp := by unfold State.trigger; split <;> rfl
@[simp] theorem State.trigger_oq (k : AlarmKind) (v : Nat) : (s.trigger k v).oq = s.oq := by unfold State.trigger; split <;> rfl
@[simp] theorem State.trigger_ft (k : AlarmKind) (v : Nat) : (s.trigger k v).ft = s.ft := by unfold State.trigger; split <;> rfl
@[simp] theorem State.trigger_tt (k : AlarmKind) (v : Nat) : (s.trigger k v).tt = s.tt := by unfold State.trigger; split <;> rfl
@[simp] theorem State.trigger_cm (k : AlarmKind) (v : Nat) : (s.trigger k v).cm = s.cm := by unfold State.trigger; split <;> rfl
@[simp] theorem State.trigger_rw (k : AlarmKind) (v : Nat) : (s.trigger k v).rw = s.rw := by unfold State.trigger; split <;> rfl
@[simp] theorem State.trigger_ci (k : AlarmKind) (v : Nat) : (s.trigger k v).ci = s.ci := by unfold State.trigger; split <;> rfl
@[simp] theorem State.trigger_freeCount (k : AlarmKind) (v : Nat) : (s.trigger k v).freeCount = s.freeCount := by unfold State.trigger; split <;> rfl

/-! ## setAlarm -/

@[simp] theorem State.setAlarm_pending (k : AlarmKind) (row : AlarmRow) : (s.setAlarm k row).pending = s.pending := rfl
@[simp] theorem State.setAlarm_mem (k : AlarmKind) (row : AlarmRow) : (s.setAlarm k row).mem = s.mem := rfl
@[simp] theorem State.setAlarm_fp (k : AlarmKind) (row : AlarmRow) : (s.setAlarm k row).fp = s.fp := rfl
@[simp] theorem State.setAlarm_oq (k : AlarmKind) (row : AlarmRow) : (s.setAlarm k row).oq = s.oq := rfl
@[simp] theorem State.setAlarm_ft (k : AlarmKind) (row : AlarmRow) : (s.setAlarm k row).ft = s.ft := rfl
@[simp] theorem State.setAlarm_tt (k : AlarmKind) (row : AlarmRow) : (s.setAlarm k row).tt = s.tt := rfl
@[simp] theorem State.setAlarm_cm (k : AlarmKind) (row : AlarmRow) : (s.setAlarm k row).cm = s.cm := rfl
@[simp] theorem State.setAlarm_rw (k : AlarmKind) (row : AlarmRow) : (s.setAlarm k row).rw = s.rw := rfl
@[simp] theorem State.setAlarm_ci (k : AlarmKind) (row : AlarmRow) : (s.setAlarm k row).ci = s.ci := rfl
@[simp] theorem State.setAlarm_freeCount (k : AlarmKind) (row : AlarmRow) : (s.setAlarm k row).freeCount = s.freeCount := rfl

/-! ## onMasked -/

@[simp] theorem State.onMasked_pending (m : BitVec 8) (g : AlarmRow → AlarmRow) (l : List AlarmKind) : (s.onMasked m g l).pending = s.pending := by
  induction l generalizing s with
  | nil => rfl
  | cons k rest ih => simp only [State.onMasked, ih]; split <;> rfl
@[simp] theorem State.onMasked_mem (m : BitVec 8) (g : AlarmRow → AlarmRow) (l : List AlarmKind) : (s.onMasked m g l).mem = s.mem := by
  induction l generalizing s with
  | nil => rfl
  | cons k rest ih => simp only [State.onMasked, ih]; split <;> rfl
@[simp] theorem State.onMasked_fp (m : BitVec 8) (g : AlarmRow → AlarmRow) (l : List AlarmKind) : (s.onMasked m g l).fp = s.fp := by
  induction l generalizing s with
  | nil => rfl
  | cons k rest ih => simp only [State.onMasked, ih]; split <;> rfl
@[simp] theorem State.onMasked_oq (m : BitVec 8) (g : AlarmRow → AlarmRow) (l : List AlarmKind) : (s.onMasked m g l).oq = s.oq := by
  induction l generalizing s with
  | nil => rfl
  | cons k rest ih => simp only [State.onMasked, ih]; split <;> rfl
@[simp] theorem State.onMasked_ft (m : BitVec 8) (g : AlarmRow → AlarmRow) (l : List AlarmKind) : (s.onMasked m g l).ft = s.ft := by
  induction l generalizing s with
  | nil => rfl
  | cons k rest ih => simp only [State.onMasked, ih]; split <;> rfl
@[simp] theorem State.onMasked_tt (m : BitVec 8) (g : AlarmRow → AlarmRow) (l : List AlarmKind) : (s.onMasked m g l).tt = s.tt := by
  induction l generalizing s with
  | nil => rfl
  | cons k rest ih => simp only [State.onMasked, ih]; split <;> rfl
@[simp] theorem State.onMasked_cm (m : BitVec 8) (g : AlarmRow → AlarmRow) (l : List AlarmKind) : (s.onMasked m g l).cm = s.cm := by
  induction l generalizing s with
  | nil => rfl
  | cons k rest ih => simp only [State.onMasked, ih]; split <;> rfl
@[simp] theorem State.onMasked_rw (m : BitVec 8) (g : AlarmRow → AlarmRow) (l : List AlarmKind) : (s.onMasked m g l).rw = s.rw := by
  induction l generalizing s with
  | nil => rfl
  | cons k rest ih => simp only [State.onMasked, ih]; split <;> rfl
@[simp] theorem State.onMasked_ci (m : BitVec 8) (g : AlarmRow → AlarmRow) (l : List AlarmKind) : (s.onMasked m g l).ci = s.ci := by
  induction l generalizing s with
  | nil => rfl
  | cons k rest ih => simp only [State.onMasked, ih]; split <;> rfl
@[simp] theorem State.onMasked_freeCount (m : BitVec 8) (g : AlarmRow → AlarmRow) (l : List AlarmKind) : (s.onMasked m g l).freeCount = s.freeCount := by
  induction l generalizing s with
  | nil => rfl
  | cons k rest ih => simp only [State.onMasked, ih]; split <;> rfl

/-! ## setFlow -/

@[simp] theorem State.setFlow_pending (i : Nat) (e : FlowEntry) : (s.setFlow i e).pending = s.pending := rfl
@[simp] theorem State.setFlow_mem (i : Nat) (e : FlowEntry) : (s.setFlow i e).mem = s.mem := rfl
@[simp] theorem State.setFlow_fp (i : Nat) (e : FlowEntry) : (s.setFlow i e).fp = s.fp := rfl
@[simp] theorem State.setFlow_oq (i : Nat) (e : FlowEntry) : (s.setFlow i e).oq = s.oq := rfl
@[simp] theorem State.setFlow_tt (i : Nat) (e : FlowEntry) : (s.setFlow i e).tt = s.tt := rfl
@[simp] theorem State.setFlow_cm (i : Nat) (e : FlowEntry) : (s.setFlow i e).cm = s.cm := rfl
@[simp] theorem State.setFlow_tau (i : Nat) (e : FlowEntry) : (s.setFlow i e).tau = s.tau := rfl
@[simp] theorem State.setFlow_rw (i : Nat) (e : FlowEntry) : (s.setFlow i e).rw = s.rw := rfl
@[simp] theorem State.setFlow_ci (i : Nat) (e : FlowEntry) : (s.setFlow i e).ci = s.ci := rfl
@[simp] theorem State.setFlow_freeCount (i : Nat) (e : FlowEntry) : (s.setFlow i e).freeCount = s.freeCount := rfl

/-! ## leaveDue -/

@[simp] theorem State.leaveDue_pending (i : Nat) : (s.leaveDue i).pending = s.pending := rfl
@[simp] theorem State.leaveDue_mem (i : Nat) : (s.leaveDue i).mem = s.mem := rfl
@[simp] theorem State.leaveDue_fp (i : Nat) : (s.leaveDue i).fp = s.fp := rfl
@[simp] theorem State.leaveDue_oq (i : Nat) : (s.leaveDue i).oq = s.oq := rfl
@[simp] theorem State.leaveDue_ft (i : Nat) : (s.leaveDue i).ft = s.ft := rfl
@[simp] theorem State.leaveDue_tt (i : Nat) : (s.leaveDue i).tt = s.tt := rfl
@[simp] theorem State.leaveDue_tau (i : Nat) : (s.leaveDue i).tau = s.tau := rfl
@[simp] theorem State.leaveDue_rw (i : Nat) : (s.leaveDue i).rw = s.rw := rfl
@[simp] theorem State.leaveDue_ci (i : Nat) : (s.leaveDue i).ci = s.ci := rfl
@[simp] theorem State.leaveDue_freeCount (i : Nat) : (s.leaveDue i).freeCount = s.freeCount := rfl

/-! ## setDue -/

@[simp] theorem State.setDue_pending (i : Nat) (d : Time) : (s.setDue i d).pending = s.pending := rfl
@[simp] theorem State.setDue_mem (i : Nat) (d : Time) : (s.setDue i d).mem = s.mem := rfl
@[simp] theorem State.setDue_fp (i : Nat) (d : Time) : (s.setDue i d).fp = s.fp := rfl
@[simp] theorem State.setDue_oq (i : Nat) (d : Time) : (s.setDue i d).oq = s.oq := rfl
@[simp] theorem State.setDue_tt (i : Nat) (d : Time) : (s.setDue i d).tt = s.tt := rfl
@[simp] theorem State.setDue_tau (i : Nat) (d : Time) : (s.setDue i d).tau = s.tau := rfl
@[simp] theorem State.setDue_rw (i : Nat) (d : Time) : (s.setDue i d).rw = s.rw := rfl
@[simp] theorem State.setDue_ci (i : Nat) (d : Time) : (s.setDue i d).ci = s.ci := rfl
@[simp] theorem State.setDue_freeCount (i : Nat) (d : Time) : (s.setDue i d).freeCount = s.freeCount := rfl

/-! ## setSlot -/

@[simp] theorem State.setSlot_pending (r i : Nat) (x : Slot) : (s.setSlot r i x).pending = s.pending := rfl
@[simp] theorem State.setSlot_mem (r i : Nat) (x : Slot) : (s.setSlot r i x).mem = s.mem := rfl
@[simp] theorem State.setSlot_fp (r i : Nat) (x : Slot) : (s.setSlot r i x).fp = s.fp := rfl
@[simp] theorem State.setSlot_oq (r i : Nat) (x : Slot) : (s.setSlot r i x).oq = s.oq := rfl
@[simp] theorem State.setSlot_ft (r i : Nat) (x : Slot) : (s.setSlot r i x).ft = s.ft := rfl
@[simp] theorem State.setSlot_cm (r i : Nat) (x : Slot) : (s.setSlot r i x).cm = s.cm := rfl
@[simp] theorem State.setSlot_tau (r i : Nat) (x : Slot) : (s.setSlot r i x).tau = s.tau := rfl
@[simp] theorem State.setSlot_rw (r i : Nat) (x : Slot) : (s.setSlot r i x).rw = s.rw := rfl
@[simp] theorem State.setSlot_ci (r i : Nat) (x : Slot) : (s.setSlot r i x).ci = s.ci := rfl
@[simp] theorem State.setSlot_freeCount (r i : Nat) (x : Slot) : (s.setSlot r i x).freeCount = s.freeCount := rfl

/-! ## useWay -/

@[simp] theorem State.useWay_pending (n x : Nat) : (s.useWay n x).pending = s.pending := rfl
@[simp] theorem State.useWay_mem (n x : Nat) : (s.useWay n x).mem = s.mem := rfl
@[simp] theorem State.useWay_fp (n x : Nat) : (s.useWay n x).fp = s.fp := rfl
@[simp] theorem State.useWay_oq (n x : Nat) : (s.useWay n x).oq = s.oq := rfl
@[simp] theorem State.useWay_tt (n x : Nat) : (s.useWay n x).tt = s.tt := rfl
@[simp] theorem State.useWay_cm (n x : Nat) : (s.useWay n x).cm = s.cm := rfl
@[simp] theorem State.useWay_tau (n x : Nat) : (s.useWay n x).tau = s.tau := rfl
@[simp] theorem State.useWay_rw (n x : Nat) : (s.useWay n x).rw = s.rw := rfl
@[simp] theorem State.useWay_ci (n x : Nat) : (s.useWay n x).ci = s.ci := rfl
@[simp] theorem State.useWay_freeCount (n x : Nat) : (s.useWay n x).freeCount = s.freeCount := rfl

/-! ## requestStatus -/

@[simp] theorem State.requestStatus_pending : (s.requestStatus).pending = s.pending := rfl
@[simp] theorem State.requestStatus_mem : (s.requestStatus).mem = s.mem := rfl
@[simp] theorem State.requestStatus_fp : (s.requestStatus).fp = s.fp := rfl
@[simp] theorem State.requestStatus_oq : (s.requestStatus).oq = s.oq := rfl
@[simp] theorem State.requestStatus_ft : (s.requestStatus).ft = s.ft := rfl
@[simp] theorem State.requestStatus_tt : (s.requestStatus).tt = s.tt := rfl
@[simp] theorem State.requestStatus_cm : (s.requestStatus).cm = s.cm := rfl
@[simp] theorem State.requestStatus_tau : (s.requestStatus).tau = s.tau := rfl
@[simp] theorem State.requestStatus_ci : (s.requestStatus).ci = s.ci := rfl
@[simp] theorem State.requestStatus_freeCount : (s.requestStatus).freeCount = s.freeCount := rfl

/-! ## result -/

@[simp] theorem State.result_pending (g : BitVec 8) (c : ResultCode) : (s.result g c).pending = s.pending := rfl
@[simp] theorem State.result_mem (g : BitVec 8) (c : ResultCode) : (s.result g c).mem = s.mem := rfl
@[simp] theorem State.result_fp (g : BitVec 8) (c : ResultCode) : (s.result g c).fp = s.fp := rfl
@[simp] theorem State.result_oq (g : BitVec 8) (c : ResultCode) : (s.result g c).oq = s.oq := rfl
@[simp] theorem State.result_ft (g : BitVec 8) (c : ResultCode) : (s.result g c).ft = s.ft := rfl
@[simp] theorem State.result_tt (g : BitVec 8) (c : ResultCode) : (s.result g c).tt = s.tt := rfl
@[simp] theorem State.result_cm (g : BitVec 8) (c : ResultCode) : (s.result g c).cm = s.cm := rfl
@[simp] theorem State.result_tau (g : BitVec 8) (c : ResultCode) : (s.result g c).tau = s.tau := rfl
@[simp] theorem State.result_freeCount (g : BitVec 8) (c : ResultCode) : (s.result g c).freeCount = s.freeCount := rfl

/-! ## finishCommand -/

@[simp] theorem State.finishCommand_pending (g : BitVec 8) (c : ResultCode) : (s.finishCommand g c).pending = s.pending := rfl
@[simp] theorem State.finishCommand_mem (g : BitVec 8) (c : ResultCode) : (s.finishCommand g c).mem = s.mem := rfl
@[simp] theorem State.finishCommand_fp (g : BitVec 8) (c : ResultCode) : (s.finishCommand g c).fp = s.fp := rfl
@[simp] theorem State.finishCommand_oq (g : BitVec 8) (c : ResultCode) : (s.finishCommand g c).oq = s.oq := rfl
@[simp] theorem State.finishCommand_ft (g : BitVec 8) (c : ResultCode) : (s.finishCommand g c).ft = s.ft := rfl
@[simp] theorem State.finishCommand_tt (g : BitVec 8) (c : ResultCode) : (s.finishCommand g c).tt = s.tt := rfl
@[simp] theorem State.finishCommand_cm (g : BitVec 8) (c : ResultCode) : (s.finishCommand g c).cm = s.cm := rfl
@[simp] theorem State.finishCommand_tau (g : BitVec 8) (c : ResultCode) : (s.finishCommand g c).tau = s.tau := rfl
@[simp] theorem State.finishCommand_freeCount (g : BitVec 8) (c : ResultCode) : (s.finishCommand g c).freeCount = s.freeCount := rfl

/-! ## noteClamp -/

@[simp] theorem State.noteClamp_pending (o f v h : Nat) : (s.noteClamp o f v h).pending = s.pending := by unfold State.noteClamp; split <;> rfl
@[simp] theorem State.noteClamp_mem (o f v h : Nat) : (s.noteClamp o f v h).mem = s.mem := by unfold State.noteClamp; split <;> rfl
@[simp] theorem State.noteClamp_fp (o f v h : Nat) : (s.noteClamp o f v h).fp = s.fp := by unfold State.noteClamp; split <;> rfl
@[simp] theorem State.noteClamp_oq (o f v h : Nat) : (s.noteClamp o f v h).oq = s.oq := by unfold State.noteClamp; split <;> rfl
@[simp] theorem State.noteClamp_ft (o f v h : Nat) : (s.noteClamp o f v h).ft = s.ft := by unfold State.noteClamp; split <;> rfl
@[simp] theorem State.noteClamp_tt (o f v h : Nat) : (s.noteClamp o f v h).tt = s.tt := by unfold State.noteClamp; split <;> rfl
@[simp] theorem State.noteClamp_cm (o f v h : Nat) : (s.noteClamp o f v h).cm = s.cm := by unfold State.noteClamp; split <;> rfl
@[simp] theorem State.noteClamp_rw (o f v h : Nat) : (s.noteClamp o f v h).rw = s.rw := by unfold State.noteClamp; split <;> rfl
@[simp] theorem State.noteClamp_freeCount (o f v h : Nat) : (s.noteClamp o f v h).freeCount = s.freeCount := by unfold State.noteClamp; split <;> rfl

/-! ## refreshAlert -/

@[simp] theorem State.refreshAlert_pending : (s.refreshAlert).pending = s.pending := by unfold State.refreshAlert; dsimp only; split <;> rfl
@[simp] theorem State.refreshAlert_mem : (s.refreshAlert).mem = s.mem := by unfold State.refreshAlert; dsimp only; split <;> rfl
@[simp] theorem State.refreshAlert_fp : (s.refreshAlert).fp = s.fp := by unfold State.refreshAlert; dsimp only; split <;> rfl
@[simp] theorem State.refreshAlert_oq : (s.refreshAlert).oq = s.oq := by unfold State.refreshAlert; dsimp only; split <;> rfl
@[simp] theorem State.refreshAlert_ft : (s.refreshAlert).ft = s.ft := by unfold State.refreshAlert; dsimp only; split <;> rfl
@[simp] theorem State.refreshAlert_tt : (s.refreshAlert).tt = s.tt := by unfold State.refreshAlert; dsimp only; split <;> rfl
@[simp] theorem State.refreshAlert_cm : (s.refreshAlert).cm = s.cm := by unfold State.refreshAlert; dsimp only; split <;> rfl
@[simp] theorem State.refreshAlert_ci : (s.refreshAlert).ci = s.ci := by unfold State.refreshAlert; dsimp only; split <;> rfl
@[simp] theorem State.refreshAlert_freeCount : (s.refreshAlert).freeCount = s.freeCount := by unfold State.refreshAlert; dsimp only; split <;> rfl

/-! ## setCoverage -/

@[simp] theorem State.setCoverage_pending (c : Coverage) : (s.setCoverage c).pending = s.pending := by cases c <;> rfl
@[simp] theorem State.setCoverage_mem (c : Coverage) : (s.setCoverage c).mem = s.mem := by cases c <;> rfl
@[simp] theorem State.setCoverage_fp (c : Coverage) : (s.setCoverage c).fp = s.fp := by cases c <;> rfl
@[simp] theorem State.setCoverage_ft (c : Coverage) : (s.setCoverage c).ft = s.ft := by cases c <;> rfl
@[simp] theorem State.setCoverage_tt (c : Coverage) : (s.setCoverage c).tt = s.tt := by cases c <;> rfl
@[simp] theorem State.setCoverage_tau (c : Coverage) : (s.setCoverage c).tau = s.tau := by cases c <;> rfl
@[simp] theorem State.setCoverage_ci (c : Coverage) : (s.setCoverage c).ci = s.ci := by cases c <;> rfl
@[simp] theorem State.setCoverage_freeCount (c : Coverage) : (s.setCoverage c).freeCount = s.freeCount := by cases c <;> rfl

/-! ## goBlind -/

@[simp] theorem State.goBlind_pending (a : Addr) : (s.goBlind a).pending = s.pending := by simp [State.goBlind]
@[simp] theorem State.goBlind_mem (a : Addr) : (s.goBlind a).mem = s.mem := by simp [State.goBlind]
@[simp] theorem State.goBlind_fp (a : Addr) : (s.goBlind a).fp = s.fp := by simp [State.goBlind]
@[simp] theorem State.goBlind_ft (a : Addr) : (s.goBlind a).ft = s.ft := by simp [State.goBlind]
@[simp] theorem State.goBlind_tt (a : Addr) : (s.goBlind a).tt = s.tt := by simp [State.goBlind]
@[simp] theorem State.goBlind_ci (a : Addr) : (s.goBlind a).ci = s.ci := by simp [State.goBlind]
@[simp] theorem State.goBlind_freeCount (a : Addr) : (s.goBlind a).freeCount = s.freeCount := by simp [State.goBlind]

/-! ## returnToSighted -/

@[simp] theorem State.returnToSighted_pending : (s.returnToSighted).pending = s.pending := by unfold State.returnToSighted; split <;> simp
@[simp] theorem State.returnToSighted_mem : (s.returnToSighted).mem = s.mem := by unfold State.returnToSighted; split <;> simp
@[simp] theorem State.returnToSighted_fp : (s.returnToSighted).fp = s.fp := by unfold State.returnToSighted; split <;> simp
@[simp] theorem State.returnToSighted_ft : (s.returnToSighted).ft = s.ft := by unfold State.returnToSighted; split <;> simp
@[simp] theorem State.returnToSighted_tt : (s.returnToSighted).tt = s.tt := by unfold State.returnToSighted; split <;> simp
@[simp] theorem State.returnToSighted_tau : (s.returnToSighted).tau = s.tau := by unfold State.returnToSighted; split <;> simp
@[simp] theorem State.returnToSighted_ci : (s.returnToSighted).ci = s.ci := by unfold State.returnToSighted; split <;> simp
@[simp] theorem State.returnToSighted_freeCount : (s.returnToSighted).freeCount = s.freeCount := by unfold State.returnToSighted; split <;> simp

/-! ## entryFault -/

@[simp] theorem State.entryFault_pending (i : Nat) : (s.entryFault i).pending = s.pending := by simp [State.entryFault]
@[simp] theorem State.entryFault_mem (i : Nat) : (s.entryFault i).mem = s.mem := by simp [State.entryFault]
@[simp] theorem State.entryFault_fp (i : Nat) : (s.entryFault i).fp = s.fp := by simp [State.entryFault]
@[simp] theorem State.entryFault_oq (i : Nat) : (s.entryFault i).oq = s.oq := by simp [State.entryFault]
@[simp] theorem State.entryFault_tt (i : Nat) : (s.entryFault i).tt = s.tt := by simp [State.entryFault]
@[simp] theorem State.entryFault_rw (i : Nat) : (s.entryFault i).rw = s.rw := by simp [State.entryFault]
@[simp] theorem State.entryFault_ci (i : Nat) : (s.entryFault i).ci = s.ci := by simp [State.entryFault]
@[simp] theorem State.entryFault_freeCount (i : Nat) : (s.entryFault i).freeCount = s.freeCount := by simp [State.entryFault]

/-! ## checked -/

@[simp] theorem State.checked_pending (i : Nat) : (s.checked i).pending = s.pending := by unfold State.checked; split <;> simp
@[simp] theorem State.checked_mem (i : Nat) : (s.checked i).mem = s.mem := by unfold State.checked; split <;> simp
@[simp] theorem State.checked_fp (i : Nat) : (s.checked i).fp = s.fp := by unfold State.checked; split <;> simp
@[simp] theorem State.checked_oq (i : Nat) : (s.checked i).oq = s.oq := by unfold State.checked; split <;> simp
@[simp] theorem State.checked_tt (i : Nat) : (s.checked i).tt = s.tt := by unfold State.checked; split <;> simp
@[simp] theorem State.checked_rw (i : Nat) : (s.checked i).rw = s.rw := by unfold State.checked; split <;> simp
@[simp] theorem State.checked_ci (i : Nat) : (s.checked i).ci = s.ci := by unfold State.checked; split <;> simp
@[simp] theorem State.checked_freeCount (i : Nat) : (s.checked i).freeCount = s.freeCount := by unfold State.checked; split <;> simp

/-! ## checkedAll -/

@[simp] theorem State.checkedAll_pending (l : List Nat) : (s.checkedAll l).pending = s.pending := by
  induction l generalizing s with
  | nil => rfl
  | cons i rest ih => simp only [State.checkedAll, ih]; simp
@[simp] theorem State.checkedAll_mem (l : List Nat) : (s.checkedAll l).mem = s.mem := by
  induction l generalizing s with
  | nil => rfl
  | cons i rest ih => simp only [State.checkedAll, ih]; simp
@[simp] theorem State.checkedAll_fp (l : List Nat) : (s.checkedAll l).fp = s.fp := by
  induction l generalizing s with
  | nil => rfl
  | cons i rest ih => simp only [State.checkedAll, ih]; simp
@[simp] theorem State.checkedAll_oq (l : List Nat) : (s.checkedAll l).oq = s.oq := by
  induction l generalizing s with
  | nil => rfl
  | cons i rest ih => simp only [State.checkedAll, ih]; simp
@[simp] theorem State.checkedAll_tt (l : List Nat) : (s.checkedAll l).tt = s.tt := by
  induction l generalizing s with
  | nil => rfl
  | cons i rest ih => simp only [State.checkedAll, ih]; simp
@[simp] theorem State.checkedAll_rw (l : List Nat) : (s.checkedAll l).rw = s.rw := by
  induction l generalizing s with
  | nil => rfl
  | cons i rest ih => simp only [State.checkedAll, ih]; simp
@[simp] theorem State.checkedAll_ci (l : List Nat) : (s.checkedAll l).ci = s.ci := by
  induction l generalizing s with
  | nil => rfl
  | cons i rest ih => simp only [State.checkedAll, ih]; simp
@[simp] theorem State.checkedAll_freeCount (l : List Nat) : (s.checkedAll l).freeCount = s.freeCount := by
  induction l generalizing s with
  | nil => rfl
  | cons i rest ih => simp only [State.checkedAll, ih]; simp

/-! ## retireEntry -/

@[simp] theorem State.retireEntry_pending (i : Nat) (c : RetireCause) (d : Time) : (s.retireEntry i c d).pending = s.pending := rfl
@[simp] theorem State.retireEntry_mem (i : Nat) (c : RetireCause) (d : Time) : (s.retireEntry i c d).mem = s.mem := rfl
@[simp] theorem State.retireEntry_fp (i : Nat) (c : RetireCause) (d : Time) : (s.retireEntry i c d).fp = s.fp := rfl
@[simp] theorem State.retireEntry_oq (i : Nat) (c : RetireCause) (d : Time) : (s.retireEntry i c d).oq = s.oq := rfl
@[simp] theorem State.retireEntry_tt (i : Nat) (c : RetireCause) (d : Time) : (s.retireEntry i c d).tt = s.tt := rfl
@[simp] theorem State.retireEntry_cm (i : Nat) (c : RetireCause) (d : Time) : (s.retireEntry i c d).cm = s.cm := rfl
@[simp] theorem State.retireEntry_tau (i : Nat) (c : RetireCause) (d : Time) : (s.retireEntry i c d).tau = s.tau := rfl
@[simp] theorem State.retireEntry_rw (i : Nat) (c : RetireCause) (d : Time) : (s.retireEntry i c d).rw = s.rw := rfl
@[simp] theorem State.retireEntry_ci (i : Nat) (c : RetireCause) (d : Time) : (s.retireEntry i c d).ci = s.ci := rfl
@[simp] theorem State.retireEntry_freeCount (i : Nat) (c : RetireCause) (d : Time) : (s.retireEntry i c d).freeCount = s.freeCount := rfl

/-! ## fillWay -/

@[simp] theorem State.fillWay_pending (n w : Nat) (p : BitVec 4) (g : BitVec 20) (k : Nat) : (s.fillWay n w p g k).pending = s.pending := rfl
@[simp] theorem State.fillWay_mem (n w : Nat) (p : BitVec 4) (g : BitVec 20) (k : Nat) : (s.fillWay n w p g k).mem = s.mem := rfl
@[simp] theorem State.fillWay_fp (n w : Nat) (p : BitVec 4) (g : BitVec 20) (k : Nat) : (s.fillWay n w p g k).fp = s.fp := rfl
@[simp] theorem State.fillWay_oq (n w : Nat) (p : BitVec 4) (g : BitVec 20) (k : Nat) : (s.fillWay n w p g k).oq = s.oq := rfl
@[simp] theorem State.fillWay_tt (n w : Nat) (p : BitVec 4) (g : BitVec 20) (k : Nat) : (s.fillWay n w p g k).tt = s.tt := rfl
@[simp] theorem State.fillWay_tau (n w : Nat) (p : BitVec 4) (g : BitVec 20) (k : Nat) : (s.fillWay n w p g k).tau = s.tau := rfl
@[simp] theorem State.fillWay_rw (n w : Nat) (p : BitVec 4) (g : BitVec 20) (k : Nat) : (s.fillWay n w p g k).rw = s.rw := rfl
@[simp] theorem State.fillWay_ci (n w : Nat) (p : BitVec 4) (g : BitVec 20) (k : Nat) : (s.fillWay n w p g k).ci = s.ci := rfl
@[simp] theorem State.fillWay_freeCount (n w : Nat) (p : BitVec 4) (g : BitVec 20) (k : Nat) : (s.fillWay n w p g k).freeCount = s.freeCount := rfl

/-! ## allocationFailure -/

@[simp] theorem State.allocationFailure_pending (p : BitVec 4) (g : BitVec 20) : (s.allocationFailure p g).pending = s.pending := by simp [State.allocationFailure]
@[simp] theorem State.allocationFailure_mem (p : BitVec 4) (g : BitVec 20) : (s.allocationFailure p g).mem = s.mem := by simp [State.allocationFailure]
@[simp] theorem State.allocationFailure_fp (p : BitVec 4) (g : BitVec 20) : (s.allocationFailure p g).fp = s.fp := by simp [State.allocationFailure]
@[simp] theorem State.allocationFailure_oq (p : BitVec 4) (g : BitVec 20) : (s.allocationFailure p g).oq = s.oq := by simp [State.allocationFailure]
@[simp] theorem State.allocationFailure_ft (p : BitVec 4) (g : BitVec 20) : (s.allocationFailure p g).ft = s.ft := by simp [State.allocationFailure]
@[simp] theorem State.allocationFailure_tt (p : BitVec 4) (g : BitVec 20) : (s.allocationFailure p g).tt = s.tt := by simp [State.allocationFailure]
@[simp] theorem State.allocationFailure_cm (p : BitVec 4) (g : BitVec 20) : (s.allocationFailure p g).cm = s.cm := by simp [State.allocationFailure]
@[simp] theorem State.allocationFailure_rw (p : BitVec 4) (g : BitVec 20) : (s.allocationFailure p g).rw = s.rw := by simp [State.allocationFailure]
@[simp] theorem State.allocationFailure_ci (p : BitVec 4) (g : BitVec 20) : (s.allocationFailure p g).ci = s.ci := by simp [State.allocationFailure]
@[simp] theorem State.allocationFailure_freeCount (p : BitVec 4) (g : BitVec 20) : (s.allocationFailure p g).freeCount = s.freeCount := by simp [State.allocationFailure]

/-! ## unlistedArrival -/

@[simp] theorem State.unlistedArrival_pending (p : BitVec 4) (g : BitVec 20) : ((s.unlistedArrival p g).1).pending = s.pending := rfl
@[simp] theorem State.unlistedArrival_mem (p : BitVec 4) (g : BitVec 20) : ((s.unlistedArrival p g).1).mem = s.mem := rfl
@[simp] theorem State.unlistedArrival_fp (p : BitVec 4) (g : BitVec 20) : ((s.unlistedArrival p g).1).fp = s.fp := rfl
@[simp] theorem State.unlistedArrival_oq (p : BitVec 4) (g : BitVec 20) : ((s.unlistedArrival p g).1).oq = s.oq := rfl
@[simp] theorem State.unlistedArrival_ft (p : BitVec 4) (g : BitVec 20) : ((s.unlistedArrival p g).1).ft = s.ft := rfl
@[simp] theorem State.unlistedArrival_tt (p : BitVec 4) (g : BitVec 20) : ((s.unlistedArrival p g).1).tt = s.tt := rfl
@[simp] theorem State.unlistedArrival_cm (p : BitVec 4) (g : BitVec 20) : ((s.unlistedArrival p g).1).cm = s.cm := rfl
@[simp] theorem State.unlistedArrival_rw (p : BitVec 4) (g : BitVec 20) : ((s.unlistedArrival p g).1).rw = s.rw := rfl
@[simp] theorem State.unlistedArrival_ci (p : BitVec 4) (g : BitVec 20) : ((s.unlistedArrival p g).1).ci = s.ci := rfl
@[simp] theorem State.unlistedArrival_freeCount (p : BitVec 4) (g : BitVec 20) : ((s.unlistedArrival p g).1).freeCount = s.freeCount := rfl

/-! ## evict -/

@[simp] theorem State.evict_pending (i : Nat) : (s.evict i).pending = s.pending := rfl
@[simp] theorem State.evict_mem (i : Nat) : (s.evict i).mem = s.mem := rfl
@[simp] theorem State.evict_fp (i : Nat) : (s.evict i).fp = s.fp := rfl
@[simp] theorem State.evict_oq (i : Nat) : (s.evict i).oq = s.oq := rfl
@[simp] theorem State.evict_tt (i : Nat) : (s.evict i).tt = s.tt := rfl
@[simp] theorem State.evict_rw (i : Nat) : (s.evict i).rw = s.rw := rfl
@[simp] theorem State.evict_ci (i : Nat) : (s.evict i).ci = s.ci := rfl
@[simp] theorem State.evict_freeCount (i : Nat) : (s.evict i).freeCount = s.freeCount := rfl

/-! ## clearFlow -/

@[simp] theorem State.clearFlow_pending (i : Nat) : ((s.clearFlow i).1).pending = s.pending := by unfold State.clearFlow; dsimp only; (repeat' split) <;> simp
@[simp] theorem State.clearFlow_mem (i : Nat) : ((s.clearFlow i).1).mem = s.mem := by unfold State.clearFlow; dsimp only; (repeat' split) <;> simp
@[simp] theorem State.clearFlow_fp (i : Nat) : ((s.clearFlow i).1).fp = s.fp := by unfold State.clearFlow; dsimp only; (repeat' split) <;> simp
@[simp] theorem State.clearFlow_oq (i : Nat) : ((s.clearFlow i).1).oq = s.oq := by unfold State.clearFlow; dsimp only; (repeat' split) <;> simp
@[simp] theorem State.clearFlow_tt (i : Nat) : ((s.clearFlow i).1).tt = s.tt := by unfold State.clearFlow; dsimp only; (repeat' split) <;> simp
@[simp] theorem State.clearFlow_rw (i : Nat) : ((s.clearFlow i).1).rw = s.rw := by unfold State.clearFlow; dsimp only; (repeat' split) <;> simp
@[simp] theorem State.clearFlow_ci (i : Nat) : ((s.clearFlow i).1).ci = s.ci := by unfold State.clearFlow; dsimp only; (repeat' split) <;> simp
@[simp] theorem State.clearFlow_freeCount (i : Nat) : ((s.clearFlow i).1).freeCount = s.freeCount := by unfold State.clearFlow; dsimp only; (repeat' split) <;> simp

/-! ## evictFlow -/

@[simp] theorem State.evictFlow_pending (i : Nat) : ((s.evictFlow i).1).pending = s.pending := by unfold State.evictFlow; dsimp only; (repeat' split) <;> simp
@[simp] theorem State.evictFlow_mem (i : Nat) : ((s.evictFlow i).1).mem = s.mem := by unfold State.evictFlow; dsimp only; (repeat' split) <;> simp
@[simp] theorem State.evictFlow_fp (i : Nat) : ((s.evictFlow i).1).fp = s.fp := by unfold State.evictFlow; dsimp only; (repeat' split) <;> simp
@[simp] theorem State.evictFlow_oq (i : Nat) : ((s.evictFlow i).1).oq = s.oq := by unfold State.evictFlow; dsimp only; (repeat' split) <;> simp
@[simp] theorem State.evictFlow_tt (i : Nat) : ((s.evictFlow i).1).tt = s.tt := by unfold State.evictFlow; dsimp only; (repeat' split) <;> simp
@[simp] theorem State.evictFlow_rw (i : Nat) : ((s.evictFlow i).1).rw = s.rw := by unfold State.evictFlow; dsimp only; (repeat' split) <;> simp
@[simp] theorem State.evictFlow_ci (i : Nat) : ((s.evictFlow i).1).ci = s.ci := by unfold State.evictFlow; dsimp only; (repeat' split) <;> simp
@[simp] theorem State.evictFlow_freeCount (i : Nat) : ((s.evictFlow i).1).freeCount = s.freeCount := by unfold State.evictFlow; dsimp only; (repeat' split) <;> simp

/-! ## walkStep -/

@[simp] theorem State.walkStep_pending (i : Nat) : (s.walkStep i).pending = s.pending := by unfold State.walkStep; (try dsimp only); split <;> simp
@[simp] theorem State.walkStep_mem (i : Nat) : (s.walkStep i).mem = s.mem := by unfold State.walkStep; (try dsimp only); split <;> simp
@[simp] theorem State.walkStep_fp (i : Nat) : (s.walkStep i).fp = s.fp := by unfold State.walkStep; (try dsimp only); split <;> simp
@[simp] theorem State.walkStep_oq (i : Nat) : (s.walkStep i).oq = s.oq := by unfold State.walkStep; (try dsimp only); split <;> simp
@[simp] theorem State.walkStep_tt (i : Nat) : (s.walkStep i).tt = s.tt := by unfold State.walkStep; (try dsimp only); split <;> simp
@[simp] theorem State.walkStep_rw (i : Nat) : (s.walkStep i).rw = s.rw := by unfold State.walkStep; (try dsimp only); split <;> simp
@[simp] theorem State.walkStep_ci (i : Nat) : (s.walkStep i).ci = s.ci := by unfold State.walkStep; (try dsimp only); split <;> simp
@[simp] theorem State.walkStep_freeCount (i : Nat) : (s.walkStep i).freeCount = s.freeCount := by unfold State.walkStep; (try dsimp only); split <;> simp

/-! ## evaluateArrival -/

@[simp] theorem State.evaluateArrival_pending (i : Nat) (q : BitVec 16) (b : Bool) : (s.evaluateArrival i q b).pending = s.pending := by unfold State.evaluateArrival; (try dsimp only); split <;> simp
@[simp] theorem State.evaluateArrival_mem (i : Nat) (q : BitVec 16) (b : Bool) : (s.evaluateArrival i q b).mem = s.mem := by unfold State.evaluateArrival; (try dsimp only); split <;> simp
@[simp] theorem State.evaluateArrival_fp (i : Nat) (q : BitVec 16) (b : Bool) : (s.evaluateArrival i q b).fp = s.fp := by unfold State.evaluateArrival; (try dsimp only); split <;> simp
@[simp] theorem State.evaluateArrival_oq (i : Nat) (q : BitVec 16) (b : Bool) : (s.evaluateArrival i q b).oq = s.oq := by unfold State.evaluateArrival; (try dsimp only); split <;> simp
@[simp] theorem State.evaluateArrival_tt (i : Nat) (q : BitVec 16) (b : Bool) : (s.evaluateArrival i q b).tt = s.tt := by unfold State.evaluateArrival; (try dsimp only); split <;> simp
@[simp] theorem State.evaluateArrival_cm (i : Nat) (q : BitVec 16) (b : Bool) : (s.evaluateArrival i q b).cm = s.cm := by unfold State.evaluateArrival; (try dsimp only); split <;> simp
@[simp] theorem State.evaluateArrival_rw (i : Nat) (q : BitVec 16) (b : Bool) : (s.evaluateArrival i q b).rw = s.rw := by unfold State.evaluateArrival; (try dsimp only); split <;> simp
@[simp] theorem State.evaluateArrival_ci (i : Nat) (q : BitVec 16) (b : Bool) : (s.evaluateArrival i q b).ci = s.ci := by unfold State.evaluateArrival; (try dsimp only); split <;> simp
@[simp] theorem State.evaluateArrival_freeCount (i : Nat) (q : BitVec 16) (b : Bool) : (s.evaluateArrival i q b).freeCount = s.freeCount := by unfold State.evaluateArrival; (try dsimp only); split <;> simp

/-! ## profileChange -/

@[simp] theorem State.profileChange_pending (p : Nat) (old new : Profile) : (s.profileChange p old new).pending = s.pending := by
  refine State.overFlows_keep s (·.pending) _ _ (fun t i => by simp) (fun t i => ?_); split <;> simp
@[simp] theorem State.profileChange_mem (p : Nat) (old new : Profile) : (s.profileChange p old new).mem = s.mem := by
  refine State.overFlows_keep s (·.mem) _ _ (fun t i => by simp) (fun t i => ?_); split <;> simp
@[simp] theorem State.profileChange_fp (p : Nat) (old new : Profile) : (s.profileChange p old new).fp = s.fp := by
  refine State.overFlows_keep s (·.fp) _ _ (fun t i => by simp) (fun t i => ?_); split <;> simp
@[simp] theorem State.profileChange_oq (p : Nat) (old new : Profile) : (s.profileChange p old new).oq = s.oq := by
  refine State.overFlows_keep s (·.oq) _ _ (fun t i => by simp) (fun t i => ?_); split <;> simp
@[simp] theorem State.profileChange_tt (p : Nat) (old new : Profile) : (s.profileChange p old new).tt = s.tt := by
  refine State.overFlows_keep s (·.tt) _ _ (fun t i => by simp) (fun t i => ?_); split <;> simp
@[simp] theorem State.profileChange_rw (p : Nat) (old new : Profile) : (s.profileChange p old new).rw = s.rw := by
  refine State.overFlows_keep s (·.rw) _ _ (fun t i => by simp) (fun t i => ?_); split <;> simp
@[simp] theorem State.profileChange_ci (p : Nat) (old new : Profile) : (s.profileChange p old new).ci = s.ci := by
  refine State.overFlows_keep s (·.ci) _ _ (fun t i => by simp) (fun t i => ?_); split <;> simp
@[simp] theorem State.profileChange_freeCount (p : Nat) (old new : Profile) : (s.profileChange p old new).freeCount = s.freeCount := by
  refine State.overFlows_keep s (·.freeCount) _ _ (fun t i => by simp) (fun t i => ?_); split <;> simp

/-! ## reArm -/

@[simp] theorem State.reArm_pending (i : Nat) (d : Time) : (s.reArm i d).pending = s.pending := by unfold State.reArm; (try dsimp only); split <;> simp
@[simp] theorem State.reArm_mem (i : Nat) (d : Time) : (s.reArm i d).mem = s.mem := by unfold State.reArm; (try dsimp only); split <;> simp
@[simp] theorem State.reArm_fp (i : Nat) (d : Time) : (s.reArm i d).fp = s.fp := by unfold State.reArm; (try dsimp only); split <;> simp
@[simp] theorem State.reArm_oq (i : Nat) (d : Time) : (s.reArm i d).oq = s.oq := by unfold State.reArm; (try dsimp only); split <;> simp
@[simp] theorem State.reArm_tt (i : Nat) (d : Time) : (s.reArm i d).tt = s.tt := by unfold State.reArm; (try dsimp only); split <;> simp
@[simp] theorem State.reArm_tau (i : Nat) (d : Time) : (s.reArm i d).tau = s.tau := by unfold State.reArm; (try dsimp only); split <;> simp
@[simp] theorem State.reArm_rw (i : Nat) (d : Time) : (s.reArm i d).rw = s.rw := by unfold State.reArm; (try dsimp only); split <;> simp
@[simp] theorem State.reArm_ci (i : Nat) (d : Time) : (s.reArm i d).ci = s.ci := by unfold State.reArm; (try dsimp only); split <;> simp
@[simp] theorem State.reArm_freeCount (i : Nat) (d : Time) : (s.reArm i d).freeCount = s.freeCount := by unfold State.reArm; (try dsimp only); split <;> simp

/-! ## silence -/

@[simp] theorem State.silence_pending (i : Nat) : (s.silence i).pending = s.pending := by simp [State.silence]
@[simp] theorem State.silence_mem (i : Nat) : (s.silence i).mem = s.mem := by simp [State.silence]
@[simp] theorem State.silence_fp (i : Nat) : (s.silence i).fp = s.fp := by simp [State.silence]
@[simp] theorem State.silence_oq (i : Nat) : (s.silence i).oq = s.oq := by simp [State.silence]
@[simp] theorem State.silence_tt (i : Nat) : (s.silence i).tt = s.tt := by simp [State.silence]
@[simp] theorem State.silence_rw (i : Nat) : (s.silence i).rw = s.rw := by simp [State.silence]
@[simp] theorem State.silence_ci (i : Nat) : (s.silence i).ci = s.ci := by simp [State.silence]
@[simp] theorem State.silence_freeCount (i : Nat) : (s.silence i).freeCount = s.freeCount := by simp [State.silence]

/-! ## countedExpiry -/

@[simp] theorem State.countedExpiry_pending (i : Nat) (d : Time) : (s.countedExpiry i d).pending = s.pending := by unfold State.countedExpiry; (try dsimp only); split <;> simp
@[simp] theorem State.countedExpiry_mem (i : Nat) (d : Time) : (s.countedExpiry i d).mem = s.mem := by unfold State.countedExpiry; (try dsimp only); split <;> simp
@[simp] theorem State.countedExpiry_fp (i : Nat) (d : Time) : (s.countedExpiry i d).fp = s.fp := by unfold State.countedExpiry; (try dsimp only); split <;> simp
@[simp] theorem State.countedExpiry_oq (i : Nat) (d : Time) : (s.countedExpiry i d).oq = s.oq := by unfold State.countedExpiry; (try dsimp only); split <;> simp
@[simp] theorem State.countedExpiry_tt (i : Nat) (d : Time) : (s.countedExpiry i d).tt = s.tt := by unfold State.countedExpiry; (try dsimp only); split <;> simp
@[simp] theorem State.countedExpiry_rw (i : Nat) (d : Time) : (s.countedExpiry i d).rw = s.rw := by unfold State.countedExpiry; (try dsimp only); split <;> simp
@[simp] theorem State.countedExpiry_ci (i : Nat) (d : Time) : (s.countedExpiry i d).ci = s.ci := by unfold State.countedExpiry; (try dsimp only); split <;> simp
@[simp] theorem State.countedExpiry_freeCount (i : Nat) (d : Time) : (s.countedExpiry i d).freeCount = s.freeCount := by unfold State.countedExpiry; (try dsimp only); split <;> simp

/-! ## uncountedExpiry -/

@[simp] theorem State.uncountedExpiry_pending (i : Nat) (d : Time) : (s.uncountedExpiry i d).pending = s.pending := rfl
@[simp] theorem State.uncountedExpiry_mem (i : Nat) (d : Time) : (s.uncountedExpiry i d).mem = s.mem := rfl
@[simp] theorem State.uncountedExpiry_fp (i : Nat) (d : Time) : (s.uncountedExpiry i d).fp = s.fp := rfl
@[simp] theorem State.uncountedExpiry_oq (i : Nat) (d : Time) : (s.uncountedExpiry i d).oq = s.oq := rfl
@[simp] theorem State.uncountedExpiry_tt (i : Nat) (d : Time) : (s.uncountedExpiry i d).tt = s.tt := rfl
@[simp] theorem State.uncountedExpiry_tau (i : Nat) (d : Time) : (s.uncountedExpiry i d).tau = s.tau := rfl
@[simp] theorem State.uncountedExpiry_rw (i : Nat) (d : Time) : (s.uncountedExpiry i d).rw = s.rw := rfl
@[simp] theorem State.uncountedExpiry_ci (i : Nat) (d : Time) : (s.uncountedExpiry i d).ci = s.ci := rfl
@[simp] theorem State.uncountedExpiry_freeCount (i : Nat) (d : Time) : (s.uncountedExpiry i d).freeCount = s.freeCount := rfl

/-! ## takeExpiry -/

@[simp] theorem State.takeExpiry_pending (i : Nat) (d : Time) : (s.takeExpiry i d).pending = s.pending := by unfold State.takeExpiry; dsimp only; (repeat' split) <;> simp
@[simp] theorem State.takeExpiry_mem (i : Nat) (d : Time) : (s.takeExpiry i d).mem = s.mem := by unfold State.takeExpiry; dsimp only; (repeat' split) <;> simp
@[simp] theorem State.takeExpiry_fp (i : Nat) (d : Time) : (s.takeExpiry i d).fp = s.fp := by unfold State.takeExpiry; dsimp only; (repeat' split) <;> simp
@[simp] theorem State.takeExpiry_oq (i : Nat) (d : Time) : (s.takeExpiry i d).oq = s.oq := by unfold State.takeExpiry; dsimp only; (repeat' split) <;> simp
@[simp] theorem State.takeExpiry_tt (i : Nat) (d : Time) : (s.takeExpiry i d).tt = s.tt := by unfold State.takeExpiry; dsimp only; (repeat' split) <;> simp
@[simp] theorem State.takeExpiry_rw (i : Nat) (d : Time) : (s.takeExpiry i d).rw = s.rw := by unfold State.takeExpiry; dsimp only; (repeat' split) <;> simp
@[simp] theorem State.takeExpiry_ci (i : Nat) (d : Time) : (s.takeExpiry i d).ci = s.ci := by unfold State.takeExpiry; dsimp only; (repeat' split) <;> simp
@[simp] theorem State.takeExpiry_freeCount (i : Nat) (d : Time) : (s.takeExpiry i d).freeCount = s.freeCount := by unfold State.takeExpiry; dsimp only; (repeat' split) <;> simp

/-! ## periodChangeEntry -/

@[simp] theorem State.periodChangeEntry_pending (i : Nat) (old new : Profile) : (s.periodChangeEntry i old new).pending = s.pending := by unfold State.periodChangeEntry; (repeat' split) <;> simp
@[simp] theorem State.periodChangeEntry_mem (i : Nat) (old new : Profile) : (s.periodChangeEntry i old new).mem = s.mem := by unfold State.periodChangeEntry; (repeat' split) <;> simp
@[simp] theorem State.periodChangeEntry_fp (i : Nat) (old new : Profile) : (s.periodChangeEntry i old new).fp = s.fp := by unfold State.periodChangeEntry; (repeat' split) <;> simp
@[simp] theorem State.periodChangeEntry_oq (i : Nat) (old new : Profile) : (s.periodChangeEntry i old new).oq = s.oq := by unfold State.periodChangeEntry; (repeat' split) <;> simp
@[simp] theorem State.periodChangeEntry_tt (i : Nat) (old new : Profile) : (s.periodChangeEntry i old new).tt = s.tt := by unfold State.periodChangeEntry; (repeat' split) <;> simp
@[simp] theorem State.periodChangeEntry_tau (i : Nat) (old new : Profile) : (s.periodChangeEntry i old new).tau = s.tau := by unfold State.periodChangeEntry; (repeat' split) <;> simp
@[simp] theorem State.periodChangeEntry_rw (i : Nat) (old new : Profile) : (s.periodChangeEntry i old new).rw = s.rw := by unfold State.periodChangeEntry; (repeat' split) <;> simp
@[simp] theorem State.periodChangeEntry_ci (i : Nat) (old new : Profile) : (s.periodChangeEntry i old new).ci = s.ci := by unfold State.periodChangeEntry; (repeat' split) <;> simp
@[simp] theorem State.periodChangeEntry_freeCount (i : Nat) (old new : Profile) : (s.periodChangeEntry i old new).freeCount = s.freeCount := by unfold State.periodChangeEntry; (repeat' split) <;> simp

/-! ## periodChange -/

@[simp] theorem State.periodChange_pending (p : Nat) (old new : Profile) : (s.periodChange p old new).pending = s.pending := by
  refine State.overFlows_keep s (·.pending) _ _ (fun t i => by simp) (fun t i => ?_); split <;> simp
@[simp] theorem State.periodChange_mem (p : Nat) (old new : Profile) : (s.periodChange p old new).mem = s.mem := by
  refine State.overFlows_keep s (·.mem) _ _ (fun t i => by simp) (fun t i => ?_); split <;> simp
@[simp] theorem State.periodChange_fp (p : Nat) (old new : Profile) : (s.periodChange p old new).fp = s.fp := by
  refine State.overFlows_keep s (·.fp) _ _ (fun t i => by simp) (fun t i => ?_); split <;> simp
@[simp] theorem State.periodChange_oq (p : Nat) (old new : Profile) : (s.periodChange p old new).oq = s.oq := by
  refine State.overFlows_keep s (·.oq) _ _ (fun t i => by simp) (fun t i => ?_); split <;> simp
@[simp] theorem State.periodChange_tt (p : Nat) (old new : Profile) : (s.periodChange p old new).tt = s.tt := by
  refine State.overFlows_keep s (·.tt) _ _ (fun t i => by simp) (fun t i => ?_); split <;> simp
@[simp] theorem State.periodChange_rw (p : Nat) (old new : Profile) : (s.periodChange p old new).rw = s.rw := by
  refine State.overFlows_keep s (·.rw) _ _ (fun t i => by simp) (fun t i => ?_); split <;> simp
@[simp] theorem State.periodChange_ci (p : Nat) (old new : Profile) : (s.periodChange p old new).ci = s.ci := by
  refine State.overFlows_keep s (·.ci) _ _ (fun t i => by simp) (fun t i => ?_); split <;> simp
@[simp] theorem State.periodChange_freeCount (p : Nat) (old new : Profile) : (s.periodChange p old new).freeCount = s.freeCount := by
  refine State.overFlows_keep s (·.freeCount) _ _ (fun t i => by simp) (fun t i => ?_); split <;> simp

/-! ## creditUnlisted -/

@[simp] theorem State.creditUnlisted_pending (v : Verdict) : (s.creditUnlisted v).pending = s.pending := by cases v <;> rfl
@[simp] theorem State.creditUnlisted_mem (v : Verdict) : (s.creditUnlisted v).mem = s.mem := by cases v <;> rfl
@[simp] theorem State.creditUnlisted_fp (v : Verdict) : (s.creditUnlisted v).fp = s.fp := by cases v <;> rfl
@[simp] theorem State.creditUnlisted_oq (v : Verdict) : (s.creditUnlisted v).oq = s.oq := by cases v <;> rfl
@[simp] theorem State.creditUnlisted_ft (v : Verdict) : (s.creditUnlisted v).ft = s.ft := by cases v <;> rfl
@[simp] theorem State.creditUnlisted_tt (v : Verdict) : (s.creditUnlisted v).tt = s.tt := by cases v <;> rfl
@[simp] theorem State.creditUnlisted_cm (v : Verdict) : (s.creditUnlisted v).cm = s.cm := by cases v <;> rfl
@[simp] theorem State.creditUnlisted_rw (v : Verdict) : (s.creditUnlisted v).rw = s.rw := by cases v <;> rfl
@[simp] theorem State.creditUnlisted_ci (v : Verdict) : (s.creditUnlisted v).ci = s.ci := by cases v <;> rfl
@[simp] theorem State.creditUnlisted_freeCount (v : Verdict) : (s.creditUnlisted v).freeCount = s.freeCount := by cases v <;> rfl

/-! ## creditFlow -/

@[simp] theorem State.creditFlow_pending (i r : Nat) (v : Verdict) : (s.creditFlow i r v).pending = s.pending := by unfold State.creditFlow; (try dsimp only); split <;> simp
@[simp] theorem State.creditFlow_mem (i r : Nat) (v : Verdict) : (s.creditFlow i r v).mem = s.mem := by unfold State.creditFlow; (try dsimp only); split <;> simp
@[simp] theorem State.creditFlow_fp (i r : Nat) (v : Verdict) : (s.creditFlow i r v).fp = s.fp := by unfold State.creditFlow; (try dsimp only); split <;> simp
@[simp] theorem State.creditFlow_oq (i r : Nat) (v : Verdict) : (s.creditFlow i r v).oq = s.oq := by unfold State.creditFlow; (try dsimp only); split <;> simp
@[simp] theorem State.creditFlow_tt (i r : Nat) (v : Verdict) : (s.creditFlow i r v).tt = s.tt := by unfold State.creditFlow; (try dsimp only); split <;> simp
@[simp] theorem State.creditFlow_cm (i r : Nat) (v : Verdict) : (s.creditFlow i r v).cm = s.cm := by unfold State.creditFlow; (try dsimp only); split <;> simp
@[simp] theorem State.creditFlow_rw (i r : Nat) (v : Verdict) : (s.creditFlow i r v).rw = s.rw := by unfold State.creditFlow; (try dsimp only); split <;> simp
@[simp] theorem State.creditFlow_ci (i r : Nat) (v : Verdict) : (s.creditFlow i r v).ci = s.ci := by unfold State.creditFlow; (try dsimp only); split <;> simp
@[simp] theorem State.creditFlow_freeCount (i r : Nat) (v : Verdict) : (s.creditFlow i r v).freeCount = s.freeCount := by unfold State.creditFlow; (try dsimp only); split <;> simp

/-! ## credit -/

@[simp] theorem State.credit_pending (r : Nat) (f : FlowRef) (v : Verdict) : (s.credit r f v).pending = s.pending := by
  cases f
  · unfold State.credit; (try dsimp only); split <;> simp
  · simp [State.credit]
@[simp] theorem State.credit_mem (r : Nat) (f : FlowRef) (v : Verdict) : (s.credit r f v).mem = s.mem := by
  cases f
  · unfold State.credit; (try dsimp only); split <;> simp
  · simp [State.credit]
@[simp] theorem State.credit_fp (r : Nat) (f : FlowRef) (v : Verdict) : (s.credit r f v).fp = s.fp := by
  cases f
  · unfold State.credit; (try dsimp only); split <;> simp
  · simp [State.credit]
@[simp] theorem State.credit_oq (r : Nat) (f : FlowRef) (v : Verdict) : (s.credit r f v).oq = s.oq := by
  cases f
  · unfold State.credit; (try dsimp only); split <;> simp
  · simp [State.credit]
@[simp] theorem State.credit_tt (r : Nat) (f : FlowRef) (v : Verdict) : (s.credit r f v).tt = s.tt := by
  cases f
  · unfold State.credit; (try dsimp only); split <;> simp
  · simp [State.credit]
@[simp] theorem State.credit_rw (r : Nat) (f : FlowRef) (v : Verdict) : (s.credit r f v).rw = s.rw := by
  cases f
  · unfold State.credit; (try dsimp only); split <;> simp
  · simp [State.credit]
@[simp] theorem State.credit_ci (r : Nat) (f : FlowRef) (v : Verdict) : (s.credit r f v).ci = s.ci := by
  cases f
  · unfold State.credit; (try dsimp only); split <;> simp
  · simp [State.credit]
@[simp] theorem State.credit_freeCount (r : Nat) (f : FlowRef) (v : Verdict) : (s.credit r f v).freeCount = s.freeCount := by
  cases f
  · unfold State.credit; (try dsimp only); split <;> simp
  · simp [State.credit]

/-! ## sent -/

@[simp] theorem State.sent_pending (r : Nat) (f : Frame) (d : Time) : (s.sent r f d).pending = s.pending := by unfold State.sent; (repeat' split) <;> simp
@[simp] theorem State.sent_mem (r : Nat) (f : Frame) (d : Time) : (s.sent r f d).mem = s.mem := by unfold State.sent; (repeat' split) <;> simp
@[simp] theorem State.sent_fp (r : Nat) (f : Frame) (d : Time) : (s.sent r f d).fp = s.fp := by unfold State.sent; (repeat' split) <;> simp
@[simp] theorem State.sent_oq (r : Nat) (f : Frame) (d : Time) : (s.sent r f d).oq = s.oq := by unfold State.sent; (repeat' split) <;> simp
@[simp] theorem State.sent_tt (r : Nat) (f : Frame) (d : Time) : (s.sent r f d).tt = s.tt := by unfold State.sent; (repeat' split) <;> simp
@[simp] theorem State.sent_rw (r : Nat) (f : Frame) (d : Time) : (s.sent r f d).rw = s.rw := by unfold State.sent; (repeat' split) <;> simp
@[simp] theorem State.sent_ci (r : Nat) (f : Frame) (d : Time) : (s.sent r f d).ci = s.ci := by unfold State.sent; (repeat' split) <;> simp
@[simp] theorem State.sent_freeCount (r : Nat) (f : Frame) (d : Time) : (s.sent r f d).freeCount = s.freeCount := by unfold State.sent; (repeat' split) <;> simp

/-! ## departureCheck -/

@[simp] theorem State.departureCheck_pending (r : Nat) (f : Frame) : (s.departureCheck r f).pending = s.pending := by unfold State.departureCheck; dsimp only; (repeat' split) <;> simp
@[simp] theorem State.departureCheck_mem (r : Nat) (f : Frame) : (s.departureCheck r f).mem = s.mem := by unfold State.departureCheck; dsimp only; (repeat' split) <;> simp
@[simp] theorem State.departureCheck_fp (r : Nat) (f : Frame) : (s.departureCheck r f).fp = s.fp := by unfold State.departureCheck; dsimp only; (repeat' split) <;> simp
@[simp] theorem State.departureCheck_oq (r : Nat) (f : Frame) : (s.departureCheck r f).oq = s.oq := by unfold State.departureCheck; dsimp only; (repeat' split) <;> simp
@[simp] theorem State.departureCheck_tt (r : Nat) (f : Frame) : (s.departureCheck r f).tt = s.tt := by unfold State.departureCheck; dsimp only; (repeat' split) <;> simp
@[simp] theorem State.departureCheck_rw (r : Nat) (f : Frame) : (s.departureCheck r f).rw = s.rw := by unfold State.departureCheck; dsimp only; (repeat' split) <;> simp
@[simp] theorem State.departureCheck_ci (r : Nat) (f : Frame) : (s.departureCheck r f).ci = s.ci := by unfold State.departureCheck; dsimp only; (repeat' split) <;> simp
@[simp] theorem State.departureCheck_freeCount (r : Nat) (f : Frame) : (s.departureCheck r f).freeCount = s.freeCount := by unfold State.departureCheck; dsimp only; (repeat' split) <;> simp

/-! ## overrun -/

@[simp] theorem State.overrun_pending (r i : Nat) (f : Frame) : (s.overrun r i f).pending = s.pending := by unfold State.overrun; split <;> simp
@[simp] theorem State.overrun_mem (r i : Nat) (f : Frame) : (s.overrun r i f).mem = s.mem := by unfold State.overrun; split <;> simp
@[simp] theorem State.overrun_fp (r i : Nat) (f : Frame) : (s.overrun r i f).fp = s.fp := by unfold State.overrun; split <;> simp
@[simp] theorem State.overrun_oq (r i : Nat) (f : Frame) : (s.overrun r i f).oq = s.oq := by unfold State.overrun; split <;> simp
@[simp] theorem State.overrun_tt (r i : Nat) (f : Frame) : (s.overrun r i f).tt = s.tt := by unfold State.overrun; split <;> simp
@[simp] theorem State.overrun_rw (r i : Nat) (f : Frame) : (s.overrun r i f).rw = s.rw := by unfold State.overrun; split <;> simp
@[simp] theorem State.overrun_ci (r i : Nat) (f : Frame) : (s.overrun r i f).ci = s.ci := by unfold State.overrun; split <;> simp
@[simp] theorem State.overrun_freeCount (r i : Nat) (f : Frame) : (s.overrun r i f).freeCount = s.freeCount := by unfold State.overrun; split <;> simp

/-! ## displace -/

@[simp] theorem State.displace_pending (r i : Nat) : (s.displace r i).pending = s.pending := by unfold State.displace; split <;> simp
@[simp] theorem State.displace_mem (r i : Nat) : (s.displace r i).mem = s.mem := by unfold State.displace; split <;> simp
@[simp] theorem State.displace_fp (r i : Nat) : (s.displace r i).fp = s.fp := by unfold State.displace; split <;> simp
@[simp] theorem State.displace_oq (r i : Nat) : (s.displace r i).oq = s.oq := by unfold State.displace; split <;> simp
@[simp] theorem State.displace_tt (r i : Nat) : (s.displace r i).tt = s.tt := by unfold State.displace; split <;> simp
@[simp] theorem State.displace_rw (r i : Nat) : (s.displace r i).rw = s.rw := by unfold State.displace; split <;> simp
@[simp] theorem State.displace_ci (r i : Nat) : (s.displace r i).ci = s.ci := by unfold State.displace; split <;> simp
@[simp] theorem State.displace_freeCount (r i : Nat) : (s.displace r i).freeCount = s.freeCount := by unfold State.displace; split <;> simp

/-! ## fillSlot -/

@[simp] theorem State.fillSlot_pending (r i : Nat) (f : Frame) : (s.fillSlot r i f).pending = s.pending := by simp [State.fillSlot]
@[simp] theorem State.fillSlot_mem (r i : Nat) (f : Frame) : (s.fillSlot r i f).mem = s.mem := by simp [State.fillSlot]
@[simp] theorem State.fillSlot_fp (r i : Nat) (f : Frame) : (s.fillSlot r i f).fp = s.fp := by simp [State.fillSlot]
@[simp] theorem State.fillSlot_oq (r i : Nat) (f : Frame) : (s.fillSlot r i f).oq = s.oq := by simp [State.fillSlot]
@[simp] theorem State.fillSlot_rw (r i : Nat) (f : Frame) : (s.fillSlot r i f).rw = s.rw := by simp [State.fillSlot]
@[simp] theorem State.fillSlot_ci (r i : Nat) (f : Frame) : (s.fillSlot r i f).ci = s.ci := by simp [State.fillSlot]
@[simp] theorem State.fillSlot_freeCount (r i : Nat) (f : Frame) : (s.fillSlot r i f).freeCount = s.freeCount := by simp [State.fillSlot]

/-! ## dequeueSlot -/

@[simp] theorem State.dequeueSlot_pending (r i : Nat) (d : Time) : (s.dequeueSlot r i d).pending = s.pending := by unfold State.dequeueSlot; split <;> simp
@[simp] theorem State.dequeueSlot_mem (r i : Nat) (d : Time) : (s.dequeueSlot r i d).mem = s.mem := by unfold State.dequeueSlot; split <;> simp
@[simp] theorem State.dequeueSlot_fp (r i : Nat) (d : Time) : (s.dequeueSlot r i d).fp = s.fp := by unfold State.dequeueSlot; split <;> simp
@[simp] theorem State.dequeueSlot_oq (r i : Nat) (d : Time) : (s.dequeueSlot r i d).oq = s.oq := by unfold State.dequeueSlot; split <;> simp
@[simp] theorem State.dequeueSlot_rw (r i : Nat) (d : Time) : (s.dequeueSlot r i d).rw = s.rw := by unfold State.dequeueSlot; split <;> simp
@[simp] theorem State.dequeueSlot_ci (r i : Nat) (d : Time) : (s.dequeueSlot r i d).ci = s.ci := by unfold State.dequeueSlot; split <;> simp
@[simp] theorem State.dequeueSlot_freeCount (r i : Nat) (d : Time) : (s.dequeueSlot r i d).freeCount = s.freeCount := by unfold State.dequeueSlot; split <;> simp

/-! ## discardFrame -/

@[simp] theorem State.discardFrame_pending (r i : Nat) (f : Frame) : (s.discardFrame r i f).pending = s.pending := by simp [State.discardFrame]
@[simp] theorem State.discardFrame_mem (r i : Nat) (f : Frame) : (s.discardFrame r i f).mem = s.mem := by simp [State.discardFrame]
@[simp] theorem State.discardFrame_fp (r i : Nat) (f : Frame) : (s.discardFrame r i f).fp = s.fp := by simp [State.discardFrame]
@[simp] theorem State.discardFrame_oq (r i : Nat) (f : Frame) : (s.discardFrame r i f).oq = s.oq := by simp [State.discardFrame]
@[simp] theorem State.discardFrame_rw (r i : Nat) (f : Frame) : (s.discardFrame r i f).rw = s.rw := by simp [State.discardFrame]
@[simp] theorem State.discardFrame_ci (r i : Nat) (f : Frame) : (s.discardFrame r i f).ci = s.ci := by simp [State.discardFrame]
@[simp] theorem State.discardFrame_freeCount (r i : Nat) (f : Frame) : (s.discardFrame r i f).freeCount = s.freeCount := by simp [State.discardFrame]

/-! ## completeSlot -/

@[simp] theorem State.completeSlot_pending (r i : Nat) (c : BitVec 3) (d : Time) : (s.completeSlot r i c d).pending = s.pending := by unfold State.completeSlot; (repeat' split) <;> simp
@[simp] theorem State.completeSlot_mem (r i : Nat) (c : BitVec 3) (d : Time) : (s.completeSlot r i c d).mem = s.mem := by unfold State.completeSlot; (repeat' split) <;> simp
@[simp] theorem State.completeSlot_fp (r i : Nat) (c : BitVec 3) (d : Time) : (s.completeSlot r i c d).fp = s.fp := by unfold State.completeSlot; (repeat' split) <;> simp
@[simp] theorem State.completeSlot_oq (r i : Nat) (c : BitVec 3) (d : Time) : (s.completeSlot r i c d).oq = s.oq := by unfold State.completeSlot; (repeat' split) <;> simp
@[simp] theorem State.completeSlot_rw (r i : Nat) (c : BitVec 3) (d : Time) : (s.completeSlot r i c d).rw = s.rw := by unfold State.completeSlot; (repeat' split) <;> simp
@[simp] theorem State.completeSlot_ci (r i : Nat) (c : BitVec 3) (d : Time) : (s.completeSlot r i c d).ci = s.ci := by unfold State.completeSlot; (repeat' split) <;> simp
@[simp] theorem State.completeSlot_freeCount (r i : Nat) (c : BitVec 3) (d : Time) : (s.completeSlot r i c d).freeCount = s.freeCount := by unfold State.completeSlot; (repeat' split) <;> simp

/-! ## resolveSlot -/

@[simp] theorem State.resolveSlot_pending (r i : Nat) : (s.resolveSlot r i).pending = s.pending := by unfold State.resolveSlot; split <;> simp
@[simp] theorem State.resolveSlot_mem (r i : Nat) : (s.resolveSlot r i).mem = s.mem := by unfold State.resolveSlot; split <;> simp
@[simp] theorem State.resolveSlot_fp (r i : Nat) : (s.resolveSlot r i).fp = s.fp := by unfold State.resolveSlot; split <;> simp
@[simp] theorem State.resolveSlot_oq (r i : Nat) : (s.resolveSlot r i).oq = s.oq := by unfold State.resolveSlot; split <;> simp
@[simp] theorem State.resolveSlot_rw (r i : Nat) : (s.resolveSlot r i).rw = s.rw := by unfold State.resolveSlot; split <;> simp
@[simp] theorem State.resolveSlot_ci (r i : Nat) : (s.resolveSlot r i).ci = s.ci := by unfold State.resolveSlot; split <;> simp
@[simp] theorem State.resolveSlot_freeCount (r i : Nat) : (s.resolveSlot r i).freeCount = s.freeCount := by unfold State.resolveSlot; split <;> simp

/-! ## resolveSlots -/

@[simp] theorem State.resolveSlots_pending (r : Nat) (l : List Nat) : (s.resolveSlots r l).pending = s.pending := by
  induction l generalizing s with
  | nil => rfl
  | cons i rest ih => simp only [State.resolveSlots, ih]; simp
@[simp] theorem State.resolveSlots_mem (r : Nat) (l : List Nat) : (s.resolveSlots r l).mem = s.mem := by
  induction l generalizing s with
  | nil => rfl
  | cons i rest ih => simp only [State.resolveSlots, ih]; simp
@[simp] theorem State.resolveSlots_fp (r : Nat) (l : List Nat) : (s.resolveSlots r l).fp = s.fp := by
  induction l generalizing s with
  | nil => rfl
  | cons i rest ih => simp only [State.resolveSlots, ih]; simp
@[simp] theorem State.resolveSlots_oq (r : Nat) (l : List Nat) : (s.resolveSlots r l).oq = s.oq := by
  induction l generalizing s with
  | nil => rfl
  | cons i rest ih => simp only [State.resolveSlots, ih]; simp
@[simp] theorem State.resolveSlots_rw (r : Nat) (l : List Nat) : (s.resolveSlots r l).rw = s.rw := by
  induction l generalizing s with
  | nil => rfl
  | cons i rest ih => simp only [State.resolveSlots, ih]; simp
@[simp] theorem State.resolveSlots_ci (r : Nat) (l : List Nat) : (s.resolveSlots r l).ci = s.ci := by
  induction l generalizing s with
  | nil => rfl
  | cons i rest ih => simp only [State.resolveSlots, ih]; simp
@[simp] theorem State.resolveSlots_freeCount (r : Nat) (l : List Nat) : (s.resolveSlots r l).freeCount = s.freeCount := by
  induction l generalizing s with
  | nil => rfl
  | cons i rest ih => simp only [State.resolveSlots, ih]; simp

/-! ## startJob -/

@[simp] theorem State.startJob_pending (k : JobKind) (l : List Transaction) : (s.startJob k l).pending = s.pending := rfl
@[simp] theorem State.startJob_mem (k : JobKind) (l : List Transaction) : (s.startJob k l).mem = s.mem := rfl
@[simp] theorem State.startJob_fp (k : JobKind) (l : List Transaction) : (s.startJob k l).fp = s.fp := rfl
@[simp] theorem State.startJob_oq (k : JobKind) (l : List Transaction) : (s.startJob k l).oq = s.oq := rfl
@[simp] theorem State.startJob_ft (k : JobKind) (l : List Transaction) : (s.startJob k l).ft = s.ft := rfl
@[simp] theorem State.startJob_tt (k : JobKind) (l : List Transaction) : (s.startJob k l).tt = s.tt := rfl
@[simp] theorem State.startJob_cm (k : JobKind) (l : List Transaction) : (s.startJob k l).cm = s.cm := rfl
@[simp] theorem State.startJob_tau (k : JobKind) (l : List Transaction) : (s.startJob k l).tau = s.tau := rfl
@[simp] theorem State.startJob_ci (k : JobKind) (l : List Transaction) : (s.startJob k l).ci = s.ci := rfl
@[simp] theorem State.startJob_freeCount (k : JobKind) (l : List Transaction) : (s.startJob k l).freeCount = s.freeCount := rfl

/-! ## startDrain -/

@[simp] theorem State.startDrain_pending : (s.startDrain).pending = s.pending := rfl
@[simp] theorem State.startDrain_mem : (s.startDrain).mem = s.mem := rfl
@[simp] theorem State.startDrain_fp : (s.startDrain).fp = s.fp := rfl
@[simp] theorem State.startDrain_oq : (s.startDrain).oq = s.oq := rfl
@[simp] theorem State.startDrain_ft : (s.startDrain).ft = s.ft := rfl
@[simp] theorem State.startDrain_tt : (s.startDrain).tt = s.tt := rfl
@[simp] theorem State.startDrain_cm : (s.startDrain).cm = s.cm := rfl
@[simp] theorem State.startDrain_tau : (s.startDrain).tau = s.tau := rfl
@[simp] theorem State.startDrain_ci : (s.startDrain).ci = s.ci := rfl
@[simp] theorem State.startDrain_freeCount : (s.startDrain).freeCount = s.freeCount := rfl

/-! ## triggerDrain -/

@[simp] theorem State.triggerDrain_pending : (s.triggerDrain).pending = s.pending := by unfold State.triggerDrain; split <;> rfl
@[simp] theorem State.triggerDrain_mem : (s.triggerDrain).mem = s.mem := by unfold State.triggerDrain; split <;> rfl
@[simp] theorem State.triggerDrain_fp : (s.triggerDrain).fp = s.fp := by unfold State.triggerDrain; split <;> rfl
@[simp] theorem State.triggerDrain_oq : (s.triggerDrain).oq = s.oq := by unfold State.triggerDrain; split <;> rfl
@[simp] theorem State.triggerDrain_ft : (s.triggerDrain).ft = s.ft := by unfold State.triggerDrain; split <;> rfl
@[simp] theorem State.triggerDrain_tt : (s.triggerDrain).tt = s.tt := by unfold State.triggerDrain; split <;> rfl
@[simp] theorem State.triggerDrain_cm : (s.triggerDrain).cm = s.cm := by unfold State.triggerDrain; split <;> rfl
@[simp] theorem State.triggerDrain_tau : (s.triggerDrain).tau = s.tau := by unfold State.triggerDrain; split <;> rfl
@[simp] theorem State.triggerDrain_ci : (s.triggerDrain).ci = s.ci := by unfold State.triggerDrain; split <;> rfl
@[simp] theorem State.triggerDrain_freeCount : (s.triggerDrain).freeCount = s.freeCount := by unfold State.triggerDrain; split <;> rfl

/-! ## expireTimer -/

@[simp] theorem State.expireTimer_pending : (s.expireTimer).pending = s.pending := by simp [State.expireTimer]
@[simp] theorem State.expireTimer_mem : (s.expireTimer).mem = s.mem := by simp [State.expireTimer]
@[simp] theorem State.expireTimer_fp : (s.expireTimer).fp = s.fp := by simp [State.expireTimer]
@[simp] theorem State.expireTimer_oq : (s.expireTimer).oq = s.oq := by simp [State.expireTimer]
@[simp] theorem State.expireTimer_ft : (s.expireTimer).ft = s.ft := by simp [State.expireTimer]
@[simp] theorem State.expireTimer_tt : (s.expireTimer).tt = s.tt := by simp [State.expireTimer]
@[simp] theorem State.expireTimer_cm : (s.expireTimer).cm = s.cm := by simp [State.expireTimer]
@[simp] theorem State.expireTimer_tau : (s.expireTimer).tau = s.tau := by simp [State.expireTimer]
@[simp] theorem State.expireTimer_ci : (s.expireTimer).ci = s.ci := by simp [State.expireTimer]
@[simp] theorem State.expireTimer_freeCount : (s.expireTimer).freeCount = s.freeCount := by simp [State.expireTimer]

/-! ## drainIdle -/

@[simp] theorem State.drainIdle_pending : (s.drainIdle).pending = s.pending := by unfold State.drainIdle; dsimp only; split <;> rfl
@[simp] theorem State.drainIdle_mem : (s.drainIdle).mem = s.mem := by unfold State.drainIdle; dsimp only; split <;> rfl
@[simp] theorem State.drainIdle_fp : (s.drainIdle).fp = s.fp := by unfold State.drainIdle; dsimp only; split <;> rfl
@[simp] theorem State.drainIdle_oq : (s.drainIdle).oq = s.oq := by unfold State.drainIdle; dsimp only; split <;> rfl
@[simp] theorem State.drainIdle_ft : (s.drainIdle).ft = s.ft := by unfold State.drainIdle; dsimp only; split <;> rfl
@[simp] theorem State.drainIdle_tt : (s.drainIdle).tt = s.tt := by unfold State.drainIdle; dsimp only; split <;> rfl
@[simp] theorem State.drainIdle_cm : (s.drainIdle).cm = s.cm := by unfold State.drainIdle; dsimp only; split <;> rfl
@[simp] theorem State.drainIdle_tau : (s.drainIdle).tau = s.tau := by unfold State.drainIdle; dsimp only; split <;> rfl
@[simp] theorem State.drainIdle_ci : (s.drainIdle).ci = s.ci := by unfold State.drainIdle; dsimp only; split <;> rfl
@[simp] theorem State.drainIdle_freeCount : (s.drainIdle).freeCount = s.freeCount := by unfold State.drainIdle; dsimp only; split <;> rfl

/-! ## endDrain -/

@[simp] theorem State.endDrain_pending : (s.endDrain).pending = s.pending := by simp [State.endDrain]
@[simp] theorem State.endDrain_mem : (s.endDrain).mem = s.mem := by simp [State.endDrain]
@[simp] theorem State.endDrain_fp : (s.endDrain).fp = s.fp := by simp [State.endDrain]
@[simp] theorem State.endDrain_oq : (s.endDrain).oq = s.oq := by simp [State.endDrain]
@[simp] theorem State.endDrain_ft : (s.endDrain).ft = s.ft := by simp [State.endDrain]
@[simp] theorem State.endDrain_tt : (s.endDrain).tt = s.tt := by simp [State.endDrain]
@[simp] theorem State.endDrain_cm : (s.endDrain).cm = s.cm := by simp [State.endDrain]
@[simp] theorem State.endDrain_tau : (s.endDrain).tau = s.tau := by simp [State.endDrain]
@[simp] theorem State.endDrain_ci : (s.endDrain).ci = s.ci := by simp [State.endDrain]
@[simp] theorem State.endDrain_freeCount : (s.endDrain).freeCount = s.freeCount := by simp [State.endDrain]

/-! ## stallDrain -/

@[simp] theorem State.stallDrain_pending : (s.stallDrain).pending = s.pending := by simp [State.stallDrain]
@[simp] theorem State.stallDrain_mem : (s.stallDrain).mem = s.mem := by simp [State.stallDrain]
@[simp] theorem State.stallDrain_fp : (s.stallDrain).fp = s.fp := by simp [State.stallDrain]
@[simp] theorem State.stallDrain_oq : (s.stallDrain).oq = s.oq := by simp [State.stallDrain]
@[simp] theorem State.stallDrain_ft : (s.stallDrain).ft = s.ft := by simp [State.stallDrain]
@[simp] theorem State.stallDrain_tt : (s.stallDrain).tt = s.tt := by simp [State.stallDrain]
@[simp] theorem State.stallDrain_cm : (s.stallDrain).cm = s.cm := by simp [State.stallDrain]
@[simp] theorem State.stallDrain_ci : (s.stallDrain).ci = s.ci := by simp [State.stallDrain]
@[simp] theorem State.stallDrain_freeCount : (s.stallDrain).freeCount = s.freeCount := by simp [State.stallDrain]

/-! ## drainPick -/

@[simp] theorem State.drainPick_pending (n : Nat) : ((s.drainPick n).1).pending = s.pending := by
  induction n generalizing s with
  | zero => rfl
  | succ n ih =>
    unfold State.drainPick; split
    · rfl
    · split
      · rfl
      · rw [ih]; simp
@[simp] theorem State.drainPick_mem (n : Nat) : ((s.drainPick n).1).mem = s.mem := by
  induction n generalizing s with
  | zero => rfl
  | succ n ih =>
    unfold State.drainPick; split
    · rfl
    · split
      · rfl
      · rw [ih]; simp
@[simp] theorem State.drainPick_fp (n : Nat) : ((s.drainPick n).1).fp = s.fp := by
  induction n generalizing s with
  | zero => rfl
  | succ n ih =>
    unfold State.drainPick; split
    · rfl
    · split
      · rfl
      · rw [ih]; simp
@[simp] theorem State.drainPick_oq (n : Nat) : ((s.drainPick n).1).oq = s.oq := by
  induction n generalizing s with
  | zero => rfl
  | succ n ih =>
    unfold State.drainPick; split
    · rfl
    · split
      · rfl
      · rw [ih]; simp
@[simp] theorem State.drainPick_tt (n : Nat) : ((s.drainPick n).1).tt = s.tt := by
  induction n generalizing s with
  | zero => rfl
  | succ n ih =>
    unfold State.drainPick; split
    · rfl
    · split
      · rfl
      · rw [ih]; simp
@[simp] theorem State.drainPick_rw (n : Nat) : ((s.drainPick n).1).rw = s.rw := by
  induction n generalizing s with
  | zero => rfl
  | succ n ih =>
    unfold State.drainPick; split
    · rfl
    · split
      · rfl
      · rw [ih]; simp
@[simp] theorem State.drainPick_ci (n : Nat) : ((s.drainPick n).1).ci = s.ci := by
  induction n generalizing s with
  | zero => rfl
  | succ n ih =>
    unfold State.drainPick; split
    · rfl
    · split
      · rfl
      · rw [ih]; simp
@[simp] theorem State.drainPick_freeCount (n : Nat) : ((s.drainPick n).1).freeCount = s.freeCount := by
  induction n generalizing s with
  | zero => rfl
  | succ n ih =>
    unfold State.drainPick; split
    · rfl
    · split
      · rfl
      · rw [ih]; simp

/-! ## drainBuild -/

@[simp] theorem State.drainBuild_pending (i : Nat) : (s.drainBuild i).pending = s.pending := rfl
@[simp] theorem State.drainBuild_mem (i : Nat) : (s.drainBuild i).mem = s.mem := rfl
@[simp] theorem State.drainBuild_fp (i : Nat) : (s.drainBuild i).fp = s.fp := rfl
@[simp] theorem State.drainBuild_oq (i : Nat) : (s.drainBuild i).oq = s.oq := rfl
@[simp] theorem State.drainBuild_tt (i : Nat) : (s.drainBuild i).tt = s.tt := rfl
@[simp] theorem State.drainBuild_cm (i : Nat) : (s.drainBuild i).cm = s.cm := rfl
@[simp] theorem State.drainBuild_tau (i : Nat) : (s.drainBuild i).tau = s.tau := rfl
@[simp] theorem State.drainBuild_ci (i : Nat) : (s.drainBuild i).ci = s.ci := rfl
@[simp] theorem State.drainBuild_freeCount (i : Nat) : (s.drainBuild i).freeCount = s.freeCount := rfl

/-! ## drainStep -/

@[simp] theorem State.drainStep_pending : (s.drainStep).pending = s.pending := by
  unfold State.drainStep; split
  · simp
  · split
    · simp
    · have h := State.drainPick_pending s (s.flowIndexes.length + 1)
      split <;> (rename_i heq; rw [heq] at h; simpa using h)
@[simp] theorem State.drainStep_mem : (s.drainStep).mem = s.mem := by
  unfold State.drainStep; split
  · simp
  · split
    · simp
    · have h := State.drainPick_mem s (s.flowIndexes.length + 1)
      split <;> (rename_i heq; rw [heq] at h; simpa using h)
@[simp] theorem State.drainStep_fp : (s.drainStep).fp = s.fp := by
  unfold State.drainStep; split
  · simp
  · split
    · simp
    · have h := State.drainPick_fp s (s.flowIndexes.length + 1)
      split <;> (rename_i heq; rw [heq] at h; simpa using h)
@[simp] theorem State.drainStep_oq : (s.drainStep).oq = s.oq := by
  unfold State.drainStep; split
  · simp
  · split
    · simp
    · have h := State.drainPick_oq s (s.flowIndexes.length + 1)
      split <;> (rename_i heq; rw [heq] at h; simpa using h)
@[simp] theorem State.drainStep_tt : (s.drainStep).tt = s.tt := by
  unfold State.drainStep; split
  · simp
  · split
    · simp
    · have h := State.drainPick_tt s (s.flowIndexes.length + 1)
      split <;> (rename_i heq; rw [heq] at h; simpa using h)
@[simp] theorem State.drainStep_ci : (s.drainStep).ci = s.ci := by
  unfold State.drainStep; split
  · simp
  · split
    · simp
    · have h := State.drainPick_ci s (s.flowIndexes.length + 1)
      split <;> (rename_i heq; rw [heq] at h; simpa using h)
@[simp] theorem State.drainStep_freeCount : (s.drainStep).freeCount = s.freeCount := by
  unfold State.drainStep; split
  · simp
  · split
    · simp
    · have h := State.drainPick_freeCount s (s.flowIndexes.length + 1)
      split <;> (rename_i heq; rw [heq] at h; simpa using h)

/-! ## selectStatus -/

@[simp] theorem State.selectStatus_pending : (s.selectStatus).pending = s.pending := rfl
@[simp] theorem State.selectStatus_mem : (s.selectStatus).mem = s.mem := rfl
@[simp] theorem State.selectStatus_fp : (s.selectStatus).fp = s.fp := rfl
@[simp] theorem State.selectStatus_oq : (s.selectStatus).oq = s.oq := rfl
@[simp] theorem State.selectStatus_ft : (s.selectStatus).ft = s.ft := rfl
@[simp] theorem State.selectStatus_tt : (s.selectStatus).tt = s.tt := rfl
@[simp] theorem State.selectStatus_cm : (s.selectStatus).cm = s.cm := rfl
@[simp] theorem State.selectStatus_tau : (s.selectStatus).tau = s.tau := rfl
@[simp] theorem State.selectStatus_ci : (s.selectStatus).ci = s.ci := rfl
@[simp] theorem State.selectStatus_freeCount : (s.selectStatus).freeCount = s.freeCount := rfl

/-! ## selectLoad -/

@[simp] theorem State.selectLoad_pending : (s.selectLoad).pending = s.pending := rfl
@[simp] theorem State.selectLoad_mem : (s.selectLoad).mem = s.mem := rfl
@[simp] theorem State.selectLoad_fp : (s.selectLoad).fp = s.fp := rfl
@[simp] theorem State.selectLoad_oq : (s.selectLoad).oq = s.oq := rfl
@[simp] theorem State.selectLoad_ft : (s.selectLoad).ft = s.ft := rfl
@[simp] theorem State.selectLoad_tt : (s.selectLoad).tt = s.tt := rfl
@[simp] theorem State.selectLoad_cm : (s.selectLoad).cm = s.cm := rfl
@[simp] theorem State.selectLoad_tau : (s.selectLoad).tau = s.tau := rfl
@[simp] theorem State.selectLoad_freeCount : (s.selectLoad).freeCount = s.freeCount := rfl

/-! ## selectInterrogate -/

@[simp] theorem State.selectInterrogate_pending (x : ReportRecord) : (s.selectInterrogate x).pending = s.pending := by unfold State.selectInterrogate; (try dsimp only); split <;> simp
@[simp] theorem State.selectInterrogate_mem (x : ReportRecord) : (s.selectInterrogate x).mem = s.mem := by unfold State.selectInterrogate; (try dsimp only); split <;> simp
@[simp] theorem State.selectInterrogate_fp (x : ReportRecord) : (s.selectInterrogate x).fp = s.fp := by unfold State.selectInterrogate; (try dsimp only); split <;> simp
@[simp] theorem State.selectInterrogate_oq (x : ReportRecord) : (s.selectInterrogate x).oq = s.oq := by unfold State.selectInterrogate; (try dsimp only); split <;> simp
@[simp] theorem State.selectInterrogate_ft (x : ReportRecord) : (s.selectInterrogate x).ft = s.ft := by unfold State.selectInterrogate; (try dsimp only); split <;> simp
@[simp] theorem State.selectInterrogate_tt (x : ReportRecord) : (s.selectInterrogate x).tt = s.tt := by unfold State.selectInterrogate; (try dsimp only); split <;> simp
@[simp] theorem State.selectInterrogate_cm (x : ReportRecord) : (s.selectInterrogate x).cm = s.cm := by unfold State.selectInterrogate; (try dsimp only); split <;> simp
@[simp] theorem State.selectInterrogate_tau (x : ReportRecord) : (s.selectInterrogate x).tau = s.tau := by unfold State.selectInterrogate; (try dsimp only); split <;> simp
@[simp] theorem State.selectInterrogate_freeCount (x : ReportRecord) : (s.selectInterrogate x).freeCount = s.freeCount := by unfold State.selectInterrogate; (try dsimp only); split <;> simp

/-! ## selectOnce -/

@[simp] theorem State.selectOnce_pending : (s.selectOnce).pending = s.pending := by unfold State.selectOnce; (repeat' split) <;> simp
@[simp] theorem State.selectOnce_mem : (s.selectOnce).mem = s.mem := by unfold State.selectOnce; (repeat' split) <;> simp
@[simp] theorem State.selectOnce_fp : (s.selectOnce).fp = s.fp := by unfold State.selectOnce; (repeat' split) <;> simp
@[simp] theorem State.selectOnce_oq : (s.selectOnce).oq = s.oq := by unfold State.selectOnce; (repeat' split) <;> simp
@[simp] theorem State.selectOnce_tt : (s.selectOnce).tt = s.tt := by unfold State.selectOnce; (repeat' split) <;> simp
@[simp] theorem State.selectOnce_freeCount : (s.selectOnce).freeCount = s.freeCount := by unfold State.selectOnce; (repeat' split) <;> simp

/-! ## selectRounds -/

@[simp] theorem State.selectRounds_pending (n : Nat) : (s.selectRounds n).pending = s.pending := by
  induction n generalizing s with
  | zero => rfl
  | succ n ih =>
    unfold State.selectRounds; split
    · rfl
    · rw [ih]; simp
@[simp] theorem State.selectRounds_mem (n : Nat) : (s.selectRounds n).mem = s.mem := by
  induction n generalizing s with
  | zero => rfl
  | succ n ih =>
    unfold State.selectRounds; split
    · rfl
    · rw [ih]; simp
@[simp] theorem State.selectRounds_fp (n : Nat) : (s.selectRounds n).fp = s.fp := by
  induction n generalizing s with
  | zero => rfl
  | succ n ih =>
    unfold State.selectRounds; split
    · rfl
    · rw [ih]; simp
@[simp] theorem State.selectRounds_oq (n : Nat) : (s.selectRounds n).oq = s.oq := by
  induction n generalizing s with
  | zero => rfl
  | succ n ih =>
    unfold State.selectRounds; split
    · rfl
    · rw [ih]; simp
@[simp] theorem State.selectRounds_tt (n : Nat) : (s.selectRounds n).tt = s.tt := by
  induction n generalizing s with
  | zero => rfl
  | succ n ih =>
    unfold State.selectRounds; split
    · rfl
    · rw [ih]; simp
@[simp] theorem State.selectRounds_freeCount (n : Nat) : (s.selectRounds n).freeCount = s.freeCount := by
  induction n generalizing s with
  | zero => rfl
  | succ n ih =>
    unfold State.selectRounds; split
    · rfl
    · rw [ih]; simp

/-! ## select -/

@[simp] theorem State.select_pending : (s.select).pending = s.pending := by simp [State.select]
@[simp] theorem State.select_mem : (s.select).mem = s.mem := by simp [State.select]
@[simp] theorem State.select_fp : (s.select).fp = s.fp := by simp [State.select]
@[simp] theorem State.select_oq : (s.select).oq = s.oq := by simp [State.select]
@[simp] theorem State.select_tt : (s.select).tt = s.tt := by simp [State.select]
@[simp] theorem State.select_freeCount : (s.select).freeCount = s.freeCount := by simp [State.select]

/-! ## testThreshold -/

@[simp] theorem State.testThreshold_pending (b : State) : (s.testThreshold b).pending = s.pending := by unfold State.testThreshold; split <;> simp
@[simp] theorem State.testThreshold_mem (b : State) : (s.testThreshold b).mem = s.mem := by unfold State.testThreshold; split <;> simp
@[simp] theorem State.testThreshold_fp (b : State) : (s.testThreshold b).fp = s.fp := by unfold State.testThreshold; split <;> simp
@[simp] theorem State.testThreshold_oq (b : State) : (s.testThreshold b).oq = s.oq := by unfold State.testThreshold; split <;> simp
@[simp] theorem State.testThreshold_ft (b : State) : (s.testThreshold b).ft = s.ft := by unfold State.testThreshold; split <;> simp
@[simp] theorem State.testThreshold_tt (b : State) : (s.testThreshold b).tt = s.tt := by unfold State.testThreshold; split <;> simp
@[simp] theorem State.testThreshold_cm (b : State) : (s.testThreshold b).cm = s.cm := by unfold State.testThreshold; split <;> simp
@[simp] theorem State.testThreshold_tau (b : State) : (s.testThreshold b).tau = s.tau := by unfold State.testThreshold; split <;> simp
@[simp] theorem State.testThreshold_ci (b : State) : (s.testThreshold b).ci = s.ci := by unfold State.testThreshold; split <;> simp
@[simp] theorem State.testThreshold_freeCount (b : State) : (s.testThreshold b).freeCount = s.freeCount := by unfold State.testThreshold; split <;> simp

/-! ## settle -/

@[simp] theorem State.settle_pending (b : State) : (s.settle b).pending = s.pending := by simp [State.settle]
@[simp] theorem State.settle_mem (b : State) : (s.settle b).mem = s.mem := by simp [State.settle]
@[simp] theorem State.settle_fp (b : State) : (s.settle b).fp = s.fp := by simp [State.settle]
@[simp] theorem State.settle_tt (b : State) : (s.settle b).tt = s.tt := by simp [State.settle]
@[simp] theorem State.settle_freeCount (b : State) : (s.settle b).freeCount = s.freeCount := by simp [State.settle]

/-! ## enqueueRecord -/

@[simp] theorem State.enqueueRecord_pending (b : ObservationBody) (r : Option Nat) (a : Addr) (n : Nat) : (s.enqueueRecord b r a n).pending = s.pending := rfl
@[simp] theorem State.enqueueRecord_mem (b : ObservationBody) (r : Option Nat) (a : Addr) (n : Nat) : (s.enqueueRecord b r a n).mem = s.mem := rfl
@[simp] theorem State.enqueueRecord_fp (b : ObservationBody) (r : Option Nat) (a : Addr) (n : Nat) : (s.enqueueRecord b r a n).fp = s.fp := rfl
@[simp] theorem State.enqueueRecord_ft (b : ObservationBody) (r : Option Nat) (a : Addr) (n : Nat) : (s.enqueueRecord b r a n).ft = s.ft := rfl
@[simp] theorem State.enqueueRecord_tt (b : ObservationBody) (r : Option Nat) (a : Addr) (n : Nat) : (s.enqueueRecord b r a n).tt = s.tt := rfl
@[simp] theorem State.enqueueRecord_cm (b : ObservationBody) (r : Option Nat) (a : Addr) (n : Nat) : (s.enqueueRecord b r a n).cm = s.cm := rfl
@[simp] theorem State.enqueueRecord_tau (b : ObservationBody) (r : Option Nat) (a : Addr) (n : Nat) : (s.enqueueRecord b r a n).tau = s.tau := rfl
@[simp] theorem State.enqueueRecord_rw (b : ObservationBody) (r : Option Nat) (a : Addr) (n : Nat) : (s.enqueueRecord b r a n).rw = s.rw := rfl
@[simp] theorem State.enqueueRecord_ci (b : ObservationBody) (r : Option Nat) (a : Addr) (n : Nat) : (s.enqueueRecord b r a n).ci = s.ci := rfl
@[simp] theorem State.enqueueRecord_freeCount (b : ObservationBody) (r : Option Nat) (a : Addr) (n : Nat) : (s.enqueueRecord b r a n).freeCount = s.freeCount := rfl

/-! ## countLoss -/

@[simp] theorem State.countLoss_pending (b : ObservationBody) : (s.countLoss b).pending = s.pending := by unfold State.countLoss; dsimp only; split <;> rfl
@[simp] theorem State.countLoss_mem (b : ObservationBody) : (s.countLoss b).mem = s.mem := by unfold State.countLoss; dsimp only; split <;> rfl
@[simp] theorem State.countLoss_fp (b : ObservationBody) : (s.countLoss b).fp = s.fp := by unfold State.countLoss; dsimp only; split <;> rfl
@[simp] theorem State.countLoss_oq (b : ObservationBody) : (s.countLoss b).oq = s.oq := by unfold State.countLoss; dsimp only; split <;> rfl
@[simp] theorem State.countLoss_ft (b : ObservationBody) : (s.countLoss b).ft = s.ft := by unfold State.countLoss; dsimp only; split <;> rfl
@[simp] theorem State.countLoss_tt (b : ObservationBody) : (s.countLoss b).tt = s.tt := by unfold State.countLoss; dsimp only; split <;> rfl
@[simp] theorem State.countLoss_cm (b : ObservationBody) : (s.countLoss b).cm = s.cm := by unfold State.countLoss; dsimp only; split <;> rfl
@[simp] theorem State.countLoss_rw (b : ObservationBody) : (s.countLoss b).rw = s.rw := by unfold State.countLoss; dsimp only; split <;> rfl
@[simp] theorem State.countLoss_ci (b : ObservationBody) : (s.countLoss b).ci = s.ci := by unfold State.countLoss; dsimp only; split <;> rfl
@[simp] theorem State.countLoss_freeCount (b : ObservationBody) : (s.countLoss b).freeCount = s.freeCount := by unfold State.countLoss; dsimp only; split <;> rfl

/-! ## lose -/

@[simp] theorem State.lose_pending (b : ObservationBody) (a : Addr) : (s.lose b a).pending = s.pending := by unfold State.lose; (try dsimp only); split <;> simp
@[simp] theorem State.lose_mem (b : ObservationBody) (a : Addr) : (s.lose b a).mem = s.mem := by unfold State.lose; (try dsimp only); split <;> simp
@[simp] theorem State.lose_fp (b : ObservationBody) (a : Addr) : (s.lose b a).fp = s.fp := by unfold State.lose; (try dsimp only); split <;> simp
@[simp] theorem State.lose_ft (b : ObservationBody) (a : Addr) : (s.lose b a).ft = s.ft := by unfold State.lose; (try dsimp only); split <;> simp
@[simp] theorem State.lose_tt (b : ObservationBody) (a : Addr) : (s.lose b a).tt = s.tt := by unfold State.lose; (try dsimp only); split <;> simp
@[simp] theorem State.lose_ci (b : ObservationBody) (a : Addr) : (s.lose b a).ci = s.ci := by unfold State.lose; (try dsimp only); split <;> simp
@[simp] theorem State.lose_freeCount (b : ObservationBody) (a : Addr) : (s.lose b a).freeCount = s.freeCount := by unfold State.lose; (try dsimp only); split <;> simp

/-! ## observe -/

@[simp] theorem State.observe_pending (t : Transaction) (n : Nat) : (s.observe t n).pending = s.pending := by unfold State.observe; (repeat' split) <;> simp
@[simp] theorem State.observe_mem (t : Transaction) (n : Nat) : (s.observe t n).mem = s.mem := by unfold State.observe; (repeat' split) <;> simp
@[simp] theorem State.observe_fp (t : Transaction) (n : Nat) : (s.observe t n).fp = s.fp := by unfold State.observe; (repeat' split) <;> simp
@[simp] theorem State.observe_ft (t : Transaction) (n : Nat) : (s.observe t n).ft = s.ft := by unfold State.observe; (repeat' split) <;> simp
@[simp] theorem State.observe_tt (t : Transaction) (n : Nat) : (s.observe t n).tt = s.tt := by unfold State.observe; (repeat' split) <;> simp
@[simp] theorem State.observe_ci (t : Transaction) (n : Nat) : (s.observe t n).ci = s.ci := by unfold State.observe; (repeat' split) <;> simp
@[simp] theorem State.observe_freeCount (t : Transaction) (n : Nat) : (s.observe t n).freeCount = s.freeCount := by unfold State.observe; (repeat' split) <;> simp

/-! ## beginLoad -/

@[simp] theorem State.beginLoad_pending (k : LoadKind) : (s.beginLoad k).pending = s.pending := rfl
@[simp] theorem State.beginLoad_mem (k : LoadKind) : (s.beginLoad k).mem = s.mem := rfl
@[simp] theorem State.beginLoad_fp (k : LoadKind) : (s.beginLoad k).fp = s.fp := rfl
@[simp] theorem State.beginLoad_oq (k : LoadKind) : (s.beginLoad k).oq = s.oq := rfl
@[simp] theorem State.beginLoad_ft (k : LoadKind) : (s.beginLoad k).ft = s.ft := rfl
@[simp] theorem State.beginLoad_tt (k : LoadKind) : (s.beginLoad k).tt = s.tt := rfl
@[simp] theorem State.beginLoad_cm (k : LoadKind) : (s.beginLoad k).cm = s.cm := rfl
@[simp] theorem State.beginLoad_tau (k : LoadKind) : (s.beginLoad k).tau = s.tau := rfl
@[simp] theorem State.beginLoad_rw (k : LoadKind) : (s.beginLoad k).rw = s.rw := rfl
@[simp] theorem State.beginLoad_freeCount (k : LoadKind) : (s.beginLoad k).freeCount = s.freeCount := rfl

/-! ## requestReload -/

@[simp] theorem State.requestReload_pending (o : ReloadOrigin) : (s.requestReload o).pending = s.pending := by unfold State.requestReload; split <;> simp
@[simp] theorem State.requestReload_mem (o : ReloadOrigin) : (s.requestReload o).mem = s.mem := by unfold State.requestReload; split <;> simp
@[simp] theorem State.requestReload_fp (o : ReloadOrigin) : (s.requestReload o).fp = s.fp := by unfold State.requestReload; split <;> simp
@[simp] theorem State.requestReload_oq (o : ReloadOrigin) : (s.requestReload o).oq = s.oq := by unfold State.requestReload; split <;> simp
@[simp] theorem State.requestReload_ft (o : ReloadOrigin) : (s.requestReload o).ft = s.ft := by unfold State.requestReload; split <;> simp
@[simp] theorem State.requestReload_tt (o : ReloadOrigin) : (s.requestReload o).tt = s.tt := by unfold State.requestReload; split <;> simp
@[simp] theorem State.requestReload_cm (o : ReloadOrigin) : (s.requestReload o).cm = s.cm := by unfold State.requestReload; split <;> simp
@[simp] theorem State.requestReload_rw (o : ReloadOrigin) : (s.requestReload o).rw = s.rw := by unfold State.requestReload; split <;> simp
@[simp] theorem State.requestReload_freeCount (o : ReloadOrigin) : (s.requestReload o).freeCount = s.freeCount := by unfold State.requestReload; split <;> simp

/-! ## sweep -/

@[simp] theorem State.sweep_pending : (s.sweep).pending = s.pending := by
  have h := State.overFlows_keep s (·.pending) (fun t i => t.setFlow i (t.flow i).swept) s.flowIndexes (fun t i => by simp) (fun t i => by simp)
  unfold State.sweep; dsimp only at h ⊢; split <;> simp [h]
@[simp] theorem State.sweep_mem : (s.sweep).mem = s.mem := by
  have h := State.overFlows_keep s (·.mem) (fun t i => t.setFlow i (t.flow i).swept) s.flowIndexes (fun t i => by simp) (fun t i => by simp)
  unfold State.sweep; dsimp only at h ⊢; split <;> simp [h]
@[simp] theorem State.sweep_fp : (s.sweep).fp = s.fp := by
  have h := State.overFlows_keep s (·.fp) (fun t i => t.setFlow i (t.flow i).swept) s.flowIndexes (fun t i => by simp) (fun t i => by simp)
  unfold State.sweep; dsimp only at h ⊢; split <;> simp [h]
@[simp] theorem State.sweep_rw : (s.sweep).rw = s.rw := by
  have h := State.overFlows_keep s (·.rw) (fun t i => t.setFlow i (t.flow i).swept) s.flowIndexes (fun t i => by simp) (fun t i => by simp)
  unfold State.sweep; dsimp only at h ⊢; split <;> simp [h]
@[simp] theorem State.sweep_freeCount : (s.sweep).freeCount = s.freeCount := by
  have h := State.overFlows_keep s (·.freeCount) (fun t i => t.setFlow i (t.flow i).swept) s.flowIndexes (fun t i => by simp) (fun t i => by simp)
  unfold State.sweep; dsimp only at h ⊢; split <;> simp [h]

/-! ## popHead -/

@[simp] theorem State.popHead_pending : (s.popHead).pending = s.pending := rfl
@[simp] theorem State.popHead_mem : (s.popHead).mem = s.mem := rfl
@[simp] theorem State.popHead_fp : (s.popHead).fp = s.fp := rfl
@[simp] theorem State.popHead_ft : (s.popHead).ft = s.ft := rfl
@[simp] theorem State.popHead_tt : (s.popHead).tt = s.tt := rfl
@[simp] theorem State.popHead_cm : (s.popHead).cm = s.cm := rfl
@[simp] theorem State.popHead_tau : (s.popHead).tau = s.tau := rfl
@[simp] theorem State.popHead_rw : (s.popHead).rw = s.rw := rfl
@[simp] theorem State.popHead_ci : (s.popHead).ci = s.ci := rfl
@[simp] theorem State.popHead_freeCount : (s.popHead).freeCount = s.freeCount := rfl

/-! ## clearOccurrences -/

@[simp] theorem State.clearOccurrences_pending (l : List AlarmKind) : (s.clearOccurrences l).pending = s.pending := by
  induction l generalizing s with
  | nil => rfl
  | cons k rest ih => simp only [State.clearOccurrences, ih]; simp
@[simp] theorem State.clearOccurrences_mem (l : List AlarmKind) : (s.clearOccurrences l).mem = s.mem := by
  induction l generalizing s with
  | nil => rfl
  | cons k rest ih => simp only [State.clearOccurrences, ih]; simp
@[simp] theorem State.clearOccurrences_fp (l : List AlarmKind) : (s.clearOccurrences l).fp = s.fp := by
  induction l generalizing s with
  | nil => rfl
  | cons k rest ih => simp only [State.clearOccurrences, ih]; simp
@[simp] theorem State.clearOccurrences_oq (l : List AlarmKind) : (s.clearOccurrences l).oq = s.oq := by
  induction l generalizing s with
  | nil => rfl
  | cons k rest ih => simp only [State.clearOccurrences, ih]; simp
@[simp] theorem State.clearOccurrences_ft (l : List AlarmKind) : (s.clearOccurrences l).ft = s.ft := by
  induction l generalizing s with
  | nil => rfl
  | cons k rest ih => simp only [State.clearOccurrences, ih]; simp
@[simp] theorem State.clearOccurrences_tt (l : List AlarmKind) : (s.clearOccurrences l).tt = s.tt := by
  induction l generalizing s with
  | nil => rfl
  | cons k rest ih => simp only [State.clearOccurrences, ih]; simp
@[simp] theorem State.clearOccurrences_cm (l : List AlarmKind) : (s.clearOccurrences l).cm = s.cm := by
  induction l generalizing s with
  | nil => rfl
  | cons k rest ih => simp only [State.clearOccurrences, ih]; simp
@[simp] theorem State.clearOccurrences_rw (l : List AlarmKind) : (s.clearOccurrences l).rw = s.rw := by
  induction l generalizing s with
  | nil => rfl
  | cons k rest ih => simp only [State.clearOccurrences, ih]; simp
@[simp] theorem State.clearOccurrences_ci (l : List AlarmKind) : (s.clearOccurrences l).ci = s.ci := by
  induction l generalizing s with
  | nil => rfl
  | cons k rest ih => simp only [State.clearOccurrences, ih]; simp
@[simp] theorem State.clearOccurrences_freeCount (l : List AlarmKind) : (s.clearOccurrences l).freeCount = s.freeCount := by
  induction l generalizing s with
  | nil => rfl
  | cons k rest ih => simp only [State.clearOccurrences, ih]; simp

/-! ## endWalk -/

@[simp] theorem State.endWalk_pending (g : BitVec 8) : (s.endWalk g).pending = s.pending := by simp [State.endWalk]
@[simp] theorem State.endWalk_mem (g : BitVec 8) : (s.endWalk g).mem = s.mem := by simp [State.endWalk]
@[simp] theorem State.endWalk_fp (g : BitVec 8) : (s.endWalk g).fp = s.fp := by simp [State.endWalk]
@[simp] theorem State.endWalk_oq (g : BitVec 8) : (s.endWalk g).oq = s.oq := by simp [State.endWalk]
@[simp] theorem State.endWalk_ft (g : BitVec 8) : (s.endWalk g).ft = s.ft := by simp [State.endWalk]
@[simp] theorem State.endWalk_tt (g : BitVec 8) : (s.endWalk g).tt = s.tt := by simp [State.endWalk]
@[simp] theorem State.endWalk_cm (g : BitVec 8) : (s.endWalk g).cm = s.cm := by simp [State.endWalk]
@[simp] theorem State.endWalk_freeCount (g : BitVec 8) : (s.endWalk g).freeCount = s.freeCount := by simp [State.endWalk]

/-! ## advanceWalk -/

@[simp] theorem State.advanceWalk_pending (n : Nat) (g : BitVec 8) : (s.advanceWalk n g).pending = s.pending := by unfold State.advanceWalk; split <;> simp
@[simp] theorem State.advanceWalk_mem (n : Nat) (g : BitVec 8) : (s.advanceWalk n g).mem = s.mem := by unfold State.advanceWalk; split <;> simp
@[simp] theorem State.advanceWalk_fp (n : Nat) (g : BitVec 8) : (s.advanceWalk n g).fp = s.fp := by unfold State.advanceWalk; split <;> simp
@[simp] theorem State.advanceWalk_oq (n : Nat) (g : BitVec 8) : (s.advanceWalk n g).oq = s.oq := by unfold State.advanceWalk; split <;> simp
@[simp] theorem State.advanceWalk_tt (n : Nat) (g : BitVec 8) : (s.advanceWalk n g).tt = s.tt := by unfold State.advanceWalk; split <;> simp
@[simp] theorem State.advanceWalk_freeCount (n : Nat) (g : BitVec 8) : (s.advanceWalk n g).freeCount = s.freeCount := by unfold State.advanceWalk; split <;> simp

end Sys2Proof.Machine
end

