-- ==== Sys2Proof/Laws/Memory.lean ====
section
/-! SUPPORT. Memory and the control image: what a byte reads as after a write, and the canonical form. -/

namespace Sys2Proof.Machine

/-- The last byte that a list of writes puts at an address. -/
def lastByte (a : Nat) : List (Nat × Byte) → Option Byte
  | [] => none
  | b :: rest => (lastByte a rest).or (if b.1 = a then some b.2 else none)

/-- What a byte reads as after a list of writes: the last byte written there, else as before. -/
theorem get_writeBytes (bytes : List (Nat × Byte)) (m : Store Byte) (d : Byte) (a : Nat) :
    (writeBytes m d bytes).get d a = (lastByte a bytes).getD (m.get d a) := by
  induction bytes generalizing m with
  | nil => rfl
  | cons b rest ih =>
    simp only [writeBytes, ih, Store.get_set, lastByte]
    cases lastByte a rest with
    | some x => rfl
    | none =>
      by_cases h : a = b.1
      · simp [h]
      · simp [h, Ne.symm h]

/-- A byte that no write names reads as before. -/
theorem lastByte_none (a : Nat) (bytes : List (Nat × Byte)) (h : ∀ b ∈ bytes, b.1 ≠ a) : lastByte a bytes = none := by
  induction bytes with
  | nil => rfl
  | cons b rest ih =>
    simp only [lastByte, ih fun c hc => h c (List.mem_cons_of_mem _ hc), h b List.mem_cons_self, if_false, Option.or]

/-- Writes keep the canonical form. -/
theorem wf_writeBytes (bytes : List (Nat × Byte)) (m : Store Byte) (d : Byte) (h : m.wf d = true) :
    (writeBytes m d bytes).wf d = true := by
  induction bytes generalizing m with
  | nil => exact h
  | cons b rest ih => exact ih _ (m.wf_set d b.1 b.2 h)

theorem State.reset_memWf : State.reset.memWf = true := by decide

/-- Memory taking a transaction keeps the canonical form. -/
theorem State.memTake_memWf (s : State) (t : Transaction) (h : s.memWf = true) : (s.memTake t).memWf = true :=
  wf_writeBytes t.writes s.mem Config.sramPowerOn h

/-- What a byte of memory reads as after a transaction is taken (R1). -/
theorem State.memByte_memTake (s : State) (t : Transaction) (a : Nat) :
    (s.memTake t).memByte a = (lastByte a t.writes).getD (s.memByte a) :=
  get_writeBytes t.writes s.mem Config.sramPowerOn a

/-- A read changes no memory (R1). -/
theorem State.memTake_read (s : State) (t : Transaction) (h : t.isRead = true) : s.memTake t = s := by
  cases t <;> first | rfl | cases h

/-- What a byte of the control image reads as after a merge (R163). -/
theorem get_mergeBytes (image : Store Byte) (bytes : List (Nat × Byte)) (o : Nat) :
    (writeBytes image 0#8 bytes).get 0#8 o = (lastByte o bytes).getD (image.get 0#8 o) :=
  get_writeBytes bytes image 0#8 o

end Sys2Proof.Machine
end

