-- ==== Sys2Proof/Laws/Settings.lean ====
section
/-! SUPPORT. Applying settings leaves the queue of commands, memory, the forwarding path and the free counter. -/

namespace Sys2Proof.Machine

set_option Elab.async false

variable (s : State)

@[simp] theorem State.merge_pending (l : List (Nat × Byte)) : (s.merge l).pending = s.pending := rfl
@[simp] theorem State.merge_mem (l : List (Nat × Byte)) : (s.merge l).mem = s.mem := rfl
@[simp] theorem State.merge_fp (l : List (Nat × Byte)) : (s.merge l).fp = s.fp := rfl
@[simp] theorem State.merge_freeCount (l : List (Nat × Byte)) : (s.merge l).freeCount = s.freeCount := rfl

@[simp] theorem State.monitoringEffect_pending (b : Bool) : (s.monitoringEffect b).pending = s.pending := by unfold State.monitoringEffect; (repeat' split) <;> simp
@[simp] theorem State.monitoringEffect_mem (b : Bool) : (s.monitoringEffect b).mem = s.mem := by unfold State.monitoringEffect; (repeat' split) <;> simp
@[simp] theorem State.monitoringEffect_fp (b : Bool) : (s.monitoringEffect b).fp = s.fp := by unfold State.monitoringEffect; (repeat' split) <;> simp
@[simp] theorem State.monitoringEffect_freeCount (b : Bool) : (s.monitoringEffect b).freeCount = s.freeCount := by unfold State.monitoringEffect; (repeat' split) <;> simp

@[simp] theorem State.applyMonitoring_pending : (s.applyMonitoring).pending = s.pending := by unfold State.applyMonitoring; dsimp only; split <;> simp
@[simp] theorem State.applyMonitoring_mem : (s.applyMonitoring).mem = s.mem := by unfold State.applyMonitoring; dsimp only; split <;> simp
@[simp] theorem State.applyMonitoring_fp : (s.applyMonitoring).fp = s.fp := by unfold State.applyMonitoring; dsimp only; split <;> simp
@[simp] theorem State.applyMonitoring_freeCount : (s.applyMonitoring).freeCount = s.freeCount := by unfold State.applyMonitoring; dsimp only; split <;> simp

@[simp] theorem State.applyFreeze_pending : (s.applyFreeze).pending = s.pending := rfl
@[simp] theorem State.applyFreeze_mem : (s.applyFreeze).mem = s.mem := rfl
@[simp] theorem State.applyFreeze_fp : (s.applyFreeze).fp = s.fp := rfl
@[simp] theorem State.applyFreeze_freeCount : (s.applyFreeze).freeCount = s.freeCount := rfl

@[simp] theorem State.applyPinCount_pending : (s.applyPinCount).pending = s.pending := by simp [State.applyPinCount]
@[simp] theorem State.applyPinCount_mem : (s.applyPinCount).mem = s.mem := by simp [State.applyPinCount]
@[simp] theorem State.applyPinCount_fp : (s.applyPinCount).fp = s.fp := by simp [State.applyPinCount]
@[simp] theorem State.applyPinCount_freeCount : (s.applyPinCount).freeCount = s.freeCount := by simp [State.applyPinCount]

@[simp] theorem State.applyAlarmOn_pending : (s.applyAlarmOn).pending = s.pending := by simp [State.applyAlarmOn]
@[simp] theorem State.applyAlarmOn_mem : (s.applyAlarmOn).mem = s.mem := by simp [State.applyAlarmOn]
@[simp] theorem State.applyAlarmOn_fp : (s.applyAlarmOn).fp = s.fp := by simp [State.applyAlarmOn]
@[simp] theorem State.applyAlarmOn_freeCount : (s.applyAlarmOn).freeCount = s.freeCount := by simp [State.applyAlarmOn]

@[simp] theorem State.applyInterval_pending : (s.applyInterval).pending = s.pending := by unfold State.applyInterval; dsimp only; (repeat' split) <;> simp
@[simp] theorem State.applyInterval_mem : (s.applyInterval).mem = s.mem := by unfold State.applyInterval; dsimp only; (repeat' split) <;> simp
@[simp] theorem State.applyInterval_fp : (s.applyInterval).fp = s.fp := by unfold State.applyInterval; dsimp only; (repeat' split) <;> simp
@[simp] theorem State.applyInterval_freeCount : (s.applyInterval).freeCount = s.freeCount := by unfold State.applyInterval; dsimp only; (repeat' split) <;> simp

@[simp] theorem State.applyThreshold_pending : (s.applyThreshold).pending = s.pending := by unfold State.applyThreshold; dsimp only; split <;> simp
@[simp] theorem State.applyThreshold_mem : (s.applyThreshold).mem = s.mem := by unfold State.applyThreshold; dsimp only; split <;> simp
@[simp] theorem State.applyThreshold_fp : (s.applyThreshold).fp = s.fp := by unfold State.applyThreshold; dsimp only; split <;> simp
@[simp] theorem State.applyThreshold_freeCount : (s.applyThreshold).freeCount = s.freeCount := by unfold State.applyThreshold; dsimp only; split <;> simp

@[simp] theorem State.applyGlobals_pending (l : List (Nat × Byte)) : (s.applyGlobals l).pending = s.pending := by unfold State.applyGlobals; dsimp only; (repeat' split) <;> simp
@[simp] theorem State.applyGlobals_mem (l : List (Nat × Byte)) : (s.applyGlobals l).mem = s.mem := by unfold State.applyGlobals; dsimp only; (repeat' split) <;> simp
@[simp] theorem State.applyGlobals_fp (l : List (Nat × Byte)) : (s.applyGlobals l).fp = s.fp := by unfold State.applyGlobals; dsimp only; (repeat' split) <;> simp
@[simp] theorem State.applyGlobals_freeCount (l : List (Nat × Byte)) : (s.applyGlobals l).freeCount = s.freeCount := by unfold State.applyGlobals; dsimp only; (repeat' split) <;> simp

@[simp] theorem State.consumeEffect_pending : (s.consumeEffect).pending = s.pending := by unfold State.consumeEffect; split <;> simp
@[simp] theorem State.consumeEffect_mem : (s.consumeEffect).mem = s.mem := by unfold State.consumeEffect; split <;> simp
@[simp] theorem State.consumeEffect_fp : (s.consumeEffect).fp = s.fp := by unfold State.consumeEffect; split <;> simp
@[simp] theorem State.consumeEffect_freeCount : (s.consumeEffect).freeCount = s.freeCount := by unfold State.consumeEffect; split <;> simp

@[simp] theorem State.applyConsume_pending (l : List (Nat × Byte)) : (s.applyConsume l).pending = s.pending := by unfold State.applyConsume; dsimp only; (repeat' split) <;> simp
@[simp] theorem State.applyConsume_mem (l : List (Nat × Byte)) : (s.applyConsume l).mem = s.mem := by unfold State.applyConsume; dsimp only; (repeat' split) <;> simp
@[simp] theorem State.applyConsume_fp (l : List (Nat × Byte)) : (s.applyConsume l).fp = s.fp := by unfold State.applyConsume; dsimp only; (repeat' split) <;> simp
@[simp] theorem State.applyConsume_freeCount (l : List (Nat × Byte)) : (s.applyConsume l).freeCount = s.freeCount := by unfold State.applyConsume; dsimp only; (repeat' split) <;> simp

@[simp] theorem State.changeRing_pending (r : Nat) (g : RingGeometry) : (s.changeRing r g).pending = s.pending := by unfold State.changeRing; dsimp only; (repeat' split) <;> simp
@[simp] theorem State.changeRing_mem (r : Nat) (g : RingGeometry) : (s.changeRing r g).mem = s.mem := by unfold State.changeRing; dsimp only; (repeat' split) <;> simp
@[simp] theorem State.changeRing_fp (r : Nat) (g : RingGeometry) : (s.changeRing r g).fp = s.fp := by unfold State.changeRing; dsimp only; (repeat' split) <;> simp
@[simp] theorem State.changeRing_freeCount (r : Nat) (g : RingGeometry) : (s.changeRing r g).freeCount = s.freeCount := by unfold State.changeRing; dsimp only; (repeat' split) <;> simp

@[simp] theorem State.changeRings_pending (r : Nat) (l : List RingGeometry) : (s.changeRings r l).pending = s.pending := by
  induction l generalizing s r with
  | nil => rfl
  | cons x rest ih => simp only [State.changeRings, ih]; simp
@[simp] theorem State.changeRings_mem (r : Nat) (l : List RingGeometry) : (s.changeRings r l).mem = s.mem := by
  induction l generalizing s r with
  | nil => rfl
  | cons x rest ih => simp only [State.changeRings, ih]; simp
@[simp] theorem State.changeRings_fp (r : Nat) (l : List RingGeometry) : (s.changeRings r l).fp = s.fp := by
  induction l generalizing s r with
  | nil => rfl
  | cons x rest ih => simp only [State.changeRings, ih]; simp
@[simp] theorem State.changeRings_freeCount (r : Nat) (l : List RingGeometry) : (s.changeRings r l).freeCount = s.freeCount := by
  induction l generalizing s r with
  | nil => rfl
  | cons x rest ih => simp only [State.changeRings, ih]; simp

@[simp] theorem State.noteRing_pending (l : List (Nat × Byte)) (b : Bool) (g : RingGeometry) (r : Nat) : (s.noteRing l b g r).pending = s.pending := by unfold State.noteRing; dsimp only; (repeat' split) <;> simp
@[simp] theorem State.noteRing_mem (l : List (Nat × Byte)) (b : Bool) (g : RingGeometry) (r : Nat) : (s.noteRing l b g r).mem = s.mem := by unfold State.noteRing; dsimp only; (repeat' split) <;> simp
@[simp] theorem State.noteRing_fp (l : List (Nat × Byte)) (b : Bool) (g : RingGeometry) (r : Nat) : (s.noteRing l b g r).fp = s.fp := by unfold State.noteRing; dsimp only; (repeat' split) <;> simp
@[simp] theorem State.noteRing_freeCount (l : List (Nat × Byte)) (b : Bool) (g : RingGeometry) (r : Nat) : (s.noteRing l b g r).freeCount = s.freeCount := by unfold State.noteRing; dsimp only; (repeat' split) <;> simp

@[simp] theorem State.noteRings_pending (t : State) (m : List (Nat × Byte)) (r : Nat) (l : List RingGeometry) : (s.noteRings t m r l).pending = s.pending := by
  induction l generalizing s r with
  | nil => rfl
  | cons x rest ih => simp only [State.noteRings, ih]; simp
@[simp] theorem State.noteRings_mem (t : State) (m : List (Nat × Byte)) (r : Nat) (l : List RingGeometry) : (s.noteRings t m r l).mem = s.mem := by
  induction l generalizing s r with
  | nil => rfl
  | cons x rest ih => simp only [State.noteRings, ih]; simp
@[simp] theorem State.noteRings_fp (t : State) (m : List (Nat × Byte)) (r : Nat) (l : List RingGeometry) : (s.noteRings t m r l).fp = s.fp := by
  induction l generalizing s r with
  | nil => rfl
  | cons x rest ih => simp only [State.noteRings, ih]; simp
@[simp] theorem State.noteRings_freeCount (t : State) (m : List (Nat × Byte)) (r : Nat) (l : List RingGeometry) : (s.noteRings t m r l).freeCount = s.freeCount := by
  induction l generalizing s r with
  | nil => rfl
  | cons x rest ih => simp only [State.noteRings, ih]; simp

@[simp] theorem State.applyRings_pending (l : List (Nat × Byte)) (m : Store Byte) : (s.applyRings l m).pending = s.pending := by unfold State.applyRings; split <;> simp
@[simp] theorem State.applyRings_mem (l : List (Nat × Byte)) (m : Store Byte) : (s.applyRings l m).mem = s.mem := by unfold State.applyRings; split <;> simp
@[simp] theorem State.applyRings_fp (l : List (Nat × Byte)) (m : Store Byte) : (s.applyRings l m).fp = s.fp := by unfold State.applyRings; split <;> simp
@[simp] theorem State.applyRings_freeCount (l : List (Nat × Byte)) (m : Store Byte) : (s.applyRings l m).freeCount = s.freeCount := by unfold State.applyRings; split <;> simp

@[simp] theorem State.noteProfile_pending (l : List (Nat × Byte)) (p : Nat) (n : Profile) : (s.noteProfile l p n).pending = s.pending := by unfold State.noteProfile; dsimp only; (repeat' split) <;> simp
@[simp] theorem State.noteProfile_mem (l : List (Nat × Byte)) (p : Nat) (n : Profile) : (s.noteProfile l p n).mem = s.mem := by unfold State.noteProfile; dsimp only; (repeat' split) <;> simp
@[simp] theorem State.noteProfile_fp (l : List (Nat × Byte)) (p : Nat) (n : Profile) : (s.noteProfile l p n).fp = s.fp := by unfold State.noteProfile; dsimp only; (repeat' split) <;> simp
@[simp] theorem State.noteProfile_freeCount (l : List (Nat × Byte)) (p : Nat) (n : Profile) : (s.noteProfile l p n).freeCount = s.freeCount := by unfold State.noteProfile; dsimp only; (repeat' split) <;> simp

@[simp] theorem State.applyProfile_pending (l : List (Nat × Byte)) (p : Nat) : (s.applyProfile l p).pending = s.pending := by unfold State.applyProfile; dsimp only; (repeat' split) <;> simp
@[simp] theorem State.applyProfile_mem (l : List (Nat × Byte)) (p : Nat) : (s.applyProfile l p).mem = s.mem := by unfold State.applyProfile; dsimp only; (repeat' split) <;> simp
@[simp] theorem State.applyProfile_fp (l : List (Nat × Byte)) (p : Nat) : (s.applyProfile l p).fp = s.fp := by unfold State.applyProfile; dsimp only; (repeat' split) <;> simp
@[simp] theorem State.applyProfile_freeCount (l : List (Nat × Byte)) (p : Nat) : (s.applyProfile l p).freeCount = s.freeCount := by unfold State.applyProfile; dsimp only; (repeat' split) <;> simp

@[simp] theorem State.applyProfiles_pending (m : List (Nat × Byte)) (l : List Nat) : (s.applyProfiles m l).pending = s.pending := by
  induction l generalizing s with
  | nil => rfl
  | cons x rest ih => simp only [State.applyProfiles, ih]; split <;> simp
@[simp] theorem State.applyProfiles_mem (m : List (Nat × Byte)) (l : List Nat) : (s.applyProfiles m l).mem = s.mem := by
  induction l generalizing s with
  | nil => rfl
  | cons x rest ih => simp only [State.applyProfiles, ih]; split <;> simp
@[simp] theorem State.applyProfiles_fp (m : List (Nat × Byte)) (l : List Nat) : (s.applyProfiles m l).fp = s.fp := by
  induction l generalizing s with
  | nil => rfl
  | cons x rest ih => simp only [State.applyProfiles, ih]; split <;> simp
@[simp] theorem State.applyProfiles_freeCount (m : List (Nat × Byte)) (l : List Nat) : (s.applyProfiles m l).freeCount = s.freeCount := by
  induction l generalizing s with
  | nil => rfl
  | cons x rest ih => simp only [State.applyProfiles, ih]; split <;> simp

@[simp] theorem State.applyClassifier_pending (m : List (Nat × Byte)) (l : List Nat) : (s.applyClassifier m l).pending = s.pending := by
  induction l generalizing s with
  | nil => rfl
  | cons x rest ih => simp only [State.applyClassifier, ih]; split <;> simp
@[simp] theorem State.applyClassifier_mem (m : List (Nat × Byte)) (l : List Nat) : (s.applyClassifier m l).mem = s.mem := by
  induction l generalizing s with
  | nil => rfl
  | cons x rest ih => simp only [State.applyClassifier, ih]; split <;> simp
@[simp] theorem State.applyClassifier_fp (m : List (Nat × Byte)) (l : List Nat) : (s.applyClassifier m l).fp = s.fp := by
  induction l generalizing s with
  | nil => rfl
  | cons x rest ih => simp only [State.applyClassifier, ih]; split <;> simp
@[simp] theorem State.applyClassifier_freeCount (m : List (Nat × Byte)) (l : List Nat) : (s.applyClassifier m l).freeCount = s.freeCount := by
  induction l generalizing s with
  | nil => rfl
  | cons x rest ih => simp only [State.applyClassifier, ih]; split <;> simp

@[simp] theorem State.applySettings_pending (l : List (Nat × Byte)) : (s.applySettings l).pending = s.pending := by simp [State.applySettings]
@[simp] theorem State.applySettings_mem (l : List (Nat × Byte)) : (s.applySettings l).mem = s.mem := by simp [State.applySettings]
@[simp] theorem State.applySettings_fp (l : List (Nat × Byte)) : (s.applySettings l).fp = s.fp := by simp [State.applySettings]
@[simp] theorem State.applySettings_freeCount (l : List (Nat × Byte)) : (s.applySettings l).freeCount = s.freeCount := by simp [State.applySettings]

end Sys2Proof.Machine
end

