-- ==== Sys2Proof/Tests/Slice0.lean ====
section
/-! SUPPORT. Tests: the well-formedness smoke test, values of the spec's tables and examples, one step of each kind, and
for every statement with hypotheses a witness that meets them. -/

namespace Sys2Proof.Tests

open Sys2Proof.Machine

set_option Elab.async false

/-! ## Well-formedness -/

theorem test_wf_singleRead : (Instr.slotGrant (some (.singleRead 8#27))).wellFormed = true ∧
    (Instr.slotGrant (some (.singleRead 12#27))).wellFormed = false := by decide
theorem test_wf_burstRead : (Instr.slotGrant (some (.burstRead 32#27 3#2))).wellFormed = true ∧
    (Instr.slotGrant (some (.burstRead 8#27 3#2))).wellFormed = false := by decide
theorem test_wf_singleWrite : (Instr.slotGrant (some (.singleWrite 24#27 0 0#8))).wellFormed = true ∧
    (Instr.slotGrant (some (.singleWrite 1#27 0 0#8))).wellFormed = false := by decide
theorem test_wf_burstWrite : (Instr.slotGrant (some (.burstWrite 64#27 0 0 0 0))).wellFormed = true ∧
    (Instr.slotGrant (some (.burstWrite 48#27 0 0 0 0))).wellFormed = false := by decide

/-! ## The spec's tables and examples -/

/-- The table of section 3.1. -/
theorem test_setIndex_table : setIndex 5#4 0x4A3C7#20 = 48 ∧ setIndex 0#4 0x00030#20 = 48 ∧
    setIndex 15#4 0xFFFFF#20 = 255 := by decide
/-- The table of section 4.3. -/
theorem test_signedDiff_table : signedDiff 8 5 250 = 11 ∧ signedDiff 8 250 3 = -9 ∧ signedDiff 8 128 0 = -128 ∧
    signedDiff 12 4087 6 = -15 ∧ signedDiff 16 4 65530 = 10 ∧ signedDiff 16 0 1002 = -1002 := by decide
/-- The table under R110. -/
theorem test_atOrAfter_table : atOrAfter 0xA00#48 0xFFFFFFFFF000#48 = true ∧
    atOrAfter 0xFFFFFFFFF000#48 0xA00#48 = false ∧ atOrAfter 0x12345678#48 0x12345678#48 = true ∧
    atOrAfter 0x800000000000#48 0#48 = false := by decide
/-- The worked case of residence across the wrap. -/
theorem test_residence_wraps : residence 0xFFFFFFFFF000#48 0xA00#48 = 6656 := by decide
/-- The PLRU bits of the example "one set under pressure". -/
theorem test_plru_uses : (initialPlru.use 0) = ⟨true, true, false⟩ ∧ (initialPlru.use 0).use 1 = ⟨true, false, false⟩ ∧
    (((initialPlru.use 0).use 1).use 2) = ⟨false, false, true⟩ ∧ (⟨true, true, false⟩ : Plru).way = 2 ∧
    (⟨false, true, true⟩ : Plru).way = 1 ∧ (⟨true, false, true⟩ : Plru).way = 3 := by decide
/-- Steps 7 and 8 of the example "a station restarts its counter": R, six U; ahead by 6; ahead by 7 with five drops. -/
theorem test_shift_example :
    shiftedWindow 8 6 [.received, .received, .unawaited, .unawaited, .unawaited, .unawaited, .unawaited, .unawaited] =
      [.received, .missing, .missing, .missing, .missing, .missing, .received, .received] ∧
    shiftDrops 8 7 [.received, .missing, .missing, .missing, .missing, .missing, .received, .received] = 5 := by decide
/-- The clamps of R164. -/
theorem test_clamps : clampSlots 0 = 16 ∧ clampSlots 24 = 16 ∧ clampSlots 25 = 32 ∧ clampSlots 192 = 128 ∧
    clampSlots 193 = 256 ∧ clampWidth 8 = 8 ∧ clampWidth 9 = 12 ∧ clampWidth 13 = 16 ∧ clampRange 1 32 40 = 32 ∧
    clampJump 8 16 300 = 127 ∧ clampJump 8 16 5 = 16 ∧ clampBase 0x3F = 0x20 := by decide
/-- The command codes of section 10.2; 0 and 12 are not assigned. -/
theorem test_command_codes : MailboxCommand.ofCode 1#8 = .ping ∧ MailboxCommand.ofCode 11#8 = .restart ∧
    MailboxCommand.ofCode 0#8 = .unknown ∧ MailboxCommand.ofCode 12#8 = .unknown := by decide

/-! ## Small states -/

/-- A profile that exercises every judgement. -/
def prof : Profile :=
  { tracked := true, evaluates := true, width := 8, window := 4, staleLimit := 2, jumpLimit := 5, silenceLimit := 2,
    lateLimit := 1, period := 2, tolerance := 1, budget := 300, watched := 1#16, gapThreshold := 1, priority := 3 }

/-- RUNNING and monitoring, all alarms on, the control region at 0x1000000, ring 0 at 0x2000 with 16 slots, every key
classified to profile 1. -/
def running : State :=
  { State.reset with
    fp := { ForwardingPath.atReset with straps := 2#4 }
    ci := { ControlInterface.atReset with
      part := .running
      held := { Held.atReset with
        monitoring := true, alarmOn := 255#8
        rings := ⟨[(0, { enabled := true, base := 0x2000#27, slots := 16 })]⟩
        profiles := ⟨[(1, prof)]⟩
        classifier := ⟨[(0, { enabled := true, portMask := 0xFFFF#16, tagValue := 0#20, tagMask := 0#20, profile := 1 })]⟩ } } }

/-- A TRACKING entry of key (5, 0x4A3C7), generation 3, T = 10. -/
def entry : FlowEntry :=
  { state := .tracking, port := 5#4, tag := 0x4A3C7#20, profile := 1, generation := 3#8, nextSeq := 10,
    window := [.received, .missing, .unawaited, .received], reanchor := false, staleRun := 0, departed := some 4,
    due := some 3000#48, misses := 0, lateRun := 0, worstResidence := 0, faultMask := 0#16, tallies := ⟨[]⟩,
    dirty := true, checkOk := true }

/-- `running` with `entry` at flow 192, its place, and on the due list; the time base stands at its due time. -/
def listed : State :=
  { running with
    ft := { FlowTable.atReset with flows := ⟨[(192, entry)]⟩ }
    cm := { timeBase := 3000#48, due := ⟨[(192, 3000#48)]⟩, sightStart := 0#48 } }

/-- An entry at flow 192 in place of `entry`. -/
def withEntry (e : FlowEntry) : State := { listed with ft := { FlowTable.atReset with flows := ⟨[(192, e)]⟩ } }

/-- A record of the queue, stamped after the due time of `listed`. -/
def record (b : ObservationBody) (a : Addr) : Observation :=
  { body := b, stamp := 3100#48, followsLoss := false, address := a, ring := some 0, place := 0 }

/-- A state with one record at the head of its queue. -/
def headed (s : State) (b : ObservationBody) (a : Addr) : State := { s with oq := { s.oq with queue := [record b a] } }

/-- A certain frame of flow 192, copy 0, sequence 9. -/
def frame : Frame :=
  { ref := .listed 192 3#8, copy := 0#4, sequence := some 9#16, enqueued := 100#48, uncertain := false }

/-- A state with slot 0 of ring 0 holding `x`. -/
def withSlot (s : State) (x : Slot) : State := { s with tt := ⟨[(0, x)]⟩ }

/-- A state with a transaction on the request direction. -/
def asking (s : State) (q : Request) : State := { s with fp := { s.fp with request := some q } }

/-- A read on the return direction. -/
def reading (owner : ReadOwner) : ReturnRead := { owner := owner, address := 0x1000000#27, words := [7#64], place := 0 }

/-- A state with a read on the return direction. -/
def returning (s : State) (owner : ReadOwner) : State := { s with fp := { s.fp with ret := some (reading owner) } }

/-- A state with a started or waiting current job. -/
def working (s : State) (kind : JobKind) (todo : List Transaction) (started : Bool) : State :=
  { s with rw := { s.rw with job := some { kind := kind, todo := todo, started := started } } }

/-- A single write of the word at an address, all lanes. -/
def write (a : Addr) : Transaction := .singleWrite a 5#64 255#8

/-- A control write of one word at a control offset, with its lanes. -/
def control (o : Nat) (w : Word) (m : BitVec 8) : ObservationBody := .controlWrite o [w] [m]

/-- A state whose queue holds a command word of a code, tag 1 and argument a. -/
def commanded (s : State) (code a : Nat) : State :=
  headed s (control 0 (BitVec.ofNat 64 (1 + 256 * code + 65536 * a)) 0x0F#8) 0x1000000#27

/-- The record that `commanded` queues. -/
def command (code a : Nat) : Observation :=
  record (control 0 (BitVec.ofNat 64 (1 + 256 * code + 65536 * a)) 0x0F#8) 0x1000000#27

/-- The state after the settings of a queued command, of which there are none. -/
def taken (s : State) (code a : Nat) : State := (commanded s code a).popHead.applySettings (command code a).body.named

/-- A state whose retire buffer holds n records. -/
def retiring (s : State) (n : Nat) : State :=
  let x : ReportRecord := { type := .retire .replaced, index := 192, entry := entry, drainNumber := 0#16, time := 0#48 }
  { s with ft := { s.ft with retire := List.replicate n x } }

/-- A load read of one word. -/
def loaded (o place : Nat) : LoadRead := { offset := o, words := [0x0909#64], place := place }

/-- A state with a load read waiting and a load in progress. -/
def loading (kind : LoadKind) (o : Nat) : State :=
  { running with ci := { running.ci with load := some { kind := kind, issued := true }, loadReads := [loaded o 3] } }

/-! ## One step of each kind -/

/-- RESET_N released with straps 3 loads, the control region at 24 MiB. -/
theorem test_release : ∃ u, exec (.resetNReleased 3#4) State.reset = .next u ∧ u.controlBase = 0x1800000 ∧
    u.ci.part = .loading ∧ u.rw.job.map Job.kind = some .load := ⟨_, rfl, by decide +kernel⟩
/-- A write of lane 1 alone changes byte 9 alone. -/
theorem test_taken_lane : ∃ u, exec .transactionTaken (asking running (.forwarded (.singleWrite 8#27 0xAABB#64 2#8))) = .next u ∧
    u.memByte 9 = 0xAA#8 ∧ u.memByte 8 = 0#8 := ⟨_, rfl, by decide +kernel⟩
/-- An arrival at T, in order: T advances, the MISSING mark stays inside. -/
theorem test_enqueue_in_order : ∃ u, exec .enqueue (headed listed (.enqueue 5#4 0x4A3C7#20 0#4 10#16 true) 0x2020#27) = .next u ∧
    (u.flow 192).nextSeq = 11 ∧ (u.flow 192).tally .inOrder = 1 ∧ u.cm.due.find? 192 = some 6100#48 ∧
    u.slot 0 1 ≠ .empty := ⟨_, rfl, by decide +kernel⟩
/-- A copy-0 frame of a new key is allocated generation 1. -/
theorem test_enqueue_allocates : ∃ u, exec .enqueue (headed running (.enqueue 0#4 0x30#20 0#4 7#16 true) 0x2000#27) = .next u ∧
    (u.flow 192).generation = 1#8 ∧ (u.flow 192).tally .anchors = 1 ∧ (u.flow 192).nextSeq = 8 := ⟨_, rfl, by decide +kernel⟩
/-- A DEQUEUE departs the slot and moves D. -/
theorem test_dequeue : ∃ u, exec .dequeue (headed (withSlot listed (.queued frame)) .dequeue 0x2008#27) = .next u ∧
    u.slot 0 0 = .departing frame 3100#48 ∧ (u.flow 192).departed = some 9 := ⟨_, rfl, by decide +kernel⟩
/-- A frame above its budget is LATE. -/
theorem test_completion_late : ∃ u,
    exec .completion (headed (withSlot listed (.departing frame 401#48)) (.completion 1#3) 0x2018#27) = .next u ∧
    (u.flow 192).tally .lateResidence = 1 ∧ (u.flow 192).worstResidence = 301 ∧ u.slot 0 0 = .empty ∧
    (u.alarm .lateRun).occurrences = 1 ∧ u.tau.alertKind = some .lateRun := ⟨_, rfl, by decide +kernel⟩
/-- An expiry of a watched cycle counts and re-arms by the period. -/
theorem test_expiry : ∃ u, exec .expiry listed = .next u ∧ (u.flow 192).tally .cadenceMisses = 1 ∧
    u.cm.due.find? 192 = some 5000#48 := ⟨_, rfl, by decide +kernel⟩
/-- A second miss silences the flow. -/
theorem test_expiry_silences : ∃ u, exec .expiry (withEntry { entry with misses := 1 }) = .next u ∧
    (u.flow 192).state = .silent ∧ u.cm.due.find? 192 = none := ⟨_, rfl, by decide +kernel⟩
/-- PING answers DONE with its tag. -/
theorem test_ping : ∃ u, exec .ping (commanded running 1 0) = .next u ∧
    u.ci.lastResult = some { tag := 1#8, code := .done, time := 0#48 } ∧ u.ci.lastTag = 1#8 := ⟨_, rfl, by decide +kernel⟩
/-- EVICT_FLOW of a dirty flow retires it. -/
theorem test_evict : ∃ u, exec .evictFlow (commanded listed 4 192) = .next u ∧ (u.flow 192).state = .vacant ∧
    u.ft.retire.length = 1 ∧ u.agg .evictions = 1 := ⟨_, rfl, by decide +kernel⟩
/-- SNAPSHOT starts a drain, whose record job is selected after STATUS. -/
theorem test_snapshot : ∃ u, exec .snapshot (commanded listed 6 0) = .next u ∧ u.rw.drain = .draining ∧
    u.rw.budget = 1 ∧ u.rw.drainNumber = 1#16 := ⟨_, rfl, by decide +kernel⟩
/-- A ring laid over the control region is held disabled and counted. -/
theorem test_ring_over_control : ∃ u,
    exec .ringGeometryWrite (headed running (control 0x110 0x0001001001000000#64 255#8) 0x1000110#27) = .next u ∧
    (u.ring 1).enabled = false ∧ u.agg .clampedFields = 1 ∧ (u.ring 1).slots = 16 := ⟨_, rfl, by decide +kernel⟩
/-- A profile width of 9 is held as 12 and counted (R164). -/
theorem test_profile_clamp : ∃ u,
    exec .controlWrite (headed running (control 0x240 0x0900#64 2#8) 0x1000240#27) = .next u ∧
    (u.profile 2).width = 12 ∧ u.agg .clampedFields = 1 := ⟨_, rfl, by decide +kernel⟩

/-- `running` with a clean entry at flow 192 and a dirty threshold of 1. -/
def cleanThreshold : State :=
  { withEntry { entry with dirty := false } with
    ci := { running.ci with held := { running.ci.held with dirtyThreshold := 1 } } }
/-- SNAPSHOT in IDLE starts a drain; the dirty count it raises to the threshold then leaves one owed (R152). -/
theorem test_snapshot_threshold : ∃ u, exec .snapshot (commanded cleanThreshold 6 0) = .next u ∧ u.rw.drain = .draining ∧
    u.rw.drainNumber = 1#16 ∧ u.rw.drainOwed = true := ⟨_, rfl, by decide +kernel⟩
/-- A write of both the threshold and SNAPSHOT: the threshold starts the drain, SNAPSHOT owes one (R152, R163). -/
theorem test_threshold_then_snapshot : ∃ u,
    exec .snapshot (headed listed (.controlWrite 0 [0x0601#64, 0x0001000000FF0001#64] [255#8, 255#8]) 0x1000000#27) = .next u ∧
    u.rw.drain = .draining ∧ u.rw.drainNumber = 1#16 ∧ u.rw.drainOwed = true := ⟨_, rfl, by decide +kernel⟩
/-- A new interval whose time has passed expires in the event of its write (R152). -/
theorem test_interval_expires_at_once : ∃ u,
    exec .globalsWrite { headed listed (control 8 (1#64 <<< 32) 0x30#8) 0x1000008#27 with
      cm := { listed.cm with timeBase := 1000000#48 } } = .next u ∧
    u.rw.drain = .draining ∧ u.ci.held.interval = 1 := ⟨_, rfl, by decide +kernel⟩
/-- A write of period 2 over 0 and tolerance 5 over 1: the due time uses the tolerance held before (log 38). -/
theorem test_period_before_tolerance : ∃ u,
    exec .controlWrite { headed (withEntry { entry with due := none }) (control 0x228 0x50002#64 15#8) 0x1000228#27 with
      cm := { timeBase := 3000#48, due := ⟨[]⟩, sightStart := 0#48 }
      ci := { running.ci with held := { running.ci.held with profiles := ⟨[(1, { prof with period := 0 })]⟩ } } } = .next u ∧
    u.cm.due.find? 192 = some 6000#48 ∧ (u.profile 1).tolerance = 5 := ⟨_, rfl, by decide +kernel⟩

/-! ## Witnesses: for each statement with hypotheses, states and operands that meet them, clause by clause -/

theorem witness_StepRunsTheFrontCommand :
    ({ running with pending := [.ping] } : State).pending = .ping :: [] ∧ running.pending = [] := by decide
/-- BLIND with an empty queue. -/
def blindNow : State := { running with oq := { running.oq with coverage := .blind } }
theorem witness_EndOfEventKeepsTheLink : (listed.flow 192).checkOk = true ∧ blindNow.ci.part = .running ∧
    blindNow.oq.coverage = .blind ∧ blindNow.oq.queue = [] ∧ blindNow.oq.lossMark = false := by decide +kernel
theorem witness_EndOfEventKeepsTheLink_threshold : running.dirtyCount < listed.dirtyCount ∧
    { listed with ci := cleanThreshold.ci }.ThresholdStands ∧ blindNow.BlindEnds ∧ ¬ running.BlindEnds ∧
    ¬ running.ThresholdStands := by
  unfold State.ThresholdStands State.BlindEnds; decide +kernel
theorem witness_ResetNHoldsAndReleasesEveryBlock :
    (asking running (.forwarded (write 8#27))).fp.request = some (.forwarded (write 8#27)) ∧
    (asking running (.injected (write 8#27) true)).fp.request = some (.injected (write 8#27) true) ∧
    running.fp.request = none ∧ (returning running .switchSide).fp.ret = some (reading .switchSide) ∧
    (returning running .job).fp.ret = some (reading .job) ∧ (reading .job).owner ≠ .switchSide ∧ running.fp.ret = none ∧
    State.reset.ci.part = .offline ∧ running.ci.part ≠ .offline := by decide +kernel
theorem witness_TimeBaseFollowsTheReference : running.ci.part ≠ .offline ∧ State.reset.ci.part = .offline ∧
    (Instr.enqueue ≠ .timeBaseAdvance ∧ Instr.enqueue ≠ .resetNAsserted) := by decide
theorem witness_TimeBaseFollowsTheReference_step :
    exec .enqueue running = .next running ∧ ∀ straps, Instr.enqueue ≠ .resetNReleased straps :=
  ⟨rfl, fun _ h => by cases h⟩
theorem witness_TimesCompareModulo : (0#48 : Time) ≠ 0x7FFFFFFFFFFF#48 ∧ (0#48 - 0x7FFFFFFFFFFF#48).toNat ≠ 2 ^ 47 := by decide
/-- A state whose job waits behind a starvation count of n. -/
def starving (n : Nat) : State :=
  { working running .status [write 16#27] false with fp := { running.fp with starvation := n } }
theorem witness_SlotGrantFollowsTheGrantRule :
    (Instr.slotGrant (some (write 8#27))).wellFormed = true ∧ running.fp.slPort = none ∧
    (asking running (.forwarded (write 8#27))).fp.request ≠ none ∧ running.fp.request = none ∧
    running.waitingInjection = none ∧ (starving 15).waitingInjection = some (write 16#27) ∧
    (starving 15).fp.starvation < 16 ∧ (starving 16).waitingInjection = some (write 16#27) ∧
    16 ≤ (starving 16).fp.starvation ∧ (Instr.slotGrant none).wellFormed = true := by decide +kernel
theorem witness_ForwardedWriteChangesExactlyItsBytes :
    (asking running (.forwarded (.singleWrite 8#27 1 2#8))).fp.request = some (.forwarded (.singleWrite 8#27 1 2#8)) ∧
    (Transaction.singleWrite 8#27 1 2#8).isRead = false ∧
    (asking running (.forwarded (.burstWrite 0x7FFFFE0#27 1 2 3 4))).fp.request
      = some (.forwarded (.burstWrite 0x7FFFFE0#27 1 2 3 4)) ∧
    (Transaction.burstWrite 0x7FFFFE0#27 1 2 3 4).isRead = false := by decide +kernel
theorem witness_ForwardedReadTakesTheReturnDirection :
    (asking running (.forwarded (.burstRead 32#27 3#2))).fp.request = some (.forwarded (.burstRead 32#27 3#2)) ∧
    (Transaction.burstRead 32#27 3#2).isRead = true ∧ (Transaction.singleRead 8#27).isRead = true ∧
    (asking running (.forwarded (.burstRead 32#27 3#2))).fp.ret = none ∧
    (asking (returning running .job) (.forwarded (.singleRead 8#27))).fp.ret ≠ none := by decide +kernel
theorem witness_ReadsHandOverTheirDirections :
    (returning running .switchSide).fp.ret = some (reading .switchSide) ∧ (reading .switchSide).owner = .switchSide ∧
    (asking running (.injected (.singleRead 8#27) false)).fp.request = some (.injected (.singleRead 8#27) false) ∧
    (asking running (.injected (.singleRead 8#27) true)).fp.request = some (.injected (.singleRead 8#27) true) ∧
    (asking running (.injected (.singleRead 8#27) true)).fp.ret = none := by decide +kernel
theorem witness_InjectedWriteCompletesItsTransaction (r : ReturnRead)
    (h : (asking (working running .retire [write 8#27] true) (.injected (write 8#27) true)).fp.ret = some r) :
    r.owner = .switchSide := by cases h
theorem witness_InjectedWriteCompletesItsTransaction_jobs :
    (asking (working running .retire [write 8#27] true) (.injected (write 8#27) true)).fp.request
      = some (.injected (write 8#27) true) ∧ (write 8#27).isRead = false ∧
    (∀ k ∈ [JobKind.load, .status, .interrogate, .retire, .drain],
      (working running k [write 8#27] true).rw.job = some { kind := k, todo := [write 8#27], started := true }) ∧
    [write 8#27].tail = [] ∧ [write 8#27, write 16#27].tail ≠ [] := by decide +kernel
theorem witness_InjectedReadCompletesItsTransaction :
    (returning (working running .load [.singleRead 8#27] true) .job).fp.ret = some (reading .job) ∧
    (reading .job).owner ≠ .switchSide ∧ (reading .dropped).owner = .dropped ∧
    (returning (working running .load [.singleRead 8#27] true) .job).rw.job
      = some { kind := .load, todo := [.singleRead 8#27], started := true } := by decide +kernel
theorem witness_MemoryChangesOnlyWhenTaken : exec .enqueue running = .next running := rfl
theorem witness_RingWindowsCoverTheirSlots : running.findSlot 0x2000#27 = some (0, 0) ∧
    running.findSlot 0x21FF#27 = some (0, 15) ∧ running.findSlot 0x2200#27 = none ∧ running.findSlot 0x1FFF#27 = none ∧
    (running.ring 0).enabled = true := by decide +kernel
theorem witness_RingWindowsCoverTheirSlots_lower :
    { running with ci := { running.ci with held := { running.ci.held with
      rings := ⟨[(0, { enabled := true, base := 0x2000#27, slots := 16 }),
        (1, { enabled := true, base := 0x2200#27, slots := 16 })]⟩ } } }.findSlot 0x2200#27 = some (1, 0) := by
  decide +kernel
theorem witness_DecoderKeepsTheStatedShapes : running.findSlot 0x2008#27 = some (0, 0) ∧ (0x2008#27).toNat % 32 = 8 ∧
    running.findSlot 0x2018#27 = some (0, 0) ∧ (0x2018#27).toNat % 32 = 24 ∧ (1#8).getLsbD 0 = true ∧
    (2#8).getLsbD 0 = false ∧ running.findSlot 0x10004F8#27 = none ∧
    (0x10004F8#27).toNat = running.controlBase + 0x4F8 ∧ running.findSlot 0x1000500#27 = none ∧
    running.controlBase + 0x500 ≤ (0x1000500#27).toNat ∧ running.findSlot 0xFFFFF8#27 = none ∧
    (0xFFFFF8#27).toNat < running.controlBase := by decide +kernel
/-- A dequeue of slot 0 stands on the request direction, the queue holding n records. -/
def crowded (n : Nat) : State :=
  { asking running (.forwarded (.burstRead 0x2000#27 0#2)) with
    oq := { running.oq with queue := List.replicate n (record .dequeue 0x2000#27) } }
theorem witness_AdmittedObservationJoinsTheTail : (crowded 63).Takeable (.burstRead 0x2000#27 0#2) ∧
    (crowded 63).decode (.burstRead 0x2000#27 0#2) = some (.dequeue, some 0) ∧ (crowded 63).admits .dequeue = true ∧
    (crowded 63).oq.queue.length < 64 :=
  ⟨⟨rfl, fun _ => rfl⟩, by decide +kernel⟩
theorem witness_AdmittedObservationJoinsTheTail_not :
    (asking running (.forwarded (write 8#27))).Takeable (write 8#27) ∧
    ∀ b ring, (asking running (.forwarded (write 8#27))).decode (write 8#27) = some (b, ring) →
      (asking running (.forwarded (write 8#27))).admits b = false :=
  ⟨⟨rfl, fun h => by cases h⟩, fun b ring h => by
    have hn : (asking running (.forwarded (write 8#27))).decode (write 8#27) = none := by decide +kernel
    rw [hn] at h; cases h⟩
theorem witness_AdmittedObservationJoinsTheTail_kinds : State.reset.ci.part = .offline ∧ { State.reset with ci := { State.reset.ci with part := .loading } }.ci.part = .loading ∧
    running.ci.part = .running ∧ running.oq.coverage = .sighted ∧ { running.oq with coverage := .blind }.coverage = .blind ∧ { running.oq with coverage := .paused }.coverage = .paused := by
  decide +kernel
theorem witness_FullQueueLosesTheObservation : (crowded 64).Takeable (.burstRead 0x2000#27 0#2) ∧
    (crowded 64).decode (.burstRead 0x2000#27 0#2) = some (.dequeue, some 0) ∧ (crowded 64).admits .dequeue = true ∧
    64 ≤ (crowded 64).oq.queue.length ∧ (crowded 64).ci.part = .running ∧ (crowded 64).oq.coverage = .sighted ∧
    (crowded 64).alarmOn .blind = true ∧ ((crowded 64).alarm .blind).raised = false :=
  ⟨⟨rfl, fun _ => rfl⟩, by decide +kernel⟩
/-- A loss owed a reload, with the loss mark set on an empty queue. -/
def lossy : State := { listed with oq := { listed.oq with lossMark := true, reloadOwed := true } }
/-- A head record that follows a loss. -/
def lossyHead : State :=
  { listed with oq := { listed.oq with queue := [{ record .dequeue 0x2000#27 with followsLoss := true }] } }
theorem witness_CoverageSweepWithholdsJudgement : lossy.tt.wf .empty = true ∧ lossy.emptySweepDue = true ∧
    lossy.oq.reloadOwed = true ∧ lossy.ci.load = none ∧ lossyHead.headSweepDue = true ∧ lossyHead.oq.reloadOwed = false ∧
    (lossy.flow 192).checkOk = true ∧ (lossy.flow 192).valid = true ∧ (lossy.flow 0).valid = false ∧
    { lossy with ci := (loading (.reload .command) 8).ci }.ci.load ≠ none := by decide +kernel
theorem witness_CoverageSweepWithholdsJudgement_head : running.oq.queue = [] ∧
    lossyHead.oq.queue = { record .dequeue 0x2000#27 with followsLoss := true } :: [] ∧
    { record .dequeue 0x2000#27 with followsLoss := true }.followsLoss = true ∧ lossyHead.oq.headSwept = false ∧
    { lossyHead.oq with headSwept := true }.headSwept = true ∧ (record .dequeue 0x2000#27).followsLoss = false ∧
    (∀ r ∈ [loaded 8 0], (record .dequeue 0x2000#27).place ≤ r.place) ∧ (reading .job).place = 0 := by decide +kernel
theorem witness_DiscardAtHeadOnlyRemovesTheRecord :
    (headed running .dequeue 0x4000#27).headReady = some (record .dequeue 0x4000#27) ∧
    (record .dequeue 0x4000#27).body.isControl = false ∧ (headed running .dequeue 0x4000#27).findSlot 0x4000#27 = none := by
  decide +kernel
theorem witness_KeyGivesSetAndProfile : (running.classifierEntry 0).enabled = true ∧
    (running.classifierEntry 0).portMask.getLsbD 15 = true ∧
    (3#20 &&& (running.classifierEntry 0).tagMask = (running.classifierEntry 0).tagValue &&& (running.classifierEntry 0).tagMask) ∧
    ∀ n < 32, (State.reset.classifierEntry n).matchesKey 0#4 3#20 = false := by decide +kernel
/-- An ENQUEUE of the listed key at slot 15. -/
def arriving (s : State) (copy : BitVec 4) : State :=
  headed s (.enqueue 5#4 0x4A3C7#20 copy 10#16 true) 0x21E0#27
theorem witness_EnqueueOfAListedFlow :
    (arriving listed 0#4).headReady = some (record (.enqueue 5#4 0x4A3C7#20 0#4 10#16 true) 0x21E0#27) ∧
    (arriving listed 0#4).findSlot 0x21E0#27 = some (0, 15) ∧ (arriving listed 0#4).slot 0 15 = .empty ∧
    (∀ w < 4, ((arriving listed 0#4).flow (flowIndex (setIndex 5#4 0x4A3C7#20) w)).checkOk = true) ∧
    (arriving listed 0#4).hitWay (setIndex 5#4 0x4A3C7#20) 5#4 0x4A3C7#20 = some 0 ∧
    ((arriving listed 0#4).profileOf entry).period ≠ 0 := by decide +kernel
theorem witness_EnqueueOfAListedFlow_hit : (listed.flow 192).state ≠ .vacant ∧
    (arriving listed 0#4).HitsAt 5#4 0x4A3C7#20 0 ∧ 192 = 4 * setIndex 5#4 0x4A3C7#20 + 0 ∧
    (∀ w < 4, ((arriving listed 0#4).flow (4 * setIndex 5#4 0x4A3C7#20 + w)).checkOk = true) ∧
    ¬ (arriving listed 0#4).HitsAt 5#4 0x4A3C7#20 1 := by
  unfold State.HitsAt; decide +kernel
/-- An arrival far ahead confirms drops at the threshold of 1; one in order confirms none. -/
theorem witness_EnqueueOfAListedFlow_burst : prof.gapThreshold ≠ 0 ∧
    prof.gapThreshold ≤ (entry.evaluate prof 15#16 true).2 ∧ (entry.evaluate prof 10#16 true).2 < prof.gapThreshold := by
  decide +kernel
/-- `listed` with a zero period, its flow SILENT. -/
def silentPeriodless : State :=
  { withEntry { entry with state := .silent, due := none } with
    cm := { CadenceMonitor.atReset with timeBase := 3000#48 }
    ci := { running.ci with held := { running.ci.held with profiles := ⟨[(1, { prof with period := 0 })]⟩ } } }
theorem witness_EnqueueOfAListedFlow_silent :
    (arriving silentPeriodless 0#4).headReady = some (record (.enqueue 5#4 0x4A3C7#20 0#4 10#16 true) 0x21E0#27) ∧
    (arriving silentPeriodless 0#4).hitWay (setIndex 5#4 0x4A3C7#20) 5#4 0x4A3C7#20 = some 0 ∧
    (((silentPeriodless.flow 192).evaluate { prof with period := 0 } 10#16 true).1.state = .silent) ∧
    (silentPeriodless.profileOf (silentPeriodless.flow 192)).period = 0 := by decide +kernel
theorem witness_EnqueueFillsItsSlot :
    (arriving running 1#4).headReady = some (record (.enqueue 5#4 0x4A3C7#20 1#4 10#16 true) 0x21E0#27) ∧
    (arriving running 1#4).findSlot 0x21E0#27 = some (0, 15) ∧
    (∀ w < 4, ((arriving running 1#4).flow (flowIndex (setIndex 5#4 0x4A3C7#20) w)).checkOk = true) ∧
    (arriving running 1#4).hitWay (setIndex 5#4 0x4A3C7#20) 5#4 0x4A3C7#20 = none ∧ (1#4 : BitVec 4) ≠ 0#4 := by
  decide +kernel
theorem witness_EnqueueFillsItsSlot_cases :
    (arriving listed 1#4).headReady = some (record (.enqueue 5#4 0x4A3C7#20 1#4 10#16 true) 0x21E0#27) ∧
    (arriving running 0#4).headReady = some (record (.enqueue 5#4 0x4A3C7#20 0#4 10#16 true) 0x21E0#27) ∧
    (arriving listed 1#4).HitsAt 5#4 0x4A3C7#20 0 ∧ (∀ x < 4, ¬ (arriving running 0#4).HitsAt 5#4 0x4A3C7#20 x) ∧
    running.ci.held.freeze = false ∧ (running.profile (running.classify 5#4 0x4A3C7#20)).tracked = true ∧
    { running.ci.held with freeze := true }.freeze = true ∧ State.reset.classify 5#4 0x4A3C7#20 = 0 ∧
    (State.reset.profile 0).tracked = false ∧ ((arriving running 0#4).flow 192).checkOk = true := by
  unfold State.HitsAt; decide +kernel
/-- Set 48 full of valid entries, all dirty or all clean, with n retire records and a pin count. -/
def fullSet (dirty : Bool) (n pin : Nat) : State :=
  let e := { entry with dirty := dirty }
  let t := retiring running n
  { t with
    ft := { t.ft with flows := ⟨[(192, e), (193, { e with port := 1#4 }), (194, { e with port := 2#4 }), (195, { e with port := 3#4 })]⟩ }
    ci := { t.ci with held := { t.ci.held with pinCount := pin } } }
theorem witness_AllocationFillsOrFails : (fullSet true 7 3).ci.held.pinCount ≤ 3 ∧
    (∀ x < 4, ((fullSet true 7 3).flow (flowIndex 48 x)).valid = true) ∧ (listed.flow (flowIndex 48 1)).valid = false ∧
    (running.profile (running.classify 0#4 0x30#20)).tracked = true ∧ running.ci.held.freeze = false ∧
    (fullSet true 7 3).victimWay 48 = 3 ∧ (fullSet true 7 0).victimWay 48 = 0 ∧
    ((fullSet true 7 0).flow 192).valid = true ∧ ((fullSet true 7 0).flow 192).dirty = true ∧
    (fullSet true 7 0).ft.retire.length < 8 ∧ ((fullSet false 8 0).flow 192).dirty = false ∧
    8 ≤ (fullSet true 8 0).ft.retire.length ∧ (fullSet true 8 0).alarmOn .tableFull = true := by decide +kernel
theorem witness_EntryFaultVacatesTheEntry : ((withEntry { entry with checkOk := false }).flow 192).checkOk = false ∧
    listed.alarmOn .entryFault = true := by decide +kernel
theorem witness_ArrivalFallsInItsClass : signedDiff 8 10 10 = 0 ∧ signedDiff 8 11 10 = 1 ∧ signedDiff 8 15 10 = 5 ∧
    prof.jumpLimit = 5 ∧ signedDiff 8 16 10 = 6 ∧ signedDiff 8 9 10 = -(0 : Int) - 1 ∧ entry.window[0]? = some .received ∧
    signedDiff 8 8 10 = -(1 : Int) - 1 ∧ entry.window[1]? = some .missing ∧ signedDiff 8 7 10 = -(2 : Int) - 1 ∧
    entry.window[2]? = some .unawaited ∧ signedDiff 8 5 10 = -5 ∧ (-5 : Int) < -(prof.window : Int) ∧
    entry.staleRun + 1 < prof.staleLimit ∧ prof.staleLimit ≤ { entry with staleRun := 1 }.staleRun + 1 ∧
    entry.reanchor = false ∧ { entry with reanchor := true }.reanchor = true := by decide +kernel
theorem witness_EachClassMovesItsFields : entry.tally .accepted < 4294967295 ∧
    (∀ u ∈ [Tally.anchors, .inOrder, .ahead, .reorderedIn, .duplicates, .stale, .unsequenced], entry.tally u < 4294967295) ∧
    (true && prof.evaluates) = true ∧ (false && prof.evaluates) = false ∧ Tally.inOrder ∉ [Tally.accepted, .gapDrops] := by
  decide +kernel
theorem witness_ShiftMovesTheMarks : entry.window.length = 4 ∧ 1 ≤ 1 ∧
    shiftDrops 4 1 [.received, .missing, .unawaited, .received] = 0 ∧ shiftDrops prof.window 1 entry.window = 0 ∧
    shiftDrops prof.window 5 entry.window ≠ 0 := by decide +kernel
theorem witness_SignedDifferenceIsCentred : 1 ≤ 1 ∧ signedDiff 1 1 0 = -1 := by decide
theorem witness_DequeueActsBySlotState :
    (headed listed .dequeue 0x2000#27).headReady = some (record .dequeue 0x2000#27) ∧
    (headed listed .dequeue 0x2000#27).findSlot 0x2000#27 = some (0, 0) ∧ listed.slot 0 0 = .empty ∧
    (withSlot listed (.departing frame 200#48)).slot 0 0 = .departing frame 200#48 ∧
    (withSlot listed (.queued frame)).slot 0 0 = .queued frame ∧ frame.ref = .listed 192 3#8 ∧
    { frame with uncertain := true }.uncertain = true := by decide +kernel
theorem witness_CompletionActsBySlotAndCode :
    (headed listed (.completion 7#3) 0x2018#27).headReady = some (record (.completion 7#3) 0x2018#27) ∧
    (headed listed (.completion 7#3) 0x2018#27).findSlot 0x2018#27 = some (0, 0) ∧ (7#3 : BitVec 3) ≠ 0#3 ∧
    listed.slot 0 0 = .empty ∧ (withSlot listed (.queued frame)).slot 0 0 ≠ .empty ∧ (listed.flow 192).checkOk = true ∧
    (listed.flow 192).valid = true ∧ (listed.flow 192).generation = 3#8 ∧ (listed.flow 192).generation ≠ 4#8 := by
  decide +kernel
theorem witness_OverwrittenFrameGetsItsVerdict : frame.ref = .listed 192 3#8 ∧ frame.uncertain = false ∧
    (withSlot listed (.queued frame)).slot 0 0 = .queued frame ∧ (listed.flow 192).checkOk = true ∧
    (withSlot listed (.departing frame 200#48)).slot 0 0 = .departing frame 200#48 ∧ listed.alarmOn .overrun = true ∧
    (listed.alarm .overrun).raised = false ∧
    (withSlot listed (.queued { frame with uncertain := true })).slot 0 0 = .queued { frame with uncertain := true } := by
  decide +kernel
/-- A frame of no flow, under profile 1. -/
def unlistedFrame : Frame := { frame with ref := .unlisted 1 }
theorem witness_OverwrittenFrameGetsItsVerdict_unlisted : listed.slot 0 1 = .empty ∧ unlistedFrame.ref = .unlisted 1 ∧
    (withSlot listed (.queued unlistedFrame)).slot 0 0 = .queued unlistedFrame ∧ unlistedFrame.uncertain = false ∧
    (withSlot listed (.departing unlistedFrame 200#48)).slot 0 0 = .departing unlistedFrame 200#48 := by decide +kernel
/-- `listed` with an entry that fails its check. -/
def failing : State := withEntry { entry with checkOk := false }
/-- Frames whose occupancy is gone: another generation, a VACANT entry, an entry that fails its check. -/
theorem witness_OverwrittenFrameGetsItsVerdict_orphan : { frame with ref := .listed 192 4#8 }.ref = .listed 192 4#8 ∧
    (listed.flow 192).checkOk = true ∧ (listed.flow 192).generation ≠ 4#8 ∧ (listed.flow 193).valid = false ∧
    (withSlot listed (.queued { frame with ref := .listed 192 4#8 })).slot 0 0 = .queued { frame with ref := .listed 192 4#8 } ∧
    (withSlot listed (.departing { frame with ref := .listed 193 3#8 } 200#48)).slot 0 0
      = .departing { frame with ref := .listed 193 3#8 } 200#48 ∧ State.reset.alarmOn .overrun = false ∧
    (failing.flow 192).checkOk = false ∧ (withSlot failing (.queued frame)).slot 0 0 = .queued frame := by decide +kernel
/-- The orphan counts, and its OVERRUN fires with r × 256 + i (R88, R102). -/
theorem test_overrun_of_an_orphan : ∃ u,
    u = { withSlot listed .empty with tt := ⟨[(15, .queued { frame with ref := .listed 192 4#8 })]⟩ }.displace 0 15 ∧
    u.agg .orphanVerdicts = 1 ∧ (u.alarm .overrun).first = 15#32 ∧ u.flow 192 = entry := ⟨_, rfl, by decide +kernel⟩
theorem witness_CompletionActsBySlotAndCode_fails :
    (headed (withSlot failing (.queued frame)) (.completion 7#3) 0x2018#27).headReady = some (record (.completion 7#3) 0x2018#27) ∧
    (headed (withSlot failing (.queued frame)) (.completion 7#3) 0x2018#27).findSlot 0x2018#27 = some (0, 0) ∧
    ((headed (withSlot failing (.queued frame)) (.completion 7#3) 0x2018#27).flow 192).checkOk = false ∧
    (headed (withSlot failing (.queued frame)) (.completion 7#3) 0x2018#27).slot 0 0 = .queued frame := by decide +kernel
theorem witness_SentFrameIsJudgedOnResidence_unlisted : unlistedFrame.ref = .unlisted 1 ∧ listed.profile 1 = prof ∧
    prof.budget < ((401#48).toNat + 2 ^ 48 - unlistedFrame.enqueued.toNat) % 2 ^ 48 ∧
    ((400#48).toNat + 2 ^ 48 - unlistedFrame.enqueued.toNat) % 2 ^ 48 ≤ prof.budget ∧
    { frame with uncertain := true }.uncertain = true ∧ { frame with uncertain := true }.ref = .listed 192 3#8 := by
  decide +kernel
theorem witness_DepartureOrderIsChecked_not : { frame with copy := 1#4 }.copy ≠ 0#4 ∧
    { frame with sequence := none }.sequence = none ∧ (listed.flow 193).valid = false ∧
    (listed.profileOf (listed.flow 192)).watched.getLsbD 1 = false ∧ (listed.flow 192).checkOk = true := by decide +kernel
theorem witness_DepartureOrderIsChecked_fails : frame.ref = .listed 192 3#8 ∧ frame.uncertain = false ∧
    frame.copy = 0#4 ∧ frame.sequence = some 9#16 ∧ (failing.flow 192).checkOk = false := by decide +kernel
theorem witness_SentFrameIsJudgedOnResidence : listed.profileOf (listed.flow 192) = prof ∧ prof.watched.getLsbD 0 = true ∧
    prof.watched.getLsbD 1 = false ∧ 0 < prof.budget ∧ ((400#48).toNat + 2 ^ 48 - frame.enqueued.toNat) % 2 ^ 48 ≤ prof.budget ∧
    prof.budget < ((401#48).toNat + 2 ^ 48 - frame.enqueued.toNat) % 2 ^ 48 ∧
    prof.lateLimit = (listed.flow 192).lateRun + 1 ∧ (listed.flow 192).lateRun < 255 ∧ listed.alarmOn .lateRun = true ∧
    prof.lateLimit ≠ { entry with lateRun := 1 }.lateRun + 1 := by decide +kernel
theorem witness_DepartureOrderIsChecked : frame.copy = 0#4 ∧ frame.sequence = some 9#16 ∧ frame.uncertain = false ∧
    prof.evaluates = true ∧ prof.watched.getLsbD 0 = true ∧ 9 = (9#16).toNat % 2 ^ prof.width ∧
    (listed.flow 192).departed = some 4 ∧ 0 < signedDiff prof.width 9 (4 % 2 ^ prof.width) ∧
    signedDiff prof.width 9 (9 % 2 ^ prof.width) ≤ 0 ∧ { entry with departed := none }.departed = none := by decide +kernel
/-- `listed` while the part is BLIND. -/
def unsighted : State := { listed with oq := { listed.oq with coverage := .blind } }
theorem witness_ExpiryTakesTheEarliestDueFlow : risingFrom none listed.cm.due.cells = true ∧
    listed.dueHead = some (192, 3000#48) ∧ atOrAfter listed.cm.timeBase 3000#48 = true ∧ listed.oq.queue = [] ∧
    (listed.flow 192).checkOk = true ∧ (listed.flow 192).valid = true ∧
    atOrAfter (3000#48 - BitVec.ofNat 48 ((prof.period + prof.tolerance) * 1000)) listed.cm.sightStart = true ∧
    (listed.flow 192).misses + 1 < prof.silenceLimit ∧ prof.silenceLimit ≤ { entry with misses := 1 }.misses + 1 ∧
    listed.oq.coverage = .sighted ∧ unsighted.oq.coverage ≠ .sighted ∧ unsighted.dueHead = some (192, 3000#48) ∧
    atOrAfter { listed.cm with timeBase := 2999#48 }.timeBase 3000#48 = false ∧
    atOrAfter 3100#48 (record .dequeue 0#27).stamp = true := by decide +kernel
theorem witness_ExpiryTakesTheEarliestDueFlow_fails : failing.dueHead = some (192, 3000#48) ∧
    atOrAfter failing.cm.timeBase 3000#48 = true ∧ failing.oq.queue = [] ∧ (failing.flow 192).checkOk = false := by
  decide +kernel
theorem witness_TriggerFollowsItsTable : State.reset.alarmOn .blind = false ∧ running.alarmOn .reportFull = true := by
  decide +kernel
/-- A command in flight. -/
def occupied : State := { running with ci := { running.ci with inFlight := some (.clearAll 5, 9#8) } }
theorem witness_ControlWriteMergesItsLanes :
    (commanded occupied 1 0).headReady = some (command 1 0) ∧ names (command 1 0).body.named 0 8 = true ∧
    occupied.ci.inFlight ≠ none ∧ (command 1 0).body.named.length = 4 ∧
    (headed running (control 0x80 5#64 3#8) 0x1000080#27).headReady = some (record (control 0x80 5#64 3#8) 0x1000080#27) ∧
    names (record (control 0x80 5#64 3#8) 0x1000080#27).body.named 0 8 = false ∧
    ((commanded occupied 1 0).mergedWith (command 1 0)).imageByte 0 ≠ occupied.ci.lastTag := by decide +kernel
/-- A globals write clears monitoring, one sets it, one pins 4 ways. -/
def clearing : State := headed running (control 8 0#64 0x05#8) 0x1000008#27
/-- Monitoring is off and the part PAUSED when a write sets it. -/
def resuming : State :=
  { headed running (control 8 1#64 1#8) 0x1000008#27 with
    oq := { coverage := .paused, queue := [record (control 8 1#64 1#8) 0x1000008#27], lossMark := false, firstLost := none, reloadOwed := false, headSwept := false }
    ci := { running.ci with held := { running.ci.held with monitoring := false } } }
theorem witness_GlobalsWriteHoldsWhatItNames : clearing.controlReady = some (record (control 8 0#64 0x05#8) 0x1000008#27) ∧
    names (record (control 8 0#64 0x05#8) 0x1000008#27).body.named 8 8 = true ∧
    names (record (control 8 0#64 0x05#8) 0x1000008#27).body.named 0 8 = false ∧ clearing.ci.held.monitoring = true ∧
    clearing.ci.part = .running ∧ resuming.controlReady = some (record (control 8 1#64 1#8) 0x1000008#27) ∧
    resuming.oq.coverage = .paused ∧ resuming.ci.held.monitoring = false ∧
    (∀ c ∈ (record (control 8 0x0400#64 2#8) 0x1000008#27).body.named, c.1 = 9) ∧ (lane 0x0400#64 1).toNat = 4 := by
  decide +kernel
/-- `resuming` with flow 192, a frame in slot 0 and a reload owed: the sweep reaches all three; `clearing` is no resume. -/
def resumingFrames : State :=
  { resuming with
    ft := listed.ft
    tt := ⟨[(0, .queued frame)]⟩
    oq := { resuming.oq with reloadOwed := true } }
theorem witness_GlobalsWriteHoldsWhatItNames_resumes :
    resumingFrames.controlReady = some (record (control 8 1#64 1#8) 0x1000008#27) ∧
    resumingFrames.Resumes (resumingFrames.afterSettings (record (control 8 1#64 1#8) 0x1000008#27)) ∧
    ¬ clearing.Resumes (clearing.afterSettings (record (control 8 0#64 0x05#8) 0x1000008#27)) ∧
    (∀ c ∈ (record (control 8 1#64 1#8) 0x1000008#27).body.named, 8 ≤ c.1 ∧ c.1 < 0x80) ∧
    (resumingFrames.flow 192).valid = true ∧ (resumingFrames.flow 192).checkOk = true ∧
    (failing.flow 192).checkOk = false ∧ resumingFrames.tt.wf .empty = true ∧ resumingFrames.ci.load = none ∧
    risingFrom none resumingFrames.ft.flows.cells = true := by
  unfold State.Resumes; decide +kernel
/-- Monitoring set while PAUSED re-anchors, doubts and starts the owed reload (R23, R24). -/
theorem test_resume_sweeps : ∃ u, exec .globalsWrite resumingFrames = .next u ∧ (u.flow 192).reanchor = true ∧
    u.slot 0 0 = .queued { frame with uncertain := true } ∧ u.agg .configReloads = 1 ∧ u.oq.coverage = .sighted :=
  ⟨_, rfl, by decide +kernel⟩
/-- A mask that keeps OVERRUN on and switches GAP_BURST off. -/
theorem witness_GlobalsWriteHoldsWhatItNames_mask : ∃ u,
    u = clearing.popHead.applySettings (record (control 8 (0x04#64 <<< 16) 4#8) 0x1000008#27).body.named ∧
    clearing.alarmOn .gapBurst = true ∧ u.alarmOn .gapBurst = false ∧ u.alarmOn .overrun = true := ⟨_, rfl, by decide +kernel⟩
/-- A globals write at its boundary: the interval alone, the threshold alone. -/
theorem witness_GlobalsWriteHoldsWhatItNames_alone :
    (∀ c ∈ (record (control 8 (1#64 <<< 32) 0x30#8) 0x1000008#27).body.named, 12 ≤ c.1 ∧ c.1 < 14) ∧
    (∀ c ∈ (record (control 8 (0x0401#64 <<< 48) 0xC0#8) 0x1000008#27).body.named, 14 ≤ c.1 ∧ c.1 < 16) ∧
    names (record (control 8 (1#64 <<< 32) 0x30#8) 0x1000008#27).body.named 8 8 = true ∧
    names (record (control 8 (0x0401#64 <<< 48) 0xC0#8) 0x1000008#27).body.named 8 8 = true ∧
    (headed listed (control 8 (1#64 <<< 48) 0xC0#8) 0x1000008#27).controlReady
      = some (record (control 8 (1#64 <<< 48) 0xC0#8) 0x1000008#27) ∧
    running.ci.held.interval ≠ 1 ∧ running.rw.intervalFired = false ∧
    atOrAfter 1000000#48 (running.rw.intervalBase + BitVec.ofNat 48 (1 * 1000000)) = true ∧
    atOrAfter 999999#48 (running.rw.intervalBase + BitVec.ofNat 48 (1 * 1000000)) = false ∧
    listed.ci.held.dirtyThreshold ≠ 1 ∧ 1 ≤ listed.dirtyCount ∧ running.dirtyCount < 1 ∧
    (lane (0x0401#64 <<< 48) 6).toNat + 256 * (lane (0x0401#64 <<< 48) 7).toNat = 1025 := by decide +kernel
/-- A stalled drain on a full ring meets a consume index. -/
def draining (s : State) (v : Nat) : State :=
  { headed s (control 0x80 (BitVec.ofNat 64 v) 3#8) 0x1000080#27 with
    rw := { s.rw with drain := .stalled, produce := 479 } }
theorem witness_ConsumeIndexWriteFreesTheRing : ∀ v ∈ [0, 479, 480],
    (draining running v).controlReady = some (record (control 0x80 (BitVec.ofNat 64 v) 3#8) 0x1000080#27) ∧
    names (record (control 0x80 (BitVec.ofNat 64 v) 3#8) 0x1000080#27).body.named 0x80 2 = true ∧
    (draining running v).rw.drain = .stalled ∧ (draining running v).ringFull = true ∧
    ∀ c ∈ (record (control 0x80 (BitVec.ofNat 64 v) 3#8) 0x1000080#27).body.named, 0x80 ≤ c.1 ∧ c.1 < 0x100 := by
  decide +kernel
theorem witness_ConsumeIndexWriteFreesTheRing_next : { (draining running 5).rw with drainOwed := true }.drainOwed = true ∧
    (draining running 5).rw.drainOwed = false ∧ ¬ (draining running 5).ThresholdStands ∧
    5 ≠ (draining running 5).consume ∧ ((draining running 5).rw.produce + 1) % 480 ≠ 5 ∧ running.rw.drain ≠ .stalled := by
  unfold State.ThresholdStands; decide +kernel
/-- A write to ring 0's slot count, 32 for 16. -/
def resizing : State := headed running (control 0x100 0x0001002000002000#64 255#8) 0x1000100#27
theorem witness_RingGeometryWriteEvaluatesAllRings_slots (r : Nat) : (resizing.ring r).slots ≤ 256 := by
  have h : resizing.ci.held.rings.cells = [(0, { enabled := true, base := 0x2000#27, slots := 16 })] := rfl
  simp only [State.ring, Store.get, Store.find?, h, lookupCell]
  by_cases hr : 0 = r <;> simp [hr, initialRing]
theorem witness_RingGeometryWriteEvaluatesAllRings :
    resizing.controlReady = some (record (control 0x100 0x0001002000002000#64 255#8) 0x1000100#27) ∧
    names (record (control 0x100 0x0001002000002000#64 255#8) 0x1000100#27).body.named 0x100 256 = true ∧
    (∀ c ∈ (record (control 0x100 0x0001002000002000#64 255#8) 0x1000100#27).body.named, 0x100 ≤ c.1) ∧
    (resizing.mergedWith (record (control 0x100 0x0001002000002000#64 255#8) 0x1000100#27)).imageByte 0x104
      ≠ resizing.imageByte 0x104 := by decide +kernel
/-- The write to ring 0 finds two frames of flow 192 and one of no flow in its slots. -/
def resizingFrames : State :=
  { resizing with
    ft := listed.ft
    tt := ⟨[(0, .queued frame), (1, .queued unlistedFrame), (15, .departing frame 200#48)]⟩ }
theorem witness_RingGeometryWriteEvaluatesAllRings_lost :
    (∀ c ∈ (record (control 0x100 0x0001002000002000#64 255#8) 0x1000100#27).body.named, 0x100 ≤ c.1 ∧ c.1 < 0x200) ∧
    resizingFrames.controlReady = some (record (control 0x100 0x0001002000002000#64 255#8) 0x1000100#27) ∧
    resizingFrames.lostFrames
      (resizingFrames.afterSettings (record (control 0x100 0x0001002000002000#64 255#8) 0x1000100#27)) 192 3#8 = 2 ∧
    ((resizingFrames.afterSettings (record (control 0x100 0x0001002000002000#64 255#8) 0x1000100#27)).flow 192).tally
      .unresolved = 2 := by decide +kernel
/-- A write to ring 1 of base 0x1000010, slot count 20 and enable: each is clamped, the enable last (R164, R165). -/
def clampingRing : Observation := record (control 0x110 0x0001001401000010#64 255#8) 0x1000110#27
theorem witness_RingGeometryWriteEvaluatesAllRings_clamps :
    (headed running clampingRing.body 0x1000110#27).controlReady = some clampingRing ∧
    (∀ c ∈ clampingRing.body.named, 0x100 ≤ c.1 ∧ c.1 < 0x200) ∧
    ∃ u, u = (headed running clampingRing.body 0x1000110#27).afterSettings clampingRing ∧
      (ringClamps clampingRing.body.named (headed running clampingRing.body 0x1000110#27) u 1).length = 3 ∧
      u.ci.lastClamp = some { offset := 0x116, field := 12, written := 1, held := 0, time := 0#48 } ∧
      u.agg .clampedFields = 3 :=
  ⟨by decide +kernel, by decide +kernel, _, rfl, by decide +kernel⟩
/-- A lost frame whose entry fails its check. -/
theorem witness_RingGeometryWriteEvaluatesAllRings_fails :
    ({ resizingFrames with ft := failing.ft }.flow 192).checkOk = false ∧
    { resizingFrames with ft := failing.ft }.lostFrames
      (resizingFrames.afterSettings (record (control 0x100 0x0001002000002000#64 255#8) 0x1000100#27)) 192 3#8 ≠ 0 := by
  decide +kernel
/-- A write to profile 15 of width 9, window 33 and stale limit 16: each is clamped, the stale limit last but for the jump
limit, which is read again (R164, log 19). -/
def clampingProfile : Observation := record (control 0x3E0 0x10210903#64 15#8) 0x10003E0#27
theorem witness_ProfileWritesHoldWhatTheyName_clamps :
    (headed running clampingProfile.body 0x10003E0#27).controlReady = some clampingProfile ∧
    (∀ c ∈ clampingProfile.body.named, 0x200 ≤ c.1 ∧ c.1 < 0x400) ∧
    ∃ u, u = (headed running clampingProfile.body 0x10003E0#27).afterSettings clampingProfile ∧
      (profileClamps clampingProfile.body.named (headed running clampingProfile.body 0x10003E0#27) u 15).length = 4 ∧
      u.ci.lastClamp = some { offset := 0x3E4, field := 6, written := 0, held := 32, time := 0#48 } ∧
      u.agg .clampedFields = 4 :=
  ⟨by decide +kernel, by decide +kernel, _, rfl, by decide +kernel⟩
/-- A write of profile 1's window size meets an entry that fails its check. -/
theorem witness_ProfileWritesHoldWhatTheyName_fails :
    ((headed failing (control 0x220 (2#64 <<< 16) 4#8) 0x1000220#27).flow 192).checkOk = false ∧
    (running.profile 1).window ≠ (((headed failing (control 0x220 (2#64 <<< 16) 4#8) 0x1000220#27).afterSettings
      (record (control 0x220 (2#64 <<< 16) 4#8) 0x1000220#27)).profile 1).window := by decide +kernel
theorem witness_ProfileWritesHoldWhatTheyName :
    (headed running (control 0x3E0 0x0909#64 3#8) 0x10003E0#27).controlReady
      = some (record (control 0x3E0 0x0909#64 3#8) 0x10003E0#27) ∧
    names (record (control 0x3E0 0x0909#64 3#8) 0x10003E0#27).body.named (0x200 + 32 * 15 + 1) 1 = true ∧
    names (record (control 0x3E0 0x0909#64 3#8) 0x10003E0#27).body.named (0x400 + 8 * 31) 8 = false ∧
    names (record (control 0x4F8 1#64 255#8) 0x10004F8#27).body.named (0x400 + 8 * 31) 8 = true := by decide +kernel
/-- A write of profile 1: the window size, and the period 0. -/
theorem witness_ProfileWritesHoldWhatTheyName_entries :
    (headed listed (control 0x220 (2#64 <<< 16) 4#8) 0x1000220#27).controlReady
      = some (record (control 0x220 (2#64 <<< 16) 4#8) 0x1000220#27) ∧
    (∀ c ∈ (record (control 0x220 (2#64 <<< 16) 4#8) 0x1000220#27).body.named, 0x200 ≤ c.1 ∧ c.1 < 0x400) ∧
    (∀ c ∈ (record (control 0x228 0#64 3#8) 0x1000228#27).body.named, 0x200 ≤ c.1 ∧ c.1 < 0x400) ∧
    (listed.flow 192).checkOk = true ∧ (listed.flow 192).valid = true ∧ (listed.flow 192).state = .tracking ∧
    (listed.profile entry.profile).period ≠ 0 ∧ (listed.flow 0).valid = false ∧
    (((headed listed (control 0x220 (2#64 <<< 16) 4#8) 0x1000220#27).afterSettings
      (record (control 0x220 (2#64 <<< 16) 4#8) 0x1000220#27)).flow 192).window = [.received, .missing] := by
  decide +kernel
theorem witness_CommandsAtTakeAnswerAtOnce (k : MailboxCommand) (code : Nat)
    (h : (k, code) ∈ [(MailboxCommand.ping, 1), (.snapshot, 6), (.alarmAck, 7), (.alarmHold, 8), (.alarmRelease, 9), (.unknown, 12)]) :
    (commanded listed code 0x81).TakesCommand k (command code 0x81) (taken listed code 0x81) := by
  simp only [List.mem_cons, List.not_mem_nil, or_false, Prod.mk.injEq] at h
  rcases h with ⟨rfl, rfl⟩ | ⟨rfl, rfl⟩ | ⟨rfl, rfl⟩ | ⟨rfl, rfl⟩ | ⟨rfl, rfl⟩ | ⟨rfl, rfl⟩ <;>
    exact ⟨by decide +kernel, by decide +kernel, rfl⟩
/-- SNAPSHOT, CLEAR_FLOW, EVICT_FLOW and INTERROGATE meet an entry that fails its check. -/
theorem witness_failing_commands (k : MailboxCommand) (code : Nat)
    (h : (k, code) ∈ [(MailboxCommand.snapshot, 6), (.clearFlow, 2), (.evictFlow, 4), (.interrogate, 5)]) :
    (commanded failing code 192).TakesCommand k (command code 192) (taken failing code 192) ∧
    ((taken failing code 192).flow 192).checkOk = false ∧
    192 = ((taken failing code 192).imageByte 2).toNat + 256 * ((taken failing code 192).imageByte 3).toNat := by
  simp only [List.mem_cons, List.not_mem_nil, or_false, Prod.mk.injEq] at h
  rcases h with ⟨rfl, rfl⟩ | ⟨rfl, rfl⟩ | ⟨rfl, rfl⟩ | ⟨rfl, rfl⟩ <;>
    exact ⟨⟨by decide +kernel, by decide +kernel, rfl⟩, by decide +kernel, by decide +kernel⟩
theorem witness_FlowCommandsActOnTheirEntry (k : MailboxCommand) (code a : Nat)
    (h : (k, code, a) ∈ [(MailboxCommand.clearFlow, 2, 192), (.evictFlow, 4, 192), (.clearFlow, 2, 1024), (.evictFlow, 4, 1023)]) :
    (commanded (retiring listed 7) code a).TakesCommand k (command code a) (taken (retiring listed 7) code a) := by
  simp only [List.mem_cons, List.not_mem_nil, or_false, Prod.mk.injEq] at h
  rcases h with ⟨rfl, rfl, rfl⟩ | ⟨rfl, rfl, rfl⟩ | ⟨rfl, rfl, rfl⟩ | ⟨rfl, rfl, rfl⟩ <;>
    exact ⟨by decide +kernel, by decide +kernel, rfl⟩
theorem witness_FlowCommandsActOnTheirEntry_entries :
    192 = ((taken (retiring listed 7) 4 192).imageByte 2).toNat + 256 * ((taken (retiring listed 7) 4 192).imageByte 3).toNat ∧
    ((taken (retiring listed 7) 4 192).flow 192).checkOk = true ∧ ((taken (retiring listed 7) 4 192).flow 192).valid = true ∧
    ((taken (retiring listed 7) 4 192).flow 192).dirty = true ∧ (taken (retiring listed 7) 4 192).ft.retire.length < 8 ∧
    8 ≤ (taken (retiring listed 8) 4 192).ft.retire.length ∧ ((taken (retiring listed 7) 4 1023).flow 1023).valid = false ∧
    (commanded (retiring listed 8) 4 192).takesAs .evictFlow (command 4 192) = true ∧
    ((taken (withEntry { entry with dirty := false }) 4 192).flow 192).dirty = false := by decide +kernel
theorem witness_CommandsInFlightStart (k : MailboxCommand) (code a : Nat)
    (h : (k, code, a) ∈ [(MailboxCommand.clearAll, 3, 0), (.interrogate, 5, 192), (.interrogate, 5, 1024), (.reloadConfig, 10, 0), (.restart, 11, 0)]) :
    (commanded listed code a).TakesCommand k (command code a) (taken listed code a) := by
  simp only [List.mem_cons, List.not_mem_nil, or_false, Prod.mk.injEq] at h
  rcases h with ⟨rfl, rfl, rfl⟩ | ⟨rfl, rfl, rfl⟩ | ⟨rfl, rfl, rfl⟩ | ⟨rfl, rfl, rfl⟩ | ⟨rfl, rfl, rfl⟩ <;>
    exact ⟨by decide +kernel, by decide +kernel, rfl⟩
/-- A sweep's reload in progress. -/
def reloading : State := { running with ci := { running.ci with load := some { kind := .reload .sweep, issued := true } } }
theorem witness_CommandsInFlightStart_loads : (taken listed 10 0).ci.load = none ∧ (taken reloading 10 0).ci.load ≠ none ∧
    (commanded reloading 10 0).controlReady = some (command 10 0) ∧
    (commanded reloading 10 0).takesAs .reloadConfig (command 10 0) = true ∧
    ((taken listed 5 192).flow 192).checkOk = true := by decide +kernel
theorem witness_CommandsInFlightStart_link : (commanded listed 11 0).fp.request = none ∧
    (commanded listed 11 0).fp.ret = none := by decide +kernel
/-- A CLEAR_ALL walk at index n. -/
def walking (n : Nat) : State := { listed with ci := { listed.ci with inFlight := some (.clearAll n, 9#8) } }
theorem witness_WalkClearsEachEntryOnce : (walking 192).ci.inFlight = some (.clearAll 192, 9#8) ∧
    ((walking 192).flow 192).checkOk = true ∧ ((walking 192).flow 192).valid = true ∧
    (walking 1023).ci.inFlight = some (.clearAll 1023, 9#8) ∧ ((walking 1023).flow 1023).checkOk = true ∧
    (walking 1024).ci.inFlight = some (.clearAll 1024, 9#8) := by decide +kernel
theorem witness_WalkClearsEachEntryOnce_fails :
    { failing with ci := (walking 192).ci }.ci.inFlight = some (.clearAll 192, 9#8) ∧
    ({ failing with ci := (walking 192).ci }.flow 192).checkOk = false := by decide +kernel
theorem witness_LoadReadMergesItsWords :
    (loading .initial 0x80).ci.loadReads = loaded 0x80 3 :: [] ∧ (loading .initial 0x80).ci.load ≠ none ∧
    (loaded 0x80 3).offset ≠ 0 ∧ (loading .initial 0x80).oq.queue = [] ∧
    ({ offset := 0, words := [1#64, 2#64, 3#64, 4#64], place := 0 } : LoadRead).words.length ≠ 1 ∧
    (∀ o ∈ [record .dequeue 0#27], 0 ≤ o.place) := by decide +kernel
/-- The first block of a load, with monitoring and pin count 4; the consume word; a block of rings and one of profiles. -/
def block (o : Nat) (w : Word) : LoadRead := { offset := o, words := [w, w, 0#64, 0#64], place := 3 }
theorem witness_LoadReadMergesItsWords_names : names (block 0 0x0401#64).bytes 8 8 = true ∧
    (∀ c ∈ (block 0 0x0401#64).bytes, 8 ≤ c.1 ∧ c.1 < 0x80) ∧ names (loaded 0x80 3).bytes 0x80 2 = true ∧
    (∀ c ∈ (loaded 0x80 3).bytes, 0x80 ≤ c.1 ∧ c.1 < 0x100) ∧ names (block 0x1E0 0#64).bytes 0x100 256 = true ∧
    (∀ c ∈ (block 0x1E0 0#64).bytes, 0x100 ≤ c.1 ∧ c.1 < 0x200) ∧
    (∀ c ∈ (block 0x3E0 0#64).bytes, 0x200 ≤ c.1 ∧ c.1 < 0x400) := by decide +kernel
/-- A load read of the globals holds the pin count 4 as 3, and counts it. -/
theorem test_load_read_clamps : ∃ u,
    exec .loadReadApply { loading .initial 0 with ci := { (loading .initial 0).ci with loadReads := [block 0 0x0401#64] } } = .next u ∧
    u.ci.held.pinCount = 3 ∧ u.agg .clampedFields = 1 ∧
    u.ci.lastClamp = some { offset := 9, field := 1, written := 4, held := 3, time := 0#48 } := ⟨_, rfl, by decide +kernel⟩
theorem witness_LoadReadMergesItsWords_waits : running.ci.loadReads = [] ∧
    (loading .initial 0x80).ci.loadReads = loaded 0x80 3 :: [] ∧
    (∃ o ∈ [record .dequeue 0x2000#27], o.place < (loaded 0x80 3).place) ∧
    (headed running .dequeue 0x2000#27).oq.queue = record .dequeue 0x2000#27 :: [] ∧
    (∃ r ∈ [loaded 0x80 3], r.place < { record .dequeue 0x2000#27 with place := 4 }.place) ∧
    (returning running .job).fp.ret = some (reading .job) ∧ (reading .job).owner = .job ∧
    (reading .job).place < { record .dequeue 0x2000#27 with place := 1 }.place := by decide +kernel
theorem witness_CommandWordReadEndsTheLoad :
    (loading .initial 0).ci.loadReads = loaded 0 3 :: [] ∧
    (loading .initial 0).ci.load = some { kind := .initial, issued := true } ∧ (loaded 0 3).words = [0x0909#64] ∧
    (loading (.reload .command) 0).ci.load = some { kind := .reload .command, issued := true } ∧
    (loading .initial 0).ci.held.monitoring = true ∧ (loading .initial 0).oq.lossMark = false ∧ lossy.oq.lossMark = true ∧
    State.reset.ci.held.monitoring = false := by decide +kernel
theorem witness_CommandWordReadEndsTheLoad_inFlight :
    { loading .initial 0 with ci := { (loading .initial 0).ci with inFlight := some (.restart, 4#8) } }.ci.inFlight
      = some (.restart, 4#8) ∧
    { loading (.reload .command) 0 with
      ci := { (loading (.reload .command) 0).ci with inFlight := some (.reloadConfig, 4#8) } }.ci.inFlight
      = some (.reloadConfig, 4#8) := by decide +kernel
/-- An INITIAL load that ends with a loss at an address. -/
def loadingLoss : State :=
  { loading .initial 0 with
    oq := { running.oq with lossMark := true, firstLost := some 0x2000#27 } }
theorem witness_CommandWordReadEndsTheLoad_blind : loadingLoss.ci.loadReads = loaded 0 3 :: [] ∧
    loadingLoss.ci.held.monitoring = true ∧ loadingLoss.oq.lossMark = true ∧ loadingLoss.oq.firstLost = some 0x2000#27 ∧
    loadingLoss.alarmOn .blind = true ∧ (loadingLoss.alarm .blind).raised = false ∧ State.reset.alarmOn .blind = false := by
  decide +kernel
/-- An interval of 1 ms that ends at the time base. -/
def timed (d : DrainState) (now : Time) : State :=
  { running with
    cm := { CadenceMonitor.atReset with timeBase := now }
    rw := { running.rw with drain := d }
    ci := { running.ci with held := { running.ci.held with interval := 1 } } }
theorem witness_IntervalExpiryTriggersADrain : (timed .idle 1000000#48).ci.part = .running ∧
    (timed .idle 1000000#48).ci.held.interval ≠ 0 ∧ (timed .idle 1000000#48).rw.intervalFired = false ∧
    true = atOrAfter (timed .idle 1000000#48).cm.timeBase ((timed .idle 1000000#48).rw.intervalBase
      + BitVec.ofNat 48 ((timed .idle 1000000#48).ci.held.interval * 1000000)) ∧
    (timed .idle 1000000#48).rw.drain = .idle ∧ (timed .stalled 1000000#48).rw.drain ≠ .idle ∧
    false = atOrAfter (timed .idle 999999#48).cm.timeBase ((timed .idle 999999#48).rw.intervalBase
      + BitVec.ofNat 48 ((timed .idle 999999#48).ci.held.interval * 1000000)) := by decide +kernel
/-- An INTERROGATE record waits for selection with P at p. -/
def interrogating (p : Nat) : State :=
  { running with rw := { running.rw with
      produce := p
      interrogate := some { type := .interrogate 4#8, index := 0, entry := entry, drainNumber := 0#16, time := 0#48 } } }
theorem witness_SelectionTakesHighestPriority : (working running .status [write 8#27] false).rw.job ≠ none ∧
    running.rw.job = none ∧ running.ci.load = none ∧
    { running with ci := { running.ci with load := some { kind := .initial, issued := false } } }.ci.load
      = some { kind := .initial, issued := false } ∧
    running.rw.statusPending = false ∧ { running.rw with statusPending := true }.statusPending = true ∧
    (interrogating 478).rw.interrogate ≠ none ∧ ((interrogating 478).rw.produce + 1) % 480 ≠ (interrogating 478).consume ∧
    ((interrogating 479).rw.produce + 1) % 480 = (interrogating 479).consume ∧ (retiring running 1).ft.retire ≠ [] ∧
    running.ft.retire = [] ∧ running.rw.drain ≠ .draining := by decide +kernel
theorem witness_SelectionTakesHighestPriority_drain :
    ({ listed with rw := { listed.rw with drain := .draining, budget := 1 } } : State).rw.drain = .draining ∧
    listed.rw.job = none ∧ listed.ft.retire = [] ∧ listed.rw.interrogate = none ∧ listed.rw.statusPending = false := by
  decide +kernel
/-- A drain in progress with a budget of one, P at p. -/
def reporting (p : Nat) : State := { listed with rw := { listed.rw with drain := .draining, budget := 1, produce := p } }
theorem witness_DrainStepTakesTheMostUrgentFlow : risingFrom none (reporting 0).ft.flows.cells = true ∧
    (reporting 0).rw.built ≠ (reporting 0).rw.budget ∧ ((reporting 479).rw.produce + 1) % 480 = (reporting 479).consume ∧
    ((reporting 478).rw.produce + 1) % 480 ≠ (reporting 478).consume ∧ (reporting 478).drainEligible 192 = true ∧
    ((reporting 478).flow 192).checkOk = true ∧
    (∀ j < 1024, (reporting 478).drainEligible j = true → j = 192) ∧
    (reporting 0).alarmOn .reportFull = true ∧ listed.rw.built = listed.rw.budget := by decide +kernel
/-- The chosen entry fails its check; a drain that ends with one owed, and with none. -/
theorem witness_DrainStepTakesTheMostUrgentFlow_fails :
    risingFrom none { reporting 0 with ft := failing.ft }.ft.flows.cells = true ∧
    { reporting 0 with ft := failing.ft }.drainEligible 192 = true ∧
    ({ reporting 0 with ft := failing.ft }.flow 192).checkOk = false ∧
    (∀ j < 1024, { reporting 0 with ft := failing.ft }.drainEligible j = true → j = 192) ∧
    { (reporting 0).rw with drainOwed := true }.drainOwed = true ∧ (reporting 0).rw.drainOwed = false ∧
    ¬ (reporting 0).ThresholdStands := by
  unfold State.ThresholdStands; decide +kernel
/-- `listed` with its expiry waiting: the state that meets the premises of the invariants. -/
def lawful : State := { listed with pending := [.expiry] }
theorem lawful_flow (i : Nat) : lawful.flow i = if i = 192 then entry else initialEntry := by
  have h : lawful.ft.flows.cells = [(192, entry)] := rfl
  simp only [State.flow, Store.get, Store.find?, h, lookupCell]
  by_cases hi : i = 192
  · simp [hi]
  · simp [hi, Ne.symm hi]
theorem lawful_ring (r : Nat) : lawful.ring r = if r = 0 then ⟨true, 0x2000#27, 16⟩ else initialRing := by
  have h : lawful.ci.held.rings.cells = [(0, ⟨true, 0x2000#27, 16⟩)] := rfl
  simp only [State.ring, Store.get, Store.find?, h, lookupCell]
  by_cases hr : r = 0
  · simp [hr]
  · simp [hr, Ne.symm hr]
theorem witness_Steps : ∃ u, step lawful = .next u ∧ (u.flow 192).misses = 1 := ⟨_, rfl, by decide +kernel⟩
theorem witness_StepsKeepTheAlertTrue : lawful.AlertFollowsTable := by
  refine ⟨by decide +kernel, by decide +kernel, ?_⟩
  have h : ∀ k, lawful.alarm k = initialAlarm := fun _ => rfl
  simp only [h]
  exact ⟨fun x => absurd x (by decide +kernel), fun ⟨_, x, _⟩ => absurd x (by decide)⟩
theorem witness_StepsKeepTheSumRule : lawful.SumRuleHolds := by
  intro i _
  rw [lawful_flow]
  split <;> exact fun _ => by decide +kernel
theorem witness_StepsKeepTheDueListTrue : lawful.DueListAgrees := by
  unfold State.DueListAgrees; decide +kernel
theorem witness_StepsKeepKeysUnique : lawful.KeysUnique := by
  have hv : ∀ i, (lawful.flow i).valid = true → i = 192 := by
    intro i h
    rw [lawful_flow] at h
    by_contra hi
    rw [if_neg hi] at h
    exact absurd h (by decide)
  refine ⟨by decide +kernel, fun i _ h => ?_, fun i _ j _ hi hj _ _ => by rw [hv i hi, hv j hj]⟩
  rw [hv i h]; decide +kernel
theorem witness_StepsHoldEveryBlockWhileOffline : lawful.OfflineHeldAtReset := fun h => absurd h (by decide +kernel)
/-- RESET_N asserted, with a tick waiting. -/
def asserted : State := { State.reset with pending := [.timeBaseAdvance] }
theorem witness_StepsHoldEveryBlockWhileOffline_asserted : asserted.OfflineHeldAtReset ∧ step asserted = .next State.reset := by
  refine ⟨fun _ => ⟨rfl, rfl, rfl, rfl, rfl, rfl, rfl, ?_, rfl⟩, rfl⟩
  have h1 : asserted.fp.request = none := rfl
  have h2 : asserted.fp.ret = none := rfl
  simp [State.NoLiveInjection, h1, h2]
theorem witness_StepsKeepRingsLawful : lawful.RingsLawful := by
  refine ⟨by decide +kernel, by decide +kernel, fun q _ r _ h hq hr => ?_, by decide +kernel, by decide +kernel⟩
  have e : ∀ x, (lawful.ring x).enabled = true → x = 0 := by
    intro x hx
    rw [lawful_ring] at hx
    by_contra n
    rw [if_neg n] at hx
    exact absurd hx (by decide)
  exact absurd ((e q hq).trans (e r hr).symm) h
theorem witness_StepsKeepFramesInEnabledRings : lawful.OccupiedSlotsEnabled := by
  refine ⟨by decide +kernel, fun r => ?_, fun n h => absurd rfl h⟩
  rw [lawful_ring]; split <;> decide
theorem witness_StepsKeepTheBounds : lawful.WithinBounds ∧ lawful.memWf = true := by
  unfold State.WithinBounds; decide +kernel

end Sys2Proof.Tests
end

