-- ==== Sys2Proof/Proofs/Effects.lean ====
section
/-! PROOFS. All that a command can do, said once: a relation with one constructor per way a command changes the state,
and the lemma that `exec` does nothing else. -/

namespace Sys2Proof.Machine

/-- The ways a command changes a state. `idle` is the command whose conditions do not hold (log 2); `control` serves all
the rows that hand out a control write (log 15). -/
inductive Effect (s : State) : Instr → State → Prop
  | idle (c : Instr) : Effect s c s
  | assertReset : Effect s .resetNAsserted s.assertReset
  | releaseReset (straps : BitVec 4) (hpart : s.ci.part = .offline) :
      Effect s (.resetNReleased straps) ((s.releaseReset straps).settle s)
  | present (t : Option Transaction) : Effect s (.slotGrant t) (s.present t)
  | grant (t : Option Transaction) (hfree : s.fp.request = none) : Effect s (.slotGrant t) (s.present t).grant
  | takeForwarded (t : Transaction) (htake : s.Takeable t) :
      Effect s .transactionTaken ((s.takeForwarded t).settle s)
  | returnRead (r : ReturnRead) (hret : s.fp.ret = some r) :
      Effect s .forwardedReadReturn (s.onFp fun f => { f with ret := none, slReturn := r.words })
  | takeInjectedRead (t : Transaction) (live : Bool) (hreq : s.fp.request = some (.injected t live))
      (hread : t.isRead = true) (hret : s.fp.ret = none) :
      Effect s .injectedReadTaken ((s.startReturn t (if live then .job else .dropped)).takeRequest t)
  | completeWrite (t : Transaction) (live : Bool) (hreq : s.fp.request = some (.injected t live))
      (hwrite : t.isRead = false) : Effect s .injectedTransactionComplete ((s.completeWrite t live).settle s)
  | completeRead (r : ReturnRead) (hret : s.fp.ret = some r) (howner : r.owner ≠ .switchSide) :
      Effect s .injectedTransactionComplete ((s.completeRead r).settle s)
  | expireTimer (hpassed : s.intervalPassed = true) : Effect s .intervalTimerExpiry (s.expireTimer.settle s)
  | takeEnqueue (o : Observation) (r i : Nat) (port : BitVec 4) (tag : BitVec 20) (copy : BitVec 4)
      (sequence : BitVec 16) (valid : Bool) (hhead : s.headReady = some o)
      (hslot : s.findSlot o.address = some (r, i)) :
      Effect s .enqueue ((s.popHead.takeEnqueue o r i port tag copy sequence valid).settle s)
  | dequeueSlot (o : Observation) (r i : Nat) (hhead : s.headReady = some o)
      (hslot : s.findSlot o.address = some (r, i)) :
      Effect s .dequeue ((s.popHead.dequeueSlot r i o.stamp).settle s)
  | completeSlot (o : Observation) (r i : Nat) (code : BitVec 3) (hhead : s.headReady = some o)
      (hslot : s.findSlot o.address = some (r, i)) :
      Effect s .completion ((s.popHead.completeSlot r i code o.stamp).settle s)
  | discardHead (o : Observation) (hhead : s.headReady = some o) : Effect s .discardAtHead (s.popHead.settle s)
  | sweepHead (hdue : s.headSweepDue = true) :
      Effect s .coverageSweep ((s.sweep.onOq fun q => { q with headSwept := true }).settle s)
  | sweepEmpty (hdue : s.emptySweepDue = true) : Effect s .coverageSweep (s.sweep.settle s)
  | takeExpiry (i : Nat) (due : Time) (hhead : s.dueHead = some (i, due)) :
      Effect s .expiry ((s.takeExpiry i due).settle s)
  | control (c : Instr) (o : Observation) (hready : s.controlReady = some o) : Effect s c (s.handOutControl o)
  | advanceWalk (n : Nat) (tag : BitVec 8) (hwalk : s.ci.inFlight = some (.clearAll n, tag)) :
      Effect s .clearAllWalkStep ((s.advanceWalk n tag).settle s)
  | applyLoadRead (r : LoadRead) (hready : s.loadReady = some r) :
      Effect s .loadReadApply ((s.onCi fun c => { c with loadReads := c.loadReads.tail }).applyLoadRead r)
  | tick (hpart : s.ci.part ≠ .offline) :
      Effect s .timeBaseAdvance (s.onCm fun c => { c with timeBase := c.timeBase + 1 })

variable {s u : State}

/-- A row of a control write hands it out or leaves the state (log 15). -/
theorem State.controlCase_effect {c : Instr} {case : Observation → Bool} (h : s.controlCase case = .next u) :
    Effect s c u := by
  unfold State.controlCase at h
  split at h
  · next o ho =>
    split at h <;> cases h
    · exact .control c o ho
    · exact .idle c
  · cases h; exact .idle c

theorem execSlotGrant_effect {t : Option Transaction} (h : exec (.slotGrant t) s = .next u) :
    Effect s (.slotGrant t) u := by
  simp only [exec, execSlotGrant] at h
  split at h
  · cases h
    split
    · next hfree => exact .grant t hfree
    · exact .present t
  · cases h

theorem execTransactionTaken_effect (h : exec .transactionTaken s = .next u) : Effect s .transactionTaken u := by
  simp only [exec, execTransactionTaken] at h
  split at h
  · next t hreq =>
    split at h <;> obtain rfl := Host.Outcome.next.inj h
    · exact .idle _
    · next hwait => exact .takeForwarded t ⟨hreq, fun hread => by simpa [hread] using hwait⟩
  · cases h; exact .idle _

theorem execForwardedReadReturn_effect (h : exec .forwardedReadReturn s = .next u) :
    Effect s .forwardedReadReturn u := by
  simp only [exec, execForwardedReadReturn] at h
  split at h
  · next r hret =>
    split at h <;> cases h
    · exact .returnRead r hret
    · exact .idle _
  · cases h; exact .idle _

theorem execInjectedReadTaken_effect (h : exec .injectedReadTaken s = .next u) : Effect s .injectedReadTaken u := by
  simp only [exec, execInjectedReadTaken] at h
  split at h
  · next t live hreq =>
    split at h <;> cases h
    · next hc =>
      simp only [Bool.and_eq_true, Option.isNone_iff_eq_none] at hc
      exact .takeInjectedRead t live hreq hc.1 hc.2
    · exact .idle _
  · cases h; exact .idle _

theorem execInjectedTransactionComplete_effect (h : exec .injectedTransactionComplete s = .next u) :
    Effect s .injectedTransactionComplete u := by
  simp only [exec, execInjectedTransactionComplete] at h
  split at h
  · next r hret =>
    split at h
    · split at h
      · next t live hreq =>
        split at h <;> cases h
        · exact .idle _
        · next hwrite => exact .completeWrite t live hreq (by simpa using hwrite)
      · cases h; exact .idle _
    · next howner => cases h; exact .completeRead r hret howner
  · next t live hret hreq =>
    split at h <;> cases h
    · exact .idle _
    · next hwrite => exact .completeWrite t live hreq (by simpa using hwrite)
  · cases h; exact .idle _

theorem execEnqueue_effect (h : exec .enqueue s = .next u) : Effect s .enqueue u := by
  simp only [exec, execEnqueue] at h
  split at h
  · next o hhead =>
    split at h
    · next port tag copy sequence valid r i _ hslot =>
      obtain rfl := Host.Outcome.next.inj h
      exact .takeEnqueue o r i port tag copy sequence valid hhead hslot
    · cases h; exact .idle _
  · cases h; exact .idle _

theorem execDequeue_effect (h : exec .dequeue s = .next u) : Effect s .dequeue u := by
  simp only [exec, execDequeue] at h
  split at h
  · next o hhead =>
    split at h <;> cases h
    · next r i _ hslot => exact .dequeueSlot o r i hhead hslot
    · exact .idle _
  · cases h; exact .idle _

theorem execCompletion_effect (h : exec .completion s = .next u) : Effect s .completion u := by
  simp only [exec, execCompletion] at h
  split at h
  · next o hhead =>
    split at h <;> cases h
    · next code r i _ hslot => exact .completeSlot o r i code hhead hslot
    · exact .idle _
  · cases h; exact .idle _

theorem execDiscardAtHead_effect (h : exec .discardAtHead s = .next u) : Effect s .discardAtHead u := by
  simp only [exec, execDiscardAtHead] at h
  split at h
  · next o hhead =>
    split at h <;> cases h
    · exact .discardHead o hhead
    · exact .idle _
  · cases h; exact .idle _

theorem execCoverageSweep_effect (h : exec .coverageSweep s = .next u) : Effect s .coverageSweep u := by
  simp only [exec, execCoverageSweep] at h
  split at h
  · next hdue => cases h; exact .sweepHead hdue
  · split at h <;> cases h
    · next hdue => exact .sweepEmpty hdue
    · exact .idle _

theorem execExpiry_effect (h : exec .expiry s = .next u) : Effect s .expiry u := by
  simp only [exec, execExpiry] at h
  split at h
  · next i due hhead =>
    split at h <;> obtain rfl := Host.Outcome.next.inj h
    · exact .takeExpiry i due hhead
    · exact .idle _
  · cases h; exact .idle _

theorem execClearAllWalkStep_effect (h : exec .clearAllWalkStep s = .next u) : Effect s .clearAllWalkStep u := by
  simp only [exec, execClearAllWalkStep] at h
  split at h <;> cases h
  · next n tag hwalk => exact .advanceWalk n tag hwalk
  · exact .idle _

theorem execLoadReadApply_effect (h : exec .loadReadApply s = .next u) : Effect s .loadReadApply u := by
  simp only [exec, execLoadReadApply] at h
  split at h <;> cases h
  · next r hready => exact .applyLoadRead r hready
  · exact .idle _

/-- All that a command can do. -/
theorem exec_effect {c : Instr} (h : exec c s = .next u) : Effect s c u := by
  cases c with
  | resetNAsserted => cases h; exact .assertReset
  | resetNReleased straps =>
    simp only [exec, execResetNReleased] at h
    split at h <;> cases h
    · next hpart => exact .releaseReset straps hpart
    · exact .idle _
  | slotGrant t => exact execSlotGrant_effect h
  | transactionTaken => exact execTransactionTaken_effect h
  | forwardedReadReturn => exact execForwardedReadReturn_effect h
  | injectedTransactionComplete => exact execInjectedTransactionComplete_effect h
  | intervalTimerExpiry =>
    simp only [exec, execIntervalTimerExpiry] at h
    split at h <;> cases h
    · next hpassed => exact .expireTimer hpassed
    · exact .idle _
  | enqueue => exact execEnqueue_effect h
  | dequeue => exact execDequeue_effect h
  | completion => exact execCompletion_effect h
  | discardAtHead => exact execDiscardAtHead_effect h
  | coverageSweep => exact execCoverageSweep_effect h
  | expiry => exact execExpiry_effect h
  | clearAllWalkStep => exact execClearAllWalkStep_effect h
  | loadReadApply => exact execLoadReadApply_effect h
  | timeBaseAdvance =>
    simp only [exec, execTimeBaseAdvance] at h
    split at h <;> cases h
    · exact .idle _
    · next hpart => exact .tick hpart
  | injectedReadTaken => exact execInjectedReadTaken_effect h
  | controlWrite | globalsWrite | consumeIndexWrite | ringGeometryWrite | ping | clearFlow | clearAll | evictFlow
  | interrogate | snapshot | alarmAck | alarmHold | alarmRelease | reloadConfig | restart | unknownCommand =>
    exact State.controlCase_effect h

/-- A step is idle on an empty queue, else the effect of the front command on the state with the queue's rest
(log 1). -/
theorem step_effect (h : step s = .next u) :
    u = s ∨ ∃ c rest, s.pending = c :: rest ∧ Effect { s with pending := rest } c u := by
  unfold step at h
  split at h
  · cases h; exact .inl rfl
  · next c rest hp => exact .inr ⟨c, rest, hp, exec_effect h⟩

end Sys2Proof.Machine
end

