-- ==== Sys2Proof/Proofs/Gauges.lean ====
section
/-! PROOFS. The numbers that the spec bounds, read as one value: which operations leave all of them, what the few others
do to them, and that no command leads out of the bounds. -/

namespace Sys2Proof.Machine

/-- The numbers that the spec bounds, with the part state, which decides whether the part runs at all. -/
structure Gauges where
  starvation : Nat
  queued : Nat
  retired : Nat
  produce : Nat
  consume : Nat
  pinCount : Nat
  dirtyThreshold : Nat
  part : PartState

/-- The gauges of a state. -/
def State.gauges (s : State) : Gauges :=
  { starvation := s.fp.starvation, queued := s.oq.queue.length, retired := s.ft.retire.length,
    produce := s.rw.produce, consume := s.ci.held.consume, pinCount := s.ci.held.pinCount,
    dirtyThreshold := s.ci.held.dirtyThreshold, part := s.ci.part }

/-- The bounds of R8, R18, R44, R48, R147 and R164 on gauges. -/
def Gauges.InBounds (g : Gauges) : Prop :=
  g.starvation ≤ 16 ∧ g.queued ≤ 64 ∧ g.retired ≤ 8 ∧ g.produce < 480 ∧ g.consume < 480 ∧ g.pinCount ≤ 3
    ∧ g.dirtyThreshold ≤ 1024

theorem State.withinBounds_iff (s : State) : s.WithinBounds ↔ s.gauges.InBounds := Iff.rfl

/-- A change of the gauges that leads neither out of the bounds nor into OFFLINE. -/
structure Gauges.Leads (g g' : Gauges) : Prop where
  bounds : g.InBounds → g'.InBounds
  part : g'.part = .offline → g.part = .offline

@[simp] theorem Gauges.Leads.refl (g : Gauges) : g.Leads g := ⟨id, id⟩

theorem Gauges.Leads.trans {a b c : Gauges} (h : a.Leads b) (h' : b.Leads c) : a.Leads c :=
  ⟨h'.bounds ∘ h.bounds, h.part ∘ h'.part⟩

theorem Gauges.Leads.of_eq {g g' : Gauges} (h : g' = g) : g.Leads g' := h ▸ .refl g

variable (s : State)

/-! ## Operations that leave every gauge -/

@[simp] theorem State.gauges_onTt (f : Store Slot → Store Slot) : (s.onTt f).gauges = s.gauges := rfl
@[simp] theorem State.gauges_onCm (f : CadenceMonitor → CadenceMonitor) : (s.onCm f).gauges = s.gauges := rfl
@[simp] theorem State.gauges_onTau (f : TallyUnit → TallyUnit) : (s.onTau f).gauges = s.gauges := rfl
@[simp] theorem State.gauges_onMem (f : Store Byte → Store Byte) : (s.onMem f).gauges = s.gauges := rfl
@[simp] theorem State.gauges_count (a : Aggregate) : (s.count a).gauges = s.gauges := rfl
@[simp] theorem State.gauges_setFlow (i : Nat) (e : FlowEntry) : (s.setFlow i e).gauges = s.gauges := rfl
@[simp] theorem State.gauges_setSlot (r i : Nat) (x : Slot) : (s.setSlot r i x).gauges = s.gauges := rfl
@[simp] theorem State.gauges_requestStatus : s.requestStatus.gauges = s.gauges := rfl
@[simp] theorem State.gauges_result (tag : BitVec 8) (c : ResultCode) : (s.result tag c).gauges = s.gauges := rfl
@[simp] theorem State.gauges_finishCommand (tag : BitVec 8) (c : ResultCode) :
    (s.finishCommand tag c).gauges = s.gauges := rfl
@[simp] theorem State.gauges_startJob (k : JobKind) (todo : List Transaction) :
    (s.startJob k todo).gauges = s.gauges := rfl
@[simp] theorem State.gauges_startDrain : s.startDrain.gauges = s.gauges := rfl
@[simp] theorem State.gauges_drainBuild (i : Nat) : (s.drainBuild i).gauges = s.gauges := rfl
@[simp] theorem State.gauges_selectStatus : s.selectStatus.gauges = s.gauges := rfl
@[simp] theorem State.gauges_selectLoad : s.selectLoad.gauges = s.gauges := rfl
@[simp] theorem State.gauges_beginLoad (k : LoadKind) : (s.beginLoad k).gauges = s.gauges := rfl
@[simp] theorem State.gauges_merge (l : List (Nat × Byte)) : (s.merge l).gauges = s.gauges := rfl
@[simp] theorem State.gauges_takeTag (tag : BitVec 8) : (s.takeTag tag).gauges = s.gauges := rfl
@[simp] theorem State.gauges_fillWay (n x : Nat) (port : BitVec 4) (tag : BitVec 20) (p : Nat) :
    (s.fillWay n x port tag p).gauges = s.gauges := rfl
@[simp] theorem State.gauges_evict (a : Nat) : (s.evict a).gauges = s.gauges := rfl

/-- A state whose link, queue, retire buffer, report writer and control interface stand has the gauges it had. -/
theorem State.gauges_congr {s t : State} (hfp : t.fp = s.fp) (hoq : t.oq = s.oq) (hft : t.ft.retire = s.ft.retire)
    (hrw : t.rw = s.rw) (hci : t.ci = s.ci) : t.gauges = s.gauges := by
  simp [State.gauges, hfp, hoq, hft, hrw, hci]

@[simp] theorem State.gauges_trigger (k : AlarmKind) (v : Nat) : (s.trigger k v).gauges = s.gauges :=
  State.gauges_congr (by simp) (by simp) (by simp) (by simp) (by simp)

@[simp] theorem State.gauges_onMasked (m : BitVec 8) (f : AlarmRow → AlarmRow) (l : List AlarmKind) :
    (s.onMasked m f l).gauges = s.gauges :=
  State.gauges_congr (by simp) (by simp) (by simp) (by simp) (by simp)

@[simp] theorem State.gauges_clearOccurrences (l : List AlarmKind) : (s.clearOccurrences l).gauges = s.gauges :=
  State.gauges_congr (by simp) (by simp) (by simp) (by simp) (by simp)

@[simp] theorem State.gauges_noteClamp (o f w h : Nat) : (s.noteClamp o f w h).gauges = s.gauges := by
  unfold State.noteClamp; split <;> rfl

@[simp] theorem State.gauges_refreshAlert : s.refreshAlert.gauges = s.gauges := by
  unfold State.refreshAlert; dsimp only; split <;> rfl

@[simp] theorem State.gauges_setCoverage (c : Coverage) : (s.setCoverage c).gauges = s.gauges := by cases c <;> rfl

@[simp] theorem State.gauges_goBlind (a : Addr) : (s.goBlind a).gauges = s.gauges := by simp [State.goBlind]

@[simp] theorem State.gauges_returnToSighted : s.returnToSighted.gauges = s.gauges := by
  unfold State.returnToSighted; split <;> simp

/-! ### Flow entries -/

@[simp] theorem State.gauges_leaveDue (i : Nat) : (s.leaveDue i).gauges = s.gauges := rfl
@[simp] theorem State.gauges_setDue (i : Nat) (d : Time) : (s.setDue i d).gauges = s.gauges := rfl
@[simp] theorem State.gauges_useWay (n x : Nat) : (s.useWay n x).gauges = s.gauges := rfl

@[simp] theorem State.gauges_entryFault (i : Nat) : (s.entryFault i).gauges = s.gauges := by simp [State.entryFault]

@[simp] theorem State.gauges_checked (i : Nat) : (s.checked i).gauges = s.gauges := by
  unfold State.checked; split <;> simp

@[simp] theorem State.gauges_checkedAll (l : List Nat) : (s.checkedAll l).gauges = s.gauges := by
  induction l generalizing s with
  | nil => rfl
  | cons i rest ih => simp [State.checkedAll, ih]

/-- A pass over the entries leaves the gauges when its change of one entry does. -/
theorem State.gauges_overFlows (f : State → Nat → State) (hf : ∀ t i, (f t i).gauges = t.gauges) (l : List Nat) :
    (s.overFlows f l).gauges = s.gauges :=
  s.overFlows_keep State.gauges f l (fun t i => t.gauges_checked i) hf

@[simp] theorem State.gauges_clearFlow (a : Nat) : (s.clearFlow a).1.gauges = s.gauges := by
  unfold State.clearFlow; dsimp only; split
  · split <;> simp
  · rfl

@[simp] theorem State.gauges_walkStep (i : Nat) : (s.walkStep i).gauges = s.gauges := by
  unfold State.walkStep; dsimp only; split <;> simp

@[simp] theorem State.gauges_unlistedArrival (port : BitVec 4) (tag : BitVec 20) :
    (s.unlistedArrival port tag).1.gauges = s.gauges := rfl

@[simp] theorem State.gauges_allocationFailure (port : BitVec 4) (tag : BitVec 20) :
    (s.allocationFailure port tag).gauges = s.gauges := by simp [State.allocationFailure]

@[simp] theorem State.gauges_evaluateArrival (i : Nat) (q : BitVec 16) (v : Bool) :
    (s.evaluateArrival i q v).gauges = s.gauges := by
  unfold State.evaluateArrival; dsimp only; split <;> simp

@[simp] theorem State.gauges_profileChange (p : Nat) (old new : Profile) :
    (s.profileChange p old new).gauges = s.gauges :=
  s.gauges_overFlows _ (fun t i => by split <;> simp) _

@[simp] theorem State.gauges_reArm (i : Nat) (d : Time) : (s.reArm i d).gauges = s.gauges := by
  unfold State.reArm; dsimp only; split <;> simp

@[simp] theorem State.gauges_silence (i : Nat) : (s.silence i).gauges = s.gauges := by simp [State.silence]

@[simp] theorem State.gauges_countedExpiry (i : Nat) (d : Time) : (s.countedExpiry i d).gauges = s.gauges := by
  unfold State.countedExpiry; dsimp only; split <;> simp

@[simp] theorem State.gauges_uncountedExpiry (i : Nat) (d : Time) : (s.uncountedExpiry i d).gauges = s.gauges := rfl

@[simp] theorem State.gauges_takeExpiry (i : Nat) (d : Time) : (s.takeExpiry i d).gauges = s.gauges := by
  unfold State.takeExpiry; dsimp only; split
  · simp
  · split <;> simp

@[simp] theorem State.gauges_periodChangeEntry (i : Nat) (old new : Profile) :
    (s.periodChangeEntry i old new).gauges = s.gauges := by
  unfold State.periodChangeEntry; split
  · split
    · simp
    · split <;> simp
  · rfl

@[simp] theorem State.gauges_periodChange (p : Nat) (old new : Profile) :
    (s.periodChange p old new).gauges = s.gauges :=
  s.gauges_overFlows _ (fun t i => by split <;> simp) _

/-! ### Slots -/

@[simp] theorem State.gauges_creditUnlisted (v : Verdict) : (s.creditUnlisted v).gauges = s.gauges := by
  cases v <;> rfl

@[simp] theorem State.gauges_creditFlow (i r : Nat) (v : Verdict) : (s.creditFlow i r v).gauges = s.gauges := by
  unfold State.creditFlow; dsimp only; split <;> simp

@[simp] theorem State.gauges_credit (r : Nat) (f : FlowRef) (v : Verdict) : (s.credit r f v).gauges = s.gauges := by
  unfold State.credit; dsimp only; split
  · simp
  · split <;> simp

@[simp] theorem State.gauges_sent (r : Nat) (f : Frame) (d : Time) : (s.sent r f d).gauges = s.gauges := by
  unfold State.sent; dsimp only; split
  · simp
  · split <;> simp

@[simp] theorem State.gauges_departureCheck (r : Nat) (f : Frame) : (s.departureCheck r f).gauges = s.gauges := by
  unfold State.departureCheck; dsimp only; split
  · split
    · split <;> simp
    · rfl
  · rfl

@[simp] theorem State.gauges_overrun (r i : Nat) (f : Frame) : (s.overrun r i f).gauges = s.gauges := by
  unfold State.overrun; split <;> simp

@[simp] theorem State.gauges_displace (r i : Nat) : (s.displace r i).gauges = s.gauges := by
  unfold State.displace; split <;> simp

@[simp] theorem State.gauges_fillSlot (r i : Nat) (f : Frame) : (s.fillSlot r i f).gauges = s.gauges := by
  simp [State.fillSlot]

@[simp] theorem State.gauges_dequeueSlot (r i : Nat) (d : Time) : (s.dequeueSlot r i d).gauges = s.gauges := by
  unfold State.dequeueSlot; split <;> simp

@[simp] theorem State.gauges_discardFrame (r i : Nat) (f : Frame) : (s.discardFrame r i f).gauges = s.gauges := by
  simp [State.discardFrame]

@[simp] theorem State.gauges_completeSlot (r i : Nat) (c : BitVec 3) (d : Time) :
    (s.completeSlot r i c d).gauges = s.gauges := by
  unfold State.completeSlot; split
  · rfl
  · split
    · simp
    · split <;> simp
    · split <;> simp

@[simp] theorem State.gauges_resolveSlot (r i : Nat) : (s.resolveSlot r i).gauges = s.gauges := by
  unfold State.resolveSlot; split <;> simp

@[simp] theorem State.gauges_resolveSlots (r : Nat) (l : List Nat) : (s.resolveSlots r l).gauges = s.gauges := by
  induction l generalizing s with
  | nil => rfl
  | cons i rest ih => simp [State.resolveSlots, ih]

/-! ### The report writer and the end of an event -/

@[simp] theorem State.gauges_triggerDrain : s.triggerDrain.gauges = s.gauges := by
  unfold State.triggerDrain; split <;> rfl

@[simp] theorem State.gauges_expireTimer : s.expireTimer.gauges = s.gauges := by
  unfold State.expireTimer; rw [State.gauges_triggerDrain]; rfl

@[simp] theorem State.gauges_drainIdle : s.drainIdle.gauges = s.gauges := by
  unfold State.drainIdle; dsimp only; split <;> rfl

@[simp] theorem State.gauges_endDrain : s.endDrain.gauges = s.gauges := by simp [State.endDrain]

@[simp] theorem State.gauges_stallDrain : s.stallDrain.gauges = s.gauges := by
  unfold State.stallDrain; simp only [State.gauges_requestStatus, State.gauges_trigger, State.gauges_count]; rfl

@[simp] theorem State.gauges_drainPick (n : Nat) : (s.drainPick n).1.gauges = s.gauges := by
  induction n generalizing s with
  | zero => rfl
  | succ n ih =>
    unfold State.drainPick; split
    · rfl
    · split
      · rfl
      · simp [ih]

@[simp] theorem State.gauges_drainStep : s.drainStep.gauges = s.gauges := by
  have hpick := s.gauges_drainPick (s.flowIndexes.length + 1)
  unfold State.drainStep; split
  · simp
  · split
    · simp
    · split <;> next heq => rw [heq] at hpick; simpa using hpick

@[simp] theorem State.gauges_selectInterrogate (x : ReportRecord) : (s.selectInterrogate x).gauges = s.gauges := by
  unfold State.selectInterrogate; dsimp only; split <;> rfl

@[simp] theorem State.gauges_selectOnce : s.selectOnce.gauges = s.gauges := by
  unfold State.selectOnce; split
  · simp
  · split
    · simp
    · split
      · simp
      · split
        · split
          · simp
          · split <;> simp
        · split <;> simp

@[simp] theorem State.gauges_selectRounds (n : Nat) : (s.selectRounds n).gauges = s.gauges := by
  induction n generalizing s with
  | zero => rfl
  | succ n ih => unfold State.selectRounds; split <;> simp [ih]

@[simp] theorem State.gauges_testThreshold (b : State) : (s.testThreshold b).gauges = s.gauges := by
  unfold State.testThreshold; split <;> simp

@[simp] theorem State.gauges_settle (b : State) : (s.settle b).gauges = s.gauges := by
  simp [State.settle, State.select]

/-! ### Loads, sweeps and settings -/

@[simp] theorem State.gauges_requestReload (o : ReloadOrigin) : (s.requestReload o).gauges = s.gauges := by
  unfold State.requestReload; split <;> rfl

@[simp] theorem State.gauges_sweep : s.sweep.gauges = s.gauges := by
  have hflows := s.gauges_overFlows (fun t i => t.setFlow i (t.flow i).swept) (fun t i => t.gauges_setFlow i _)
    s.flowIndexes
  unfold State.sweep; dsimp only; split
  · rw [State.gauges_requestReload]; exact hflows
  · exact hflows

@[simp] theorem State.gauges_monitoringEffect (b : Bool) : (s.monitoringEffect b).gauges = s.gauges := by
  unfold State.monitoringEffect; split
  · split
    · split <;> simp
    · split <;> simp
  · rfl

@[simp] theorem State.gauges_applyMonitoring : s.applyMonitoring.gauges = s.gauges := by
  unfold State.applyMonitoring; dsimp only; split
  · rfl
  · rw [State.gauges_monitoringEffect]; rfl

@[simp] theorem State.gauges_applyFreeze : s.applyFreeze.gauges = s.gauges := rfl

@[simp] theorem State.gauges_applyAlarmOn : s.applyAlarmOn.gauges = s.gauges := by
  unfold State.applyAlarmOn; rw [State.gauges_onMasked]; rfl

@[simp] theorem State.gauges_applyInterval : s.applyInterval.gauges = s.gauges := by
  unfold State.applyInterval; dsimp only; split
  · rfl
  · split
    · rw [State.gauges_expireTimer]; rfl
    · rfl

@[simp] theorem State.gauges_consumeEffect : s.consumeEffect.gauges = s.gauges := by
  unfold State.consumeEffect; split <;> simp

@[simp] theorem State.gauges_changeRing (r : Nat) (g : RingGeometry) : (s.changeRing r g).gauges = s.gauges := by
  unfold State.changeRing; dsimp only; split
  · rfl
  · split
    · exact s.gauges_resolveSlots r _
    · rfl

@[simp] theorem State.gauges_changeRings (r : Nat) (l : List RingGeometry) :
    (s.changeRings r l).gauges = s.gauges := by
  induction l generalizing s r with
  | nil => rfl
  | cons g rest ih => simp [State.changeRings, ih]

@[simp] theorem State.gauges_noteRing (l : List (Nat × Byte)) (b : Bool) (g : RingGeometry) (r : Nat) :
    (s.noteRing l b g r).gauges = s.gauges := by
  unfold State.noteRing; dsimp only; (repeat' split) <;> simp

@[simp] theorem State.gauges_noteRings (t : State) (l : List (Nat × Byte)) (r : Nat) (gs : List RingGeometry) :
    (s.noteRings t l r gs).gauges = s.gauges := by
  induction gs generalizing s r with
  | nil => rfl
  | cons g rest ih => simp [State.noteRings, ih]

@[simp] theorem State.gauges_applyRings (l : List (Nat × Byte)) (m : Store Byte) :
    (s.applyRings l m).gauges = s.gauges := by
  unfold State.applyRings; split <;> simp

@[simp] theorem State.gauges_noteProfile (l : List (Nat × Byte)) (p : Nat) (n : Profile) :
    (s.noteProfile l p n).gauges = s.gauges := by
  unfold State.noteProfile; dsimp only; (repeat' split) <;> simp

@[simp] theorem State.gauges_applyProfile (l : List (Nat × Byte)) (p : Nat) :
    (s.applyProfile l p).gauges = s.gauges := by
  have hheld (n : Profile) := s.gauges_noteProfile l p n
  unfold State.applyProfile; dsimp only; split
  · split
    · rw [State.gauges_periodChange, State.gauges_profileChange]; exact hheld _
    · rw [State.gauges_periodChange]; exact hheld _
  · split
    · rw [State.gauges_profileChange]; exact hheld _
    · exact hheld _

@[simp] theorem State.gauges_applyProfiles (l : List (Nat × Byte)) (ps : List Nat) :
    (s.applyProfiles l ps).gauges = s.gauges := by
  induction ps generalizing s with
  | nil => rfl
  | cons p rest ih => simp only [State.applyProfiles, ih]; split <;> simp

@[simp] theorem State.gauges_applyClassifier (l : List (Nat × Byte)) (ns : List Nat) :
    (s.applyClassifier l ns).gauges = s.gauges := by
  induction ns generalizing s with
  | nil => rfl
  | cons n rest ih => simp only [State.applyClassifier, ih]; split <;> rfl

@[simp] theorem State.gauges_startWaiting : s.startWaiting.gauges = s.gauges := by
  unfold State.startWaiting; split
  · rfl
  · rw [State.gauges_requestReload]; rfl

@[simp] theorem State.gauges_useFree : s.useFree.gauges = s.gauges := by unfold State.useFree; split <;> rfl

@[simp] theorem State.gauges_coverageAtLoadEnd : s.coverageAtLoadEnd.gauges = s.gauges := by
  unfold State.coverageAtLoadEnd; split
  · simp
  · split <;> simp

@[simp] theorem State.gauges_answerRestart : s.answerRestart.gauges = s.gauges := by
  unfold State.answerRestart; split <;> simp

@[simp] theorem State.gauges_answerReload (o : ReloadOrigin) : (s.answerReload o).gauges = s.gauges := by
  unfold State.answerReload; split <;> simp

@[simp] theorem State.gauges_endReload (o : ReloadOrigin) : (s.endReload o).gauges = s.gauges := by
  simp [State.endReload]

/-! ### Commands and the walk -/

@[simp] theorem State.gauges_startClearAll (tag : BitVec 8) : (s.startClearAll tag).gauges = s.gauges := rfl

@[simp] theorem State.gauges_startInterrogate (tag : BitVec 8) (a : Nat) :
    (s.startInterrogate tag a).gauges = s.gauges := by
  unfold State.startInterrogate; dsimp only; split
  · exact s.gauges_checked a
  · rfl

@[simp] theorem State.gauges_takeSnapshot : s.takeSnapshot.gauges = s.gauges := by
  unfold State.takeSnapshot
  rw [State.gauges_triggerDrain]
  exact s.gauges_overFlows _ (fun t i => t.gauges_setFlow i _) _

@[simp] theorem State.gauges_acknowledge (m : BitVec 8) : (s.acknowledge m).gauges = s.gauges := by
  simp [State.acknowledge]

@[simp] theorem State.gauges_hold (m : BitVec 8) : (s.hold m).gauges = s.gauges := by simp [State.hold]

@[simp] theorem State.gauges_release (m : BitVec 8) : (s.release m).gauges = s.gauges := by simp [State.release]

@[simp] theorem State.gauges_startReload (tag : BitVec 8) : (s.startReload tag).gauges = s.gauges := by
  unfold State.startReload; rw [State.gauges_requestReload]; rfl

@[simp] theorem State.gauges_advanceWalk (n : Nat) (tag : BitVec 8) : (s.advanceWalk n tag).gauges = s.gauges := by
  unfold State.advanceWalk; split
  · exact s.gauges_walkStep n
  · simp [State.endWalk]

/-! ### The link -/

@[simp] theorem State.gauges_present (t : Option Transaction) : (s.present t).gauges = s.gauges := rfl
@[simp] theorem State.gauges_startReturn (t : Transaction) (o : ReadOwner) :
    (s.startReturn t o).gauges = s.gauges := rfl
@[simp] theorem State.gauges_takeRequest (t : Transaction) : (s.takeRequest t).gauges = s.gauges := rfl
@[simp] theorem State.gauges_receiveLoad (r : ReturnRead) : (s.receiveLoad r).gauges = s.gauges := rfl

/-! ## Operations that move a gauge within its bound -/

/-- The queue takes a record only while it holds fewer than 64 (R17, R18). -/
theorem State.leads_observe (t : Transaction) (place : Nat) : s.gauges.Leads (s.observe t place).gauges := by
  unfold State.observe; split
  · exact .refl _
  · split
    · exact .refl _
    · split
      · next b ring _ _ hroom =>
        refine ⟨fun ⟨hst, _, hrest⟩ => ⟨hst, ?_, hrest⟩, id⟩
        simpa [State.gauges, State.enqueueRecord, Config.queueDepth] using hroom
      · next b ring _ _ _ =>
        refine .of_eq ?_
        have hcount : (s.countLoss b).gauges = s.gauges := by
          unfold State.countLoss; dsimp only; split <;> rfl
        unfold State.lose; dsimp only; split
        · rw [State.gauges_goBlind]; exact hcount
        · exact hcount

/-- The head leaves the queue (R18). -/
theorem State.leads_popHead : s.gauges.Leads s.popHead.gauges := by
  refine ⟨fun ⟨hst, hq, hrest⟩ => ⟨hst, ?_, hrest⟩, id⟩
  simp only [State.gauges, State.popHead, State.onOq, List.length_tail] at hq ⊢
  omega

/-- A RETIRE record joins a buffer that holds fewer than 8 (R48). -/
theorem State.leads_retireEntry (i : Nat) (c : RetireCause) (d : Time)
    (hroom : s.ft.retire.length < Config.retireDepth) :
    s.gauges.Leads (s.retireEntry i c d).gauges := by
  refine ⟨fun ⟨hst, hq, _, hrest⟩ => ⟨hst, hq, ?_, hrest⟩, id⟩
  simpa [State.gauges, State.retireEntry, Config.retireDepth] using hroom

theorem State.leads_dispose {i : Nat} {d : Time} {t : State} (h : s.dispose i d = some t) :
    s.gauges.Leads t.gauges := by
  unfold State.dispose at h
  split at h
  · cases h; exact .refl _
  · split at h
    · cases h; exact .refl _
    · split at h
      · next hroom => cases h; exact s.leads_retireEntry i _ d hroom
      · cases h

theorem State.leads_evictFlow (a : Nat) : s.gauges.Leads (s.evictFlow a).1.gauges := by
  have hchecked := s.gauges_checked a
  unfold State.evictFlow; dsimp only; split
  · split
    · exact .of_eq hchecked
    · split
      · exact .of_eq hchecked
      · split
        · next hroom =>
          simpa using (s.checked a).leads_retireEntry a .commanded _ hroom
        · exact .of_eq hchecked
  · exact .refl _

theorem State.leads_allocate (n : Nat) (port : BitVec 4) (tag : BitVec 20) (d : Time) :
    s.gauges.Leads (s.allocate n port tag d).1.gauges := by
  unfold State.allocate; dsimp only; split
  · exact .refl _
  · split
    · next t hdispose => simpa using s.leads_dispose hdispose
    · simp

theorem State.leads_lookup (port : BitVec 4) (tag : BitVec 20) (copy : BitVec 4) (d : Time) :
    s.gauges.Leads (s.lookup port tag copy d).1.gauges := by
  have hways := s.gauges_checkedAll (setWays (setIndex port tag))
  unfold State.lookup; dsimp only; split
  · split <;> simp
  · split
    · rw [← hways]; exact State.leads_allocate _ _ port tag d
    · simp

theorem State.leads_takeEnqueue (o : Observation) (r i : Nat) (port : BitVec 4) (tag : BitVec 20) (copy : BitVec 4)
    (q : BitVec 16) (v : Bool) : s.gauges.Leads (s.takeEnqueue o r i port tag copy q v).gauges := by
  have hlookup := s.leads_lookup port tag copy o.stamp
  unfold State.takeEnqueue; dsimp only; split <;> simpa using hlookup

theorem State.leads_applyPinCount : s.gauges.Leads s.applyPinCount.gauges := by
  unfold State.applyPinCount; simp only [State.gauges_noteClamp]
  exact ⟨fun ⟨hst, hq, hr, hp, hc, _, hd⟩ => ⟨hst, hq, hr, hp, hc, Nat.min_le_right _ _, hd⟩, id⟩

theorem State.leads_applyThreshold : s.gauges.Leads s.applyThreshold.gauges := by
  have hheld : s.gauges.Leads (s.onHeld fun h => { h with dirtyThreshold := min (s.imageField 14 2) 1024 }).gauges :=
    ⟨fun ⟨hst, hq, hr, hp, hc, hpin, _⟩ => ⟨hst, hq, hr, hp, hc, hpin, Nat.min_le_right _ _⟩, id⟩
  unfold State.applyThreshold; dsimp only; split <;> simpa using hheld

theorem State.leads_applyGlobals (l : List (Nat × Byte)) : s.gauges.Leads (s.applyGlobals l).gauges := by
  unfold State.applyGlobals; dsimp only
  refine .trans (b := (if names l 8 1 then s.applyMonitoring.applyFreeze else s).gauges) (.of_eq (by split <;> simp)) ?_
  generalize (if names l 8 1 then s.applyMonitoring.applyFreeze else s) = a
  refine .trans (b := (if names l 9 1 then a.applyPinCount else a).gauges) ?_ ?_
  · split
    · exact a.leads_applyPinCount
    · exact .refl _
  generalize (if names l 9 1 then a.applyPinCount else a) = b
  refine .trans (b := (if names l 10 1 then b.applyAlarmOn else b).gauges) (.of_eq (by split <;> simp)) ?_
  generalize (if names l 10 1 then b.applyAlarmOn else b) = c
  refine .trans (b := (if names l 12 2 then c.applyInterval else c).gauges) (.of_eq (by split <;> simp)) ?_
  generalize (if names l 12 2 then c.applyInterval else c) = d
  split
  · exact d.leads_applyThreshold
  · exact .refl _

/-- The consume index takes only values below 480 (R147, R164). -/
theorem State.leads_applyConsume (l : List (Nat × Byte)) : s.gauges.Leads (s.applyConsume l).gauges := by
  unfold State.applyConsume; dsimp only; split
  · split
    · next hlegal =>
      split
      · exact .refl _
      · rw [State.gauges_consumeEffect]
        exact ⟨fun ⟨hst, hq, hr, hp, _, hrest⟩ => ⟨hst, hq, hr, hp, hlegal, hrest⟩, id⟩
    · simp
  · exact .refl _

theorem State.leads_applySettings (l : List (Nat × Byte)) : s.gauges.Leads (s.applySettings l).gauges := by
  have hglobals := (s.merge l).leads_applyGlobals l
  have hconsume := ((s.merge l).applyGlobals l).leads_applyConsume l
  simpa [State.applySettings] using hglobals.trans hconsume

/-! ## The end of an INITIAL load, RESTART, and the commands -/

/-- At the end of an INITIAL load P becomes C (R173). -/
theorem State.leads_endInitial : s.gauges.Leads s.endInitial.gauges := by
  have hrun : s.gauges.Leads (s.onCi fun c => { c with part := .running }).gauges := ⟨id, nofun⟩
  have hwriter (t : State) : t.gauges.Leads t.startWriter.gauges :=
    ⟨fun ⟨hst, hq, hr, _, hc, hrest⟩ => ⟨hst, hq, hr, hc, hc, hrest⟩, id⟩
  have hcover := hwriter (s.onCi fun c => { c with part := .running }).coverageAtLoadEnd
  simp only [State.gauges_coverageAtLoadEnd] at hcover
  simpa [State.endInitial] using hrun.trans hcover

theorem State.leads_endLoad : s.gauges.Leads s.endLoad.gauges := by
  unfold State.endLoad; split
  · exact .refl _
  · dsimp only; split
    · exact State.leads_endInitial (s.onCi fun c => { c with load := none })
    · rw [State.gauges_endReload]; exact .refl _

/-- RESTART empties the queue and the retire buffer and keeps P, C and the held settings (R13, R175). -/
theorem State.leads_restart (tag : BitVec 8) : s.gauges.Leads (s.restart tag).gauges :=
  ⟨fun ⟨_, _, _, hrest⟩ => ⟨Nat.zero_le _, Nat.zero_le _, Nat.zero_le _, hrest⟩, nofun⟩

theorem State.leads_act (tag : BitVec 8) (a : Nat) (k : MailboxCommand) : s.gauges.Leads (s.act tag a k).gauges := by
  cases k with
  | evictFlow => exact s.leads_evictFlow a
  | restart => exact s.leads_restart tag
  | ping | clearFlow | clearAll | interrogate | snapshot | alarmAck | alarmHold | alarmRelease | reloadConfig
  | unknown => simp [State.act]

theorem State.leads_mailbox : s.gauges.Leads s.mailbox.gauges := by
  unfold State.mailbox; dsimp only; split
  · exact .refl _
  · split
    · exact State.leads_act (s.takeTag s.commandTag) _ _ _
    · simp

theorem State.leads_applyWrite (l : List (Nat × Byte)) : s.gauges.Leads (s.applyWrite l).gauges := by
  unfold State.applyWrite; simp only [State.gauges_settle]
  refine (s.leads_applySettings l).trans ?_
  unfold State.considerCommand; split
  · exact State.leads_mailbox _
  · exact .refl _

theorem State.leads_applyLoadRead (r : LoadRead) : s.gauges.Leads (s.applyLoadRead r).gauges := by
  unfold State.applyLoadRead; simp only [State.gauges_settle]
  refine (s.leads_applySettings r.bytes).trans ?_
  unfold State.considerLoadRead; split
  · simpa using State.leads_endLoad ((s.applySettings r.bytes).takeTag (s.applySettings r.bytes).commandTag)
  · exact .refl _

/-- A control write handed out (R163). -/
theorem State.leads_handOutControl (o : Observation) : s.gauges.Leads (s.handOutControl o).gauges :=
  s.leads_popHead.trans (s.popHead.leads_applyWrite o.body.named)

/-! ## The link -/

/-- The starvation count grows only below 16 (R8). -/
theorem State.leads_grant : s.gauges.Leads s.grant.gauges := by
  have hzero (t : Transaction) : s.gauges.Leads (s.grantInjection t).gauges :=
    ⟨fun ⟨_, hrest⟩ => ⟨Nat.zero_le _, hrest⟩, id⟩
  unfold State.grant; split
  · exact .refl _
  · exact hzero _
  · split
    · next hbelow => exact ⟨fun ⟨_, hrest⟩ => ⟨hbelow, hrest⟩, id⟩
    · exact hzero _
  · exact .refl _

theorem State.leads_takeForwarded (t : Transaction) : s.gauges.Leads (s.takeForwarded t).gauges := by
  have hreturn : (if t.isRead then s.startReturn t .switchSide else s).gauges = s.gauges := by split <;> rfl
  have hobserve := ((if t.isRead then s.startReturn t .switchSide else s).takeRequest t).leads_observe t s.fp.place
  rw [State.gauges_takeRequest, hreturn] at hobserve
  exact hobserve

/-- P advances modulo 480 (R147). -/
theorem State.leads_advanceProduce : s.gauges.Leads s.advanceProduce.gauges :=
  ⟨fun ⟨hst, hq, hr, _, hrest⟩ => ⟨hst, hq, hr, Nat.mod_lt _ (by decide), hrest⟩, id⟩

theorem State.leads_jobEffect (k : JobKind) : s.gauges.Leads (s.jobEffect k).gauges := by
  cases k with
  | load => exact .refl _
  | status => exact .refl _
  | interrogate => exact s.leads_advanceProduce
  | drain => exact s.leads_advanceProduce
  | retire =>
    refine s.leads_advanceProduce.trans ⟨fun ⟨hst, hq, hr, hrest⟩ => ⟨hst, hq, ?_, hrest⟩, id⟩
    simp only [State.gauges, State.jobEffect, State.onFt_ft, List.length_tail] at hr ⊢
    omega

theorem State.leads_advanceJob : s.gauges.Leads s.advanceJob.gauges := by
  unfold State.advanceJob; split
  · exact .refl _
  · next j _ =>
    split
    · exact State.leads_jobEffect (s.onRw fun w => { w with job := none }) j.kind
    · exact .refl _

theorem State.leads_completeRead (r : ReturnRead) : s.gauges.Leads (s.completeRead r).gauges := by
  unfold State.completeRead; dsimp only; split
  · exact State.leads_advanceJob ((s.onFp fun f => { f with ret := none }).receiveLoad r)
  · exact .refl _

theorem State.leads_completeWrite (t : Transaction) (live : Bool) :
    s.gauges.Leads (s.completeWrite t live).gauges := by
  unfold State.completeWrite; dsimp only; split
  · exact (s.takeRequest t).leads_advanceJob
  · exact .refl _

/-! ## Every command -/

variable {s}

/-- RESET_N_ASSERTED apart, no command leads out of the bounds or into OFFLINE. -/
theorem Effect.leads_or_assertReset {c : Instr} {u : State} (h : Effect s c u) :
    s.gauges.Leads u.gauges ∨ u = s.assertReset := by
  cases h with
  | assertReset => exact .inr rfl
  | idle | present | returnRead | takeInjectedRead | tick => exact .inl (.refl _)
  | releaseReset straps =>
    rw [State.gauges_settle]
    exact .inl ⟨fun ⟨_, hrest⟩ => ⟨Nat.zero_le _, hrest⟩, nofun⟩
  | grant t => exact .inl (s.present t).leads_grant
  | takeForwarded t => exact .inl (by simpa using s.leads_takeForwarded t)
  | completeWrite t live => exact .inl (by simpa using s.leads_completeWrite t live)
  | completeRead r => exact .inl (by simpa using s.leads_completeRead r)
  | expireTimer | sweepEmpty | takeExpiry | advanceWalk => exact .inl (by simp)
  | sweepHead => rw [State.gauges_settle]; exact .inl (.of_eq s.gauges_sweep)
  | takeEnqueue o r i port tag copy q v =>
    rw [State.gauges_settle]
    exact .inl (s.leads_popHead.trans (s.popHead.leads_takeEnqueue o r i port tag copy q v))
  | dequeueSlot | completeSlot | discardHead => exact .inl (by simpa using s.leads_popHead)
  | control c o => exact .inl (s.leads_handOutControl o)
  | applyLoadRead r =>
    exact .inl (State.leads_applyLoadRead (s.onCi fun c => { c with loadReads := c.loadReads.tail }) r)

/-- RESET_N asserted puts every gauge to 0 (R11). -/
theorem State.assertReset_withinBounds : s.assertReset.WithinBounds :=
  ⟨Nat.zero_le _, Nat.zero_le _, Nat.zero_le _, Nat.zero_lt_succ 479, Nat.zero_lt_succ 479, Nat.zero_le _,
    Nat.zero_le _⟩

/-- No command leads out of the bounds. -/
theorem Effect.keeps_withinBounds {c : Instr} {u : State} (h : Effect s c u) (hs : s.WithinBounds) :
    u.WithinBounds := by
  rcases h.leads_or_assertReset with hleads | rfl
  · exact hleads.bounds hs
  · exact s.assertReset_withinBounds

end Sys2Proof.Machine
end

