-- ==== Sys2Proof/Proofs/Taken.lean ====
section
/-! PROOFS. Memory over every command: only the two rows that take a transaction write it, and they write what the
transaction says. -/

namespace Sys2Proof.Machine

variable (s : State)

/-! ## Operations that leave memory -/

theorem State.dispose_mem {i : Nat} {d : Time} {t : State} (h : s.dispose i d = some t) : t.mem = s.mem := by
  unfold State.dispose at h
  split at h
  · cases h; rfl
  · split at h
    · cases h; rfl
    · split at h <;> cases h; rfl

theorem State.allocate_mem (n : Nat) (port : BitVec 4) (tag : BitVec 20) (d : Time) :
    (s.allocate n port tag d).1.mem = s.mem := by
  unfold State.allocate; dsimp only; split
  · simp
  · split
    · next t hdispose => simpa using s.dispose_mem hdispose
    · simp

theorem State.lookup_mem (port : BitVec 4) (tag : BitVec 20) (copy : BitVec 4) (d : Time) :
    (s.lookup port tag copy d).1.mem = s.mem := by
  unfold State.lookup; dsimp only; split
  · split <;> simp
  · split <;> simp [State.allocate_mem]

@[simp] theorem State.takeEnqueue_mem (o : Observation) (r i : Nat) (port : BitVec 4) (tag : BitVec 20)
    (copy : BitVec 4) (q : BitVec 16) (v : Bool) : (s.takeEnqueue o r i port tag copy q v).mem = s.mem := by
  unfold State.takeEnqueue; dsimp only; split <;> simp [State.lookup_mem]

@[simp] theorem State.startWaiting_mem : s.startWaiting.mem = s.mem := by
  unfold State.startWaiting; split <;> simp

@[simp] theorem State.coverageAtLoadEnd_mem : s.coverageAtLoadEnd.mem = s.mem := by
  unfold State.coverageAtLoadEnd; split
  · simp
  · split
    · unfold State.useFree; split <;> simp
    · simp

@[simp] theorem State.answerRestart_mem : s.answerRestart.mem = s.mem := by
  unfold State.answerRestart; split <;> simp

@[simp] theorem State.answerReload_mem (o : ReloadOrigin) : (s.answerReload o).mem = s.mem := by
  unfold State.answerReload; split <;> simp

@[simp] theorem State.endLoad_mem : s.endLoad.mem = s.mem := by
  unfold State.endLoad; split
  · rfl
  · dsimp only; split <;> simp [State.endInitial, State.startWriter, State.endReload]

@[simp] theorem State.act_mem (tag : BitVec 8) (a : Nat) (k : MailboxCommand) : (s.act tag a k).mem = s.mem := by
  cases k with
  | interrogate => unfold State.act State.startInterrogate; dsimp only; split <;> simp
  | snapshot =>
    simpa [State.act, State.takeSnapshot] using
      s.overFlows_keep State.mem _ s.flowIndexes (fun t i => by simp) fun t i => by simp
  | reloadConfig => simp [State.act, State.startReload]
  | restart => rfl
  | alarmAck => simp [State.act, State.acknowledge]
  | alarmHold => simp [State.act, State.hold]
  | alarmRelease => simp [State.act, State.release]
  | ping | clearFlow | clearAll | evictFlow | unknown => simp [State.act, State.startClearAll]

@[simp] theorem State.mailbox_mem : s.mailbox.mem = s.mem := by
  unfold State.mailbox; dsimp only; split
  · rfl
  · split <;> simp [State.takeTag]

@[simp] theorem State.applyWrite_mem (l : List (Nat × Byte)) : (s.applyWrite l).mem = s.mem := by
  unfold State.applyWrite State.considerCommand; dsimp only; split <;> simp

@[simp] theorem State.applyLoadRead_mem (r : LoadRead) : (s.applyLoadRead r).mem = s.mem := by
  unfold State.applyLoadRead State.considerLoadRead; dsimp only; split <;> simp [State.takeTag]

@[simp] theorem State.grant_mem : s.grant.mem = s.mem := by
  unfold State.grant; split
  · rfl
  · rfl
  · split <;> rfl
  · rfl

@[simp] theorem State.jobEffect_mem (k : JobKind) : (s.jobEffect k).mem = s.mem := by cases k <;> rfl

@[simp] theorem State.advanceJob_mem : s.advanceJob.mem = s.mem := by
  unfold State.advanceJob; split
  · rfl
  · split <;> simp

@[simp] theorem State.completeRead_mem (r : ReturnRead) : (s.completeRead r).mem = s.mem := by
  unfold State.completeRead; dsimp only; split <;> simp [State.receiveLoad]

/-! ## Taking a transaction -/

@[simp] theorem State.takeRequest_mem (t : Transaction) : (s.takeRequest t).mem = (s.memTake t).mem := rfl

@[simp] theorem State.takeForwarded_mem (t : Transaction) : (s.takeForwarded t).mem = (s.memTake t).mem := by
  unfold State.takeForwarded; rw [State.observe_mem]; split <;> rfl

@[simp] theorem State.completeWrite_mem (t : Transaction) (live : Bool) :
    (s.completeWrite t live).mem = (s.memTake t).mem := by
  unfold State.completeWrite; dsimp only; split <;> simp

variable {s}

/-- A command leaves memory or memory takes one transaction at it, which only the two rows of a taken point do
(R3, R10). -/
theorem Effect.mem_cases {c : Instr} {u : State} (h : Effect s c u) :
    u.mem = s.mem ∨
      (c = .transactionTaken ∨ c = .injectedTransactionComplete) ∧ ∃ t, u.mem = (s.memTake t).mem := by
  cases h with
  | takeForwarded t => exact .inr ⟨.inl rfl, t, by simp⟩
  | completeWrite t live => exact .inr ⟨.inr rfl, t, by simp⟩
  | idle | assertReset | present => exact .inl rfl
  | returnRead | tick => exact .inl rfl
  | takeInjectedRead t live _ hread =>
    refine .inl ?_
    rw [State.takeRequest_mem, State.memTake_read _ t hread]; rfl
  | releaseReset straps => refine .inl ?_; rw [State.settle_mem]; rfl
  | grant t => refine .inl ?_; rw [State.grant_mem]; rfl
  | control c o => exact .inl (by simp [State.handOutControl])
  | completeRead | expireTimer | takeEnqueue | dequeueSlot | completeSlot | discardHead | sweepHead | sweepEmpty
  | takeExpiry | advanceWalk | applyLoadRead => exact .inl (by simp)

/-- Every command keeps the canonical form of memory. -/
theorem Effect.keeps_memWf {c : Instr} {u : State} (h : Effect s c u) (hs : s.memWf = true) : u.memWf = true := by
  unfold State.memWf at hs ⊢
  rcases h.mem_cases with heq | ⟨_, t, heq⟩
  · rw [heq]; exact hs
  · rw [heq]; exact s.memTake_memWf t hs

/-! ## The statements -/

/-- Settles O13: memory moves only where a transaction is taken. -/
theorem memoryChangesOnlyWhenTaken : Obligations.MemoryChangesOnlyWhenTaken := by
  intro c s u h htaken hcomplete
  rcases (exec_effect h).mem_cases with heq | ⟨rfl | rfl, _⟩
  · exact heq
  · exact absurd rfl htaken
  · exact absurd rfl hcomplete

/-- Settles O60: the gauges stay in their bounds and memory in its form, by what a command can do. -/
theorem stepsKeepTheBounds : Obligations.StepsKeepTheBounds := by
  intro s u hbounds hwf h
  rcases step_effect h with rfl | ⟨c, rest, _, heffect⟩
  · exact ⟨hbounds, hwf⟩
  · exact ⟨heffect.keeps_withinBounds hbounds, heffect.keeps_memWf hwf⟩

end Sys2Proof.Machine
end

