-- ==== Sys2Proof/Proofs/Link.lean ====
section
/-! PROOFS. The forwarding path: what a write puts into each byte, and what a forwarded write and the reads of both
sides do to the link when the memory side takes them. -/

namespace Sys2Proof.Machine

/-! ## The bytes that a write names -/

/-- Of two lists of writes the later one decides, where it names the address. -/
theorem lastByte_append (b : Nat) (l l' : List (Nat × Byte)) :
    lastByte b (l ++ l') = (lastByte b l').or (lastByte b l) := by
  induction l with
  | nil => simp [lastByte]
  | cons c rest ih => simp [lastByte, ih, Option.or_assoc]

/-- What a selection of bytes at consecutive addresses puts at an address. -/
theorem lastByte_filterMap_range (named : Nat → Bool) (value : Nat → Byte) (a b n : Nat) :
    lastByte b ((List.range n).filterMap fun i => if named i then some (a + i, value i) else none) =
      if a ≤ b ∧ b < a + n ∧ named (b - a) = true then some (value (b - a)) else none := by
  induction n with
  | zero => rw [if_neg (by omega)]; rfl
  | succ n ih =>
    rw [List.range_succ, List.filterMap_append, lastByte_append, ih]
    by_cases hb : b = a + n
    · subst hb
      cases hn : named n <;> simp [lastByte, hn]
    · have hlast : lastByte b ([n].filterMap fun i => if named i then some (a + i, value i) else none) = none := by
        cases hn : named n <;> simp [lastByte, hn, Ne.symm hb]
      rw [hlast, Option.none_or]
      refine if_congr ?_ rfl rfl
      exact ⟨fun ⟨hlo, hhi, hn⟩ => ⟨hlo, by omega, hn⟩, fun ⟨hlo, hhi, hn⟩ => ⟨hlo, by omega, hn⟩⟩

/-- What the named lanes of a word put at an address (R1). -/
theorem lastByte_laneBytes (a : Nat) (w : Word) (m : BitVec 8) (b : Nat) :
    lastByte b (laneBytes a w m) =
      if a ≤ b ∧ b < a + 8 ∧ m.getLsbD (b - a) = true then some (lane w (b - a)) else none :=
  lastByte_filterMap_range m.getLsbD (lane w) a b 8

/-- The mask of a whole word names every lane. -/
theorem getLsbD_allLanes : ∀ k < 8, (255#8).getLsbD k = true := by decide

/-- A whole word puts its lanes at its eight addresses and nothing elsewhere (R1). -/
theorem lastByte_wholeWord (a : Nat) (w : Word) (b : Nat) :
    lastByte b (laneBytes a w 255#8) = if a ≤ b ∧ b < a + 8 then some (lane w (b - a)) else none := by
  rw [lastByte_laneBytes]
  refine if_congr ⟨fun h => ⟨h.1, h.2.1⟩, fun h => ⟨h.1, h.2, getLsbD_allLanes _ (by omega)⟩⟩ rfl rfl

/-- What the words of a block put at an address: the lane of the word that the address lies in (R1). -/
theorem lastByte_wordsBytes (a b : Nat) (ws : List Word) :
    lastByte b (wordsBytes a ws) =
      if a ≤ b then ws[(b - a) / 8]?.map fun w => lane w ((b - a) % 8) else none := by
  induction ws generalizing a with
  | nil => simp [wordsBytes, lastByte]
  | cons w rest ih =>
    rw [wordsBytes, lastByte_append, ih, lastByte_wholeWord]
    by_cases hbelow : b < a
    · rw [if_neg (by omega), if_neg (by omega), if_neg (by omega)]; rfl
    by_cases hfirst : b < a + 8
    · have hindex : (b - a) / 8 = 0 := by omega
      have hlane : (b - a) % 8 = b - a := by omega
      rw [if_neg (by omega), if_pos (by omega), if_pos (by omega), hindex, hlane]; rfl
    · have hindex : (b - a) / 8 = (b - (a + 8)) / 8 + 1 := by omega
      have hlane : (b - a) % 8 = (b - (a + 8)) % 8 := by omega
      rw [if_pos (by omega), if_neg (by omega), if_pos (by omega), hindex, hlane, Option.or_none]; rfl

variable (s : State)

/-- A byte after a single write is taken: the lane of a named byte of its word, every other byte as before (R1). -/
theorem State.memByte_singleWrite (a : Addr) (w : Word) (m : BitVec 8) (b : Nat) :
    (s.memTake (.singleWrite a w m)).memByte b =
      if a.toNat ≤ b ∧ b < a.toNat + 8 ∧ m.getLsbD (b - a.toNat) = true then lane w (b - a.toNat) else s.memByte b := by
  rw [State.memByte_memTake, Transaction.writes, lastByte_laneBytes]
  split <;> rfl

/-- A byte after a burst write is taken: the lane of the word it lies in, every byte outside the block as before
(R1). -/
theorem State.memByte_burstWrite (a : Addr) (w0 w1 w2 w3 : Word) (b : Nat) :
    (s.memTake (.burstWrite a w0 w1 w2 w3)).memByte b =
      if a.toNat ≤ b then
        ([w0, w1, w2, w3][(b - a.toNat) / 8]?.map fun w => lane w ((b - a.toNat) % 8)).getD (s.memByte b)
      else s.memByte b := by
  rw [State.memByte_memTake, Transaction.writes, lastByte_wordsBytes]
  split <;> rfl

/-! ## Forwarded transactions -/

/-- Taking a read moves the link alone (R1, R3). -/
theorem State.takeRequest_read (t : Transaction) (hread : t.isRead = true) :
    s.takeRequest t = s.onFp fun f => { f with request := none, place := f.place + 1 } := by
  unfold State.takeRequest
  rw [State.memTake_read _ t hread]; rfl

theorem State.takeForwarded_fp (t : Transaction) :
    (s.takeForwarded t).fp = { s.fp with
      request := none, place := s.fp.place + 1,
      ret := if t.isRead then
        some { owner := .switchSide, address := t.address, words := s.readWords t, place := s.fp.place }
      else s.fp.ret } := by
  unfold State.takeForwarded
  rw [State.observe_fp]
  split <;> rfl

@[simp] theorem State.takeForwarded_pending (t : Transaction) : (s.takeForwarded t).pending = s.pending := by
  unfold State.takeForwarded; rw [State.observe_pending]; split <;> rfl

variable {s}

/-- A takeable forwarded transaction is taken (R3, R5). -/
theorem exec_transactionTaken {t : Transaction} (h : s.Takeable t) :
    exec .transactionTaken s = .next ((s.takeForwarded t).settle s) := by
  obtain ⟨hreq, hret⟩ := h
  have hfree : ¬(t.isRead && s.fp.ret.isSome) = true := by
    cases hread : t.isRead <;> simp [hread, hret]
  simp only [exec, execTransactionTaken, hreq, if_neg hfree]

/-- A forwarded read waits for the return direction (R5). -/
theorem exec_transactionTaken_waits {t : Transaction} (hreq : s.fp.request = some (.forwarded t))
    (hread : t.isRead = true) (hret : s.fp.ret ≠ none) : exec .transactionTaken s = .next s := by
  have hheld : (t.isRead && s.fp.ret.isSome) = true := by
    rw [hread, Bool.true_and]; exact Option.isSome_iff_ne_none.2 hret
  simp only [exec, execTransactionTaken, hreq, if_pos hheld]

/-- Settles O8: the bytes of a write by its kind, the link by what a taken transaction leaves. -/
theorem forwardedWriteChangesExactlyItsBytes : Obligations.ForwardedWriteChangesExactlyItsBytes := by
  intro s t hreq hwrite
  have hbyte (b : Nat) : (s.takeForwarded t).memByte b = (s.memTake t).memByte b := by
    simp only [State.memByte, State.takeForwarded_mem]
  refine ⟨s.takeForwarded t, exec_transactionTaken ⟨hreq, by simp [hwrite]⟩, s.takeForwarded_pending t, ?_, ?_, ?_⟩
  · rw [State.takeForwarded_fp, hwrite]; rfl
  · rintro a w m rfl
    refine ⟨fun k hk => ?_, fun b hb => ?_⟩
    · rw [hbyte, State.memByte_singleWrite, Nat.add_sub_cancel_left]
      exact if_congr ⟨fun h => h.2.2, fun h => ⟨by omega, by omega, h⟩⟩ rfl rfl
    · rw [hbyte, State.memByte_singleWrite, if_neg (by omega)]
  · rintro a w0 w1 w2 w3 rfl
    have hin (j k b : Nat) (w : Word) (hw : [w0, w1, w2, w3][j]? = some w) (hk : k < 8)
        (hb : b = a.toNat + 8 * j + k) :
        (s.takeForwarded (.burstWrite a w0 w1 w2 w3)).memByte b = w.extractLsb' (8 * k) 8 := by
      have hindex : (b - a.toNat) / 8 = j := by omega
      have hlane : (b - a.toNat) % 8 = k := by omega
      rw [hbyte, State.memByte_burstWrite, if_pos (by omega), hindex, hlane, hw]; rfl
    refine ⟨fun k hk => ⟨hin 0 k _ w0 rfl hk (by omega), hin 1 k _ w1 rfl hk (by omega),
      hin 2 k _ w2 rfl hk (by omega), hin 3 k _ w3 rfl hk (by omega)⟩, fun b hb => ?_⟩
    rw [hbyte, State.memByte_burstWrite]
    split
    · have hout : [w0, w1, w2, w3][(b - a.toNat) / 8]? = none := List.getElem?_eq_none (by simp; omega)
      rw [hout]; rfl
    · rfl

/-- The words of a burst read in wrapped order (R2). -/
theorem State.readWords_burstRead (s : State) (a : Addr) (st : BitVec 2) :
    s.readWords (.burstRead a st) =
      [s.memWord (a.toNat + 8 * st.toNat), s.memWord (a.toNat + 8 * ((st.toNat + 1) % 4)),
       s.memWord (a.toNat + 8 * ((st.toNat + 2) % 4)), s.memWord (a.toNat + 8 * ((st.toNat + 3) % 4))] := by
  have hfirst : (st.toNat + 0) % 4 = st.toNat := Nat.mod_eq_of_lt st.isLt
  rw [← hfirst]
  simp [State.readWords, Transaction.readAddresses, List.range_succ]

/-- Settles O9: a taken read occupies the return direction and writes no byte. -/
theorem forwardedReadTakesTheReturnDirection : Obligations.ForwardedReadTakesTheReturnDirection := by
  intro s t hreq hread
  refine ⟨fun hret =>
      ⟨s.takeForwarded t, exec_transactionTaken ⟨hreq, fun _ => hret⟩, ?_, s.takeForwarded_pending t, ?_⟩,
    exec_transactionTaken_waits hreq hread, ?_, ?_⟩
  · rw [State.takeForwarded_mem, State.memTake_read s t hread]
  · rw [State.takeForwarded_fp, hread]; rfl
  · rintro a rfl; rfl
  · rintro a st rfl; exact s.readWords_burstRead a st

/-! ## Reads that hand over their directions -/

/-- Settles O10: each of the two rows moves one read from its direction. -/
theorem readsHandOverTheirDirections : Obligations.ReadsHandOverTheirDirections := by
  refine ⟨fun s r hret howner => ?_, fun s t live hreq hread hret => ?_⟩
  · simp only [exec, execForwardedReadReturn, hret, if_pos howner]; rfl
  · have hfree : (t.isRead && s.fp.ret.isNone) = true := by simp [hread, hret]
    simp only [exec, execInjectedReadTaken, hreq, if_pos hfree, State.takeRequest_read _ t hread]; rfl

end Sys2Proof.Machine
end

