-- ==== Sys2Proof/Proofs/Jobs.lean ====
section
/-! PROOFS. The grant of a slot, and how the completion of an injected transaction moves its job on. -/

namespace Sys2Proof.Machine

variable {s : State}

/-! ## The grant (R7, R8) -/

/-- An aligned operand is presented, and the slot is granted where the request direction is free. -/
theorem exec_slotGrant {presented : Option Transaction} (h : (Instr.slotGrant presented).wellFormed = true) :
    exec (.slotGrant presented) s =
      .next (if s.fp.request = none then (s.present presented).grant else s.present presented) := by
  simp only [exec, execSlotGrant, if_pos h]; rfl

/-- An operand is refused exactly when it is not aligned (log 5). -/
theorem exec_slotGrant_refused (t : Transaction) :
    exec (.slotGrant (some t)) s = .refused .misalignedTransaction ↔ t.wellFormed = false := by
  cases hwf : t.wellFormed <;> simp [exec, execSlotGrant, Instr.wellFormed, hwf]

/-- Which case of the grant rule applies hangs on what waits at the port, what waits for injection, and the starvation
count (R7, R8). -/
theorem State.grant_idle (hport : s.fp.slPort = none) (hjob : s.waitingInjection = none) : s.grant = s := by
  simp only [State.grant, hport, hjob]

theorem State.grant_forwarded {t : Transaction} (hport : s.fp.slPort = some t) (hjob : s.waitingInjection = none) :
    s.grant = s.grantForwarded t s.fp.starvation := by
  simp only [State.grant, hport, hjob]

theorem State.grant_ahead {t i : Transaction} (hport : s.fp.slPort = some t) (hjob : s.waitingInjection = some i)
    (hstarved : s.fp.starvation < 16) : s.grant = s.grantForwarded t (s.fp.starvation + 1) := by
  simp only [State.grant, hport, hjob]
  exact if_pos hstarved

theorem State.grant_injection {i : Transaction} (hjob : s.waitingInjection = some i)
    (hport : s.fp.slPort = none ∨ 16 ≤ s.fp.starvation) : s.grant = s.grantInjection i := by
  cases hp : s.fp.slPort with
  | none => simp only [State.grant, hp, hjob]
  | some t =>
    have hstarved : ¬ s.fp.starvation < Config.starvationLimit :=
      Nat.not_lt.2 (hport.resolve_left (by simp [hp]))
    simp only [State.grant, hp, hjob, if_neg hstarved]

/-- Settles O7: the four cases of the grant after the switch side has presented. -/
theorem slotGrantFollowsTheGrantRule : Obligations.SlotGrantFollowsTheGrantRule := by
  refine ⟨fun s t => ?_, fun s presented p hwf hp => ?_⟩
  · rw [exec_slotGrant_refused]
    cases t <;> simp [Transaction.wellFormed]
  · have hpresent : s.present presented = { s with fp := { s.fp with slPort := p } } := by subst hp; rfl
    have hport : (s.present presented).fp.slPort = p := by rw [hpresent]
    rw [exec_slotGrant hwf]
    refine ⟨fun hheld => by rw [if_neg hheld, hpresent], ?_, ?_, ?_, ?_⟩
    · rintro hfree rfl hjob
      rw [if_pos hfree, State.grant_idle hport hjob, hpresent]
    · rintro t hfree rfl hjob
      rw [if_pos hfree, State.grant_forwarded hport hjob, hpresent]; rfl
    · rintro t i hfree rfl hjob hstarved
      rw [if_pos hfree, State.grant_ahead hport hjob hstarved, hpresent]; rfl
    · intro i hfree hjob hcase
      have hgrant : (s.present presented).grant = (s.present presented).grantInjection i :=
        State.grant_injection hjob (hcase.imp_left hport.trans)
      rw [if_pos hfree, hgrant, hpresent]; rfl

/-! ## Jobs (R6, R48, R150, R158, R159) -/

/-- What the end of a job leaves: the queue, the slots, the time base, TAU, the entries and the link. -/
theorem State.jobEffect_frame (s : State) (k : JobKind) :
    (s.jobEffect k).pending = s.pending ∧ (s.jobEffect k).fp = s.fp ∧ (s.jobEffect k).oq = s.oq ∧
    (s.jobEffect k).tt = s.tt ∧ (s.jobEffect k).cm = s.cm ∧ (s.jobEffect k).tau = s.tau ∧
    (s.jobEffect k).ft.flows = s.ft.flows ∧ (s.jobEffect k).ft.plru = s.ft.plru ∧
    (s.jobEffect k).rw.job = s.rw.job := by
  cases k with
  | load | status | retire | drain => exact ⟨rfl, rfl, rfl, rfl, rfl, rfl, rfl, rfl, rfl⟩
  | interrogate => simp [State.jobEffect, State.advanceProduce, State.finishCommand, State.result, State.requestStatus]

/-- A job that goes on makes its next transaction wait (R6). -/
theorem State.advanceJob_next {j : Job} (hjob : s.rw.job = some j) (hmore : j.todo.tail ≠ []) :
    s.advanceJob = s.onRw fun w => { w with job := some { j with todo := j.todo.tail, started := false } } := by
  simp only [State.advanceJob, hjob, if_neg hmore]

/-- A job whose last transaction is complete ends with what its kind does (R6). -/
theorem State.advanceJob_end {j : Job} (hjob : s.rw.job = some j) (hlast : j.todo.tail = []) :
    s.advanceJob = (s.onRw fun w => { w with job := none }).jobEffect j.kind := by
  simp only [State.advanceJob, hjob, if_pos hlast]

theorem State.advanceJob_noJob (hjob : s.rw.job = none) : s.advanceJob = s := by
  simp only [State.advanceJob, hjob]

/-- What a completed transaction leaves, whatever its job does next. -/
theorem State.advanceJob_frame (s : State) :
    s.advanceJob.pending = s.pending ∧ s.advanceJob.fp = s.fp ∧ s.advanceJob.oq = s.oq ∧ s.advanceJob.tt = s.tt ∧
    s.advanceJob.cm = s.cm ∧ s.advanceJob.tau = s.tau ∧ s.advanceJob.ft.flows = s.ft.flows ∧
    s.advanceJob.ft.plru = s.ft.plru := by
  cases hjob : s.rw.job with
  | none => rw [State.advanceJob_noJob hjob]; exact ⟨rfl, rfl, rfl, rfl, rfl, rfl, rfl, rfl⟩
  | some j =>
    by_cases hlast : j.todo.tail = []
    · rw [State.advanceJob_end hjob hlast]
      obtain ⟨hpending, hfp, hoq, htt, hcm, htau, hflows, hplru, _⟩ :=
        State.jobEffect_frame (s.onRw fun w => { w with job := none }) j.kind
      exact ⟨hpending, hfp, hoq, htt, hcm, htau, hflows, hplru⟩
    · rw [State.advanceJob_next hjob hlast]; exact ⟨rfl, rfl, rfl, rfl, rfl, rfl, rfl, rfl⟩

/-- A job that moves on or ends, of whatever kind, leaves the load reads that wait to be applied (R172). -/
theorem State.loadReads_advanceJob (s : State) : s.advanceJob.ci.loadReads = s.ci.loadReads := by
  cases hjob : s.rw.job with
  | none => rw [State.advanceJob_noJob hjob]
  | some j =>
    by_cases hlast : j.todo.tail = []
    · rw [State.advanceJob_end hjob hlast]; cases j.kind <;> rfl
    · rw [State.advanceJob_next hjob hlast]; rfl

/-- The job after one of its transactions is complete (R6). -/
theorem State.job_advanceJob {j : Job} (hjob : s.rw.job = some j) :
    s.advanceJob.rw.job =
      if j.todo.tail = [] then none else some { j with todo := j.todo.tail, started := false } := by
  by_cases hlast : j.todo.tail = []
  · obtain ⟨_, _, _, _, _, _, _, _, hnone⟩ := State.jobEffect_frame (s.onRw fun w => { w with job := none }) j.kind
    rw [State.advanceJob_end hjob hlast, if_pos hlast, hnone]; rfl
  · rw [State.advanceJob_next hjob hlast, if_neg hlast]; rfl

/-! ## Completions -/

/-- An injected write on the request direction completes unless an injected read is on the return direction (R6,
log 26). -/
theorem exec_injectedTransactionComplete_write {t : Transaction} {live : Bool}
    (hreq : s.fp.request = some (.injected t live)) (hwrite : t.isRead = false)
    (hret : ∀ r, s.fp.ret = some r → r.owner = .switchSide) :
    exec .injectedTransactionComplete s = .next ((s.completeWrite t live).settle s) := by
  have hnotRead : ¬ t.isRead = true := by simp [hwrite]
  cases hr : s.fp.ret with
  | none => simp only [exec, execInjectedTransactionComplete, hr, hreq, if_neg hnotRead]
  | some r => simp only [exec, execInjectedTransactionComplete, hr, hreq, if_pos (hret r hr), if_neg hnotRead]

/-- An injected read on the return direction completes (R5). -/
theorem exec_injectedTransactionComplete_read {r : ReturnRead} (hret : s.fp.ret = some r)
    (howner : r.owner ≠ .switchSide) :
    exec .injectedTransactionComplete s = .next ((s.completeRead r).settle s) := by
  simp only [exec, execInjectedTransactionComplete, hret, if_neg howner]

/-- Settles O11: the write changes memory and the link, its job goes on or ends by its kind. -/
theorem injectedWriteCompletesItsTransaction : Obligations.InjectedWriteCompletesItsTransaction := by
  intro s t live hreq hwrite hret
  obtain ⟨hpending, hfp, hoq, htt, hcm, htau, hflows, hplru⟩ := (s.takeRequest t).advanceJob_frame
  refine ⟨s.completeWrite t live, exec_injectedTransactionComplete_write hreq hwrite hret,
    s.completeWrite_mem t live, ?_⟩
  cases live with
  | false => exact ⟨rfl, rfl, rfl, rfl, rfl, rfl, rfl, rfl, fun _ => ⟨rfl, rfl, rfl⟩, nofun⟩
  | true =>
    have hadvance : s.completeWrite t true = (s.takeRequest t).advanceJob := rfl
    rw [hadvance]
    refine ⟨hpending, hfp, hoq, htt, hcm, htau, hflows, hplru, nofun,
      fun j _ hjob => ⟨fun hmore => ?_, fun hlast => ?_⟩⟩
    · rw [State.advanceJob_next (s := s.takeRequest t) hjob hmore]
      exact ⟨rfl, rfl, rfl⟩
    · rw [State.advanceJob_end (s := s.takeRequest t) hjob hlast]
      cases j.kind with
      | load | status => exact ⟨rfl, fun _ => ⟨rfl, rfl, rfl⟩, by simp, nofun, nofun, nofun⟩
      | interrogate => exact ⟨rfl, by simp, fun _ => rfl, nofun, nofun, fun _ => ⟨rfl, rfl, rfl⟩⟩
      | retire => exact ⟨rfl, by simp, fun _ => rfl, fun _ => ⟨rfl, rfl⟩, nofun, nofun⟩
      | drain => exact ⟨rfl, by simp, fun _ => rfl, nofun, fun _ => ⟨rfl, rfl⟩, nofun⟩

/-- Settles O12: the words go to their live job, which moves on, or are dropped. -/
theorem injectedReadCompletesItsTransaction : Obligations.InjectedReadCompletesItsTransaction := by
  intro s r hret howner
  refine ⟨s.completeRead r, exec_injectedTransactionComplete_read hret howner, s.completeRead_mem r, ?_⟩
  by_cases hlive : r.owner = .job
  · have hadvance : s.completeRead r = ((s.onFp fun f => { f with ret := none }).receiveLoad r).advanceJob :=
      if_pos hlive
    rw [hadvance]
    obtain ⟨hpending, hfp, hoq, htt, hcm, htau, _, _⟩ :=
      ((s.onFp fun f => { f with ret := none }).receiveLoad r).advanceJob_frame
    refine ⟨hpending, hfp, hoq, htt, hcm, htau, fun hdropped => ?_, fun _ => ?_, fun j _ hjob _ => ?_⟩
    · rw [hlive] at hdropped; cases hdropped
    · rw [State.loadReads_advanceJob]; rfl
    · exact State.job_advanceJob (s := (s.onFp fun f => { f with ret := none }).receiveLoad r) hjob
  · have hdrop : s.completeRead r = s.onFp fun f => { f with ret := none } := if_neg hlive
    rw [hdrop]
    exact ⟨rfl, rfl, rfl, rfl, rfl, rfl, fun _ => ⟨rfl, rfl, rfl⟩, fun h => absurd h hlive, fun _ h => absurd h hlive⟩

end Sys2Proof.Machine
end

