-- ==== Sys2Proof/Proofs/Offline.lean ====
section
/-! PROOFS. While RESET_N is asserted: the blocks behind the link hold their reset values, the end of an event finds
nothing to do, and every command that acts moves the link alone. -/

namespace Sys2Proof.Machine

/-- Every block but the forwarding path holds its reset values (R27, R53, R107, R126, R145, R161, R175). -/
structure State.BlocksAtReset (s : State) : Prop where
  oq : s.oq = State.reset.oq
  ft : s.ft = State.reset.ft
  tt : s.tt = State.reset.tt
  cm : s.cm = State.reset.cm
  tau : s.tau = State.reset.tau
  rw : s.rw = State.reset.rw
  ci : s.ci = State.reset.ci

/-- The forwarding path owes nothing to an injection: no live one on the link and a starvation count of 0 (R11). -/
structure State.LinkWithoutJobs (s : State) : Prop where
  request : ∀ t, s.fp.request ≠ some (.injected t true)
  ret : ∀ r, s.fp.ret = some r → r.owner ≠ .job
  starvation : s.fp.starvation = 0

/-- What is held while the part is OFFLINE, block side and link side. -/
theorem State.offlineHeldAtReset_iff (s : State) :
    s.OfflineHeldAtReset ↔ (s.ci.part = .offline → s.BlocksAtReset ∧ s.LinkWithoutJobs) :=
  ⟨fun h hpart =>
    have ⟨hoq, hft, htt, hcm, htau, hrw, hci, ⟨hreq, hret⟩, hst⟩ := h hpart
    ⟨⟨hoq, hft, htt, hcm, htau, hrw, hci⟩, ⟨hreq, hret, hst⟩⟩,
   fun h hpart =>
    have ⟨hb, hl⟩ := h hpart
    ⟨hb.oq, hb.ft, hb.tt, hb.cm, hb.tau, hb.rw, hb.ci, ⟨hl.request, hl.ret⟩, hl.starvation⟩⟩

variable {s : State}

/-! ## Nothing to do at the end of an event -/

/-- Such a state is the reset state but for its commands, memory, link and free counter. -/
theorem State.BlocksAtReset.eq (h : s.BlocksAtReset) :
    s = { State.reset with pending := s.pending, mem := s.mem, fp := s.fp, freeCount := s.freeCount } := by
  obtain ⟨_, _, _, oq, ft, tt, cm, tau, rw, ci, _⟩ := s
  obtain ⟨rfl, rfl, rfl, rfl, rfl, rfl, rfl⟩ := h
  rfl

theorem State.BlocksAtReset.part (h : s.BlocksAtReset) : s.ci.part = .offline := h.ci ▸ rfl

theorem State.BlocksAtReset.returnToSighted (h : s.BlocksAtReset) : s.returnToSighted = s :=
  if_neg fun hrun => by simp [h.part] at hrun

/-- No alarm is RAISED, so the alert record stands (R143). -/
theorem State.BlocksAtReset.refreshAlert (h : s.BlocksAtReset) : s.refreshAlert = s := by
  rw [h.eq]; rfl

/-- A dirty threshold of 0 triggers no drain (R152). -/
theorem State.BlocksAtReset.testThreshold (h : s.BlocksAtReset) (b : State) : s.testThreshold b = s := by
  have hthreshold : s.thresholdReached = false := by simp [State.thresholdReached, h.ci, State.reset,
    ControlInterface.atReset, Held.atReset]
  exact if_neg fun hraised => by simp [hthreshold] at hraised

/-- There is no job to select (R149). -/
theorem State.BlocksAtReset.select (h : s.BlocksAtReset) : s.select = s := by
  rw [h.eq]; rfl

theorem State.BlocksAtReset.settle (h : s.BlocksAtReset) (b : State) : s.settle b = s := by
  simp only [State.settle, h.returnToSighted, h.refreshAlert, h.testThreshold, h.select]

/-- The decoder admits nothing while the part is OFFLINE (R17). -/
theorem State.observe_offline (hpart : s.ci.part = .offline) (t : Transaction) (place : Nat) :
    s.observe t place = s := by
  have hadmits (b : ObservationBody) : s.admits b = false := by simp [State.admits, hpart]
  unfold State.observe
  split
  · rfl
  · simp [hadmits]

/-- No observation is handed out from an empty queue (R18). -/
theorem State.headReady_nil (hqueue : s.oq.queue = []) : s.headReady = none := by
  simp [State.headReady, hqueue]

theorem State.BlocksAtReset.headReady (h : s.BlocksAtReset) : s.headReady = none :=
  State.headReady_nil (by rw [h.oq]; rfl)

/-- No injection waits (R6). -/
theorem State.BlocksAtReset.waitingInjection (h : s.BlocksAtReset) : s.waitingInjection = none := by
  rw [h.eq]; rfl

/-! ## Commands that move the link alone -/

/-- A change of the link and memory leaves the blocks at their reset values. -/
theorem State.BlocksAtReset.onLink (h : s.BlocksAtReset) (fp : ForwardingPath) (mem : Store Byte) :
    State.BlocksAtReset { s with fp := fp, mem := mem } :=
  ⟨h.oq, h.ft, h.tt, h.cm, h.tau, h.rw, h.ci⟩

theorem State.BlocksAtReset.takeRequest (h : s.BlocksAtReset) (t : Transaction) : (s.takeRequest t).BlocksAtReset :=
  h.onLink _ _

/-- A transaction taken while the part is OFFLINE is not observed (R17). -/
theorem State.takeForwarded_offline (hpart : s.ci.part = .offline) (t : Transaction) :
    s.takeForwarded t = (if t.isRead then s.startReturn t .switchSide else s).takeRequest t := by
  have hstill : ((if t.isRead then s.startReturn t .switchSide else s).takeRequest t).ci.part = .offline := by
    split <;> exact hpart
  exact State.observe_offline hstill t s.fp.place

/-- RESET_N asserted gives every block behind the link its reset values (R11). -/
theorem State.blocksAtReset_assertReset (s : State) : s.assertReset.BlocksAtReset :=
  ⟨rfl, rfl, rfl, rfl, rfl, rfl, rfl⟩

/-- After a reset the request direction holds no injection whose job still exists (R11). -/
theorem Request.suppressed_ne_live (q : Request) (t : Transaction) : q.suppressed ≠ .injected t true := by
  cases q <;> nofun

/-- After a reset the return direction brings no words to a job (R11). -/
theorem ReturnRead.owner_suppressed_ne_job (r : ReturnRead) : r.suppressed.owner ≠ .job := by
  obtain ⟨owner, _, _, _⟩ := r
  cases owner <;> nofun

/-- RESET_N asserted leaves no injection a job (R11). -/
theorem State.linkWithoutJobs_assertReset (s : State) : s.assertReset.LinkWithoutJobs := by
  refine ⟨fun t hreq => ?_, fun r hret => ?_, rfl⟩
  · obtain ⟨q, _, hq⟩ := Option.map_eq_some_iff.1 hreq
    exact q.suppressed_ne_live t hq
  · obtain ⟨q, _, rfl⟩ := Option.map_eq_some_iff.1 hret
    exact q.owner_suppressed_ne_job

/-- In a part held at reset the release alone leads out of OFFLINE, and every other command leaves the blocks and puts
no live injection on the link. -/
theorem Effect.keeps_reset_offline {c : Instr} {u : State} (h : Effect s c u) (hb : s.BlocksAtReset)
    (hl : s.LinkWithoutJobs) (hpart : u.ci.part = .offline) : u.BlocksAtReset ∧ u.LinkWithoutJobs := by
  cases h with
  | idle => exact ⟨hb, hl⟩
  | assertReset => exact ⟨s.blocksAtReset_assertReset, s.linkWithoutJobs_assertReset⟩
  | releaseReset straps =>
    have hloading := congrArg Gauges.part ((s.releaseReset straps).gauges_settle s)
    exact absurd (hloading.symm.trans hpart) nofun
  | present t => exact ⟨hb.onLink _ _, hl.request, hl.ret, hl.starvation⟩
  | grant t =>
    have hp : (s.present t).BlocksAtReset := hb.onLink _ _
    cases hport : (s.present t).fp.slPort with
    | none =>
      rw [State.grant_idle hport hp.waitingInjection]
      exact ⟨hp, hl.request, hl.ret, hl.starvation⟩
    | some w =>
      rw [State.grant_forwarded hport hp.waitingInjection]
      exact ⟨hp.onLink _ _, nofun, hl.ret, hl.starvation⟩
  | takeForwarded t =>
    rw [State.takeForwarded_offline hb.part]
    have hreturn : (if t.isRead then s.startReturn t .switchSide else s).BlocksAtReset := by
      split
      · exact hb.onLink _ _
      · exact hb
    rw [(hreturn.takeRequest t).settle]
    refine ⟨hreturn.takeRequest t, nofun, fun r hret => ?_, ?_⟩
    · split at hret
      · cases hret; nofun
      · exact hl.ret r hret
    · split <;> exact hl.starvation
  | returnRead r => exact ⟨hb.onLink _ _, hl.request, nofun, hl.starvation⟩
  | takeInjectedRead t live hreq =>
    cases live with
    | true => exact absurd hreq (hl.request t)
    | false =>
      refine ⟨hb.onLink _ _, nofun, fun r hret => ?_, hl.starvation⟩
      cases hret; nofun
  | completeWrite t live hreq =>
    cases live with
    | true => exact absurd hreq (hl.request t)
    | false =>
      have htaken := hb.takeRequest t
      change ((s.takeRequest t).settle s).BlocksAtReset ∧ ((s.takeRequest t).settle s).LinkWithoutJobs
      rw [htaken.settle]
      exact ⟨htaken, nofun, hl.ret, hl.starvation⟩
  | completeRead r hret =>
    have hread : s.completeRead r = s.onFp fun f => { f with ret := none } := if_neg (hl.ret r hret)
    have hdone : (s.completeRead r).BlocksAtReset := hread ▸ hb.onLink _ _
    rw [hdone.settle, hread]
    exact ⟨hb.onLink _ _, hl.request, nofun, hl.starvation⟩
  | expireTimer hpassed => simp [State.intervalPassed, hb.part] at hpassed
  | takeEnqueue _ _ _ _ _ _ _ _ hhead => rw [hb.headReady] at hhead; cases hhead
  | dequeueSlot _ _ _ hhead => rw [hb.headReady] at hhead; cases hhead
  | completeSlot _ _ _ _ hhead => rw [hb.headReady] at hhead; cases hhead
  | discardHead _ hhead => rw [hb.headReady] at hhead; cases hhead
  | control _ _ hready => simp [State.controlReady, hb.headReady] at hready
  | sweepHead hdue => rw [hb.eq] at hdue; cases hdue
  | sweepEmpty hdue => rw [hb.eq] at hdue; cases hdue
  | takeExpiry _ _ hhead => rw [hb.eq] at hhead; cases hhead
  | advanceWalk _ _ hwalk => rw [hb.eq] at hwalk; cases hwalk
  | applyLoadRead _ hready => rw [hb.eq] at hready; cases hready
  | tick hrun => exact absurd hb.part hrun

/-- Every command keeps what is held while the part is OFFLINE. -/
theorem Effect.keeps_offlineHeldAtReset {c : Instr} {u : State} (h : Effect s c u) (hs : s.OfflineHeldAtReset) :
    u.OfflineHeldAtReset := by
  rw [State.offlineHeldAtReset_iff] at hs ⊢
  intro hpart
  rcases h.leads_or_assertReset with hleads | rfl
  · obtain ⟨hb, hl⟩ := hs (hleads.part hpart)
    exact h.keeps_reset_offline hb hl hpart
  · exact ⟨s.blocksAtReset_assertReset, s.linkWithoutJobs_assertReset⟩

/-- Settles O57: only RESET_N_ASSERTED leads into OFFLINE, and in OFFLINE the commands that act move the link alone. -/
theorem stepsHoldEveryBlockWhileOffline : Obligations.StepsHoldEveryBlockWhileOffline := by
  intro s u hs h
  rcases step_effect h with rfl | ⟨c, rest, _, heffect⟩
  · exact hs
  · exact heffect.keeps_offlineHeldAtReset hs

end Sys2Proof.Machine
end

