-- ==== Sys2Proof/Proofs/Resets.lean ====
section
/-! PROOFS. The state after reset, and what the two RESET_N events do to each block. -/

namespace Sys2Proof.Machine

/-! ## The state after reset -/

theorem State.reset_flow (i : Nat) : State.reset.flow i = initialEntry := rfl
theorem State.reset_ring (r : Nat) : State.reset.ring r = initialRing := rfl
theorem State.reset_alarm (k : AlarmKind) : State.reset.alarm k = initialAlarm := rfl

/-- No kind of alarm is ON in an empty mask. -/
theorem AlarmKind.inMask_zero (k : AlarmKind) : k.inMask 0#8 = false := by simp [AlarmKind.inMask]

/-- Settles O3: every value is read off the reset state. -/
theorem resetHoldsTheStatedValues : Obligations.ResetHoldsTheStatedValues := by
  refine ⟨rfl, rfl, rfl, rfl, rfl, rfl, rfl, fun _ => ⟨rfl, rfl⟩, fun _ => rfl, rfl, fun _ _ => rfl, fun _ => rfl,
    rfl, rfl, rfl, fun _ => rfl, fun k => ⟨k.inMask_zero, rfl⟩, ?_⟩
  refine ⟨rfl, rfl, rfl, rfl, rfl, rfl, rfl, rfl, rfl, rfl, rfl, rfl, rfl, rfl, rfl, rfl, rfl, rfl, rfl, rfl,
    fun _ => rfl, fun _ => rfl, fun _ => rfl, rfl, rfl, rfl, rfl, rfl, rfl, rfl⟩

theorem State.reset_alertFollowsTable : State.reset.AlertFollowsTable := by
  refine ⟨rfl, rfl, nofun, fun ⟨k, hraised, _⟩ => ?_⟩
  rw [State.reset_alarm] at hraised; cases hraised

theorem State.reset_ringsLawful : State.reset.RingsLawful := by
  refine ⟨fun r _ => ?_, fun r _ hr => ?_, fun q _ r _ _ hq => ?_, ?_, fun _ r _ => rfl⟩
  · rw [State.reset_ring]; decide
  · rw [State.reset_ring] at hr; cases hr
  · rw [State.reset_ring] at hq; cases hq
  · decide

/-- Settles O52: with no valid entry, no enabled ring and no occupied slot every invariant holds of itself. -/
theorem resetIsLawful : Obligations.ResetIsLawful := by
  refine ⟨State.reset_alertFollowsTable, fun i hvalid => ?_, fun i _ => ?_, ⟨by decide, fun i _ hvalid => ?_,
    fun i _ j _ hvalid => ?_⟩, State.reset_ringsLawful, ⟨rfl, fun r => ?_, fun n hn => absurd rfl hn⟩,
    by unfold State.WithinBounds; decide, ?_, State.reset_memWf⟩
  · rw [State.reset_flow] at hvalid; cases hvalid
  · rw [State.reset_flow]; exact ⟨rfl, by decide⟩
  · rw [State.reset_flow] at hvalid; cases hvalid
  · rw [State.reset_flow] at hvalid; cases hvalid
  · rw [State.reset_ring]; decide
  · rw [State.offlineHeldAtReset_iff]
    exact fun _ => ⟨⟨rfl, rfl, rfl, rfl, rfl, rfl, rfl⟩, nofun, nofun, rfl⟩

/-! ## RESET_N -/

/-- A forwarded read keeps its owner at a reset, any other is dropped (R11). -/
theorem ReturnRead.suppressed_injected {r : ReturnRead} (h : r.owner ≠ .switchSide) :
    r.suppressed = { r with owner := .dropped } := by
  obtain ⟨owner, address, words, place⟩ := r
  cases owner with
  | switchSide => exact absurd rfl h
  | job => rfl
  | dropped => rfl

theorem ReturnRead.suppressed_forwarded {r : ReturnRead} (h : r.owner = .switchSide) : r.suppressed = r := by
  simp only [ReturnRead.suppressed, h]

/-- Settles O4: the assertion by blocks, the release by fields. -/
theorem resetNHoldsAndReleasesEveryBlock : Obligations.ResetNHoldsAndReleasesEveryBlock := by
  refine ⟨fun s => ?_, fun s straps => ⟨fun hpart => ?_, fun hpart => if_neg hpart⟩⟩
  · have hrequest : s.assertReset.fp.request = s.fp.request.map Request.suppressed := rfl
    have hret : s.assertReset.fp.ret = s.fp.ret.map ReturnRead.suppressed := rfl
    refine ⟨s.assertReset, rfl, rfl, rfl, rfl, rfl, rfl, rfl, rfl, rfl, rfl, rfl, rfl, rfl, rfl, ?_⟩
    rw [hrequest, hret]
    refine ⟨fun t h => by rw [h]; rfl, fun t l h => by rw [h]; rfl, fun h => by rw [h]; rfl, fun r h howner => ?_,
      fun r h howner => ?_, fun h => by rw [h]; rfl⟩
    · rw [h, Option.map_some, ReturnRead.suppressed_forwarded howner]
    · rw [h, Option.map_some, ReturnRead.suppressed_injected howner]
  · exact ⟨s.releaseReset straps, if_pos hpart, rfl, rfl, rfl, rfl, rfl, rfl, rfl, rfl, rfl, rfl, rfl⟩

end Sys2Proof.Machine
end

