-- ==== Sys2Proof/Proofs/EventEnd.lean ====
section
/-! PROOFS. The end of every event: the return to SIGHTED, the alert record, the threshold test and job selection, and
what they leave alone. -/

namespace Sys2Proof.Machine

/-! ## The return to SIGHTED (R26, R121) -/

variable {s : State}

theorem State.returnToSighted_of_blindEnds (h : s.BlindEnds) :
    s.returnToSighted = { s with
      oq := { s.oq with coverage := .sighted }
      cm := { s.cm with sightStart := s.cm.timeBase }
      rw := { s.rw with statusPending := true } } := if_pos h

theorem State.returnToSighted_of_not_blindEnds (h : ¬ s.BlindEnds) : s.returnToSighted = s := if_neg h

variable (s)

/-- The return to SIGHTED moves coverage, the sight start and the STATUS request alone. -/
theorem State.returnToSighted_frame :
    s.returnToSighted.oq = { s.oq with coverage := s.returnToSighted.oq.coverage } ∧
    s.returnToSighted.cm.timeBase = s.cm.timeBase := by
  by_cases h : s.BlindEnds
  · rw [State.returnToSighted_of_blindEnds h]; exact ⟨rfl, rfl⟩
  · rw [State.returnToSighted_of_not_blindEnds h]; exact ⟨rfl, rfl⟩

/-! ## The alert record (R143, R144) -/

theorem AlarmKind.mem_all (k : AlarmKind) : k ∈ AlarmKind.all := by cases k <;> decide

theorem State.alertKindNow_isSome_iff :
    s.alertKindNow.isSome = true ↔ ∃ k, (s.alarm k).raised = true ∧ (s.alarm k).held = false := by
  simp [State.alertKindNow, State.drives, AlarmKind.mem_all]

/-- The recomputation of the alert record, in one expression: STATUS is requested where the record changes. -/
theorem State.refreshAlert_eq :
    s.refreshAlert = { s with
      tau := { s.tau with
        alertKind := s.alertKindNow, alertValue := s.alertValueNow, alertAsserted := s.alertKindNow.isSome }
      rw := { s.rw with
        statusPending :=
          s.rw.statusPending || decide (s.alertKindNow ≠ s.tau.alertKind ∨ s.alertValueNow ≠ s.tau.alertValue) } } := by
  unfold State.refreshAlert
  dsimp only
  split
  · next h => simp [State.onTau, h.1, h.2]
  · next h =>
    have hchanged : s.alertKindNow ≠ s.tau.alertKind ∨ s.alertValueNow ≠ s.tau.alertValue := by
      rw [ne_comm, ne_comm (a := s.alertValueNow)]; exact not_and_or.1 h
    simp [State.requestStatus, State.onRw, State.onTau, hchanged]

theorem State.alertRefreshed_refreshAlert : AlertRefreshed s s.refreshAlert := by
  rw [State.refreshAlert_eq]
  exact ⟨rfl, rfl, ⟨rfl, rfl, s.alertKindNow_isSome_iff⟩, rfl⟩

/-! ## The threshold test (R152) -/

theorem State.thresholdReached_iff : s.thresholdReached = true ↔ s.ThresholdStands := by
  simp [State.thresholdReached, State.ThresholdStands]

/-- A drain trigger acts on RW alone, as `ReportWriter.triggered` says. -/
theorem State.triggerDrain_eq :
    s.triggerDrain = { s with rw := s.rw.triggered s.dirtyCount s.cm.timeBase } := by
  rcases s.triggerDrain_cases with ⟨hidle, heq⟩ | ⟨hbusy, heq⟩
  · rw [heq, ReportWriter.triggered, if_pos hidle]; rfl
  · rw [heq, ReportWriter.triggered, if_neg hbusy]

theorem ReportWriter.statusPending_triggered (w : ReportWriter) (n : Nat) (t : Time) :
    (w.triggered n t).statusPending = w.statusPending := by
  unfold ReportWriter.triggered; split <;> rfl

theorem State.statusPending_testThreshold (b : State) : (s.testThreshold b).rw.statusPending = s.rw.statusPending := by
  rcases s.testThreshold_cases b with ⟨_, _, heq⟩ | ⟨_, heq⟩
  · rw [heq, State.triggerDrain_eq]; exact ReportWriter.statusPending_triggered _ _ _
  · rw [heq]

/-! ## What the Report Writer leaves alone -/

/-- `u` is `s` after work of the Report Writer at the end of an event: the time base, the sight start, the replacement
order, the retire buffer and what it does not own of CI stand, and a sound entry changes in its dirty flag at most. -/
structure WriterKeeps (s u : State) : Prop where
  timeBase : u.cm.timeBase = s.cm.timeBase
  sightStart : u.cm.sightStart = s.cm.sightStart
  plru : u.ft.plru = s.ft.plru
  retire : u.ft.retire = s.ft.retire
  ci : u.ci = { s.ci with inFlight := u.ci.inFlight, lastResult := u.ci.lastResult, load := u.ci.load }
  flow : ∀ i, (s.flow i).checkOk = true → ∃ d, u.flow i = { s.flow i with dirty := d }

theorem WriterKeeps.of_eq {s u : State} (hcm : u.cm = s.cm) (hft : u.ft = s.ft)
    (hci : u.ci = { s.ci with inFlight := u.ci.inFlight, lastResult := u.ci.lastResult, load := u.ci.load }) :
    WriterKeeps s u :=
  { timeBase := by rw [hcm]
    sightStart := by rw [hcm]
    plru := by rw [hft]
    retire := by rw [hft]
    ci := hci
    flow := fun i _ => ⟨(s.flow i).dirty, by simp only [State.flow, hft]⟩ }

theorem WriterKeeps.refl (s : State) : WriterKeeps s s := .of_eq rfl rfl rfl

theorem WriterKeeps.trans {s t u : State} (h : WriterKeeps s t) (h' : WriterKeeps t u) : WriterKeeps s u where
  timeBase := h'.timeBase.trans h.timeBase
  sightStart := h'.sightStart.trans h.sightStart
  plru := h'.plru.trans h.plru
  retire := h'.retire.trans h.retire
  ci := by rw [h'.ci, h.ci]
  flow i hok := by
    obtain ⟨d, hd⟩ := h.flow i hok
    obtain ⟨d', hd'⟩ := h'.flow i (by rw [hd]; exact hok)
    exact ⟨d', by rw [hd', hd]⟩

/-- An entry fault changes the failing entry alone (R51). -/
theorem WriterKeeps.entryFault {i : Nat} (hfail : (s.flow i).checkOk ≠ true) : WriterKeeps s (s.entryFault i) where
  timeBase := by simp [State.entryFault, State.leaveDue]
  sightStart := by simp [State.entryFault, State.leaveDue]
  plru := by simp [State.entryFault, State.leaveDue, State.setFlow]
  retire := by simp [State.entryFault]
  ci := by rw [State.entryFault_ci]
  flow j hok := by
    have hne : j ≠ i := fun h => hfail (h ▸ hok)
    exact ⟨(s.flow j).dirty, by rw [State.flow_entryFault, if_neg hne]⟩

theorem WriterKeeps.drainPick (n : Nat) : WriterKeeps s (s.drainPick n).1 := by
  induction n generalizing s with
  | zero => exact .refl s
  | succ n ih =>
    unfold State.drainPick
    split
    · exact .refl s
    · split
      · exact .refl s
      · next hfail => exact (WriterKeeps.entryFault s hfail).trans (ih _)

/-- A drain chooses an entry that passes its check (R154). -/
theorem State.drainPick_checkOk {n i : Nat} (h : (s.drainPick n).2 = some i) :
    ((s.drainPick n).1.flow i).checkOk = true := by
  induction n generalizing s with
  | zero => cases h
  | succ n ih =>
    unfold State.drainPick at h ⊢
    split at h
    · cases h
    · split at h
      · next hok => cases h; simp [hok]
      · next hfail => simpa [hfail] using ih _ h

/-- The record of a flow takes its dirty flag (R154). -/
theorem WriterKeeps.drainBuild {i : Nat} (hok : (s.flow i).checkOk = true) : WriterKeeps s (s.drainBuild i) where
  timeBase := rfl
  sightStart := rfl
  plru := rfl
  retire := rfl
  ci := rfl
  flow j _ := by
    have hflow : (s.drainBuild i).flow j = (s.setFlow i { s.flow i with dirty := false }).flow j := rfl
    by_cases hj : j = i
    · subst hj; exact ⟨false, by rw [hflow, State.flow_setFlow, if_pos rfl, ← hok]⟩
    · exact ⟨(s.flow j).dirty, by rw [hflow, State.flow_setFlow, if_neg hj]⟩

theorem WriterKeeps.endDrain : WriterKeeps s s.endDrain := .of_eq (by simp) (by simp) (by rw [State.endDrain_ci])

theorem WriterKeeps.drainStep : WriterKeeps s s.drainStep := by
  have hpick := WriterKeeps.drainPick s (s.flowIndexes.length + 1)
  unfold State.drainStep
  split
  · exact .endDrain s
  · split
    · exact .of_eq (by simp) (by simp) (by rw [State.stallDrain_ci])
    · split
      · next t heq =>
        rw [heq] at hpick
        exact hpick.trans (.endDrain t)
      · next t i heq =>
        have hok := s.drainPick_checkOk (n := s.flowIndexes.length + 1) (i := i) (by rw [heq])
        rw [heq] at hpick hok
        exact hpick.trans (.drainBuild t hok)

theorem WriterKeeps.refreshAlert : WriterKeeps s s.refreshAlert :=
  .of_eq (by simp) (by simp) (by rw [State.refreshAlert_ci])

theorem WriterKeeps.testThreshold (b : State) : WriterKeeps s (s.testThreshold b) :=
  .of_eq (by simp) (by simp) (by rw [State.testThreshold_ci])

theorem WriterKeeps.drainRound : WriterKeeps s (if s.rw.drain = .draining then s.drainStep.refreshAlert else s) := by
  split
  · exact (WriterKeeps.drainStep s).trans (.refreshAlert _)
  · exact .refl s

theorem WriterKeeps.selectInterrogate (x : ReportRecord) : WriterKeeps s (s.selectInterrogate x) := by
  unfold State.selectInterrogate
  dsimp only
  split <;> exact .of_eq rfl rfl rfl

theorem WriterKeeps.selectOnce : WriterKeeps s s.selectOnce := by
  unfold State.selectOnce
  split
  · exact .of_eq rfl rfl rfl
  · split
    · exact .of_eq rfl rfl rfl
    · split
      · exact .selectInterrogate s _
      · split
        · split
          · exact .of_eq rfl rfl rfl
          · exact .drainRound s
        · exact .drainRound s

theorem WriterKeeps.selectRounds (n : Nat) : WriterKeeps s (s.selectRounds n) := by
  induction n generalizing s with
  | zero => exact .refl s
  | succ n ih =>
    unfold State.selectRounds
    split
    · exact .refl s
    · exact (WriterKeeps.selectOnce s).trans (ih _)

/-- From the return to SIGHTED on, the end of an event is the Report Writer's. -/
theorem WriterKeeps.settle (b : State) : WriterKeeps s.returnToSighted (s.settle b) :=
  ((WriterKeeps.refreshAlert _).trans (.testThreshold _ b)).trans (.selectRounds _ 3)

/-! ## The STATUS request (R149, R151) -/

variable {s}

/-- Selection rests while a job is current (R149). -/
theorem State.selectRounds_of_job (h : s.rw.job.isSome = true) (n : Nat) : s.selectRounds n = s := by
  cases n with
  | zero => rfl
  | succ n => exact if_pos h

/-- A STATUS request outlives the selection, or its job is the one selected (R149, R151). -/
theorem State.select_statusPending (h : s.rw.statusPending = true) :
    s.select.rw.statusPending = true ∨ ∃ j, s.select.rw.job = some j ∧ j.kind = .status := by
  by_cases hjob : s.rw.job.isSome = true
  · rw [State.select, State.selectRounds_of_job hjob]; exact .inl h
  · have hround : s.select = s.selectOnce.selectRounds 2 := if_neg hjob
    by_cases hload : s.loadEligible = true
    · have honce : s.selectOnce = s.selectLoad := if_pos hload
      rw [hround, honce, State.selectRounds_of_job rfl]; exact .inl h
    · have honce : s.selectOnce = s.selectStatus := (if_neg hload).trans (if_pos h)
      rw [hround, honce, State.selectRounds_of_job rfl]; exact .inr ⟨_, rfl, rfl⟩

/-- An event that ends BLIND leaves STATUS requested or current (R26, R151). -/
theorem State.settle_statusPending (h : s.BlindEnds) (b : State) :
    (s.settle b).rw.statusPending = true ∨ ∃ j, (s.settle b).rw.job = some j ∧ j.kind = .status := by
  refine State.select_statusPending ?_
  rw [State.statusPending_testThreshold, State.refreshAlert_eq, State.returnToSighted_of_blindEnds h]
  rfl

/-! ## The statement -/

theorem State.settle_oq (s b : State) : (s.settle b).oq = s.returnToSighted.oq := by simp [State.settle]

/-- The end of an event keeps what the link side and CI hold, and ends BLIND where R26 says. -/
theorem State.settle_keeps (s b : State) :
    (s.settle b).cm.timeBase = s.cm.timeBase ∧ (s.settle b).ft.plru = s.ft.plru ∧
    (s.settle b).ft.retire = s.ft.retire ∧
    (s.settle b).ci = { s.ci with
      inFlight := (s.settle b).ci.inFlight, lastResult := (s.settle b).ci.lastResult, load := (s.settle b).ci.load } ∧
    ∀ i, (s.flow i).checkOk = true → ∃ d, (s.settle b).flow i = { s.flow i with dirty := d } := by
  have hkeep := WriterKeeps.settle s b
  have hflow (i : Nat) : s.returnToSighted.flow i = s.flow i := by simp only [State.flow, State.returnToSighted_ft]
  refine ⟨hkeep.timeBase.trans s.returnToSighted_frame.2, ?_, ?_, ?_, fun i hok => ?_⟩
  · rw [hkeep.plru, State.returnToSighted_ft]
  · rw [hkeep.retire, State.returnToSighted_ft]
  · rw [← s.returnToSighted_ci]; exact hkeep.ci
  · rw [← hflow i] at hok ⊢; exact hkeep.flow i hok

/-- The sequence of actions at the end of an event, each by its own rule (logs 10, 11). -/
theorem State.settle_sequence (s b : State) :
    ∃ c r d : State, s.settle b = d.select ∧ AlertRefreshed c r ∧
      (s.BlindEnds → c = { s with
        oq := { s.oq with coverage := .sighted }
        cm := { s.cm with sightStart := s.cm.timeBase }
        rw := { s.rw with statusPending := true } }) ∧
      (¬ s.BlindEnds → c = s) ∧
      (b.dirtyCount < s.dirtyCount → s.ThresholdStands →
        d = { r with rw := r.rw.triggered s.dirtyCount s.cm.timeBase }) ∧
      (s.dirtyCount ≤ b.dirtyCount ∨ ¬ s.ThresholdStands → d = r) := by
  let r := s.returnToSighted.refreshAlert
  have hcount : r.dirtyCount = s.dirtyCount := State.dirtyCount_congr (by simp [r])
  have hci : r.ci = s.ci := by simp [r]
  have htime : r.cm.timeBase = s.cm.timeBase := by
    rw [State.refreshAlert_cm]; exact s.returnToSighted_frame.2
  have hstands : r.thresholdReached = true ↔ s.ThresholdStands := by
    rw [State.thresholdReached_iff, State.ThresholdStands, State.ThresholdStands, hcount, hci]
  refine ⟨s.returnToSighted, r, r.testThreshold b, rfl, State.alertRefreshed_refreshAlert _,
    State.returnToSighted_of_blindEnds, State.returnToSighted_of_not_blindEnds, fun hrise hthreshold => ?_,
    fun hstill => ?_⟩
  · rw [← hcount] at hrise
    rw [← hcount, ← htime, ← State.triggerDrain_eq]
    exact if_pos ⟨hrise, hstands.2 hthreshold⟩
  · rw [← hcount, ← hstands, ← not_lt, ← not_and_or] at hstill
    exact if_neg hstill

/-- Settles O2: the frame and the STATUS request of the end of an event, then its actions in their order. -/
theorem endOfEventKeepsTheLink : Obligations.EndOfEventKeepsTheLink := by
  refine ⟨fun s b => ?_, State.settle_sequence⟩
  obtain ⟨htime, hplru, hretire, hci, hflow⟩ := s.settle_keeps b
  have hoq : (s.settle b).oq = { s.oq with coverage := s.returnToSighted.oq.coverage } :=
    (s.settle_oq b).trans s.returnToSighted_frame.1
  refine ⟨⟨s.settle_fp b, s.settle_mem b, s.settle_pending b⟩, s.settle_tt b, htime,
    (congrArg ObservationQueue.queue hoq :), (congrArg ObservationQueue.lossMark hoq :), hplru, hretire,
    (congrArg ControlInterface.image hci :), (congrArg ControlInterface.held hci :),
    (congrArg ControlInterface.part hci :), (congrArg ControlInterface.lastTag hci :),
    (congrArg ControlInterface.lastClamp hci :), (congrArg ControlInterface.loadReads hci :),
    (congrArg ControlInterface.reloadWaiting hci :),
    congrArg Gauges.produce (s.gauges_settle b), hflow, fun hpart hblind hqueue hloss => ?_⟩
  have hends : s.BlindEnds := ⟨hpart, hblind, hqueue, hloss⟩
  refine ⟨?_, ?_, State.settle_statusPending hends b⟩
  · rw [State.settle_oq, State.returnToSighted_of_blindEnds hends]
  · rw [(WriterKeeps.settle s b).sightStart, State.returnToSighted_of_blindEnds hends]

end Sys2Proof.Machine
end

