-- ==== Sys2Proof/Proofs/Observations.lean ====
section
/-! PROOFS. Observations: the windows of the rings, what the decoder makes of a taken transaction, and what becomes of
an observation that is admitted, unwanted, lost or discarded at the head. -/

namespace Sys2Proof.Machine

/-! ## Ring windows (R14) -/

theorem RingGeometry.covers_iff (g : RingGeometry) (a : Nat) :
    g.covers a = true ↔ g.enabled = true ∧ g.base.toNat ≤ a ∧ a < g.base.toNat + 32 * g.slots := by
  simp [RingGeometry.covers, and_assoc]

/-- An enabled ring that does not cover an address has its window below or above it. -/
theorem RingGeometry.outside_of_not_covers {g : RingGeometry} {a : Nat} (h : g.covers a = false)
    (henabled : g.enabled = true) : a < g.base.toNat ∨ g.base.toNat + 32 * g.slots ≤ a := by
  by_contra hinside
  have hcovers := (g.covers_iff a).2 ⟨henabled, by omega, by omega⟩
  rw [h] at hcovers; cases hcovers

variable {s : State} {a : Addr}

/-- The slot found is that of the address's block in the lowest ring that covers it. -/
theorem State.findSlot_eq_some {r i : Nat} (h : s.findSlot a = some (r, i)) :
    r < 16 ∧ (s.ring r).covers a.toNat = true ∧ (∀ q < r, (s.ring q).covers a.toNat = false) ∧
      i = (a.toNat - (s.ring r).base.toNat) / 32 := by
  unfold State.findSlot at h
  split at h
  · next q hq =>
    obtain ⟨rfl, rfl⟩ := Prod.mk.inj (Option.some.inj h)
    rw [List.find?_range_eq_some] at hq
    obtain ⟨hcovers, hmem, hlower⟩ := hq
    exact ⟨List.mem_range.1 hmem, hcovers, fun q hlt => by simpa using hlower q hlt, rfl⟩
  · cases h

theorem State.findSlot_eq_none (h : s.findSlot a = none) : ∀ r < 16, (s.ring r).covers a.toNat = false := by
  unfold State.findSlot at h
  split at h
  · cases h
  · next hnone => exact fun r hr => by simpa using List.find?_eq_none.1 hnone r (List.mem_range.2 hr)

/-- Settles O14: the ring found covers the address, the lower ones do not, and division by 32 gives the block. -/
theorem ringWindowsCoverTheirSlots : Obligations.RingWindowsCoverTheirSlots := by
  refine fun s a => ⟨fun r i h => ?_, fun h r hr => RingGeometry.outside_of_not_covers (State.findSlot_eq_none h r hr)⟩
  obtain ⟨hr, hcovers, hlower, hi⟩ := State.findSlot_eq_some h
  obtain ⟨henabled, hbase, hend⟩ := (RingGeometry.covers_iff _ _).1 hcovers
  exact ⟨hr, henabled, by omega, by omega, by omega, fun q hq => RingGeometry.outside_of_not_covers (hlower q hq)⟩

/-! ## The decoder (R14 to R16, R176) -/

/-- In a ring window the ring's shapes decide. -/
theorem State.decode_ring (t : Transaction) {r i : Nat} (h : s.findSlot t.address = some (r, i)) :
    s.decode t = (ringShape t).map fun b => (b, some r) := by
  simp only [State.decode, h]

/-- In the control window, outside every ring's, the control shapes decide. -/
theorem State.decode_control (t : Transaction) {o : Nat} (h : s.findSlot t.address = none)
    (hoffset : t.address.toNat = s.controlBase + o) (ho : o < 0x500) :
    s.decode t = (controlShape o t).map fun b => (b, none) := by
  have hwindow : s.inControlWindow (s.controlBase + o) = true := by
    simp only [State.inControlWindow, Bool.and_eq_true, decide_eq_true_eq]; omega
  simp only [State.decode, h, hoffset, hwindow, if_true, Nat.add_sub_cancel_left]

/-- Outside all windows nothing is observed. -/
theorem State.decode_outside (t : Transaction) (h : s.findSlot t.address = none)
    (houtside : t.address.toNat < s.controlBase ∨ s.controlBase + 0x500 ≤ t.address.toNat) : s.decode t = none := by
  have hwindow : ¬ s.inControlWindow t.address.toNat = true := by
    simp only [State.inControlWindow, Bool.and_eq_true, decide_eq_true_eq]; omega
  simp only [State.decode, h, if_neg hwindow]

/-- Settles O15: the shapes window by window, each transaction kind by its shape's condition. -/
theorem decoderKeepsTheStatedShapes : Obligations.DecoderKeepsTheStatedShapes := by
  refine ⟨fun s a r i h => ?_, fun s a o h hoffset ho => ?_, fun s t => State.decode_outside t⟩
  · have hring (t : Transaction) (ht : t.address = a) : s.decode t = (ringShape t).map fun b => (b, some r) :=
      State.decode_ring t (by rw [ht]; exact h)
    refine ⟨fun w0 w1 w2 w3 => hring (.burstWrite a w0 w1 w2 w3) rfl, fun st => hring (.burstRead a st) rfl,
      fun hword => ?_, fun hword => ?_, fun w m hword hlane => ?_, fun w m hother => ?_⟩
    · rw [hring (.singleRead a) rfl, ringShape, if_pos hword]; rfl
    · rw [hring (.singleRead a) rfl, ringShape, if_neg hword]; rfl
    · rw [hring (.singleWrite a w m) rfl, ringShape, if_pos ⟨hword, hlane⟩]; rfl
    · have hshape : ¬ (a.toNat % 32 = 24 ∧ m.getLsbD 0 = true) := by
        rw [not_and_or, Bool.not_eq_true]; exact hother
      rw [hring (.singleWrite a w m) rfl, ringShape, if_neg hshape]; rfl
  · have hcontrol (t : Transaction) (ht : t.address = a) :
        s.decode t = (controlShape o t).map fun b => (b, none) :=
      State.decode_control t (by rw [ht]; exact h) (by rw [ht]; exact hoffset) ho
    refine ⟨fun w0 w1 w2 w3 => hcontrol (.burstWrite a w0 w1 w2 w3) rfl, fun w m hm => ?_, fun w => ?_,
      hcontrol (.singleRead a) rfl, fun st => hcontrol (.burstRead a st) rfl⟩
    · rw [hcontrol (.singleWrite a w m) rfl, controlShape, if_neg hm]; rfl
    · rw [hcontrol (.singleWrite a w 0#8) rfl, controlShape, if_pos rfl]; rfl

/-! ## Admission (R17) -/

theorem ObservationBody.isControl_iff (b : ObservationBody) :
    b.isControl = true ↔ ∃ offset data lanes, b = .controlWrite offset data lanes := by
  cases b <;> simp [ObservationBody.isControl]

/-- R17's table. -/
theorem State.admits_table (s : State) (b : ObservationBody) :
    (s.ci.part = .offline → s.admits b = false) ∧
    (s.ci.part = .loading → (s.admits b = true ↔ ∃ offset data lanes, b = .controlWrite offset data lanes)) ∧
    (s.ci.part = .running → s.oq.coverage = .paused →
      (s.admits b = true ↔ ∃ offset data lanes, b = .controlWrite offset data lanes)) ∧
    (s.ci.part = .running → s.oq.coverage = .sighted ∨ s.oq.coverage = .blind → s.admits b = true) := by
  refine ⟨fun hpart => ?_, fun hpart => ?_, fun hpart hcov => ?_, fun hpart hcov => ?_⟩
  · simp [State.admits, hpart]
  · rw [← b.isControl_iff]; simp [State.admits, hpart]
  · rw [← b.isControl_iff]; simp [State.admits, hpart, hcov]
  · rcases hcov with hcov | hcov <;> simp [State.admits, hpart, hcov]

/-! ## A taken transaction at the decoder -/

variable {t : Transaction}

theorem State.observe_admitted {b : ObservationBody} {ring : Option Nat} (hdecode : s.decode t = some (b, ring))
    (hadmits : s.admits b = true) (hroom : s.oq.queue.length < 64) (place : Nat) :
    s.observe t place = s.enqueueRecord b ring t.address place := by
  have hroom : s.oq.queue.length < Config.queueDepth := hroom
  simp [State.observe, hdecode, hadmits, hroom]

theorem State.observe_lost {b : ObservationBody} {ring : Option Nat} (hdecode : s.decode t = some (b, ring))
    (hadmits : s.admits b = true) (hfull : 64 ≤ s.oq.queue.length) (place : Nat) :
    s.observe t place = s.lose b t.address := by
  have hfull : ¬ s.oq.queue.length < Config.queueDepth := not_lt.2 hfull
  simp [State.observe, hdecode, hadmits, hfull]

theorem State.observe_unwanted (h : ∀ b ring, s.decode t = some (b, ring) → s.admits b = false) (place : Nat) :
    s.observe t place = s := by
  unfold State.observe
  split
  · rfl
  · next b ring hdecode => simp [h b ring hdecode]

section
variable (s) (t)

/-- The state in which the decoder examines a taken transaction: the link and memory have moved (R3). -/
def State.linkTaken (s : State) (t : Transaction) : State :=
  (if t.isRead then s.startReturn t .switchSide else s).takeRequest t

theorem State.takeForwarded_eq : s.takeForwarded t = (s.linkTaken t).observe t s.fp.place := rfl

@[simp] theorem State.linkTaken_pending : (s.linkTaken t).pending = s.pending := by unfold State.linkTaken; split <;> rfl
@[simp] theorem State.linkTaken_oq : (s.linkTaken t).oq = s.oq := by unfold State.linkTaken; split <;> rfl
@[simp] theorem State.linkTaken_ft : (s.linkTaken t).ft = s.ft := by unfold State.linkTaken; split <;> rfl
@[simp] theorem State.linkTaken_tt : (s.linkTaken t).tt = s.tt := by unfold State.linkTaken; split <;> rfl
@[simp] theorem State.linkTaken_cm : (s.linkTaken t).cm = s.cm := by unfold State.linkTaken; split <;> rfl
@[simp] theorem State.linkTaken_tau : (s.linkTaken t).tau = s.tau := by unfold State.linkTaken; split <;> rfl
@[simp] theorem State.linkTaken_rw : (s.linkTaken t).rw = s.rw := by unfold State.linkTaken; split <;> rfl
@[simp] theorem State.linkTaken_ci : (s.linkTaken t).ci = s.ci := by unfold State.linkTaken; split <;> rfl
@[simp] theorem State.linkTaken_agg (k : Aggregate) : (s.linkTaken t).agg k = s.agg k := by simp [State.agg]
@[simp] theorem State.linkTaken_alarm (k : AlarmKind) : (s.linkTaken t).alarm k = s.alarm k := by simp [State.alarm]
@[simp] theorem State.linkTaken_alarmOn (k : AlarmKind) : (s.linkTaken t).alarmOn k = s.alarmOn k := by
  simp [State.alarmOn]
@[simp] theorem State.linkTaken_admits (b : ObservationBody) : (s.linkTaken t).admits b = s.admits b := by
  simp [State.admits]
@[simp] theorem State.linkTaken_decode (t' : Transaction) : (s.linkTaken t).decode t' = s.decode t' := by
  unfold State.linkTaken; split <;> rfl

end

/-- Settles O16: R17's table, then the two ways of the decoder that lose nothing. -/
theorem admittedObservationJoinsTheTail : Obligations.AdmittedObservationJoinsTheTail := by
  refine ⟨State.admits_table, fun s t htake =>
    ⟨fun b ring hbody hadmits hroom => ⟨s.takeForwarded t, exec_transactionTaken htake, ?_⟩,
      fun hunwanted => ⟨s.takeForwarded t, exec_transactionTaken htake, ?_⟩⟩⟩
  · rw [State.takeForwarded_eq, State.observe_admitted (by simpa using hbody) (by simpa using hadmits)
      (by simpa using hroom)]
    simp [State.enqueueRecord, State.now]
  · rw [State.takeForwarded_eq, State.observe_unwanted (by simpa using hunwanted)]
    simp

/-! ## A loss (R21, R23) -/

variable (s)

@[simp] theorem State.agg_trigger (k : AlarmKind) (v : Nat) (c : Aggregate) : (s.trigger k v).agg c = s.agg c := by
  obtain ⟨f, heq, hagg⟩ := s.trigger_onTau k v
  simp only [heq, State.agg, State.onTau_tau, hagg]

@[simp] theorem State.agg_setCoverage (c : Coverage) (k : Aggregate) : (s.setCoverage c).agg k = s.agg k := by
  cases c <;> rfl

@[simp] theorem State.alarm_setCoverage (c : Coverage) (k : AlarmKind) : (s.setCoverage c).alarm k = s.alarm k := by
  cases c <;> rfl

/-- A raise of a kind that is ON and not yet RAISED captures its value (R138). -/
theorem State.alarm_trigger_raises {k : AlarmKind} (hon : s.alarmOn k = true) (hclear : (s.alarm k).raised = false)
    (v : Nat) : ((s.trigger k v).alarm k).raised = true ∧ ((s.trigger k v).alarm k).first = BitVec.ofNat 32 v := by
  rcases s.trigger_cases k v with ⟨hoff, _⟩ | ⟨_, row, hrow, heq⟩
  · rw [hon] at hoff; cases hoff
  · rw [heq, State.alarm_setAlarm, if_pos rfl, hrow]
    simp [hclear]

/-- The change to BLIND: the interval is counted, STATUS requested, the trigger fired (R21, R23). -/
theorem State.goBlind_effect (x : Addr) :
    (s.goBlind x).oq = { s.oq with coverage := .blind } ∧ (s.goBlind x).rw.statusPending = true ∧
    (∀ k, (s.goBlind x).agg k = if k = .blindIntervals then satAdd (s.agg .blindIntervals) 1 else s.agg k) ∧
    (s.alarmOn .blind = true → (s.alarm .blind).raised = false →
      ((s.goBlind x).alarm .blind).raised = true ∧ ((s.goBlind x).alarm .blind).first = BitVec.ofNat 32 x.toNat) := by
  refine ⟨?_, rfl, fun k => by simp [State.goBlind], fun hon hclear => ?_⟩
  · simp [State.goBlind, State.setCoverage]
  · unfold State.goBlind
    rw [State.alarm_setCoverage]
    exact State.alarm_trigger_raises (s.count .blindIntervals) hon hclear _

/-- A loss before its change of coverage: the counts, and what OQ notes of it (R21). -/
def State.noteLoss (s : State) (b : ObservationBody) (x : Addr) : State :=
  (s.countLoss b).onOq fun q =>
    { q with
      reloadOwed := q.reloadOwed || b.named.any fun c => decide (8 ≤ c.1)
      lossMark := true
      firstLost := some (q.firstLost.getD x) }

/-- A loss in RUNNING while SIGHTED goes BLIND, any other leaves coverage (R21, R23). -/
theorem State.lose_eq (b : ObservationBody) (x : Addr) :
    s.lose b x =
      if s.ci.part = .running ∧ s.oq.coverage = .sighted then (s.noteLoss b x).goBlind x else s.noteLoss b x := by
  have hci : (s.noteLoss b x).ci = s.ci := by simp [State.noteLoss]
  have hcoverage : (s.noteLoss b x).oq.coverage = s.oq.coverage := by simp [State.noteLoss]
  rw [← hci, ← hcoverage]; rfl

theorem State.agg_countLoss (b : ObservationBody) (k : Aggregate) :
    (s.countLoss b).agg k =
      if k = .lostObservations then satAdd (s.agg .lostObservations) 1
      else if k = .lostCommands then
        if (b.named.any fun c => decide (c.1 < 8)) = true then satAdd (s.agg .lostCommands) 1 else s.agg .lostCommands
      else s.agg k := by
  unfold State.countLoss
  dsimp only
  by_cases hk : k = .lostCommands
  · subst hk; split <;> simp
  · split <;> simp [hk]

theorem State.alarm_countLoss (b : ObservationBody) (k : AlarmKind) : (s.countLoss b).alarm k = s.alarm k := by
  unfold State.countLoss; dsimp only; split <;> rfl

/-- What OQ holds after a loss (R21). -/
theorem State.lose_oq (b : ObservationBody) (x : Addr) :
    (s.lose b x).oq = { s.oq with
      coverage := if s.ci.part = .running ∧ s.oq.coverage = .sighted then .blind else s.oq.coverage
      reloadOwed := s.oq.reloadOwed || b.named.any fun c => decide (8 ≤ c.1)
      lossMark := true
      firstLost := some (s.oq.firstLost.getD x) } := by
  rw [State.lose_eq]
  split
  · rw [(State.goBlind_effect _ x).1]; simp [State.noteLoss]
  · simp [State.noteLoss]

/-- A loss counts the interval of a change to BLIND beside its own counts (R21, R23). -/
theorem State.agg_lose (b : ObservationBody) (x : Addr) (k : Aggregate) :
    (s.lose b x).agg k =
      if k = .blindIntervals ∧ s.ci.part = .running ∧ s.oq.coverage = .sighted then satAdd (s.agg .blindIntervals) 1
      else (s.countLoss b).agg k := by
  have hnote (k : Aggregate) : (s.noteLoss b x).agg k = (s.countLoss b).agg k := rfl
  obtain ⟨-, -, hagg, -⟩ := (s.noteLoss b x).goBlind_effect x
  rw [State.lose_eq]
  split
  · next hblind => simp [hagg, hnote, hblind, State.agg_countLoss]
  · next hstays => simp [hnote, hstays]

/-- A loss that leaves coverage changes neither RW nor an alarm (R21). -/
theorem State.lose_of_stays (b : ObservationBody) (x : Addr) (h : s.ci.part ≠ .running ∨ s.oq.coverage ≠ .sighted) :
    s.lose b x = s.noteLoss b x := by
  rw [State.lose_eq, if_neg (not_and_or.2 h)]

/-- The change to BLIND by a loss requests STATUS and raises the BLIND kind with the lost address (R23). -/
theorem State.lose_goesBlind (b : ObservationBody) (x : Addr) (hpart : s.ci.part = .running)
    (hcoverage : s.oq.coverage = .sighted) :
    (s.lose b x).rw.statusPending = true ∧
    (s.alarmOn .blind = true → (s.alarm .blind).raised = false →
      ((s.lose b x).alarm .blind).raised = true ∧ ((s.lose b x).alarm .blind).first = BitVec.ofNat 32 x.toNat) := by
  have hon : (s.noteLoss b x).alarmOn .blind = s.alarmOn .blind := by simp [State.noteLoss, State.alarmOn]
  have hrow : (s.noteLoss b x).alarm .blind = s.alarm .blind := s.alarm_countLoss b .blind
  obtain ⟨-, hstatus, -, hraise⟩ := (s.noteLoss b x).goBlind_effect x
  rw [State.lose_eq, if_pos ⟨hpart, hcoverage⟩]
  exact ⟨hstatus, hon ▸ hrow ▸ hraise⟩

/-- Settles O17: what is noted of every loss, then the change to BLIND by part state and coverage. -/
theorem fullQueueLosesTheObservation : Obligations.FullQueueLosesTheObservation := by
  intro s t b ring htake hbody hadmits hfull
  have htaken : s.takeForwarded t = (s.linkTaken t).lose b t.address := by
    rw [State.takeForwarded_eq, State.observe_lost (by simpa using hbody) (by simpa using hadmits)
      (by simpa using hfull)]
  refine ⟨s.takeForwarded t, exec_transactionTaken htake, ?_⟩
  rw [htaken]
  refine ⟨?_, ?_, ?_, ?_, ?_, ?_, fun hpart hcoverage => ⟨?_, ?_, ?_⟩, fun hstays => ?_, ?_, ?_, ?_⟩
  · simp [State.lose_oq]
  · simp [State.lose_oq]
  · cases hfirst : s.oq.firstLost <;> simp [State.lose_oq, hfirst]
  · simp [State.lose_oq]
  · simp [State.agg_lose, State.agg_countLoss, satAdd, Config.counterMax]
  · simp [State.agg_lose, State.agg_countLoss, satAdd, Config.counterMax]
  · simp [State.lose_oq, hpart, hcoverage]
  · simp [State.agg_lose, hpart, hcoverage, satAdd, Config.counterMax]
  · simpa using (s.linkTaken t).lose_goesBlind b t.address (by simpa using hpart) (by simpa using hcoverage)
  · have hkeep := (s.linkTaken t).lose_of_stays b t.address (by simpa using hstays)
    refine ⟨?_, ?_, ?_, ?_⟩
    · simp [hkeep, State.noteLoss]
    · rw [hkeep]; exact ((s.linkTaken t).agg_countLoss b .blindIntervals).trans (by simp)
    · simp [hkeep, State.noteLoss]
    · rw [hkeep]; exact ((s.linkTaken t).alarm_countLoss b .blind).trans (by simp)
  · simp
  · simp
  · simp

/-! ## Discard at the head (R20) -/

/-- Settles O19: the row's two conditions hold, and its effect is the head's removal. -/
theorem discardAtHeadOnlyRemovesTheRecord : Obligations.DiscardAtHeadOnlyRemovesTheRecord := by
  intro s o hhead hring hslot
  have hstep : exec .discardAtHead s = .next (s.popHead.settle s) := by
    simp [exec, execDiscardAtHead, hhead, hring, hslot]
  exact hstep

end Sys2Proof.Machine
end

