-- ==== Sys2Proof/Proofs/Sweep.lean ====
section
/-! PROOFS. The coverage sweep: where the head of the queue waits for it, its pass over the flow entries, and its effect
on slots, queue and reloads. -/

namespace Sys2Proof.Machine

variable {s : State}

/-! ## The head of the queue (R18, R24, R172) -/

/-- A sweep is due ahead of a head record that follows a loss and whose sweep has not run. -/
theorem State.headSweepDue_iff :
    s.headSweepDue = true ↔ ∃ o rest, s.oq.queue = o :: rest ∧ o.followsLoss = true ∧ s.oq.headSwept = false := by
  unfold State.headSweepDue
  split <;> next hqueue => simp [hqueue]

/-- No sweep is due ahead of a head that follows no loss or whose sweep has run. -/
theorem State.not_headSweepDue
    (h : ∀ o rest, s.oq.queue = o :: rest → o.followsLoss = false ∨ s.oq.headSwept = true) :
    ¬ s.headSweepDue = true := by
  rw [State.headSweepDue_iff]
  rintro ⟨o, rest, hqueue, hfollows, hunswept⟩
  simpa [hfollows, hunswept] using h o rest hqueue

theorem State.emptySweepDue_iff : s.emptySweepDue = true ↔ s.oq.queue = [] ∧ s.oq.lossMark = true := by
  simp [State.emptySweepDue]

/-- Nothing is handed out ahead of a sweep that is due. -/
theorem State.headReady_of_headSweepDue (h : s.headSweepDue = true) : s.headReady = none := by
  unfold State.headReady
  split
  · rfl
  · rw [if_pos h]

/-- A head whose sweep has run and which no unapplied load read precedes is ready. -/
theorem State.headReady_eq_some {o : Observation} {rest : List Observation} (hqueue : s.oq.queue = o :: rest)
    (hswept : ¬ s.headSweepDue = true) (hreads : ∀ p ∈ s.loadPlaces, o.place ≤ p) : s.headReady = some o := by
  have hnone : ¬ (s.loadPlaces.any fun p => decide (p < o.place)) = true := by simpa using hreads
  simp only [State.headReady, hqueue, if_neg hswept, if_neg hnone]

/-- The places of the load reads not yet applied are those returned and that of the job's read under way (R172). -/
theorem State.mem_loadPlaces {p : Nat} :
    p ∈ s.loadPlaces ↔
      (∃ r ∈ s.ci.loadReads, r.place = p) ∨ ∃ r, s.fp.ret = some r ∧ r.owner = .job ∧ r.place = p := by
  unfold State.loadPlaces
  cases hret : s.fp.ret with
  | none => simp
  | some r => by_cases howner : r.owner = .job <;> simp [howner, eq_comm (a := p)]

theorem State.controlCase_of_headReady_none (h : s.headReady = none) (case : Observation → Bool) :
    s.controlCase case = .next s := by
  simp [State.controlCase, State.controlReady, h]

/-- With no record ready, no row of a hand-out acts (R18). -/
theorem exec_handOut_of_headReady_none (h : s.headReady = none) : ∀ c ∈ handOuts, exec c s = .next s := by
  have hcontrol := State.controlCase_of_headReady_none h
  simp only [handOuts, List.forall_mem_cons]
  refine ⟨?_, ?_, ?_, ?_, hcontrol _, hcontrol _, hcontrol _, hcontrol _, hcontrol _, hcontrol _, hcontrol _, hcontrol _,
    hcontrol _, hcontrol _, hcontrol _, hcontrol _, hcontrol _, hcontrol _, hcontrol _, hcontrol _, by simp⟩
  · simp only [exec, execEnqueue, h]
  · simp only [exec, execDequeue, h]
  · simp only [exec, execCompletion, h]
  · simp only [exec, execDiscardAtHead, h]

/-! ## The pass over the flow entries (R24, R34, R52) -/

/-- What the sweep makes of one entry: a failing one is faulted, a valid one re-anchors. -/
def FlowEntry.afterSweep (e : FlowEntry) : FlowEntry :=
  if e.checkOk = true then if e.valid = true then e.swept else e else vacantEntry (e.generation + 1)

@[simp] theorem FlowEntry.checkOk_afterSweep (e : FlowEntry) : e.afterSweep.checkOk = true := by
  unfold FlowEntry.afterSweep
  split
  · next hok => split <;> exact hok
  · rfl

/-- A second visit changes nothing. -/
theorem FlowEntry.afterSweep_afterSweep (e : FlowEntry) : e.afterSweep.afterSweep = e.afterSweep := by
  unfold FlowEntry.afterSweep
  by_cases hok : e.checkOk = true
  · by_cases hvalid : e.valid = true
    · have hvalid' : e.swept.valid = true := hvalid
      have hok' : e.swept.checkOk = true := hok
      simp only [hok, hvalid, hok', hvalid', if_true]; rfl
    · simp [hok, hvalid]
  · simp [hok, vacantEntry, FlowEntry.valid]

/-- An unlisted key is not found. -/
theorem lookupCell_of_notMem {α : Type} {k : Nat} {l : List (Nat × α)} (h : k ∉ l.map Prod.fst) :
    lookupCell k l = none := by
  induction l with
  | nil => rfl
  | cons c rest ih =>
    simp only [List.map_cons, List.mem_cons, not_or] at h
    rw [lookupCell, if_neg (Ne.symm h.1), ih h.2]

section
variable (s)

/-- The sweep's visit to entry i: the read with its check, then the change of a valid entry. -/
def State.sweepFlow (s : State) (i : Nat) : State :=
  if ((s.checked i).flow i).valid then (s.checked i).setFlow i ((s.checked i).flow i).swept else s.checked i

/-- The sweep's pass over entries. -/
def State.sweepFlows (s : State) (l : List Nat) : State := s.overFlows (fun t i => t.setFlow i (t.flow i).swept) l

theorem State.sweepFlows_cons (i : Nat) (l : List Nat) : s.sweepFlows (i :: l) = (s.sweepFlow i).sweepFlows l := rfl

theorem State.flow_checked (i j : Nat) :
    (s.checked i).flow j =
      if j = i ∧ (s.flow i).checkOk = false then vacantEntry ((s.flow i).generation + 1) else s.flow j := by
  rcases s.checked_cases i with ⟨hok, heq⟩ | ⟨hfail, heq⟩
  · simp [heq, hok]
  · simp [heq, hfail, State.flow_entryFault]

theorem State.dueOf_checked (i j : Nat) :
    (s.checked i).dueOf j = if j = i ∧ (s.flow i).checkOk = false then none else s.dueOf j := by
  rcases s.checked_cases i with ⟨hok, heq⟩ | ⟨hfail, heq⟩
  · simp [heq, hok]
  · simp [heq, hfail, State.entryFault, State.dueOf, State.leaveDue, Store.find?_erase]

@[simp] theorem State.agg_checked_configReloads (i : Nat) :
    (s.checked i).agg .configReloads = s.agg .configReloads := by
  rcases s.checked_cases i with ⟨_, heq⟩ | ⟨_, heq⟩
  · rw [heq]
  · rw [heq, State.entryFault, State.agg_trigger, State.agg_count, if_neg (by decide)]; rfl

/-- A visit changes its own entry alone. -/
theorem State.flow_sweepFlow (i j : Nat) :
    (s.sweepFlow i).flow j = if j = i then (s.flow i).afterSweep else s.flow j := by
  have hread := s.flow_checked i i
  unfold State.sweepFlow
  by_cases hj : j = i
  · subst hj
    rcases s.checked_cases j with ⟨hok, heq⟩ | ⟨hfail, heq⟩
    · rw [heq]
      by_cases hvalid : (s.flow j).valid = true
      · simp [hvalid, hok, FlowEntry.afterSweep, FlowEntry.swept]
      · simp [hvalid, hok, FlowEntry.afterSweep]
    · simp [hread, hfail, FlowEntry.afterSweep, vacantEntry, FlowEntry.valid]
  · split <;> simp [State.flow_checked, hj]

theorem State.dueOf_sweepFlow (i j : Nat) :
    (s.sweepFlow i).dueOf j = if j = i ∧ (s.flow i).checkOk = false then none else s.dueOf j := by
  unfold State.sweepFlow
  split <;> simp [State.dueOf_checked]

/-- The pass sweeps the entries of its list and leaves the others. -/
theorem State.flow_sweepFlows (l : List Nat) (j : Nat) :
    (s.sweepFlows l).flow j = if j ∈ l then (s.flow j).afterSweep else s.flow j := by
  induction l generalizing s with
  | nil => rfl
  | cons i rest ih =>
    rw [State.sweepFlows_cons, ih, State.flow_sweepFlow]
    by_cases hj : j = i
    · subst hj; simp [FlowEntry.afterSweep_afterSweep]
    · simp [hj]

/-- The pass takes the failing entries of its list from the due list (R51). -/
theorem State.dueOf_sweepFlows (l : List Nat) (j : Nat) :
    (s.sweepFlows l).dueOf j = if j ∈ l ∧ (s.flow j).checkOk = false then none else s.dueOf j := by
  induction l generalizing s with
  | nil => simp [State.sweepFlows, State.overFlows]
  | cons i rest ih =>
    rw [State.sweepFlows_cons, ih, State.flow_sweepFlow, State.dueOf_sweepFlow]
    by_cases hj : j = i
    · subst hj; by_cases hok : (s.flow j).checkOk = false <;> simp [hok]
    · simp [hj]

/-- An entry that reads as anything but an unlisted one is visited (log 24). -/
theorem State.mem_flowIndexes {i : Nat} (hi : i < 1024) (h : s.flow i ≠ initialEntry) : i ∈ s.flowIndexes := by
  refine List.mem_filter.2 ⟨?_, decide_eq_true hi⟩
  by_contra hunlisted
  exact h (by simp only [State.flow, Store.get, Store.find?, lookupCell_of_notMem hunlisted, Option.getD_none])

/-- The sweep's pass reaches all 1024 entries, since an unlisted one needs no change (log 24). -/
theorem State.flow_sweepFlows_all {i : Nat} (hi : i < 1024) :
    (s.sweepFlows s.flowIndexes).flow i = (s.flow i).afterSweep := by
  rw [State.flow_sweepFlows]
  split
  · rfl
  · next hunlisted =>
    have hinitial : s.flow i = initialEntry := by
      by_contra h; exact hunlisted (s.mem_flowIndexes hi h)
    rw [hinitial]; rfl

@[simp] theorem State.sweepFlows_oq (l : List Nat) : (s.sweepFlows l).oq = s.oq :=
  s.overFlows_keep State.oq _ l (fun t i => by simp) fun t i => by simp
@[simp] theorem State.sweepFlows_tt (l : List Nat) : (s.sweepFlows l).tt = s.tt :=
  s.overFlows_keep State.tt _ l (fun t i => by simp) fun t i => by simp
@[simp] theorem State.sweepFlows_ci (l : List Nat) : (s.sweepFlows l).ci = s.ci :=
  s.overFlows_keep State.ci _ l (fun t i => by simp) fun t i => by simp
@[simp] theorem State.agg_sweepFlows_configReloads (l : List Nat) :
    (s.sweepFlows l).agg .configReloads = s.agg .configReloads :=
  s.overFlows_keep (fun t => t.agg .configReloads) _ l (fun t i => by simp) fun t i => rfl

/-! ## The sweep (R24, R174) -/

/-- The sweep but for the reload it owes. -/
def State.sweepBlocks (s : State) : State :=
  ((s.sweepFlows s.flowIndexes).onTt fun t => t.update .empty fun _ x => x.doubted).onOq fun q =>
    { q with lossMark := false, firstLost := none, reloadOwed := false }

theorem State.sweep_eq :
    s.sweep = if s.oq.reloadOwed then s.sweepBlocks.requestReload .sweep else s.sweepBlocks := by
  rw [← s.sweepFlows_oq s.flowIndexes]; rfl

/-- A reload moves CI and TAU alone, so whatever hangs on neither is as the pass left it. -/
theorem State.sweep_keep {β : Type} (g : State → β) (hg : ∀ t o, g (State.requestReload t o) = g t) :
    g s.sweep = g s.sweepBlocks := by
  rw [State.sweep_eq]; split
  · exact hg _ _
  · rfl

@[simp] theorem State.sweep_oq :
    s.sweep.oq = { s.oq with lossMark := false, firstLost := none, reloadOwed := false } := by
  rw [s.sweep_keep State.oq fun t o => t.requestReload_oq o]
  simp [State.sweepBlocks]

theorem State.flow_sweep {i : Nat} (hi : i < 1024) : s.sweep.flow i = (s.flow i).afterSweep := by
  have hflow (t : State) (o : ReloadOrigin) : (t.requestReload o).flow i = t.flow i := by
    simp only [State.flow, State.requestReload_ft]
  rw [s.sweep_keep (fun t => t.flow i) hflow]
  exact s.flow_sweepFlows_all hi

theorem State.dueOf_sweep {i : Nat} (hi : i < 1024) (hfail : (s.flow i).checkOk = false) : s.sweep.dueOf i = none := by
  have hdue (t : State) (o : ReloadOrigin) : (t.requestReload o).dueOf i = t.dueOf i := by
    simp only [State.dueOf, State.requestReload_cm]
  have hlisted : i ∈ s.flowIndexes := s.mem_flowIndexes hi fun h => by rw [h] at hfail; cases hfail
  rw [s.sweep_keep (fun t => t.dueOf i) hdue]
  exact (s.dueOf_sweepFlows _ i).trans (if_pos ⟨hlisted, hfail⟩)

theorem State.tt_sweep (hwf : s.tt.wf .empty = true) (n : Nat) :
    s.sweep.tt.get .empty n = (s.tt.get .empty n).doubted := by
  rw [s.sweep_keep State.tt fun t o => t.requestReload_tt o]
  simp only [State.sweepBlocks, State.onOq_tt, State.onTt_tt, State.sweepFlows_tt]
  exact Store.get_update s.tt .empty _ hwf (fun _ => rfl) n

@[simp] theorem State.sweepBlocks_ci : s.sweepBlocks.ci = s.ci := by simp [State.sweepBlocks]
@[simp] theorem State.agg_sweepBlocks_configReloads : s.sweepBlocks.agg .configReloads = s.agg .configReloads := by
  simp [State.sweepBlocks]

/-- A reload with no load in progress starts and is counted (R174). -/
theorem State.requestReload_idle (h : s.ci.load = none) (o : ReloadOrigin) :
    s.requestReload o = (s.count .configReloads).beginLoad (.reload o) := by
  simp only [State.requestReload, h]

/-- A reload waits while a load is in progress (R174). -/
theorem State.requestReload_busy (h : s.ci.load ≠ none) (o : ReloadOrigin) :
    s.requestReload o = s.onCi fun c => { c with reloadWaiting := some (mergeOrigin c.reloadWaiting o) } := by
  obtain ⟨l, hl⟩ := Option.ne_none_iff_exists'.1 h
  simp only [State.requestReload, hl]

/-- A sweep's request waits as a sweep's, but for a command's that already waits (R174). -/
theorem mergeOrigin_sweep (w : Option ReloadOrigin) :
    mergeOrigin w .sweep = .sweep ∨ (w = some .command ∧ mergeOrigin w .sweep = .command) := by
  match w with
  | none | some .sweep => exact .inl rfl
  | some .command => exact .inr ⟨rfl, rfl⟩

theorem State.swept_sweep : Swept s s.sweep := by
  refine ⟨fun i hi hok hvalid => ?_, fun i hi hok hvalid => ?_, fun i hi hfail => ⟨?_, s.dueOf_sweep hi hfail⟩,
    fun hwf n => ?_, ?_, ?_, ?_, fun howed => ?_, fun howed hload => ?_, fun howed hload => ?_⟩
  · rw [s.flow_sweep hi, FlowEntry.afterSweep, if_pos hok, if_pos hvalid]; rfl
  · rw [s.flow_sweep hi, FlowEntry.afterSweep, if_pos hok, if_neg (by simp [hvalid])]
  · rw [s.flow_sweep hi, FlowEntry.afterSweep, if_neg (by simp [hfail])]
  · rw [s.tt_sweep hwf]; cases s.tt.get .empty n <;> rfl
  · rw [State.sweep_oq]
  · rw [State.sweep_oq]
  · rw [State.sweep_oq]
  · simp [State.sweep_eq, howed]
  · rw [State.sweep_eq, if_pos howed, State.requestReload_idle _ (by simpa using hload)]
    refine ⟨rfl, ?_⟩
    rw [← s.agg_sweepBlocks_configReloads]
    exact State.agg_count s.sweepBlocks .configReloads .configReloads
  · rw [State.sweep_eq, if_pos howed, State.requestReload_busy _ (by simpa using hload)]
    refine ⟨by simp, by simp, ?_⟩
    simpa using mergeOrigin_sweep s.ci.reloadWaiting

end

/-! ## The statement -/

/-- Without an owed reload CI stands (R24). -/
theorem State.ci_sweep (s : State) (howed : s.oq.reloadOwed = false) : s.sweep.ci = s.ci := by
  simp [State.sweep_eq, howed]

theorem State.sameLink_sweep (s : State) : SameLink s s.sweep := ⟨s.sweep_fp, s.sweep_mem, s.sweep_pending⟩

theorem State.queue_sweep (s : State) : s.sweep.oq.queue = s.oq.queue := by rw [State.sweep_oq]
theorem State.coverage_sweep (s : State) : s.sweep.oq.coverage = s.oq.coverage := by rw [State.sweep_oq]

theorem exec_coverageSweep_head (h : s.headSweepDue = true) :
    exec .coverageSweep s = .next ((s.sweep.onOq fun q => { q with headSwept := true }).settle s) := if_pos h

theorem exec_coverageSweep_empty (h : s.emptySweepDue = true) : exec .coverageSweep s = .next (s.sweep.settle s) := by
  have hhead : ¬ s.headSweepDue = true := by simp [State.headSweepDue, (State.emptySweepDue_iff.1 h).1]
  exact (if_neg hhead).trans (if_pos h)

theorem exec_coverageSweep_idle (hhead : ¬ s.headSweepDue = true) (hempty : ¬ s.emptySweepDue = true) :
    exec .coverageSweep s = .next s := (if_neg hhead).trans (if_neg hempty)

/-- Settles O18: a head that waits is not handed out and one with nothing to wait for is ready; the row acts exactly when
a sweep is due, and then sweeps. -/
theorem coverageSweepWithholdsJudgement : Obligations.CoverageSweepWithholdsJudgement := by
  refine ⟨fun s h => exec_handOut_of_headReady_none ?_, fun s o rest hqueue hswept hreads hret => ?_,
    fun s hhead hempty => exec_coverageSweep_idle ?_ ?_, fun s _ hdue => ?_⟩
  · rcases h with hqueue | hdue
    · exact State.headReady_nil hqueue
    · exact State.headReady_of_headSweepDue (State.headSweepDue_iff.2 hdue)
  · refine State.headReady_eq_some hqueue (State.not_headSweepDue fun o' rest' hqueue' => ?_) fun p hp => ?_
    · obtain ⟨rfl, -⟩ := List.cons.inj (hqueue.symm.trans hqueue')
      exact hswept
    · rcases State.mem_loadPlaces.1 hp with ⟨r, hr, rfl⟩ | ⟨r, hr, howner, rfl⟩
      · exact hreads r hr
      · exact hret r hr howner
  · exact State.not_headSweepDue hhead
  · rw [State.emptySweepDue_iff]
    rintro ⟨hqueue, hloss⟩
    rw [hempty hqueue] at hloss; cases hloss
  · rcases hdue with hhead | hempty
    · exact ⟨_, exec_coverageSweep_head (State.headSweepDue_iff.2 hhead), s.sameLink_sweep, fun _ => rfl, s.swept_sweep,
        s.queue_sweep, s.coverage_sweep, s.ci_sweep⟩
    · exact ⟨_, exec_coverageSweep_empty (State.emptySweepDue_iff.2 hempty), s.sameLink_sweep,
        fun hqueue => absurd hempty.1 hqueue, s.swept_sweep, s.queue_sweep, s.coverage_sweep, s.ci_sweep⟩

end Sys2Proof.Machine
end

