-- ==== Sys2Proof/Proofs/FlowTable.lean ====
section
/-! PROOFS. The flow table: the set and the profile of a key, the read of an entry with its check, the replacement order,
and the allocation of a way. -/

namespace Sys2Proof.Machine

/-! ## Keys and the classifier (R28, R29) -/

/-- The high byte of a key: the port above the upper four bits of the tag (R28). -/
theorem toNat_port_append (port : BitVec 4) (tag : BitVec 20) :
    (port ++ tag.extractLsb' 16 4 : BitVec 8).toNat = port.toNat * 16 + tag.toNat / 65536 := by
  have htop : (tag.extractLsb' 16 4).toNat = tag.toNat / 65536 := by
    rw [BitVec.extractLsb'_toNat, Nat.shiftRight_eq_div_pow]
    exact Nat.mod_eq_of_lt (by have := tag.isLt; omega)
  rw [BitVec.toNat_append, ← Nat.shiftLeft_add_eq_or_of_lt (tag.extractLsb' 16 4).isLt, htop, Nat.shiftLeft_eq]

theorem setIndex_eq (port : BitVec 4) (tag : BitVec 20) :
    setIndex port tag =
      (tag.toNat % 256) ^^^ (tag.toNat / 256 % 256) ^^^ (port.toNat * 16 + tag.toNat / 65536) := by
  simp only [setIndex, BitVec.toNat_xor, toNat_port_append, BitVec.extractLsb'_toNat, Nat.shiftRight_eq_div_pow,
    Nat.pow_zero, Nat.div_one, Nat.reducePow]

theorem ClassifierEntry.matchesKey_iff (c : ClassifierEntry) (port : BitVec 4) (tag : BitVec 20) :
    c.matchesKey port tag = true ↔
      c.enabled = true ∧ c.portMask.getLsbD port.toNat = true ∧ tag &&& c.tagMask = c.tagValue &&& c.tagMask := by
  simp [ClassifierEntry.matchesKey, and_assoc]

variable (s : State)

/-- The lowest matching entry gives the profile (R29). -/
theorem State.classify_of_match {port : BitVec 4} {tag : BitVec 20} {n : Nat} (hn : n < 32)
    (hmatch : (s.classifierEntry n).matchesKey port tag = true)
    (hlower : ∀ m < n, (s.classifierEntry m).matchesKey port tag = false) :
    s.classify port tag = (s.classifierEntry n).profile := by
  have hfind : (List.range 32).find? (fun m => (s.classifierEntry m).matchesKey port tag) = some n :=
    List.find?_range_eq_some.2 ⟨hmatch, List.mem_range.2 hn, fun m hm => by simp [hlower m hm]⟩
  simp only [State.classify, hfind]

/-- A key that no entry matches has profile 0 (R29). -/
theorem State.classify_of_no_match {port : BitVec 4} {tag : BitVec 20}
    (hnone : ∀ n < 32, (s.classifierEntry n).matchesKey port tag = false) : s.classify port tag = 0 := by
  have hfind : (List.range 32).find? (fun m => (s.classifierEntry m).matchesKey port tag) = none :=
    List.find?_eq_none.2 fun n hn => by simp [hnone n (List.mem_range.1 hn)]
  simp only [State.classify, hfind]

/-- Settles O20: the set by the bytes of the key, the profile by the first match of the classifier. -/
theorem keyGivesSetAndProfile : Obligations.KeyGivesSetAndProfile := by
  refine ⟨fun port tag => ⟨setIndex_eq port tag, BitVec.isLt _, fun x _ => ?_⟩,
    fun s port tag => ⟨fun n hn henabled hport htag hlower => ?_, s.classify_of_no_match⟩⟩
  · rw [flowIndex, Nat.mul_comm]
  · exact s.classify_of_match hn ((ClassifierEntry.matchesKey_iff _ _ _).2 ⟨henabled, hport, htag⟩) hlower

/-! ## Entry faults (R34, R51) -/

theorem State.checked_of_ok {i : Nat} (h : (s.flow i).checkOk = true) : s.checked i = s := if_pos h

theorem State.checked_of_fail {i : Nat} (h : (s.flow i).checkOk = false) : s.checked i = s.entryFault i :=
  if_neg (by simp [h])

/-- A trigger of a kind that is ON raises it, counts an occurrence, and captures the value of a kind not RAISED (R138). -/
theorem State.alarm_trigger_of_on {k : AlarmKind} (hon : s.alarmOn k = true) (v : Nat) :
    (s.trigger k v).alarm k = { s.alarm k with
      occurrences := min ((s.alarm k).occurrences + 1) 65535, raised := true,
      first := if (s.alarm k).raised then (s.alarm k).first else BitVec.ofNat 32 v } := by
  rcases s.trigger_cases k v with ⟨hoff, _⟩ | ⟨_, row, hrow, heq⟩
  · rw [hon] at hoff; cases hoff
  · rw [heq, State.alarm_setAlarm, if_pos rfl, hrow]; rfl

/-- Settles O24: the fault writes one entry, takes one due time away, counts and fires. -/
theorem entryFaultVacatesTheEntry : Obligations.EntryFaultVacatesTheEntry := by
  refine ⟨fun s i h => s.checked_of_ok h, fun s i hfail => ?_⟩
  have hflow := s.flow_entryFault i
  have hself : (s.entryFault i).flow i = vacantEntry ((s.flow i).generation + 1) := (hflow i).trans (if_pos rfl)
  rw [s.checked_of_fail hfail, hself]
  let t := ((s.leaveDue i).setFlow i (vacantEntry ((s.flow i).generation + 1))).count .entryFaults
  have hfault : s.entryFault i = t.trigger .entryFault i := rfl
  refine ⟨rfl, rfl, rfl, rfl, fun j hj => (hflow j).trans (if_neg hj), ?_, ?_, ?_, ?_, fun hon => ?_⟩
  · have hdue := s.dueOf_checked i i
    rwa [if_pos ⟨rfl, hfail⟩, s.checked_of_fail hfail] at hdue
  · rw [hfault, State.trigger_ft]; rfl
  · rw [hfault, State.trigger_ft]; rfl
  · rw [hfault, State.agg_trigger]; exact State.agg_count _ .entryFaults .entryFaults
  · rw [hfault, State.alarm_trigger_of_on t hon]
    exact ⟨rfl, rfl, fun hclear => if_neg (Bool.eq_false_iff.1 hclear)⟩

/-! ## The replacement order (R39, R43) -/

theorem Plru.way_lt (b : Plru) : b.way < 4 := by
  unfold Plru.way; split <;> split <;> decide

/-- The set of a way, by its flow index (R28). -/
theorem flowIndex_div (set : Nat) {x : Nat} (hx : x < 4) : flowIndex set x / 4 = set := by
  unfold flowIndex; omega

/-- All that the choice of a victim can be (R39): the lowest VACANT way, or, in a set without one, the PLRU way unless it
is pinned, and then the lowest way not pinned. -/
theorem State.victimWay_cases (set : Nat) :
    (s.victimWay set < 4 ∧ (s.flow (flowIndex set (s.victimWay set))).valid = false ∧
      ∀ y < s.victimWay set, (s.flow (flowIndex set y)).valid = true) ∨
    ((∀ x < 4, (s.flow (flowIndex set x)).valid = true) ∧
      s.victimWay set =
        if s.ci.held.pinCount ≤ (s.plruOf set).way then (s.plruOf set).way else s.ci.held.pinCount) := by
  unfold State.victimWay
  rw [show [0, 1, 2, 3] = List.range 4 from rfl]
  split
  · next x hx =>
    obtain ⟨hvacant, hmem, hlower⟩ := List.find?_range_eq_some.1 hx
    exact .inl ⟨List.mem_range.1 hmem, by simpa using hvacant, fun y hy => by simpa using hlower y hy⟩
  · next hnone =>
    exact .inr ⟨fun x hx => by simpa using List.find?_eq_none.1 hnone x (List.mem_range.2 hx), rfl⟩

/-- The victim way of a legal pin count is one of the four (R39, R44). -/
theorem State.victimWay_lt (hpin : s.ci.held.pinCount ≤ 3) (set : Nat) : s.victimWay set < 4 := by
  rcases s.victimWay_cases set with ⟨hlt, _⟩ | ⟨_, heq⟩
  · exact hlt
  · rw [heq]
    split
    · exact Plru.way_lt _
    · omega

/-- A set with a VACANT way gives its lowest one as the victim (R39). -/
theorem State.victimWay_of_vacant {set x : Nat} (hx : x < 4) (hvacant : (s.flow (flowIndex set x)).valid = false) :
    (s.flow (flowIndex set (s.victimWay set))).valid = false ∧ s.victimWay set ≤ x := by
  rcases s.victimWay_cases set with ⟨_, hvictim, hlower⟩ | ⟨hall, _⟩
  · refine ⟨hvictim, Nat.le_of_not_lt fun hlt => ?_⟩
    rw [hlower x hlt] at hvacant; cases hvacant
  · rw [hall x hx] at hvacant; cases hvacant

/-- A set without a VACANT way gives its PLRU way, or the lowest way not pinned (R39). -/
theorem State.victimWay_of_full {set : Nat} (hall : ∀ x < 4, (s.flow (flowIndex set x)).valid = true) :
    s.victimWay set =
      if s.ci.held.pinCount ≤ (s.plruOf set).way then (s.plruOf set).way else s.ci.held.pinCount := by
  rcases s.victimWay_cases set with ⟨hlt, hvictim, _⟩ | ⟨_, heq⟩
  · rw [hall _ hlt] at hvictim; cases hvictim
  · exact heq

/-- The PLRU way and the bits after a use are those of R43's tables. -/
theorem Plru.tables (b : Plru) :
    (b.b0 = false → b.b1 = false → b.way = 0) ∧ (b.b0 = false → b.b1 = true → b.way = 1) ∧
    (b.b0 = true → b.b2 = false → b.way = 2) ∧ (b.b0 = true → b.b2 = true → b.way = 3) ∧
    b.use 0 = { b0 := true, b1 := true, b2 := b.b2 } ∧ b.use 1 = { b0 := true, b1 := false, b2 := b.b2 } ∧
    b.use 2 = { b0 := false, b1 := b.b1, b2 := true } ∧ b.use 3 = { b0 := false, b1 := b.b1, b2 := false } := by
  refine ⟨fun h0 h1 => ?_, fun h0 h1 => ?_, fun h0 h2 => ?_, fun h0 h2 => ?_, rfl, rfl, rfl, rfl⟩
  · simp [Plru.way, h0, h1]
  · simp [Plru.way, h0, h1]
  · simp [Plru.way, h0, h2]
  · simp [Plru.way, h0, h2]

/-! ## Allocation (R38, R40 to R42) -/

/-- All that disposing of a victim's contents can be (R40): nothing of a VACANT one, a clean one is discarded, a dirty one
is retired, and with the retire buffer full it is not disposed of. -/
theorem State.dispose_cases (v : Nat) (time : Time) :
    ((s.flow v).valid = false ∧ s.dispose v time = some s) ∨
    ((s.flow v).valid = true ∧ (s.flow v).dirty = false ∧ s.dispose v time = some (s.count .evictions)) ∨
    ((s.flow v).valid = true ∧ (s.flow v).dirty = true ∧ s.ft.retire.length < 8 ∧
      s.dispose v time = some ((s.retireEntry v .replaced time).count .evictions)) ∨
    ((s.flow v).valid = true ∧ (s.flow v).dirty = true ∧ 8 ≤ s.ft.retire.length ∧ s.dispose v time = none) := by
  unfold State.dispose
  cases hvalid : (s.flow v).valid
  · exact .inl ⟨rfl, rfl⟩
  · cases hdirty : (s.flow v).dirty
    · exact .inr (.inl ⟨rfl, rfl, rfl⟩)
    · by_cases hroom : s.ft.retire.length < 8
      · exact .inr (.inr (.inl ⟨rfl, rfl, hroom, if_pos hroom⟩))
      · exact .inr (.inr (.inr ⟨rfl, rfl, Nat.le_of_not_lt hroom, if_neg hroom⟩))

variable {s}

/-- Disposing of a victim moves the retire buffer and TAU alone (R40). -/
theorem State.dispose_frame {v : Nat} {time : Time} {t : State} (h : s.dispose v time = some t) :
    t = { s with ft := { s.ft with retire := t.ft.retire }, tau := t.tau } := by
  rcases s.dispose_cases v time with ⟨_, heq⟩ | ⟨_, _, heq⟩ | ⟨_, _, _, heq⟩ | ⟨_, _, _, heq⟩ <;> rw [h] at heq <;> cases heq
  · rfl
  · rfl
  · rfl

/-- What disposing of a victim does to the retire buffer and the count of evictions, case by case (R40, R48). -/
theorem State.dispose_effect {v : Nat} {time : Time} {t : State} (h : s.dispose v time = some t) :
    ((s.flow v).valid = false → t = s) ∧
    ((s.flow v).valid = true → t.agg .evictions = min (s.agg .evictions + 1) 4294967295) ∧
    ((s.flow v).valid = true → (s.flow v).dirty = false → t.ft.retire = s.ft.retire) ∧
    ((s.flow v).valid = true → (s.flow v).dirty = true → t.ft.retire = s.ft.retire ++
      [{ type := .retire .replaced, index := v, entry := s.flow v, drainNumber := s.rw.drainNumber, time := time }]) := by
  rcases s.dispose_cases v time with ⟨hvalid, heq⟩ | ⟨hvalid, hdirty, heq⟩ | ⟨hvalid, hdirty, _, heq⟩ | ⟨_, _, _, heq⟩ <;>
    rw [h] at heq <;> cases heq
  · exact ⟨fun _ => rfl, by simp [hvalid], by simp [hvalid], by simp [hvalid]⟩
  · exact ⟨by simp [hvalid], fun _ => State.agg_count s .evictions .evictions, fun _ _ => rfl, by simp [hdirty]⟩
  · exact ⟨by simp [hvalid], fun _ => State.agg_count _ .evictions .evictions, by simp [hdirty], fun _ _ => rfl⟩

/-- A victim is disposed of unless it is dirty and the retire buffer full (R40, R41). -/
theorem State.exists_dispose {v : Nat} (time : Time)
    (hroom : (s.flow v).valid = true → (s.flow v).dirty = true → s.ft.retire.length < 8) :
    ∃ t, s.dispose v time = some t := by
  rcases s.dispose_cases v time with ⟨_, heq⟩ | ⟨_, _, heq⟩ | ⟨_, _, _, heq⟩ | ⟨hvalid, hdirty, hfull, _⟩
  · exact ⟨_, heq⟩
  · exact ⟨_, heq⟩
  · exact ⟨_, heq⟩
  · exact absurd (hroom hvalid hdirty) (Nat.not_lt.2 hfull)

/-- A dirty victim with the retire buffer full is not disposed of (R41). -/
theorem State.dispose_of_full {v : Nat} {time : Time} (hvalid : (s.flow v).valid = true)
    (hdirty : (s.flow v).dirty = true) (hfull : 8 ≤ s.ft.retire.length) : s.dispose v time = none := by
  have hroom : ¬ s.ft.retire.length < Config.retireDepth := Nat.not_lt.2 hfull
  simp [State.dispose, hvalid, hdirty, hroom]

theorem State.flow_dispose {v : Nat} {time : Time} {t : State} (h : s.dispose v time = some t) (i : Nat) :
    t.flow i = s.flow i := by
  rw [State.dispose_frame h]; rfl

variable (s)

/-- The victim way holds the new entry, every other way what it held (R42). -/
theorem State.flow_fillWay (set way : Nat) (port : BitVec 4) (tag : BitVec 20) (p j : Nat) :
    (s.fillWay set way port tag p).flow j =
      if j = flowIndex set way then
        newEntry port tag p (s.profile p).window ((s.flow (flowIndex set way)).generation + 1)
      else s.flow j := by
  simp only [State.fillWay, State.flow_useWay, State.flow_setFlow, State.flow_leaveDue]
  rfl

theorem State.dueOf_fillWay (set way : Nat) (port : BitVec 4) (tag : BitVec 20) (p j : Nat) :
    (s.fillWay set way port tag p).dueOf j = if j = flowIndex set way then none else s.dueOf j :=
  s.dueOf_leaveDue _ j

theorem State.plruOf_fillWay (set way : Nat) (port : BitVec 4) (tag : BitVec 20) (p n : Nat) :
    (s.fillWay set way port tag p).plruOf n = if n = set then (s.plruOf set).use way else s.plruOf n :=
  State.plruOf_useWay _ set way n

variable {s}

/-- An allocation whose victim is disposed of fills the way (R38, R42). -/
theorem State.allocate_of_dispose {port : BitVec 4} {tag : BitVec 20} {time : Time} {set : Nat} {t : State}
    (hfreeze : s.ci.held.freeze = false) (htracked : (s.profile (s.classify port tag)).tracked = true)
    (hdispose : s.dispose (flowIndex set (s.victimWay set)) time = some t) :
    s.allocate set port tag time =
      (t.fillWay set (s.victimWay set) port tag (s.classify port tag), .arrival (flowIndex set (s.victimWay set))) := by
  simp [State.allocate, hfreeze, htracked, hdispose]

/-- An allocation whose victim finds the retire buffer full fails (R41, R46). -/
theorem State.allocate_of_full {port : BitVec 4} {tag : BitVec 20} {time : Time} {set : Nat}
    (hfreeze : s.ci.held.freeze = false) (htracked : (s.profile (s.classify port tag)).tracked = true)
    (hdispose : s.dispose (flowIndex set (s.victimWay set)) time = none) :
    s.allocate set port tag time = (s.allocationFailure port tag).unlistedArrival port tag := by
  simp [State.allocate, hfreeze, htracked, hdispose]

/-- A failed allocation leaves the table and the due list, counts twice, and fires TABLE_FULL with the key (R41, R46). -/
theorem State.allocationFailure_effect (s : State) (port : BitVec 4) (tag : BitVec 20) :
    ∃ u, (s.allocationFailure port tag).unlistedArrival port tag = (u, .unlisted (s.classify port tag)) ∧
      u.ft = s.ft ∧ u.cm = s.cm ∧
      u.agg .allocationFailures = min (s.agg .allocationFailures + 1) 4294967295 ∧
      u.agg .unlistedArrivals = min (s.agg .unlistedArrivals + 1) 4294967295 ∧
      u.alarm .tableFull = ((s.count .allocationFailures).trigger .tableFull
        (port.toNat * 1048576 + tag.toNat)).alarm .tableFull := by
  have hclass : (s.allocationFailure port tag).classify port tag = s.classify port tag := by
    simp only [State.classify, State.classifierEntry, s.allocationFailure_ci port tag]
  refine ⟨(s.allocationFailure port tag).count .unlistedArrivals, by rw [State.unlistedArrival, hclass], by simp,
    by simp, ?_, ?_, rfl⟩
  · simp [State.allocationFailure, satAdd, Config.counterMax]
  · simp [State.allocationFailure, satAdd, Config.counterMax]

/-- Settles O23: R43's tables, R39's choice, and an allocation by what disposing of its victim can be. -/
theorem allocationFillsOrFails : Obligations.AllocationFillsOrFails := by
  refine ⟨Plru.tables, fun s set hpin => ⟨s.victimWay_lt hpin set, fun x hx => s.victimWay_of_vacant hx,
    s.victimWay_of_full⟩, ?_, ?_⟩
  · rintro s port tag time set v p rfl rfl hfreeze htracked hroom
    obtain ⟨t, hdispose⟩ := State.exists_dispose time hroom
    have hframe := State.dispose_frame hdispose
    have hprofile (p : Nat) : t.profile p = s.profile p := by rw [hframe]; rfl
    have hplru (n : Nat) : t.plruOf n = s.plruOf n := by rw [hframe]; rfl
    obtain ⟨hvacant, hcount, hclean, hdirty⟩ := State.dispose_effect hdispose
    refine ⟨_, State.allocate_of_dispose hfreeze htracked hdispose, ?_, fun j hj => ?_, ?_, ?_, ?_, ?_, ?_, ?_,
      fun h => ?_, hcount, hclean, hdirty⟩
    · rw [State.flow_fillWay, if_pos rfl, hprofile, State.flow_dispose hdispose]; rfl
    · rw [State.flow_fillWay, if_neg hj, State.flow_dispose hdispose]
    · exact (State.dueOf_fillWay _ _ _ _ _ _ _).trans (if_pos rfl)
    · rw [State.plruOf_fillWay, if_pos rfl, hplru]
    · rw [State.fillWay_tt, hframe]
    · rw [State.fillWay_oq, hframe]
    · rw [State.fillWay_rw, hframe]
    · rw [State.fillWay_ci, hframe]
    · rw [hvacant h]; exact ⟨rfl, rfl⟩
  · rintro s port tag time set v rfl hfreeze htracked hvalid hdirty hfull
    obtain ⟨u, heq, hft, hcm, hfailures, hunlisted, halarm⟩ := s.allocationFailure_effect port tag
    rw [State.allocate_of_full hfreeze htracked (State.dispose_of_full hvalid hdirty hfull)]
    refine ⟨u, heq, hft, hcm, hfailures, hunlisted, fun hon => ?_⟩
    have hon' : (s.count .allocationFailures).alarmOn .tableFull = true := hon
    rw [halarm, State.alarm_trigger_of_on _ hon']
    exact ⟨rfl, rfl⟩

end Sys2Proof.Machine
end

