-- ==== Sys2Proof/Proofs/Arrivals.lean ====
section
/-! PROOFS. The listed copy-0 arrival, and the hand-out of an ENQUEUE that hits a way and finds its slot EMPTY. -/

namespace Sys2Proof.Machine

/-! ## The entry of an arrival (R55 to R68) -/

/-- `f` is `e` with another content: state, key, profile and generation stand. -/
structure FlowEntry.SameFlow (e f : FlowEntry) : Prop where
  state : f.state = e.state
  port : f.port = e.port
  tag : f.tag = e.tag
  profile : f.profile = e.profile
  generation : f.generation = e.generation

theorem FlowEntry.sameFlow_shift (e : FlowEntry) (p : Profile) (n : Nat) : e.SameFlow (e.shift p n) := by
  unfold FlowEntry.shift
  dsimp only
  split <;> exact ⟨rfl, rfl, rfl, rfl, rfl⟩

theorem FlowEntry.sameFlow_arrive (e : FlowEntry) (p : Profile) (q : Nat) (c : ArrivalClass) :
    e.SameFlow (e.arrive p q c) := by
  cases c with
  | inOrder =>
    obtain ⟨hstate, hport, htag, hprofile, hgeneration⟩ := (e.bump .inOrder 1).sameFlow_shift p 1
    exact ⟨hstate, hport, htag, hprofile, hgeneration⟩
  | ahead d =>
    obtain ⟨hstate, hport, htag, hprofile, hgeneration⟩ := ((e.bump .ahead 1).mark).sameFlow_shift p (d + 1)
    exact ⟨hstate, hport, htag, hprofile, hgeneration⟩
  | anchor | jump | duplicate | filled | staleUnawaited | staleBelow =>
    constructor <;> simp [FlowEntry.arrive, FlowEntry.anchorAt]

/-- An evaluated arrival leaves state, key, profile and generation of its entry. -/
theorem FlowEntry.sameFlow_evaluate (e : FlowEntry) (p : Profile) (q : BitVec 16) (v : Bool) :
    e.SameFlow (e.evaluate p q v).1 := by
  unfold FlowEntry.evaluate
  split
  · obtain ⟨hstate, hport, htag, hprofile, hgeneration⟩ :=
      (e.bump .accepted 1).sameFlow_arrive p (arrivalSequence p q) (arrivalClass p e (arrivalSequence p q))
    exact ⟨hstate, hport, htag, hprofile, hgeneration⟩
  · exact ⟨rfl, rfl, rfl, rfl, rfl⟩

/-- A flow that is not SILENT is heard from without effect (R115). -/
theorem FlowEntry.heard_of_not_silent {e : FlowEntry} (h : e.state ≠ .silent) : e.heard = e := if_neg h

theorem FlowEntry.heard_of_silent {e : FlowEntry} (h : e.state = .silent) :
    e.heard = { e with state := .tracking, dirty := true, misses := 0 } := if_pos h

variable (s : State)

/-- A trigger moves TAU alone. -/
theorem State.trigger_frame (k : AlarmKind) (v : Nat) : s.trigger k v = { s with tau := (s.trigger k v).tau } := by
  unfold State.trigger; split <;> rfl

/-- What a trigger leaves in TAU hangs on TAU and the ON mask alone (R138). -/
theorem State.tau_trigger_congr {a b : State} (htau : a.tau = b.tau) (hci : a.ci = b.ci) (k : AlarmKind) (v : Nat) :
    (a.trigger k v).tau = (b.trigger k v).tau := by
  have hon : a.alarmOn k = b.alarmOn k := by simp only [State.alarmOn, hci]
  have hrow : a.alarm k = b.alarm k := by simp only [State.alarm, htau]
  unfold State.trigger
  rw [hon, hrow]
  split
  · simp only [State.setAlarm, State.onTau_tau, htau]
  · exact htau

/-- Evaluation moves the flow entries and TAU alone. -/
theorem State.evaluateArrival_frame (i : Nat) (q : BitVec 16) (v : Bool) :
    s.evaluateArrival i q v = { s with
      ft := { s.ft with flows := (s.evaluateArrival i q v).ft.flows }, tau := (s.evaluateArrival i q v).tau } := by
  unfold State.evaluateArrival
  dsimp only
  split
  · rw [State.trigger_frame]; rfl
  · rfl

theorem State.flow_evaluateArrival (i j : Nat) (q : BitVec 16) (v : Bool) :
    (s.evaluateArrival i q v).flow j =
      if j = i then { ((s.flow i).evaluate (s.profileOf (s.flow i)) q v).1 with checkOk := true } else s.flow j := by
  unfold State.evaluateArrival
  dsimp only
  split <;> simp

/-- A count of drops at a threshold that is not 0 fires GAP_BURST (R74). -/
theorem State.tau_evaluateArrival (i : Nat) (q : BitVec 16) (v : Bool) :
    (s.evaluateArrival i q v).tau =
      if (s.profileOf (s.flow i)).gapThreshold ≠ 0 ∧
          (s.profileOf (s.flow i)).gapThreshold ≤ ((s.flow i).evaluate (s.profileOf (s.flow i)) q v).2 then
        (s.trigger .gapBurst i).tau
      else s.tau := by
  unfold State.evaluateArrival
  dsimp only
  split
  · exact State.tau_trigger_congr (State.setFlow_tau _ _ _) (State.setFlow_ci _ _ _) _ _
  · rfl

/-- A re-arm moves the flow entries and the due list alone. -/
theorem State.reArm_frame (i : Nat) (d : Time) :
    s.reArm i d = { s with
      ft := { s.ft with flows := (s.reArm i d).ft.flows }, cm := { s.cm with due := (s.reArm i d).cm.due } } := by
  unfold State.reArm
  dsimp only
  split <;> rfl

/-- Under a period of 0 the flow is heard from, and nothing else (R115). -/
theorem State.reArm_of_period_zero {i : Nat} (h : (s.profileOf (s.flow i)).period = 0) (d : Time) :
    s.reArm i d = s.setFlow i (s.flow i).heard := if_pos h

theorem State.flow_reArm (i j : Nat) (d : Time) :
    (s.reArm i d).flow j =
      if j = i then
        if (s.profileOf (s.flow i)).period = 0 then { (s.flow i).heard with checkOk := true }
        else { (s.flow i).heard with misses := 0, due := some (d + (s.profileOf (s.flow i)).span), checkOk := true }
      else s.flow j := by
  unfold State.reArm
  dsimp only
  split
  · rw [State.flow_setFlow]
  · simp only [State.flow_setDue, State.flow_setFlow, if_true]
    split <;> simp [*]

theorem State.dueOf_reArm (i j : Nat) (d : Time) :
    (s.reArm i d).dueOf j =
      if j = i ∧ (s.profileOf (s.flow i)).period ≠ 0 then some (d + (s.profileOf (s.flow i)).span) else s.dueOf j := by
  unfold State.reArm
  dsimp only
  split
  · next h => simp [h]
  · next h => simp [h]

/-! ## The arrival (R55, R74, R114, R115) -/

variable {s}

/-- The profile of the entry stands through its evaluation. -/
theorem State.profileOf_evaluateArrival (i : Nat) (q : BitVec 16) (v : Bool) :
    (s.evaluateArrival i q v).profileOf ((s.evaluateArrival i q v).flow i) = s.profileOf (s.flow i) := by
  have hprofile := ((s.flow i).sameFlow_evaluate (s.profileOf (s.flow i)) q v).profile
  have hentry : ((s.evaluateArrival i q v).flow i).profile = (s.flow i).profile := by
    rw [State.flow_evaluateArrival, if_pos rfl]; exact hprofile
  rw [State.profileOf, hentry, State.profile, State.evaluateArrival_ci]; rfl

/-- What a listed copy-0 arrival makes of a valid entry. -/
theorem State.arrivalEffect {n : Nat} (hvalid : (s.flow n).state ≠ .vacant) (q : BitVec 16) (v : Bool) (stamp : Time) :
    ArrivalEffect s ((s.evaluateArrival n q v).reArm n stamp) n q v stamp := by
  let p := s.profileOf (s.flow n)
  let e := ((s.flow n).evaluate p q v).1
  have hprofile : (s.evaluateArrival n q v).profileOf ((s.evaluateArrival n q v).flow n) = p :=
    State.profileOf_evaluateArrival n q v
  have hevaluated : (s.evaluateArrival n q v).flow n = { e with checkOk := true } :=
    (s.flow_evaluateArrival n n q v).trans (if_pos rfl)
  have hflow := (s.evaluateArrival n q v).flow_reArm n n stamp
  rw [if_pos rfl, hprofile, hevaluated] at hflow
  have htau : ((s.evaluateArrival n q v).reArm n stamp).tau = (s.evaluateArrival n q v).tau := by simp
  have hstate : e.state = .tracking ∨ e.state = .silent := by
    have hkept : e.state = (s.flow n).state := ((s.flow n).sameFlow_evaluate p q v).state
    rw [hkept]
    cases hs : (s.flow n).state <;> simp_all
  refine ⟨p, e, ((s.flow n).evaluate p q v).2, stamp + p.span, rfl, rfl, rfl, fun j hj => ⟨?_, ?_⟩, fun hgap => ?_,
    fun hgap => ?_, fun hperiod => ?_, fun htracking hperiod => ?_, fun hsilent hperiod => ?_, fun hperiod => ⟨?_, ?_⟩⟩
  · rw [State.flow_reArm, if_neg hj, State.flow_evaluateArrival, if_neg hj]
  · have hdue := (s.evaluateArrival n q v).dueOf_reArm n j stamp
    rw [if_neg fun h => hj h.1] at hdue
    rw [State.dueOf, State.dueOf, State.evaluateArrival_cm] at hdue
    exact hdue
  · rw [htau, State.tau_evaluateArrival, if_pos hgap]
  · rw [htau, State.tau_evaluateArrival, if_neg]
    rintro ⟨hne, hle⟩
    rcases hgap with hzero | hlt
    · exact hne hzero
    · exact Nat.not_lt.2 hle hlt
  · rw [State.reArm_of_period_zero _ (hprofile ▸ hperiod)]
    exact s.evaluateArrival_cm n q v
  · rw [hflow, if_pos hperiod, FlowEntry.heard_of_not_silent (e := { e with checkOk := true }) (by simp [htracking])]
  · rw [hflow, if_pos hperiod, FlowEntry.heard_of_silent (e := { e with checkOk := true }) hsilent]
  · have hdue := (s.evaluateArrival n q v).dueOf_reArm n n stamp
    rw [hprofile, if_pos ⟨rfl, hperiod⟩] at hdue
    exact hdue
  · rw [hflow, if_neg hperiod]
    rcases hstate with htracking | hsilent
    · rw [FlowEntry.heard_of_not_silent (e := { e with checkOk := true }) (by simp [htracking])]
      simp [htracking]
    · rw [FlowEntry.heard_of_silent (e := { e with checkOk := true }) hsilent]
      simp [hsilent]

/-- The arrival moves the flow entries, the due list and TAU alone. -/
theorem State.arrival_frame (s : State) (n : Nat) (q : BitVec 16) (v : Bool) (stamp : Time) :
    (s.evaluateArrival n q v).reArm n stamp = { s with
      ft := { s.ft with flows := ((s.evaluateArrival n q v).reArm n stamp).ft.flows },
      cm := { s.cm with due := ((s.evaluateArrival n q v).reArm n stamp).cm.due },
      tau := ((s.evaluateArrival n q v).reArm n stamp).tau } := by
  have harmed := (s.evaluateArrival n q v).reArm_frame n stamp
  have hevaluated := s.evaluateArrival_frame n q v
  generalize (s.evaluateArrival n q v).reArm n stamp = b at harmed ⊢
  generalize s.evaluateArrival n q v = t at harmed hevaluated
  rw [harmed, hevaluated]

/-- The generation of the entry stands through its arrival (R33). -/
theorem State.generation_arrival (s : State) (n : Nat) (q : BitVec 16) (v : Bool) (stamp : Time) :
    (((s.evaluateArrival n q v).reArm n stamp).flow n).generation = (s.flow n).generation := by
  have hevaluated := ((s.flow n).sameFlow_evaluate (s.profileOf (s.flow n)) q v).generation
  have hheard (e : FlowEntry) : e.heard.generation = e.generation := by unfold FlowEntry.heard; split <;> rfl
  have hread : ((s.evaluateArrival n q v).flow n).generation = (s.flow n).generation := by
    rw [State.flow_evaluateArrival, if_pos rfl]; exact hevaluated
  rw [← hread, ← hheard ((s.evaluateArrival n q v).flow n), State.flow_reArm, if_pos rfl]
  split <;> rfl

/-! ## The hand-out of an ENQUEUE (R35, R37, R87) -/

theorem FlowEntry.holds_iff (e : FlowEntry) (port : BitVec 4) (tag : BitVec 20) :
    e.holds port tag = true ↔ e.state ≠ .vacant ∧ e.port = port ∧ e.tag = tag := by
  simp [FlowEntry.holds, FlowEntry.valid, and_assoc]

/-- Way x of a key's set hits exactly when its entry holds the key (R35). -/
theorem State.hitsAt_iff (s : State) (port : BitVec 4) (tag : BitVec 20) (x : Nat) :
    s.HitsAt port tag x ↔ (s.flow (flowIndex (setIndex port tag) x)).holds port tag = true := by
  rw [FlowEntry.holds_iff, flowIndex, Nat.mul_comm]; rfl

/-- The lowest way that hits is the one found (R35). -/
theorem State.hitWay_eq_some {port : BitVec 4} {tag : BitVec 20} {x : Nat} (hx : x < 4) (hhit : s.HitsAt port tag x)
    (hlower : ∀ y < x, ¬ s.HitsAt port tag y) : s.hitWay (setIndex port tag) port tag = some x := by
  rw [State.hitWay, show [0, 1, 2, 3] = List.range 4 from rfl, List.find?_range_eq_some]
  refine ⟨(s.hitsAt_iff port tag x).1 hhit, List.mem_range.2 hx, fun y hy => ?_⟩
  simpa using (s.hitsAt_iff port tag y).not.1 (hlower y hy)

/-- Reading sound entries changes nothing (R34). -/
theorem State.checkedAll_of_ok {l : List Nat} (h : ∀ i ∈ l, (s.flow i).checkOk = true) : s.checkedAll l = s := by
  induction l with
  | nil => rfl
  | cons i rest ih =>
    rw [State.checkedAll, s.checked_of_ok (h i List.mem_cons_self)]
    exact ih fun j hj => h j (List.mem_cons_of_mem i hj)

/-- A copy-0 frame whose key hits a way of a sound set uses the way and is listed under its entry (R35, R37). -/
theorem State.lookup_hit {port : BitVec 4} {tag : BitVec 20} {x : Nat}
    (hok : ∀ i ∈ setWays (setIndex port tag), (s.flow i).checkOk = true)
    (hhit : s.hitWay (setIndex port tag) port tag = some x) (time : Time) :
    s.lookup port tag 0#4 time =
      (s.useWay (setIndex port tag) x, .arrival (flowIndex (setIndex port tag) x)) := by
  simp only [State.lookup, State.checkedAll_of_ok hok, hhit, if_true]

/-- A frame fills an EMPTY slot without displacing another (R87). -/
theorem State.fillSlot_of_empty {r i : Nat} (h : s.slot r i = .empty) (f : Frame) :
    s.fillSlot r i f = s.setSlot r i (.queued f) := by
  simp only [State.fillSlot, State.displace, h]

theorem exec_enqueue {o : Observation} {port : BitVec 4} {tag : BitVec 20} {copy : BitVec 4} {q : BitVec 16} {v : Bool}
    {r i : Nat} (hhead : s.headReady = some o) (hbody : o.body = .enqueue port tag copy q v)
    (hslot : s.findSlot o.address = some (r, i)) :
    exec .enqueue s = .next ((s.popHead.takeEnqueue o r i port tag copy q v).settle s) := by
  simp only [exec, execEnqueue, hhead, hbody, hslot]

/-- A copy-0 frame that hits a sound set and finds its slot EMPTY: the way is used, the arrival evaluated and re-armed, and
the slot filled with the frame of the flow (R35, R37, R87). -/
theorem State.takeEnqueue_hit {o : Observation} {port : BitVec 4} {tag : BitVec 20} {q : BitVec 16} {v : Bool}
    {r i x n : Nat} (hok : ∀ i ∈ setWays (setIndex port tag), (s.flow i).checkOk = true)
    (hhit : s.hitWay (setIndex port tag) port tag = some x) (hn : n = flowIndex (setIndex port tag) x)
    (hempty : s.slot r i = .empty) :
    s.takeEnqueue o r i port tag 0#4 q v =
      (((s.useWay (setIndex port tag) x).evaluateArrival n q v).reArm n o.stamp).setSlot r i
        (.queued (newFrame (.listed n (s.flow n).generation) 0#4 q v o.stamp)) := by
  let t := ((s.useWay (setIndex port tag) x).evaluateArrival n q v).reArm n o.stamp
  have hslot : t.slot r i = .empty := by
    rw [State.slot, State.reArm_tt, State.evaluateArrival_tt]; exact hempty
  have hgeneration : (t.flow n).generation = (s.flow n).generation :=
    (s.useWay (setIndex port tag) x).generation_arrival n q v o.stamp
  subst hn
  rw [State.takeEnqueue, State.lookup_hit hok hhit]
  exact (State.fillSlot_of_empty hslot _).trans (by rw [State.refOf, hgeneration])

/-- The effect of an arrival hangs on the flow entries, CM, TAU and CI alone. -/
theorem ArrivalEffect.congr {a a' b b' : State} {n : Nat} {q : BitVec 16} {v : Bool} {stamp : Time}
    (h : ArrivalEffect a b n q v stamp) (hflows : a'.ft.flows = a.ft.flows) (hcm : a'.cm = a.cm) (htau : a'.tau = a.tau)
    (hci : a'.ci = a.ci) (hflows' : b'.ft.flows = b.ft.flows) (hcm' : b'.cm = b.cm) (htau' : b'.tau = b.tau) :
    ArrivalEffect a' b' n q v stamp := by
  have hflow : a'.flow = a.flow := funext fun i => by simp only [State.flow, hflows]
  have hflow' : b'.flow = b.flow := funext fun i => by simp only [State.flow, hflows']
  have hprofile : a'.profileOf = a.profileOf := funext fun e => by simp only [State.profileOf, State.profile, hci]
  unfold ArrivalEffect
  rw [hflow, hflow', hprofile, hcm, hcm', htau, htau', State.tau_trigger_congr htau hci]
  exact h

/-- Settles O21: the arrival in any state, then the hand-out, which is that arrival after the use of the way. -/
theorem enqueueOfAListedFlow : Obligations.EnqueueOfAListedFlow := by
  refine ⟨?_, ?_⟩
  · rintro a b n q v stamp hvalid rfl
    exact ⟨State.arrivalEffect hvalid q v stamp, a.arrival_frame n q v stamp⟩
  · intro s o port tag q v r i x n hhead hbody hslot hempty hok hx hhit hlower hn
    have hn' : n = flowIndex (setIndex port tag) x := by rw [hn, flowIndex, Nat.mul_comm]
    have hways : ∀ j ∈ setWays (setIndex port tag), (s.popHead.flow j).checkOk = true := by
      simp only [setWays, flowIndex, Nat.mul_comm _ 4, List.forall_mem_cons]
      exact ⟨hok 0 (by decide), hok 1 (by decide), hok 2 (by decide), hok 3 (by decide), by simp⟩
    have hvalid : (s.flow n).state ≠ .vacant := hn ▸ hhit.1
    have htake := State.takeEnqueue_hit (s := s.popHead) (o := o) (q := q) (v := v) hways
      (State.hitWay_eq_some hx hhit hlower) hn' hempty
    have heffect := State.arrivalEffect (s := s.popHead.useWay (setIndex port tag) x) hvalid q v o.stamp
    have hframe := (s.popHead.useWay (setIndex port tag) x).arrival_frame n q v o.stamp
    have hplru := State.plruOf_useWay s.popHead (setIndex port tag) x
    generalize ((s.popHead.useWay (setIndex port tag) x).evaluateArrival n q v).reArm n o.stamp = t
      at htake heffect hframe
    have hplru' (m : Nat) : t.plruOf m = (s.popHead.useWay (setIndex port tag) x).plruOf m := by rw [hframe]; rfl
    have htt : t.tt = s.tt := by rw [hframe]; rfl
    refine ⟨_, exec_enqueue hhead hbody hslot, ?_⟩
    rw [htake]
    refine ⟨⟨?_, ?_, ?_⟩, ?_, ?_, ?_, State.slot_setSlot_self _ _ _ _, fun m hm => ?_,
      heffect.congr rfl rfl rfl rfl rfl rfl rfl, ?_, ?_, fun m hm => ?_⟩
    · rw [State.setSlot_fp, hframe]; rfl
    · rw [State.setSlot_mem, hframe]; rfl
    · rw [State.setSlot_pending, hframe]; rfl
    · rw [State.setSlot_oq, hframe]; rfl
    · rw [State.setSlot_ci, hframe]; rfl
    · rw [State.setSlot_rw, hframe]; rfl
    · rw [State.setSlot, State.onTt_tt, Store.get_set, if_neg hm, htt]
    · rw [State.setSlot_ft, hframe]; rfl
    · exact (hplru' _).trans ((hplru _).trans (if_pos rfl))
    · exact (hplru' m).trans ((hplru m).trans (if_neg hm))

end Sys2Proof.Machine
end

