-- ==== Sys2Proof/Proofs/Keys.lean ====
section
/-! PROOFS. The keys that flow entries hold: every command but an ENQUEUE at most takes keys away, and an ENQUEUE allocates
a key in its own set and only where no way of the set holds it. -/

namespace Sys2Proof.Machine

/-! ## The key of an entry (R28, R35) -/

/-- The key that an entry holds while it is valid. -/
def FlowEntry.key (e : FlowEntry) : Option (BitVec 4 × BitVec 20) := if e.valid then some (e.port, e.tag) else none

theorem FlowEntry.key_eq_some_iff {e : FlowEntry} {port : BitVec 4} {tag : BitVec 20} :
    e.key = some (port, tag) ↔ e.valid = true ∧ e.port = port ∧ e.tag = tag := by
  unfold FlowEntry.key; split <;> simp [*]

/-- The key hangs on state, port and tag alone. -/
theorem FlowEntry.key_congr {e e' : FlowEntry} (hstate : e.state = e'.state) (hport : e.port = e'.port)
    (htag : e.tag = e'.tag) : e.key = e'.key := by
  unfold FlowEntry.key FlowEntry.valid
  rw [hstate, hport, htag]

@[simp] theorem FlowEntry.key_vacantEntry (g : BitVec 8) : (vacantEntry g).key = none := rfl

/-- The invariant of keys, said of the keys held. -/
theorem State.keysUnique_iff (s : State) :
    s.KeysUnique ↔ s.ci.held.pinCount ≤ 3 ∧
      (∀ i < 1024, ∀ port tag, (s.flow i).key = some (port, tag) → i / 4 = setIndex port tag) ∧
      ∀ i < 1024, ∀ j < 1024, ∀ port tag,
        (s.flow i).key = some (port, tag) → (s.flow j).key = some (port, tag) → i = j := by
  simp only [State.KeysUnique, FlowEntry.key_eq_some_iff]
  refine and_congr_right fun _ => and_congr ?_ ?_
  · exact ⟨fun h i hi port tag ⟨hv, hp, ht⟩ => hp ▸ ht ▸ h i hi hv, fun h i hi hv => h i hi _ _ ⟨hv, rfl, rfl⟩⟩
  · exact ⟨fun h i hi j hj port tag ⟨hv, hp, ht⟩ ⟨hv', hp', ht'⟩ =>
        h i hi j hj hv hv' (hp.trans hp'.symm) (ht.trans ht'.symm),
      fun h i hi j hj hv hv' hp ht => h i hi j hj _ _ ⟨hv, rfl, rfl⟩ ⟨hv', hp.symm, ht.symm⟩⟩

/-! ## Changes that at most take keys away -/

/-- `u` is `s` with each entry's key kept or gone, and a legal pin count kept legal. -/
structure KeysKept (s u : State) : Prop where
  pinCount : s.ci.held.pinCount ≤ 3 → u.ci.held.pinCount ≤ 3
  key : ∀ i, (u.flow i).key = none ∨ (u.flow i).key = (s.flow i).key

theorem KeysKept.refl (s : State) : KeysKept s s := ⟨id, fun _ => .inr rfl⟩

theorem KeysKept.trans {s t u : State} (h : KeysKept s t) (h' : KeysKept t u) : KeysKept s u where
  pinCount := h'.pinCount ∘ h.pinCount
  key i := by
    rcases h'.key i with hnone | heq
    · exact .inl hnone
    · rw [heq]; exact h.key i

theorem KeysKept.key_of_some {s u : State} (h : KeysKept s u) {i : Nat} {k : BitVec 4 × BitVec 20}
    (hkey : (u.flow i).key = some k) : (s.flow i).key = some k := by
  rcases h.key i with hnone | heq
  · rw [hkey] at hnone; cases hnone
  · rw [← heq, hkey]

/-- Keys that are kept or gone stay unique and in their sets. -/
theorem KeysKept.keysUnique {s u : State} (h : KeysKept s u) (hs : s.KeysUnique) : u.KeysUnique := by
  rw [State.keysUnique_iff] at hs ⊢
  obtain ⟨hpin, hset, hone⟩ := hs
  exact ⟨h.pinCount hpin, fun i hi port tag hk => hset i hi port tag (h.key_of_some hk),
    fun i hi j hj port tag hk hk' => hone i hi j hj port tag (h.key_of_some hk) (h.key_of_some hk')⟩

theorem KeysKept.of_gauges {s u : State} (hg : u.gauges = s.gauges)
    (hkey : ∀ i, (u.flow i).key = none ∨ (u.flow i).key = (s.flow i).key) : KeysKept s u :=
  ⟨(congrArg Gauges.pinCount hg).trans_le, hkey⟩

/-- A change that leaves the flow table and the gauges keeps the keys. -/
theorem KeysKept.of_ft {s u : State} (hg : u.gauges = s.gauges) (hft : u.ft = s.ft) : KeysKept s u :=
  .of_gauges hg fun i => .inr (by simp only [State.flow, hft])

/-- A change that leaves the entries and the pin count keeps the keys. -/
theorem KeysKept.of_flows {s u : State} (hpin : u.ci.held.pinCount = s.ci.held.pinCount)
    (hflows : u.ft.flows = s.ft.flows) : KeysKept s u :=
  ⟨hpin.trans_le, fun i => .inr (by simp only [State.flow, hflows])⟩

/-- A change with a legal pin count that takes every entry away keeps the keys. -/
theorem KeysKept.of_vacated {s u : State} (hpin : s.ci.held.pinCount ≤ 3 → u.ci.held.pinCount ≤ 3)
    (hflows : u.ft.flows = ⟨[]⟩) : KeysKept s u :=
  ⟨hpin, fun i => .inl (by simp only [State.flow, hflows]; rfl)⟩

variable (s : State)

/-- A write of an entry with its key, or with none, keeps the keys. -/
theorem KeysKept.setFlow {i : Nat} {e : FlowEntry} (h : e.key = none ∨ e.key = (s.flow i).key) :
    KeysKept s (s.setFlow i e) := by
  refine .of_gauges rfl fun j => ?_
  rw [State.flow_setFlow]
  split
  · next hj => rw [hj]; exact h
  · exact .inr rfl

/-! ### Flow entries -/

theorem KeysKept.setDue (i : Nat) (d : Time) : KeysKept s (s.setDue i d) := by
  refine .of_gauges rfl fun j => .inr ?_
  rw [State.flow_setDue]
  split
  · next hj => rw [hj]; rfl
  · rfl

theorem KeysKept.entryFault (i : Nat) : KeysKept s (s.entryFault i) := by
  refine .of_gauges (by simp) fun j => ?_
  rw [State.flow_entryFault]
  split
  · exact .inl rfl
  · exact .inr rfl

theorem KeysKept.checked (i : Nat) : KeysKept s (s.checked i) := by
  rcases s.checked_cases i with ⟨_, heq⟩ | ⟨_, heq⟩
  · rw [heq]; exact .refl s
  · rw [heq]; exact .entryFault s i

theorem KeysKept.checkedAll (l : List Nat) : KeysKept s (s.checkedAll l) := by
  induction l generalizing s with
  | nil => exact .refl s
  | cons i rest ih => exact (KeysKept.checked s i).trans (ih _)

/-- A pass over the entries keeps the keys when its change of one entry does. -/
theorem KeysKept.overFlows {f : State → Nat → State} (hf : ∀ t i, KeysKept t (f t i)) (l : List Nat) :
    KeysKept s (s.overFlows f l) := by
  induction l generalizing s with
  | nil => exact .refl s
  | cons i rest ih =>
    refine (KeysKept.checked s i).trans (.trans ?_ (ih _))
    split
    · exact hf _ i
    · exact .refl _

theorem KeysKept.clearFlow (a : Nat) : KeysKept s (s.clearFlow a).1 := by
  unfold State.clearFlow
  split
  · dsimp only
    split
    · exact (KeysKept.checked s a).trans (.setFlow _ (.inr rfl))
    · exact .checked s a
  · exact .refl s

theorem KeysKept.evict (a : Nat) : KeysKept s (s.evict a) :=
  (KeysKept.setFlow s (i := a) (e := vacantEntry (s.flow a).generation) (.inl rfl)).trans (.of_ft rfl rfl)

theorem KeysKept.evictFlow (a : Nat) : KeysKept s (s.evictFlow a).1 := by
  unfold State.evictFlow
  split
  · refine (KeysKept.checked s a).trans ?_
    dsimp only
    split
    · exact .refl _
    · split
      · exact .evict _ a
      · split
        · exact .trans (t := (s.checked a).retireEntry a .commanded (s.checked a).now) (.of_flows rfl rfl) (.evict _ a)
        · exact .refl _
  · exact .refl s

theorem KeysKept.walkStep (i : Nat) : KeysKept s (s.walkStep i) := by
  refine (KeysKept.checked s i).trans ?_
  unfold State.walkStep
  dsimp only
  split
  · exact .setFlow _ (.inr rfl)
  · exact .refl _

/-! ### Arrivals and expiries -/

/-- An evaluated arrival keeps the key of its entry. -/
theorem FlowEntry.key_evaluate (e : FlowEntry) (p : Profile) (q : BitVec 16) (v : Bool) :
    (e.evaluate p q v).1.key = e.key :=
  have hsame := e.sameFlow_evaluate p q v
  FlowEntry.key_congr hsame.state hsame.port hsame.tag

theorem FlowEntry.key_heard (e : FlowEntry) : e.heard.key = e.key := by
  unfold FlowEntry.heard
  split
  · next hsilent => simp [FlowEntry.key, FlowEntry.valid, hsilent]
  · rfl

theorem KeysKept.trigger (k : AlarmKind) (v : Nat) : KeysKept s (s.trigger k v) := .of_ft (by simp) (by simp)

theorem KeysKept.evaluateArrival (i : Nat) (q : BitVec 16) (v : Bool) : KeysKept s (s.evaluateArrival i q v) := by
  refine (KeysKept.setFlow s (.inr (FlowEntry.key_evaluate (s.flow i) (s.profileOf (s.flow i)) q v))).trans ?_
  unfold State.evaluateArrival
  dsimp only
  split
  · exact .trigger _ _ _
  · exact .refl _

theorem KeysKept.reArm (i : Nat) (d : Time) : KeysKept s (s.reArm i d) := by
  have hheard : KeysKept s (s.setFlow i (s.flow i).heard) := .setFlow s (.inr (FlowEntry.key_heard _))
  unfold State.reArm
  dsimp only
  split
  · exact hheard
  · refine hheard.trans (.trans (.setFlow _ (.inr ?_)) (.setDue _ i _))
    rw [State.flow_setFlow, if_pos rfl]; rfl

/-- Silence makes its own entry SILENT (R120). -/
theorem State.flow_silence (i j : Nat) :
    (s.silence i).flow j =
      if j = i then { (s.flow i).bump .silences 1 with state := .silent, due := none, checkOk := true }
      else s.flow j := by
  simp [State.silence]

theorem KeysKept.silence (i : Nat) (hvalid : (s.flow i).valid = true) : KeysKept s (s.silence i) := by
  refine .of_gauges (by simp) fun j => .inr ?_
  rw [State.flow_silence]
  split
  · next hj => rw [hj]; exact (if_pos rfl).trans (if_pos hvalid).symm
  · rfl

theorem KeysKept.countedExpiry (i : Nat) (d : Time) (hvalid : (s.flow i).valid = true) :
    KeysKept s (s.countedExpiry i d) := by
  let e := { ((s.flow i).bump .cadenceMisses 1).mark with misses := (s.flow i).misses + 1 }
  have hmissed : KeysKept s (s.setFlow i e) := .setFlow s (.inr (FlowEntry.key_congr rfl rfl rfl))
  have hstill : ((s.setFlow i e).flow i).valid = true := by rw [State.flow_setFlow, if_pos rfl]; exact hvalid
  unfold State.countedExpiry
  dsimp only
  split
  · exact hmissed.trans (.silence _ i hstill)
  · exact hmissed.trans (.setDue _ i _)

theorem KeysKept.takeExpiry (i : Nat) (d : Time) : KeysKept s (s.takeExpiry i d) := by
  refine (KeysKept.checked s i).trans ?_
  unfold State.takeExpiry
  dsimp only
  split
  · exact .of_ft rfl rfl
  · next hvalid =>
    split
    · exact .countedExpiry _ i d (by simpa using hvalid)
    · exact .setDue _ i _

/-! ### Slots -/

theorem FlowEntry.key_credit (e : FlowEntry) (r : Nat) (v : Verdict) : (e.credit r v).key = e.key := by
  have hstate : (e.credit r v).state = e.state := by cases v <;> simp [FlowEntry.credit, FlowEntry.lost]
  have hport : (e.credit r v).port = e.port := by cases v <;> simp [FlowEntry.credit, FlowEntry.lost]
  have htag : (e.credit r v).tag = e.tag := by cases v <;> simp [FlowEntry.credit, FlowEntry.lost]
  exact FlowEntry.key_congr hstate hport htag

theorem KeysKept.creditFlow (i r : Nat) (v : Verdict) : KeysKept s (s.creditFlow i r v) := by
  have hcredit := KeysKept.setFlow s (i := i) (.inr (FlowEntry.key_credit (s.flow i) r v))
  unfold State.creditFlow
  dsimp only
  split
  · exact hcredit.trans (.trigger _ _ _)
  · exact hcredit

theorem KeysKept.credit (r : Nat) (f : FlowRef) (v : Verdict) : KeysKept s (s.credit r f v) := by
  cases f with
  | unlisted p => exact .of_ft (by simp) (State.creditUnlisted_ft s v)
  | listed i g =>
    refine (KeysKept.checked s i).trans ?_
    unfold State.credit
    dsimp only
    split
    · exact .creditFlow _ i r v
    · exact .of_ft rfl rfl

theorem KeysKept.sent (r : Nat) (f : Frame) (d : Time) : KeysKept s (s.sent r f d) := by
  unfold State.sent
  split
  · exact .credit s r _ _
  · split
    · exact .credit s r _ _
    · next i _ _ => exact (KeysKept.checked s i).trans (.credit _ r _ _)

theorem FlowEntry.key_depart (e : FlowEntry) (p : Profile) (q : BitVec 16) : (e.depart p q).key = e.key := by
  unfold FlowEntry.depart
  dsimp only
  split
  · rfl
  · split <;> rfl

theorem KeysKept.departureCheck (r : Nat) (f : Frame) : KeysKept s (s.departureCheck r f) := by
  unfold State.departureCheck
  split
  · next i g q _ _ _ =>
    split
    · refine (KeysKept.checked s i).trans ?_
      dsimp only
      split
      · exact .setFlow _ (.inr (FlowEntry.key_depart _ _ _))
      · exact .refl _
    · exact .refl s
  · exact .refl s

theorem KeysKept.setSlot (r i : Nat) (x : Slot) : KeysKept s (s.setSlot r i x) := .of_ft rfl rfl

theorem KeysKept.displace (r i : Nat) : KeysKept s (s.displace r i) := by
  unfold State.displace
  split
  · exact .refl s
  · unfold State.overrun
    split
    · exact .credit s r _ _
    · exact (KeysKept.credit s r _ _).trans (.trigger _ _ _)
  · exact .credit s r _ _

theorem KeysKept.dequeueSlot (r i : Nat) (d : Time) : KeysKept s (s.dequeueSlot r i d) := by
  unfold State.dequeueSlot
  split
  · exact .of_ft rfl rfl
  · exact (KeysKept.setSlot s r i _).trans (.departureCheck _ r _)
  · exact .refl s

theorem KeysKept.discardFrame (r i : Nat) (f : Frame) : KeysKept s (s.discardFrame r i f) :=
  (KeysKept.credit s r f.ref _).trans (.setSlot _ r i _)

theorem KeysKept.completeSlot (r i : Nat) (c : BitVec 3) (d : Time) : KeysKept s (s.completeSlot r i c d) := by
  unfold State.completeSlot
  split
  · exact .refl s
  · split
    · exact .of_ft rfl rfl
    · split
      · exact ((KeysKept.departureCheck s r _).trans (.sent _ r _ _)).trans (.setSlot _ r i _)
      · exact .discardFrame s r i _
    · split
      · exact (KeysKept.sent s r _ _).trans (.setSlot _ r i _)
      · exact .discardFrame s r i _

theorem KeysKept.resolveSlots (r : Nat) (l : List Nat) : KeysKept s (s.resolveSlots r l) := by
  induction l generalizing s with
  | nil => exact .refl s
  | cons i rest ih =>
    refine .trans ?_ (ih (s.resolveSlot r i))
    unfold State.resolveSlot
    split
    · exact .refl s
    · exact (KeysKept.credit s r _ _).trans (.setSlot _ r i _)
    · exact (KeysKept.credit s r _ _).trans (.setSlot _ r i _)

/-! ### The report writer and the end of an event -/

theorem KeysKept.drainPick (n : Nat) : KeysKept s (s.drainPick n).1 := by
  induction n generalizing s with
  | zero => exact .refl s
  | succ n ih =>
    unfold State.drainPick
    split
    · exact .refl s
    · next i _ =>
      split
      · exact .refl s
      · exact (KeysKept.entryFault s i).trans (ih _)

theorem KeysKept.drainStep : KeysKept s s.drainStep := by
  have hpick := KeysKept.drainPick s (s.flowIndexes.length + 1)
  unfold State.drainStep
  split
  · exact .of_ft (by simp) (by simp)
  · split
    · exact .of_ft (by simp) (by simp)
    · split
      · next t heq => rw [heq] at hpick; exact hpick.trans (.of_ft (by simp) (by simp))
      · next t i heq =>
        rw [heq] at hpick
        have hbuild : KeysKept t (t.drainBuild i) :=
          (KeysKept.setFlow t (i := i) (e := { t.flow i with dirty := false }) (.inr rfl)).trans (.of_ft rfl rfl)
        exact hpick.trans hbuild

theorem KeysKept.drainRound : KeysKept s (if s.rw.drain = .draining then s.drainStep.refreshAlert else s) := by
  split
  · exact (KeysKept.drainStep s).trans (.of_ft (by simp) (by simp))
  · exact .refl s

theorem KeysKept.selectOnce : KeysKept s s.selectOnce := by
  unfold State.selectOnce
  split
  · exact .of_ft rfl rfl
  · split
    · exact .of_ft rfl rfl
    · split
      · exact .of_ft (by simp) (by simp)
      · split
        · split
          · exact .of_ft rfl rfl
          · exact .drainRound s
        · exact .drainRound s

theorem KeysKept.selectRounds (n : Nat) : KeysKept s (s.selectRounds n) := by
  induction n generalizing s with
  | zero => exact .refl s
  | succ n ih =>
    unfold State.selectRounds
    split
    · exact .refl s
    · exact (KeysKept.selectOnce s).trans (ih _)

theorem KeysKept.settle (b : State) : KeysKept s (s.settle b) := by
  have hbefore : KeysKept s (s.returnToSighted.refreshAlert.testThreshold b) := .of_ft (by simp) (by simp)
  exact hbefore.trans (.selectRounds _ 3)

/-! ### Settings -/

theorem KeysKept.sweep : KeysKept s s.sweep := by
  have hpass := KeysKept.overFlows s (f := fun t i => t.setFlow i (t.flow i).swept)
    (fun t i => .setFlow t (.inr rfl)) s.flowIndexes
  unfold State.sweep
  dsimp only
  split
  · exact hpass.trans (.of_ft (by rw [State.gauges_requestReload]; rfl) (by rw [State.requestReload_ft]; rfl))
  · exact hpass.trans (.of_ft rfl rfl)

theorem KeysKept.applyMonitoring : KeysKept s s.applyMonitoring := by
  unfold State.applyMonitoring
  dsimp only
  split
  · exact .refl s
  · refine .trans (KeysKept.of_ft (u := s.onHeld fun h => { h with monitoring := s.imageBit 8 0 }) rfl rfl) ?_
    unfold State.monitoringEffect
    split
    · split
      · split
        · exact (KeysKept.sweep _).trans (.of_ft (by simp) (by simp))
        · exact .refl _
      · split
        · exact .refl _
        · exact .of_ft (by simp) (by simp)
    · exact .refl _

theorem KeysKept.noteClamp (o f w h : Nat) : KeysKept s (s.noteClamp o f w h) := .of_ft (by simp) (by simp)

/-- The pin count is held at 3 at most (R45, R164). -/
theorem KeysKept.applyPinCount : KeysKept s s.applyPinCount := by
  let t := s.onHeld fun h => { h with pinCount := min (s.imageField 9 1) 3 }
  have hheld : KeysKept s t := ⟨fun _ => Nat.min_le_right _ _, fun _ => .inr rfl⟩
  exact hheld.trans (.noteClamp t _ _ _ _)

theorem KeysKept.applyThreshold : KeysKept s s.applyThreshold := by
  let t := s.onHeld fun h => { h with dirtyThreshold := min (s.imageField 14 2) 1024 }
  have hheld : KeysKept s t := .of_flows rfl rfl
  have hnoted := hheld.trans (.noteClamp t 14 2 (s.imageField 14 2) (min (s.imageField 14 2) 1024))
  unfold State.applyThreshold
  dsimp only
  split
  · exact hnoted.trans (.of_ft (State.gauges_triggerDrain _) (State.triggerDrain_ft _))
  · exact hnoted

/-- A step of an application that runs only when a byte is named keeps the keys when the step does. -/
theorem KeysKept.ite (c : Bool) {u : State} (h : KeysKept s u) : KeysKept s (if c then u else s) := by
  cases c
  · exact .refl s
  · exact h

theorem KeysKept.applyGlobals (l : List (Nat × Byte)) : KeysKept s (s.applyGlobals l) := by
  unfold State.applyGlobals
  have hmonitoring (t : State) : KeysKept t t.applyMonitoring.applyFreeze :=
    (KeysKept.applyMonitoring t).trans (.of_ft rfl rfl)
  have halarm (t : State) : KeysKept t t.applyAlarmOn := .of_ft (by simp) (by simp [State.applyAlarmOn])
  have hinterval (t : State) : KeysKept t t.applyInterval := by
    refine .of_ft (by simp) ?_
    unfold State.applyInterval
    dsimp only
    split
    · rfl
    · split
      · simp
      · rfl
  exact ((((KeysKept.ite s _ (hmonitoring s)).trans (.ite _ _ (.applyPinCount _))).trans
    (.ite _ _ (halarm _))).trans (.ite _ _ (hinterval _))).trans (.ite _ _ (.applyThreshold _))

theorem KeysKept.applyConsume (l : List (Nat × Byte)) : KeysKept s (s.applyConsume l) := by
  unfold State.applyConsume
  dsimp only
  split
  · split
    · split
      · exact .refl s
      · let t := s.onHeld fun h => { h with consume := s.imageField 0x80 2 }
        have hheld : KeysKept s t := .of_flows rfl rfl
        have heffect : t.consumeEffect.ft = t.ft := by unfold State.consumeEffect; split <;> simp
        exact hheld.trans (.of_ft (State.gauges_consumeEffect t) heffect)
    · exact .noteClamp s _ _ _ _
  · exact .refl s

theorem KeysKept.changeRings (r : Nat) (l : List RingGeometry) : KeysKept s (s.changeRings r l) := by
  induction l generalizing s r with
  | nil => exact .refl s
  | cons g rest ih =>
    refine .trans ?_ (ih (s.changeRing r g) (r + 1))
    unfold State.changeRing
    dsimp only
    split
    · exact .refl s
    · split
      · exact (KeysKept.resolveSlots s r _).trans (.of_ft rfl rfl)
      · exact .of_ft rfl rfl

theorem State.noteRings_ft (b : State) (l : List (Nat × Byte)) (r : Nat) (gs : List RingGeometry) :
    (s.noteRings b l r gs).ft = s.ft := by
  induction gs generalizing s r with
  | nil => rfl
  | cons g rest ih =>
    rw [State.noteRings, ih]
    unfold State.noteRing
    dsimp only
    (repeat' split) <;> simp

theorem KeysKept.applyRings (l : List (Nat × Byte)) (m : Store Byte) : KeysKept s (s.applyRings l m) := by
  unfold State.applyRings
  split
  · exact .trans (.of_ft (State.gauges_noteRings _ _ _ _ _) (State.noteRings_ft _ _ _ _ _)) (.changeRings _ _ _)
  · exact .refl s

theorem State.noteProfile_ft (l : List (Nat × Byte)) (p : Nat) (g : Profile) : (s.noteProfile l p g).ft = s.ft := by
  unfold State.noteProfile
  dsimp only
  (repeat' split) <;> simp

theorem KeysKept.profileChange (p : Nat) (old new : Profile) : KeysKept s (s.profileChange p old new) := by
  refine .overFlows s (fun t i => ?_) _
  split
  · exact .setFlow t (.inr (FlowEntry.key_congr rfl rfl rfl))
  · exact .refl t

theorem KeysKept.periodChangeEntry (i : Nat) (old new : Profile) : KeysKept s (s.periodChangeEntry i old new) := by
  unfold State.periodChangeEntry
  split
  · split
    · have hleave : KeysKept s (s.leaveDue i) := .of_ft rfl rfl
      exact hleave.trans (.setFlow _ (.inr (FlowEntry.key_congr rfl rfl rfl)))
    · split
      · exact .setDue s i _
      · exact .refl s
  · exact .refl s

theorem KeysKept.periodChange (p : Nat) (old new : Profile) : KeysKept s (s.periodChange p old new) := by
  refine .overFlows s (fun t i => ?_) _
  split
  · exact .periodChangeEntry t i old new
  · exact .refl t

theorem KeysKept.applyProfile (l : List (Nat × Byte)) (p : Nat) : KeysKept s (s.applyProfile l p) := by
  have hheld (g : Profile) :
      KeysKept s ((s.noteProfile l p g).onHeld fun h => { h with profiles := h.profiles.set initialProfile p g }) :=
    .of_ft (s.gauges_noteProfile l p g) (s.noteProfile_ft l p g)
  unfold State.applyProfile
  dsimp only
  split
  · split
    · exact ((hheld _).trans (.profileChange _ _ _ _)).trans (.periodChange _ _ _ _)
    · exact (hheld _).trans (.periodChange _ _ _ _)
  · split
    · exact (hheld _).trans (.profileChange _ _ _ _)
    · exact hheld _

theorem KeysKept.applyProfiles (l : List (Nat × Byte)) (ps : List Nat) : KeysKept s (s.applyProfiles l ps) := by
  induction ps generalizing s with
  | nil => exact .refl s
  | cons p rest ih => exact (KeysKept.ite s _ (.applyProfile s l p)).trans (ih _)

theorem KeysKept.applyClassifier (l : List (Nat × Byte)) (ns : List Nat) : KeysKept s (s.applyClassifier l ns) := by
  induction ns generalizing s with
  | nil => exact .refl s
  | cons n rest ih =>
    have hentry : KeysKept s (s.onHeld fun h =>
        { h with classifier := h.classifier.set initialClassifier n (s.readClassifier n) }) := .of_ft rfl rfl
    exact (KeysKept.ite s _ hentry).trans (ih _)

theorem KeysKept.applySettings (l : List (Nat × Byte)) : KeysKept s (s.applySettings l) := by
  have hmerge : KeysKept s (s.merge l) := .of_ft rfl rfl
  have happlied := ((((hmerge.trans (.applyGlobals _ l)).trans (.applyConsume _ l)).trans
    (.applyRings _ l s.ci.image)).trans (.applyProfiles _ l (List.range 16))).trans
    (.applyClassifier _ l (List.range 32))
  exact happlied.trans (.of_ft (State.gauges_testThreshold _ s) (State.testThreshold_ft _ s))

/-! ### Commands -/

theorem KeysKept.act (tag : BitVec 8) (a : Nat) (k : MailboxCommand) : KeysKept s (s.act tag a k) := by
  cases k with
  | clearFlow => exact (KeysKept.clearFlow s a).trans (.of_ft rfl rfl)
  | evictFlow => exact (KeysKept.evictFlow s a).trans (.of_ft rfl rfl)
  | interrogate =>
    change KeysKept s (s.startInterrogate tag a)
    unfold State.startInterrogate
    split
    · exact (KeysKept.checked s a).trans (.of_ft rfl rfl)
    · exact .of_ft rfl rfl
  | snapshot =>
    have hpass := KeysKept.overFlows s (f := fun t i => t.setFlow i (t.flow i).mark)
      (fun t i => .setFlow t (.inr rfl)) s.flowIndexes
    exact (hpass.trans (.of_ft (State.gauges_triggerDrain _) (State.triggerDrain_ft _))).trans (.of_ft rfl rfl)
  | restart => exact .of_vacated id rfl
  | ping | clearAll | unknown => exact .of_ft rfl rfl
  | alarmAck => exact .of_ft (by simp [State.act]) (by simp [State.act, State.acknowledge])
  | alarmHold => exact .of_ft (by simp [State.act]) (by simp [State.act, State.hold])
  | alarmRelease => exact .of_ft (by simp [State.act]) (by simp [State.act, State.release])
  | reloadConfig => exact .of_ft (by simp [State.act]) (by simp [State.act, State.startReload])

theorem KeysKept.mailbox : KeysKept s s.mailbox := by
  unfold State.mailbox
  dsimp only
  split
  · exact .refl s
  · split
    · have htag : KeysKept s (s.takeTag s.commandTag) := .of_ft rfl rfl
      exact htag.trans (.act _ _ _ _)
    · exact .of_ft rfl rfl

theorem KeysKept.popHead : KeysKept s s.popHead := .of_flows rfl rfl

theorem KeysKept.handOutControl (o : Observation) : KeysKept s (s.handOutControl o) := by
  let t := s.popHead.applySettings o.body.named
  have hcommand : KeysKept t (t.considerCommand o.body.named) := .ite t _ (.mailbox t)
  exact ((KeysKept.popHead s).trans (.applySettings _ _)).trans (hcommand.trans (.settle _ t))

theorem KeysKept.startWaiting : KeysKept s s.startWaiting := by
  refine .of_ft (by simp) ?_
  unfold State.startWaiting
  split <;> simp

theorem KeysKept.coverageAtLoadEnd : KeysKept s s.coverageAtLoadEnd := by
  refine .of_ft (by simp) ?_
  unfold State.coverageAtLoadEnd
  split
  · simp
  · split
    · unfold State.useFree
      split <;> simp
    · simp

theorem KeysKept.answerRestart : KeysKept s s.answerRestart := by
  refine .of_ft (by simp) ?_
  unfold State.answerRestart
  split <;> simp

theorem KeysKept.answerReload (o : ReloadOrigin) : KeysKept s (s.answerReload o) := by
  refine .of_ft (by simp) ?_
  unfold State.answerReload
  split <;> simp

theorem KeysKept.endLoad : KeysKept s s.endLoad := by
  unfold State.endLoad
  split
  · exact .refl s
  · dsimp only
    split
    · let t := (s.onCi fun c => { c with load := none }).onCi fun c => { c with part := .running }
      have hrun : KeysKept s t := .of_flows rfl rfl
      have hwriter : KeysKept t t.coverageAtLoadEnd.startWriter.requestStatus :=
        (KeysKept.coverageAtLoadEnd t).trans (.of_flows rfl rfl)
      exact (hrun.trans hwriter).trans ((KeysKept.answerRestart _).trans (.startWaiting _))
    · next o _ =>
      have hload : KeysKept s (s.onCi fun c => { c with load := none }) := .of_flows rfl rfl
      have hstatus (t : State) : KeysKept t t.requestStatus := .of_ft rfl rfl
      exact ((hload.trans (.answerReload _ o)).trans (hstatus _)).trans (.startWaiting _)

theorem KeysKept.considerLoadRead (r : LoadRead) : KeysKept s (s.considerLoadRead r) := by
  have htag : KeysKept s (s.takeTag s.commandTag) := .of_ft rfl rfl
  exact .ite s _ (htag.trans (.endLoad _))

theorem KeysKept.applyLoadRead (r : LoadRead) : KeysKept s (s.applyLoadRead r) := by
  let t := s.applySettings r.bytes
  exact (KeysKept.applySettings s r.bytes).trans ((KeysKept.considerLoadRead t r).trans (.settle _ t))

/-! ### The link -/

theorem KeysKept.observe (t : Transaction) (place : Nat) : KeysKept s (s.observe t place) :=
  .of_flows (by rw [State.observe_ci]) (by rw [State.observe_ft])

theorem KeysKept.takeForwarded (t : Transaction) : KeysKept s (s.takeForwarded t) := by
  have htaken : KeysKept s (s.linkTaken t) := .of_flows (by simp) (by simp)
  exact htaken.trans (.observe _ t s.fp.place)

theorem KeysKept.grant : KeysKept s s.grant := by
  unfold State.grant
  split
  · exact .of_flows rfl rfl
  · exact .of_flows rfl rfl
  · split <;> exact .of_flows rfl rfl
  · exact .refl s

theorem KeysKept.advanceJob : KeysKept s s.advanceJob := by
  unfold State.advanceJob
  split
  · exact .refl s
  · next j _ =>
    split
    · cases j.kind <;> exact .of_flows rfl rfl
    · exact .of_flows rfl rfl

theorem KeysKept.completeRead (r : ReturnRead) : KeysKept s (s.completeRead r) := by
  unfold State.completeRead
  dsimp only
  split
  · have hreceived : KeysKept s ((s.onFp fun f => { f with ret := none }).receiveLoad r) := .of_flows rfl rfl
    exact hreceived.trans (.advanceJob _)
  · exact .of_flows rfl rfl

theorem KeysKept.completeWrite (t : Transaction) (live : Bool) : KeysKept s (s.completeWrite t live) := by
  have htaken : KeysKept s (s.takeRequest t) := .of_flows rfl rfl
  exact htaken.trans (.ite _ live (.advanceJob _))

theorem KeysKept.advanceWalk (n : Nat) (tag : BitVec 8) : KeysKept s (s.advanceWalk n tag) := by
  unfold State.advanceWalk
  split
  · exact (KeysKept.walkStep s n).trans (.of_ft rfl rfl)
  · have hgauges : (s.endWalk tag).gauges = s.gauges := by simp [State.endWalk]
    exact .of_ft hgauges (s.endWalk_ft tag)

/-! ## An ENQUEUE (R35, R38, R42) -/

/-- A key that no way of its set hits is held by no entry (R28, R35). -/
theorem State.KeysUnique.key_ne_of_miss {s : State} (hs : s.KeysUnique) {port : BitVec 4} {tag : BitVec 20}
    (hmiss : s.hitWay (setIndex port tag) port tag = none) {i : Nat} (hi : i < 1024) :
    (s.flow i).key ≠ some (port, tag) := by
  intro hkey
  obtain ⟨-, hset, -⟩ := (s.keysUnique_iff).1 hs
  obtain ⟨hvalid, hport, htag⟩ := FlowEntry.key_eq_some_iff.1 hkey
  have hindex : flowIndex (setIndex port tag) (i % 4) = i := by
    have := hset i hi port tag hkey
    unfold flowIndex; omega
  have hway : i % 4 ∈ [0, 1, 2, 3] := by
    have : i % 4 < 4 := Nat.mod_lt _ (by decide)
    simp; omega
  have hnot := List.find?_eq_none.1 hmiss (i % 4) hway
  simp [hindex, FlowEntry.holds, hvalid, hport, htag] at hnot

/-- A write of an entry whose key stands in its set and nowhere else keeps keys unique and in their sets. -/
theorem State.KeysUnique.of_write {s u : State} (hs : s.KeysUnique) (hpin : u.ci.held.pinCount ≤ 3) {v : Nat}
    {port : BitVec 4} {tag : BitVec 20} (hset : v / 4 = setIndex port tag)
    (hnew : ∀ i < 1024, (s.flow i).key ≠ some (port, tag)) (hkey : (u.flow v).key = some (port, tag))
    (hother : ∀ i, i ≠ v → (u.flow i).key = (s.flow i).key) : u.KeysUnique := by
  rw [State.keysUnique_iff] at hs ⊢
  obtain ⟨-, hsets, hone⟩ := hs
  refine ⟨hpin, fun i hi port' tag' hk => ?_, fun i hi j hj port' tag' hk hk' => ?_⟩
  · by_cases hiv : i = v
    · rw [hiv, hkey] at hk; cases hk; rw [hiv]; exact hset
    · exact hsets i hi port' tag' (hother i hiv ▸ hk)
  · by_cases hiv : i = v <;> by_cases hjv : j = v
    · rw [hiv, hjv]
    · rw [hiv, hkey] at hk; cases hk
      exact absurd (hother j hjv ▸ hk') (hnew j hj)
    · rw [hjv, hkey] at hk'; cases hk'
      exact absurd (hother i hiv ▸ hk) (hnew i hi)
    · exact hone i hi j hj port' tag' (hother i hiv ▸ hk) (hother j hjv ▸ hk')

theorem KeysKept.useWay (set x : Nat) : KeysKept s (s.useWay set x) := .of_flows rfl rfl

variable {s}

/-- An allocation for a key that no entry holds writes it into a way of its set, or fails (R38, R41). -/
theorem State.KeysUnique.allocate (hs : s.KeysUnique) {port : BitVec 4} {tag : BitVec 20}
    (hmiss : s.hitWay (setIndex port tag) port tag = none) (d : Time) :
    (s.allocate (setIndex port tag) port tag d).1.KeysUnique := by
  unfold State.allocate
  dsimp only
  split
  · exact (KeysKept.of_ft (s := s) rfl rfl).keysUnique hs
  · split
    · next t hdispose =>
      have hframe := State.dispose_frame hdispose
      have hkept : KeysKept s t := .of_flows (by rw [hframe]) (by rw [hframe])
      have ht : t.KeysUnique := hkept.keysUnique hs
      have hway := s.victimWay_lt hs.1 (setIndex port tag)
      refine ht.of_write (port := port) (tag := tag) ht.1 (flowIndex_div _ hway) (fun i hi => ?_) ?_ fun i hi => ?_
      · rw [State.flow_dispose hdispose]; exact hs.key_ne_of_miss hmiss hi
      · rw [State.flow_fillWay, if_pos rfl]; rfl
      · rw [State.flow_fillWay, if_neg hi]
    · exact (KeysKept.of_ft (s := s) (by simp) (by simp)).keysUnique hs

theorem State.KeysUnique.lookup (hs : s.KeysUnique) (port : BitVec 4) (tag : BitVec 20) (copy : BitVec 4) (d : Time) :
    (s.lookup port tag copy d).1.KeysUnique := by
  have hread := (KeysKept.checkedAll s (setWays (setIndex port tag))).keysUnique hs
  unfold State.lookup
  dsimp only
  split
  · split
    · exact (KeysKept.useWay _ _ _).keysUnique hread
    · exact hread
  · next hmiss =>
    split
    · exact hread.allocate hmiss d
    · exact hread

theorem State.KeysUnique.takeEnqueue (hs : s.KeysUnique) (o : Observation) (r i : Nat) (port : BitVec 4)
    (tag : BitVec 20) (copy : BitVec 4) (q : BitVec 16) (v : Bool) :
    (s.takeEnqueue o r i port tag copy q v).KeysUnique := by
  have hlisted := hs.lookup port tag copy o.stamp
  have hfill (t : State) (f : Frame) : KeysKept t (t.fillSlot r i f) :=
    (KeysKept.displace t r i).trans (.setSlot _ r i _)
  unfold State.takeEnqueue
  dsimp only
  split
  · exact (((KeysKept.evaluateArrival _ _ q v).trans (.reArm _ _ o.stamp)).trans (hfill _ _)).keysUnique hlisted
  · exact (hfill _ _).keysUnique hlisted
  · exact (hfill _ _).keysUnique hlisted

/-! ## Every command -/

/-- An ENQUEUE apart, every command at most takes keys away. -/
theorem Effect.keysKept {c : Instr} {u : State} (h : Effect s c u) (hc : c ≠ .enqueue) : KeysKept s u := by
  cases h with
  | idle => exact .refl s
  | assertReset => exact .of_vacated (fun _ => Nat.zero_le _) rfl
  | present | returnRead | takeInjectedRead | tick => exact .of_flows rfl rfl
  | releaseReset straps =>
    have hreleased : KeysKept s (s.releaseReset straps) := .of_flows rfl rfl
    exact hreleased.trans (.settle _ s)
  | grant t =>
    have hpresent : KeysKept s (s.present t) := .of_flows rfl rfl
    exact hpresent.trans (.grant _)
  | takeForwarded t => exact (KeysKept.takeForwarded s t).trans (.settle _ s)
  | completeWrite t live => exact (KeysKept.completeWrite s t live).trans (.settle _ s)
  | completeRead r => exact (KeysKept.completeRead s r).trans (.settle _ s)
  | expireTimer =>
    have htimer : KeysKept s s.expireTimer := .of_ft (by simp) (by simp)
    exact htimer.trans (.settle _ s)
  | takeEnqueue => exact absurd rfl hc
  | dequeueSlot o r i => exact ((KeysKept.popHead s).trans (.dequeueSlot _ r i o.stamp)).trans (.settle _ s)
  | completeSlot o r i code =>
    exact ((KeysKept.popHead s).trans (.completeSlot _ r i code o.stamp)).trans (.settle _ s)
  | discardHead => exact (KeysKept.popHead s).trans (.settle _ s)
  | sweepHead =>
    have hswept (t : State) : KeysKept t (t.onOq fun q => { q with headSwept := true }) := .of_flows rfl rfl
    exact ((KeysKept.sweep s).trans (hswept _)).trans (.settle _ s)
  | sweepEmpty => exact (KeysKept.sweep s).trans (.settle _ s)
  | takeExpiry i due => exact (KeysKept.takeExpiry s i due).trans (.settle _ s)
  | control c o => exact .handOutControl s o
  | advanceWalk n tag => exact (KeysKept.advanceWalk s n tag).trans (.settle _ s)
  | applyLoadRead r =>
    have hnext : KeysKept s (s.onCi fun c => { c with loadReads := c.loadReads.tail }) := .of_flows rfl rfl
    exact hnext.trans (.applyLoadRead _ r)

/-- Every command keeps keys unique and in their sets. -/
theorem Effect.keeps_keysUnique {c : Instr} {u : State} (h : Effect s c u) (hs : s.KeysUnique) : u.KeysUnique := by
  by_cases hc : c = .enqueue
  · subst hc
    cases h with
    | idle => exact hs
    | takeEnqueue o r i port tag copy q v =>
      exact (KeysKept.settle _ s).keysUnique
        (((KeysKept.popHead s).keysUnique hs).takeEnqueue o r i port tag copy q v)
    | control _ o => exact (KeysKept.handOutControl s o).keysUnique hs
  · exact (h.keysKept hc).keysUnique hs

/-- Settles O56: a key enters the table only by an allocation, in its own set and where it missed; every other change
keeps an entry's key or takes it away. -/
theorem stepsKeepKeysUnique : Obligations.StepsKeepKeysUnique := by
  intro s u hs h
  rcases step_effect h with rfl | ⟨c, rest, _, heffect⟩
  · exact hs
  · exact heffect.keeps_keysUnique hs

end Sys2Proof.Machine
end

