-- ==== Sys2Proof/Proofs/ProfilePasses.lean ====
section
/-! PROOFS. The passes over the flow entries that a change of a profile makes: what one visit does to an entry and its due
time, that a pass reaches every entry once, and what the changes of several profiles do in turn. -/

namespace Sys2Proof.Machine

/-! ## An entry with its due time -/

/-- A flow entry and the due time listed for it. -/
abbrev EntryCell := FlowEntry × Option Time

/-- Entry j and the due time listed for it. -/
def State.cellAt (s : State) (j : Nat) : EntryCell := (s.flow j, s.dueOf j)

/-- What a pass with change `g` makes of an entry (R34, R52): a failing one is faulted, a valid one changed. -/
def visitCell (g : EntryCell → EntryCell) (x : EntryCell) : EntryCell :=
  if x.1.checkOk = true then if x.1.valid = true then g x else x else (vacantEntry (x.1.generation + 1), none)

theorem visitCell_of_valid {x : EntryCell} (hok : x.1.checkOk = true) (hvalid : x.1.valid = true)
    (g : EntryCell → EntryCell) : visitCell g x = g x := (if_pos hok).trans (if_pos hvalid)

theorem visitCell_of_vacant {x : EntryCell} (hok : x.1.checkOk = true) (hvacant : x.1.valid = false)
    (g : EntryCell → EntryCell) : visitCell g x = x := (if_pos hok).trans (if_neg (by simp [hvacant]))

theorem visitCell_of_fail {x : EntryCell} (hfail : x.1.checkOk = false) (g : EntryCell → EntryCell) :
    visitCell g x = (vacantEntry (x.1.generation + 1), none) := if_neg (by simp [hfail])

/-- `f` is a change of single entries: at time `T` it makes `g` of a sound valid entry, which stays one and which a second
change leaves, and it leaves every other entry and the time base. -/
structure ChangesCells (T : Time) (f : State → Nat → State) (g : EntryCell → EntryCell) : Prop where
  cell : ∀ t i j, t.now = T → (t.flow i).checkOk = true →
    (f t i).cellAt j = if j = i then g (t.cellAt i) else t.cellAt j
  timeBase : ∀ t i, (f t i).cm.timeBase = t.cm.timeBase
  sound : ∀ x, x.1.checkOk = true → (g x).1.checkOk = true
  state : ∀ x, (g x).1.state = x.1.state
  again : ∀ x, g (g x) = g x

@[simp] theorem State.checked_timeBase (s : State) (i : Nat) : (s.checked i).cm.timeBase = s.cm.timeBase := by
  rcases s.checked_cases i with ⟨_, heq⟩ | ⟨_, heq⟩
  · rw [heq]
  · simp [heq, State.entryFault, State.leaveDue]

/-- The read of an entry faults it or leaves it, and leaves every other entry. -/
theorem State.cellAt_checked (s : State) (i j : Nat) :
    (s.checked i).cellAt j =
      if j = i ∧ (s.flow i).checkOk = false then (vacantEntry ((s.flow i).generation + 1), none) else s.cellAt j := by
  rw [State.cellAt, State.flow_checked, State.dueOf_checked]
  split <;> rfl

section
variable {T : Time} {f : State → Nat → State} {g : EntryCell → EntryCell}

theorem visitCell_of_fault (n : BitVec 8) (g : EntryCell → EntryCell) :
    visitCell g (vacantEntry n, none) = (vacantEntry n, none) := visitCell_of_vacant rfl rfl g

/-- A second visit changes nothing. -/
theorem ChangesCells.visit_visit (h : ChangesCells T f g) (x : EntryCell) :
    visitCell g (visitCell g x) = visitCell g x := by
  cases hok : x.1.checkOk
  · rw [visitCell_of_fail hok, visitCell_of_fault]
  · cases hvalid : x.1.valid
    · rw [visitCell_of_vacant hok hvalid, visitCell_of_vacant hok hvalid]
    · have hstays : (g x).1.valid = true := by rw [FlowEntry.valid, h.state]; exact hvalid
      rw [visitCell_of_valid hok hvalid, visitCell_of_valid (h.sound x hok) hstays, h.again]

/-- The visit of entry i, the read with its check and the change of a valid entry. -/
theorem ChangesCells.cellAt_visit (h : ChangesCells T f g) {s : State} (hT : s.now = T) (i j : Nat) :
    (if ((s.checked i).flow i).valid then f (s.checked i) i else s.checked i).cellAt j =
      if j = i then visitCell g (s.cellAt i) else s.cellAt j := by
  have hread (j : Nat) := s.cellAt_checked i j
  have hnow : (s.checked i).now = T := (s.checked_timeBase i).trans hT
  cases hok : (s.flow i).checkOk
  · have hfail : (s.checked i).flow i = vacantEntry ((s.flow i).generation + 1) := by
      rw [State.flow_checked, if_pos ⟨rfl, hok⟩]
    have hvacant : ((s.checked i).flow i).valid = false := by rw [hfail]; rfl
    rw [if_neg (Bool.eq_false_iff.mp hvacant), hread, visitCell_of_fail hok]
    by_cases hj : j = i
    · rw [if_pos ⟨hj, hok⟩, if_pos hj]; rfl
    · rw [if_neg fun h => hj h.1, if_neg hj]
  · rw [s.checked_of_ok hok]
    split
    · next hvalid => rw [h.cell s i j hT hok, visitCell_of_valid hok hvalid]
    · next hvacant =>
      rw [visitCell_of_vacant hok (Bool.eq_false_iff.mpr hvacant)]
      split
      · next hj => rw [hj]
      · rfl

/-- A pass visits the entries of its list, each with the effect of one visit, and leaves the others. -/
theorem ChangesCells.cellAt_overFlows (h : ChangesCells T f g) {s : State} (hT : s.now = T) (l : List Nat) (j : Nat) :
    (s.overFlows f l).cellAt j = if j ∈ l then visitCell g (s.cellAt j) else s.cellAt j := by
  induction l generalizing s with
  | nil => rfl
  | cons i rest ih =>
    have hvisit := h.cellAt_visit hT i
    have hnow : (if ((s.checked i).flow i).valid then f (s.checked i) i else s.checked i).now = T := by
      rw [← hT]
      unfold State.now
      split
      · rw [h.timeBase, State.checked_timeBase]
      · exact s.checked_timeBase i
    rw [State.overFlows, ih hnow, hvisit]
    by_cases hj : j = i
    · subst hj; simp [h.visit_visit]
    · simp [hj]

/-- A pass over all entries gives each of the 1024 the effect of one visit (log 24). -/
theorem ChangesCells.cellAt_pass (h : ChangesCells T f g) {s : State} (hT : s.now = T) {j : Nat} (hj : j < 1024) :
    (s.overFlows f s.flowIndexes).cellAt j = visitCell g (s.cellAt j) := by
  rw [h.cellAt_overFlows hT]
  split
  · rfl
  · next hunlisted =>
    have hinitial : s.flow j = initialEntry := by
      by_contra hne; exact hunlisted (s.mem_flowIndexes hj hne)
    have hvacant : (s.cellAt j).1 = initialEntry := hinitial
    rw [visitCell_of_vacant (by rw [hvacant]; rfl) (by rw [hvacant]; rfl)]

theorem ChangesCells.timeBase_overFlows (h : ChangesCells T f g) (s : State) (l : List Nat) :
    (s.overFlows f l).cm.timeBase = s.cm.timeBase :=
  s.overFlows_keep (fun t => t.cm.timeBase) f l (fun t i => t.checked_timeBase i) h.timeBase

end

/-! ## The two changes of a profile (R76, R123) -/

/-- The profile-change event on an entry with its due time (R76). -/
def reprofileCell (p : Nat) (old new : Profile) (x : EntryCell) : EntryCell :=
  if x.1.profile = p then ({ x.1.reprofile old new with checkOk := true }, x.2) else x

/-- The period-change event on an entry with its due time, at time `T` (R123). -/
def periodCell (p : Nat) (old new : Profile) (T : Time) (x : EntryCell) : EntryCell :=
  if x.1.profile = p ∧ x.1.state = .tracking then
    if new.period = 0 then ({ x.1 with due := none, checkOk := true }, none)
    else if old.period = 0 then ({ x.1 with due := some (T + new.span), checkOk := true }, some (T + new.span))
    else x
  else x

/-- A window resized twice is resized once (R78). -/
theorem resizedWindow_resizedWindow (size : Nat) (window : List Mark) :
    resizedWindow size (resizedWindow size window) = resizedWindow size window := by
  have hlength : (resizedWindow size window).length = size := by simp [resizedWindow]; omega
  have htake : (resizedWindow size window).take size = resizedWindow size window := List.take_of_length_le hlength.le
  rw [resizedWindow, htake, hlength, Nat.sub_self, List.replicate_zero, List.append_nil]

/-- A second profile-change event of the same values changes nothing. -/
theorem FlowEntry.reprofile_reprofile (e : FlowEntry) (old new : Profile) (ok : Bool) :
    ({ e.reprofile old new with checkOk := ok } : FlowEntry).reprofile old new =
      { e.reprofile old new with checkOk := ok } := by
  unfold FlowEntry.reprofile
  by_cases hwidth : old.width = new.width <;> by_cases hwindow : old.window = new.window <;>
    simp [hwidth, hwindow, resizedWindow_resizedWindow]

theorem changesCells_profileChange (T : Time) (p : Nat) (old new : Profile) :
    ChangesCells T (fun t i => if (t.flow i).profile = p then t.setFlow i ((t.flow i).reprofile old new) else t)
      (reprofileCell p old new) where
  cell t i j _ _ := by
    by_cases hp : (t.flow i).profile = p <;> by_cases hj : j = i <;> simp [State.cellAt, reprofileCell, hp, hj]
  timeBase t i := by
    split <;> rfl
  sound x hok := by
    unfold reprofileCell
    split
    · rfl
    · exact hok
  state x := by
    unfold reprofileCell
    split <;> rfl
  again x := by
    by_cases hp : x.1.profile = p
    · have hp' : (x.1.reprofile old new).profile = p := hp
      rw [reprofileCell, reprofileCell, if_pos hp, if_pos hp', FlowEntry.reprofile_reprofile]
    · rw [reprofileCell, reprofileCell, if_neg hp, if_neg hp]

theorem changesCells_periodChange (T : Time) (p : Nat) (old new : Profile) :
    ChangesCells T (fun t i => if (t.flow i).profile = p then t.periodChangeEntry i old new else t)
      (periodCell p old new T) where
  cell t i j hT hok := by
    unfold periodCell State.periodChangeEntry
    by_cases hown : (t.flow i).profile = p ∧ (t.flow i).state = .tracking
    · by_cases hnew : new.period = 0
      · by_cases hj : j = i <;> simp [State.cellAt, hown, hnew, hj]
      · by_cases hold : old.period = 0 <;> by_cases hj : j = i <;> simp [State.cellAt, hown, hnew, hold, hj, hT]
    · rcases not_and_or.mp hown with hp | htracking
      · by_cases hj : j = i <;> simp [State.cellAt, hp, hj]
      · by_cases hj : j = i <;> simp [State.cellAt, htracking, hj]
  timeBase t i := by
    unfold State.periodChangeEntry
    repeat' split
    all_goals rfl
  sound x hok := by
    unfold periodCell
    split
    · split
      · rfl
      · split
        · rfl
        · exact hok
    · exact hok
  state x := by
    unfold periodCell
    repeat' split
    all_goals rfl
  again x := by
    by_cases hown : x.1.profile = p ∧ x.1.state = .tracking
    · by_cases hnew : new.period = 0
      · simp [periodCell, hown, hnew]
      · by_cases hold : old.period = 0 <;> simp [periodCell, hown, hnew, hold]
    · simp [periodCell, hown]

/-! ## The application of one profile -/

/-- The width, window size or evaluation changes, a profile-change event (R76). -/
abbrev Profile.Moves (old new : Profile) : Prop :=
  old.width ≠ new.width ∨ old.window ≠ new.window ∨ old.evaluates ≠ new.evaluates

/-- A value changes whose event reads every entry (R76, R123). -/
abbrev Profile.Reads (old new : Profile) : Prop :=
  old.width ≠ new.width ∨ old.window ≠ new.window ∨ old.evaluates ≠ new.evaluates ∨ old.period ≠ new.period

/-- What the application of profile p, from `old` to `new` at time `T`, makes of an entry with its due time. The new due
time has the tolerance held before (log 38). -/
def appliedCell (p : Nat) (old new : Profile) (T : Time) (x : EntryCell) : EntryCell :=
  let y := if old.Moves new then visitCell (reprofileCell p old new) x else x
  if old.period ≠ new.period then visitCell (periodCell p old { new with tolerance := old.tolerance } T) y else y

/-- The due time after a change of the period alone (R123). -/
def repayedDue (old new : Profile) (T : Time) (state : EntryState) (due : Option Time) : Option Time :=
  if state = .tracking ∧ old.period ≠ 0 ∧ new.period = 0 then none
  else if state = .tracking ∧ old.period = 0 ∧ new.period ≠ 0 then
    some (T + BitVec.ofNat 48 ((new.period + old.tolerance) * 1000))
  else due

/-- A sound valid entry of the profile after the application of the profile (R76 to R79, R123). -/
def movedEntry (old new : Profile) (T : Time) (e : FlowEntry) : FlowEntry :=
  { e with
    reanchor := e.reanchor || decide (old.Moves new)
    nextSeq := if old.width = new.width then e.nextSeq else e.nextSeq % 2 ^ new.width
    window := if old.window = new.window then e.window
      else e.window.take new.window ++ List.replicate (new.window - e.window.length) .unawaited
    due := repayedDue old new T e.state e.due }

/-- The change of a profile's width, window size or evaluation, on a sound valid entry of the profile. -/
theorem visitCell_reprofileCell {x : EntryCell} (old new : Profile) (hok : x.1.checkOk = true)
    (hvalid : x.1.valid = true) :
    (if old.Moves new then visitCell (reprofileCell x.1.profile old new) x else x) =
    ({ x.1 with
      reanchor := x.1.reanchor || decide (old.Moves new)
      nextSeq := if old.width = new.width then x.1.nextSeq else x.1.nextSeq % 2 ^ new.width
      window := if old.window = new.window then x.1.window
        else x.1.window.take new.window ++ List.replicate (new.window - x.1.window.length) .unawaited }, x.2) := by
  split
  · next hmoves => simp [visitCell_of_valid hok hvalid, reprofileCell, FlowEntry.reprofile, resizedWindow, hmoves, hok]
  · next hstands =>
    obtain ⟨hwidth, hwindow, -⟩ : old.width = new.width ∧ old.window = new.window ∧ old.evaluates = new.evaluates := by
      simpa using hstands
    simp only [hstands, decide_false, Bool.or_false, if_pos hwidth, if_pos hwindow]

/-- The change of a profile's period, on a sound valid entry of the profile. -/
theorem visitCell_periodCell {x : EntryCell} (old new : Profile) (T : Time) (hok : x.1.checkOk = true)
    (hvalid : x.1.valid = true) :
    (if old.period ≠ new.period then
      visitCell (periodCell x.1.profile old { new with tolerance := old.tolerance } T) x else x) =
    ({ x.1 with due := repayedDue old new T x.1.state x.1.due }, repayedDue old new T x.1.state x.2) := by
  rw [visitCell_of_valid hok hvalid]
  by_cases hleaves : x.1.state = .tracking ∧ old.period ≠ 0 ∧ new.period = 0
  · obtain ⟨htracking, hold, hnew⟩ := hleaves
    simp [periodCell, repayedDue, htracking, hold, hnew, hok]
  · by_cases hjoins : x.1.state = .tracking ∧ old.period = 0 ∧ new.period ≠ 0
    · obtain ⟨htracking, hold, hnew⟩ := hjoins
      simp [periodCell, repayedDue, htracking, hold, hnew, hok, Ne.symm hnew, Profile.span, ofMicroseconds]
    · have hstands (due : Option Time) : repayedDue old new T x.1.state due = due := by
        rw [repayedDue, if_neg hleaves, if_neg hjoins]
      have hcell (h : old.period ≠ new.period) :
          periodCell x.1.profile old { new with tolerance := old.tolerance } T x = x := by
        by_cases htracking : x.1.state = .tracking
        · have hnew : new.period ≠ 0 := fun h0 => hleaves ⟨htracking, h0 ▸ h, h0⟩
          have hold : old.period ≠ 0 := fun h0 => hjoins ⟨htracking, h0, hnew⟩
          simp [periodCell, hnew, hold]
        · simp [periodCell, htracking]
      rw [hstands, hstands]
      split
      · next h => exact hcell h
      · rfl

section
variable (p : Nat) (old new : Profile) (T : Time) {x : EntryCell}

/-- A profile that stands changes no entry. -/
theorem appliedCell_self (h : Profile) (x : EntryCell) : appliedCell p h h T x = x := by simp [appliedCell]

theorem appliedCell_of_vacant (hok : x.1.checkOk = true) (hvacant : x.1.valid = false) :
    appliedCell p old new T x = x := by
  simp [appliedCell, visitCell_of_vacant hok hvacant]

theorem appliedCell_of_other (hok : x.1.checkOk = true) (hvalid : x.1.valid = true) (hother : x.1.profile ≠ p) :
    appliedCell p old new T x = x := by
  simp [appliedCell, visitCell_of_valid hok hvalid, reprofileCell, periodCell, hother]

/-- A sound valid entry of the profile moves with its due time. -/
theorem appliedCell_of_own (hok : x.1.checkOk = true) (hvalid : x.1.valid = true) (hown : x.1.profile = p) :
    appliedCell p old new T x = (movedEntry old new T x.1, repayedDue old new T x.1.state x.2) := by
  subst hown
  dsimp only [appliedCell]
  rw [visitCell_reprofileCell old new hok hvalid]
  exact visitCell_periodCell old new T hok hvalid

/-- A failing entry is faulted by a change that reads the entries. -/
theorem appliedCell_of_fail (hfail : x.1.checkOk = false) :
    appliedCell p old new T x = if old.Reads new then (vacantEntry (x.1.generation + 1), none) else x := by
  unfold appliedCell
  by_cases hmoves : old.Moves new
  · have hreads : old.Reads new := by tauto
    simp only [if_pos hmoves, if_pos hreads, visitCell_of_fail hfail, visitCell_of_fault, ite_self]
  · by_cases hperiod : old.period = new.period
    · have hstands : ¬old.Reads new := by tauto
      simp only [if_neg hmoves, if_neg hstands, if_neg (not_not.mpr hperiod)]
    · have hreads : old.Reads new := by tauto
      simp only [if_neg hmoves, if_pos hreads, if_pos hperiod, visitCell_of_fail hfail]

end

/-! ## The application of several profiles in turn -/

/-- What the applications of the profiles of `l`, from `h` to `g` at time `T`, make of an entry with its due time. -/
def appliedCells (h g : Nat → Profile) (T : Time) (l : List Nat) (x : EntryCell) : EntryCell :=
  l.foldl (fun x p => appliedCell p (h p) (g p) T x) x

section
variable (h g : Nat → Profile) (T : Time) {x : EntryCell}

theorem appliedCells_of_vacant (l : List Nat) (hok : x.1.checkOk = true) (hvacant : x.1.valid = false) :
    appliedCells h g T l x = x := by
  induction l with
  | nil => rfl
  | cons p rest ih => rw [appliedCells, List.foldl_cons, appliedCell_of_vacant _ _ _ _ hok hvacant]; exact ih

theorem appliedCells_of_other {l : List Nat} (hok : x.1.checkOk = true) (hvalid : x.1.valid = true)
    (hother : x.1.profile ∉ l) : appliedCells h g T l x = x := by
  induction l with
  | nil => rfl
  | cons p rest ih =>
    rw [List.mem_cons, not_or] at hother
    rw [appliedCells, List.foldl_cons, appliedCell_of_other _ _ _ _ hok hvalid hother.1]
    exact ih hother.2

/-- A sound valid entry moves once, with its own profile. -/
theorem appliedCells_of_own {l : List Nat} (hl : l.Nodup) (hok : x.1.checkOk = true) (hvalid : x.1.valid = true)
    (hown : x.1.profile ∈ l) :
    appliedCells h g T l x = (movedEntry (h x.1.profile) (g x.1.profile) T x.1,
      repayedDue (h x.1.profile) (g x.1.profile) T x.1.state x.2) := by
  induction l with
  | nil => cases hown
  | cons p rest ih =>
    rw [List.nodup_cons] at hl
    rw [appliedCells, List.foldl_cons]
    by_cases hp : x.1.profile = p
    · rw [appliedCell_of_own _ _ _ _ hok hvalid hp, ← hp]
      exact appliedCells_of_other h g T hok hvalid (hp ▸ hl.1)
    · rw [appliedCell_of_other _ _ _ _ hok hvalid hp]
      exact ih hl.2 ((List.mem_cons.mp hown).resolve_left hp)

/-- A failing entry is faulted if one of the changes reads the entries. -/
theorem appliedCells_of_fail (l : List Nat) (hfail : x.1.checkOk = false) :
    appliedCells h g T l x =
      if ∃ p ∈ l, (h p).Reads (g p) then (vacantEntry (x.1.generation + 1), none) else x := by
  induction l with
  | nil => simp [appliedCells]
  | cons p rest ih =>
    rw [appliedCells, List.foldl_cons, appliedCell_of_fail _ _ _ _ hfail]
    by_cases hreads : (h p).Reads (g p)
    · rw [if_pos hreads, if_pos ⟨p, List.mem_cons_self, hreads⟩]
      exact appliedCells_of_vacant h g T rest rfl rfl
    · rw [if_neg hreads]
      simp only [List.exists_mem_cons_iff, hreads, false_or]
      exact ih

end

end Sys2Proof.Machine
end

