-- ==== Sys2Proof/Proofs/ProfileFields.lean ====
section
/-! PROOFS. What an application of settings holds of the profiles and the classifier: the other settings and the command
leave them with the control image, and each is read from the image field by field. -/

namespace Sys2Proof.Machine

/-! ## What the rest of an application leaves -/

/-- The control image with the profiles and classifier entries held, and the transactions pending. -/
def State.tables (s : State) : Store Byte × Store Profile × Store ClassifierEntry × List Instr :=
  (s.ci.image, s.ci.held.profiles, s.ci.held.classifier, s.pending)

section
variable (s : State)

theorem State.tables_congr {s t : State} (hci : t.ci = s.ci) (hpending : t.pending = s.pending) : t.tables = s.tables := by
  rw [State.tables, State.tables, hci, hpending]

@[simp] theorem State.tables_noteClamp (o f v h : Nat) : (s.noteClamp o f v h).tables = s.tables := by
  unfold State.noteClamp
  split <;> rfl

@[simp] theorem State.tables_onMasked (m : BitVec 8) (g : AlarmRow → AlarmRow) (l : List AlarmKind) :
    (s.onMasked m g l).tables = s.tables := State.tables_congr (by simp) (by simp)

@[simp] theorem State.tables_setCoverage (c : Coverage) : (s.setCoverage c).tables = s.tables :=
  State.tables_congr (by simp) (by simp)

@[simp] theorem State.tables_requestReload (o : ReloadOrigin) : (s.requestReload o).tables = s.tables := by
  unfold State.requestReload
  split <;> rfl

@[simp] theorem State.tables_sweep : s.sweep.tables = s.tables := by
  rw [s.sweep_keep State.tables fun t o => t.tables_requestReload o]
  refine State.tables_congr (by simp) ?_
  exact s.overFlows_keep State.pending _ s.flowIndexes (fun t i => by simp) fun t i => rfl

@[simp] theorem State.tables_monitoringEffect (b : Bool) : (s.monitoringEffect b).tables = s.tables := by
  unfold State.monitoringEffect
  (repeat' split) <;> simp

@[simp] theorem State.tables_applyMonitoring : s.applyMonitoring.tables = s.tables := by
  unfold State.applyMonitoring
  dsimp only
  split
  · rfl
  · rw [State.tables_monitoringEffect]; rfl

@[simp] theorem State.tables_applyPinCount : s.applyPinCount.tables = s.tables := by
  unfold State.applyPinCount
  dsimp only
  rw [State.tables_noteClamp]
  rfl

@[simp] theorem State.tables_applyAlarmOn : s.applyAlarmOn.tables = s.tables := by
  unfold State.applyAlarmOn
  dsimp only
  rw [State.tables_onMasked]
  rfl

@[simp] theorem State.tables_expireTimer : s.expireTimer.tables = s.tables := State.tables_congr (by simp) (by simp)

@[simp] theorem State.tables_triggerDrain : s.triggerDrain.tables = s.tables := State.tables_congr (by simp) (by simp)

@[simp] theorem State.tables_applyInterval : s.applyInterval.tables = s.tables := by
  unfold State.applyInterval
  dsimp only
  split
  · rfl
  · split
    · rw [State.tables_expireTimer]; rfl
    · rfl

@[simp] theorem State.tables_applyThreshold : s.applyThreshold.tables = s.tables := by
  unfold State.applyThreshold
  dsimp only
  split
  · rw [State.tables_triggerDrain, State.tables_noteClamp]; rfl
  · rw [State.tables_noteClamp]; rfl

@[simp] theorem State.tables_applyGlobals (l : List (Nat × Byte)) : (s.applyGlobals l).tables = s.tables := by
  have hfreeze (t : State) : t.applyFreeze.tables = t.tables := rfl
  unfold State.applyGlobals
  dsimp only
  (repeat' split) <;> simp [hfreeze]

@[simp] theorem State.tables_applyConsume (l : List (Nat × Byte)) : (s.applyConsume l).tables = s.tables := by
  have heffect (t : State) : t.consumeEffect.tables = t.tables := by
    unfold State.consumeEffect
    split
    · exact State.tables_congr (by simp) (by simp)
    · rfl
  unfold State.applyConsume
  dsimp only
  split
  · split
    · split
      · rfl
      · rw [heffect]; rfl
    · exact s.tables_noteClamp _ _ _ _
  · rfl

theorem State.tables_noteRings (b : State) (l : List (Nat × Byte)) (r : Nat) (gs : List RingGeometry) :
    (s.noteRings b l r gs).tables = s.tables := by
  induction gs generalizing s r with
  | nil => rfl
  | cons g rest ih =>
    rw [State.noteRings, ih]
    unfold State.noteRing
    dsimp only
    (repeat' split) <;> simp

theorem State.tables_changeRings (r : Nat) (gs : List RingGeometry) : (s.changeRings r gs).tables = s.tables := by
  induction gs generalizing s r with
  | nil => rfl
  | cons g rest ih =>
    have hresolved (l : List Nat) : (s.resolveSlots r l).tables = s.tables := State.tables_congr (by simp) (by simp)
    rw [State.changeRings, ih]
    unfold State.changeRing
    dsimp only
    split
    · rfl
    · split
      · exact hresolved _
      · rfl

@[simp] theorem State.tables_applyRings (l : List (Nat × Byte)) (m : Store Byte) :
    (s.applyRings l m).tables = s.tables := by
  unfold State.applyRings
  split
  · exact (State.tables_changeRings _ _ _).trans (State.tables_noteRings _ _ _ _ _)
  · rfl

@[simp] theorem State.tables_testThreshold (b : State) : (s.testThreshold b).tables = s.tables :=
  State.tables_congr (by simp) (by simp)

theorem State.tables_noteProfile (l : List (Nat × Byte)) (p : Nat) (g : Profile) :
    (s.noteProfile l p g).tables = s.tables := by
  unfold State.noteProfile
  dsimp only
  (repeat' split) <;> simp

@[simp] theorem State.tables_act (tag : BitVec 8) (a : Nat) (k : MailboxCommand) : (s.act tag a k).tables = s.tables := by
  have hresult (t : State) (code : ResultCode) : (t.result tag code).tables = t.tables := rfl
  cases k with
  | clearFlow => exact State.tables_congr (t := (s.clearFlow a).1) (by simp) (by simp)
  | evictFlow => exact State.tables_congr (t := (s.evictFlow a).1) (by simp) (by simp)
  | interrogate =>
    change (s.startInterrogate tag a).tables = s.tables
    unfold State.startInterrogate
    split
    · exact State.tables_congr (t := s.checked a) (by simp) (by simp)
    · rfl
  | snapshot =>
    have hpass : (s.overFlows (fun t i => t.setFlow i (t.flow i).mark) s.flowIndexes).tables = s.tables :=
      s.overFlows_keep State.tables _ s.flowIndexes (fun t i => State.tables_congr (by simp) (by simp)) fun t i => rfl
    exact (hresult _ _).trans ((State.tables_triggerDrain _).trans hpass)
  | ping | clearAll | unknown | restart => rfl
  | alarmAck | alarmHold | alarmRelease => exact (hresult _ _).trans (s.tables_onMasked _ _ _)
  | reloadConfig => exact State.tables_requestReload _ _

theorem State.tables_considerCommand (l : List (Nat × Byte)) : (s.considerCommand l).tables = s.tables := by
  have htag (tag : BitVec 8) : (s.takeTag tag).tables = s.tables := rfl
  unfold State.considerCommand State.mailbox
  dsimp only
  split
  · split
    · rfl
    · split
      · rw [State.tables_act, htag]
      · rfl
  · rfl

end

/-! ## Named bytes and the fields of the image -/

theorem names_iff {bytes : List (Nat × Byte)} {o n : Nat} :
    names bytes o n = true ↔ ∃ c ∈ bytes, o ≤ c.1 ∧ c.1 < o + n := by
  simp [names]

/-- A field is not named where a field around it is not. -/
theorem names_of_within {bytes : List (Nat × Byte)} {o n : Nat} (hout : names bytes o n = false) {a m : Nat}
    (hstart : o ≤ a) (hend : a + m ≤ o + n) : names bytes a m = false := by
  rw [← Bool.not_eq_true, names_iff] at hout ⊢
  exact fun ⟨c, hc, ha, hm⟩ => hout ⟨c, hc, hstart.trans ha, hm.trans_le hend⟩

/-- Bytes of one range of offsets name no field outside it. -/
theorem names_of_outside {bytes : List (Nat × Byte)} {lo hi : Nat} (hrange : ∀ c ∈ bytes, lo ≤ c.1 ∧ c.1 < hi)
    {o n : Nat} (hout : o + n ≤ lo ∨ hi ≤ o) : names bytes o n = false := by
  rw [← Bool.not_eq_true, names_iff]
  rintro ⟨c, hc, hstart, hend⟩
  have := hrange c hc
  omega

theorem natOfBytes_lt (l : List Byte) : natOfBytes l < 256 ^ l.length := by
  induction l with
  | nil => simp [natOfBytes]
  | cons b rest ih =>
    have := b.isLt
    rw [natOfBytes, List.length_cons, Nat.pow_succ]
    omega

theorem natOfBytes_append (l m : List Byte) : natOfBytes (l ++ m) = natOfBytes l + 256 ^ l.length * natOfBytes m := by
  induction l with
  | nil => simp [natOfBytes]
  | cons b rest ih => rw [List.cons_append, natOfBytes, natOfBytes, ih, List.length_cons, Nat.pow_succ]; ring

section
variable (s : State)

theorem State.imageField_lt (o n : Nat) : s.imageField o n < 256 ^ n := by
  simpa [State.imageField] using natOfBytes_lt ((List.range n).map fun i => s.imageByte (o + i))

theorem State.imageField_one (o : Nat) : s.imageField o 1 = (s.imageByte o).toNat := by
  simp [State.imageField, natOfBytes]

/-- A field is its low bytes and its high bytes. -/
theorem State.imageField_add (o n m : Nat) :
    s.imageField o (n + m) = s.imageField o n + 256 ^ n * s.imageField (o + n) m := by
  simp only [State.imageField, List.range_add, List.map_append, natOfBytes_append, List.map_map, List.length_map,
    List.length_range, Function.comp_def, Nat.add_assoc]

end

theorem State.imageByte_congr {s t : State} (himage : t.ci.image = s.ci.image) (o : Nat) :
    t.imageByte o = s.imageByte o := by
  rw [State.imageByte, State.imageByte, himage]

theorem State.imageField_congr {s t : State} (himage : t.ci.image = s.ci.image) (o n : Nat) :
    t.imageField o n = s.imageField o n := by
  simp only [State.imageField, State.imageByte, himage]

/-! ## The profile held by an application (R31, R164) -/

/-- The profile p that an application of `bytes` holds, from the image and the profile held before. -/
def State.newProfile (s : State) (bytes : List (Nat × Byte)) (p : Nat) : Profile :=
  { s.readProfile bytes p with jumpLimit := s.readJump bytes p (s.readProfile bytes p) }

theorem State.newProfile_congr {s t : State} (himage : t.ci.image = s.ci.image) (bytes : List (Nat × Byte)) {p : Nat}
    (hheld : t.profile p = s.profile p) : t.newProfile bytes p = s.newProfile bytes p := by
  have hread : t.readProfile bytes p = s.readProfile bytes p := by
    simp only [State.readProfile, State.imageBit, State.imageByte_congr himage, State.imageField_congr himage, hheld]
  have hjump (g : Profile) : t.readJump bytes p g = s.readJump bytes p g := by
    unfold State.readJump
    dsimp only
    rw [hheld, State.imageField_congr himage]
  rw [State.newProfile, State.newProfile, hread, hjump]

/-- A profile of which no byte is named stands. -/
theorem State.newProfile_of_unnamed (s : State) {bytes : List (Nat × Byte)} {p : Nat}
    (hout : names bytes (profileOffset p) 20 = false) : s.newProfile bytes p = s.profile p := by
  have hfield (k n : Nat) (hk : k + n ≤ 20) : names bytes (profileOffset p + k) n = false :=
    names_of_within hout (Nat.le_add_right _ _) (by omega)
  have hfirst : names bytes (profileOffset p) 1 = false := hfield 0 1 (by decide)
  simp [State.newProfile, State.readProfile, State.readJump, hfirst, hfield]

/-- The clamp of a value to a range from 1, where the value is a byte (R164). -/
theorem clampRange_byte (b : Byte) : clampRange 1 255 b.toNat = max 1 b.toNat := by
  have := b.isLt
  unfold clampRange
  omega

theorem clampJump_eq (width window v : Nat) :
    clampJump width window v = if v < window then window else min v (2 ^ (width - 1) - 1) := by
  unfold clampJump
  split
  · rfl
  · split <;> omega

/-- The jump limit is read again where it is named or the width or window size changes (R164). -/
theorem State.newProfile_jumpLimit (s : State) (bytes : List (Nat × Byte)) (p : Nat) :
    (s.newProfile bytes p).jumpLimit =
      if names bytes (profileOffset p + 4) 2 = true ∨ (s.newProfile bytes p).width ≠ (s.profile p).width ∨
          (s.newProfile bytes p).window ≠ (s.profile p).window then
        clampJump (s.newProfile bytes p).width (s.newProfile bytes p).window (s.imageField (profileOffset p + 4) 2)
      else (s.profile p).jumpLimit := by
  change s.readJump bytes p (s.readProfile bytes p) = _
  simp only [State.readJump, Bool.or_eq_true, decide_eq_true_eq, or_assoc]
  rfl

/-- Bytes hold the profile fields they name when profile p becomes what the application reads. -/
theorem HoldsProfileFields.of_newProfile {bytes : List (Nat × Byte)} {s u v : State} (himage : u.ci.image = v.ci.image)
    (hheld : ∀ p, v.profile p = s.profile p) (hnew : ∀ p < 16, u.profile p = v.newProfile bytes p) :
    HoldsProfileFields bytes s u := by
  rintro n p b h g rfl hp rfl rfl rfl
  have hb : 0x200 + 32 * p = profileOffset p := rfl
  have hwatched : v.imageField (profileOffset p + 16) 2 < 2 ^ 16 := v.imageField_lt _ 2
  have hjump := v.newProfile_jumpLimit bytes p
  rw [hnew p hp, ← hheld p, hb]
  simp only [State.imageByte_congr himage, State.imageField_congr himage, ← State.imageField_one]
  refine ⟨rfl, rfl, fun hout => if_neg (by simp [hout]), fun hin => if_pos hin, rfl, rfl, fun hread => ?_,
    fun hout hwidth hwindow => ?_, ?_, rfl, rfl, rfl, rfl, ?_, rfl, rfl⟩
  · rw [hjump, if_pos hread, clampJump_eq]
  · rw [hjump, if_neg (by simp [hout, hwidth, hwindow])]
  · rw [State.imageField_one, ← clampRange_byte, ← State.imageField_one]; rfl
  · change BitVec.toNat (if _ then _ else _) = _
    split
    · rw [BitVec.toNat_ofNat, Nat.mod_eq_of_lt hwatched]
    · rfl

/-! ## The classifier entries held by an application (R29) -/

theorem State.classifierEntry_applyClassifier (s : State) (bytes : List (Nat × Byte)) (l : List Nat) (c : Nat) :
    (s.applyClassifier bytes l).classifierEntry c =
      if c ∈ l ∧ names bytes (classifierOffset c) 8 = true then s.readClassifier c else s.classifierEntry c := by
  induction l generalizing s with
  | nil => rfl
  | cons n rest ih =>
    have hread (f : Held → Held) : (s.onHeld f).readClassifier c = s.readClassifier c := rfl
    rw [State.applyClassifier, ih]
    by_cases hnamed : names bytes (classifierOffset n) 8 = true
    · rw [if_pos hnamed, hread]
      by_cases hc : c = n
      · simp [hc, hnamed, State.classifierEntry]
      · simp [hc, State.classifierEntry]
    · rw [if_neg hnamed]
      by_cases hc : c = n
      · simp [hc, hnamed]
      · simp [hc]

theorem State.applyClassifier_ci (s : State) (bytes : List (Nat × Byte)) (l : List Nat) :
    (s.applyClassifier bytes l).ci.image = s.ci.image ∧
      (s.applyClassifier bytes l).ci.held.profiles = s.ci.held.profiles := by
  induction l generalizing s with
  | nil => exact ⟨rfl, rfl⟩
  | cons n rest ih =>
    rw [State.applyClassifier, (ih _).1, (ih _).2]
    split <;> exact ⟨rfl, rfl⟩

/-- The fields of a classifier entry in the image (section 10.2). -/
theorem State.readClassifier_fields (s : State) (c : Nat) {b : Nat} (hb : b = classifierOffset c) :
    (s.readClassifier c).enabled = (s.imageByte (b + 7)).getLsbD 7 ∧
      (s.readClassifier c).portMask.toNat = s.imageField b 2 ∧
      (s.readClassifier c).tagValue.toNat = s.imageField (b + 2) 3 % 2 ^ 20 ∧
      (s.readClassifier c).tagMask.toNat = s.imageField (b + 4) 3 / 2 ^ 4 ∧
      (s.readClassifier c).profile = (s.imageByte (b + 7)).toNat % 16 := by
  subst hb
  generalize hb : classifierOffset c = b
  have hwordLt : s.imageField b 8 < 2 ^ 64 := s.imageField_lt b 8
  have hword : (BitVec.ofNat 64 (s.imageField b 8)).toNat = s.imageField b 8 := by
    rw [BitVec.toNat_ofNat, Nat.mod_eq_of_lt hwordLt]
  have hports : s.imageField b 8 = s.imageField b 2 + 256 ^ 2 * s.imageField (b + 2) 6 := s.imageField_add b 2 6
  have hvalue : s.imageField (b + 2) 6 = s.imageField (b + 2) 3 + 256 ^ 3 * s.imageField (b + 5) 3 :=
    s.imageField_add (b + 2) 3 3
  have hlow : s.imageField b 8 = s.imageField b 4 + 256 ^ 4 * s.imageField (b + 4) 4 := s.imageField_add b 4 4
  have hmask : s.imageField (b + 4) 4 = s.imageField (b + 4) 3 + 256 ^ 3 * s.imageField (b + 7) 1 :=
    s.imageField_add (b + 4) 3 1
  have hportsLt := s.imageField_lt b 2
  have hvalueLt := s.imageField_lt (b + 2) 3
  have hlowLt := s.imageField_lt b 4
  have hmaskLt := s.imageField_lt (b + 4) 3
  rw [State.imageField_one] at hmask
  have hbyteLt := (s.imageByte (b + 7)).isLt
  simp only [State.readClassifier, hb, BitVec.extractLsb'_toNat, hword, Nat.shiftRight_eq_div_pow]
  refine ⟨?_, by omega, by omega, by omega, by omega⟩
  rw [BitVec.getLsbD, BitVec.getLsbD, hword, Nat.testBit_eq_decide_div_mod_eq, Nat.testBit_eq_decide_div_mod_eq]
  exact decide_eq_decide.mpr (by omega)

/-- Bytes hold the classifier entries they name when the entries become what the application reads. -/
theorem HoldsClassifier.of_applyClassifier {bytes : List (Nat × Byte)} {s u v : State} (himage : u.ci.image = v.ci.image)
    (hheld : ∀ c, v.classifierEntry c = s.classifierEntry c)
    (hnew : ∀ c, u.classifierEntry c = (v.applyClassifier bytes (List.range 32)).classifierEntry c) :
    HoldsClassifier bytes s u := by
  rintro c b hc hb
  have hentry := v.classifierEntry_applyClassifier bytes (List.range 32) c
  rw [show classifierOffset c = b from hb.symm] at hentry
  rw [hnew, hentry]
  simp only [State.imageByte_congr himage, State.imageField_congr himage]
  refine ⟨fun hout => ?_, fun hin => ?_⟩
  · rw [if_neg (by simp [hout]), hheld]
  · rw [if_pos ⟨List.mem_range.mpr hc, hin⟩]
    exact v.readClassifier_fields c hb

end Sys2Proof.Machine
end

