-- ==== Sys2Proof/Proofs/ProfileApplication.lean ====
section
/-! PROOFS. The application of the profiles in turn: what each profile becomes, what every entry becomes, and the clamps
noted on the way. -/

namespace Sys2Proof.Machine

/-! ## The parts of the application of one profile -/

/-- Hold `g` as profile p. -/
def State.holdProfile (s : State) (p : Nat) (g : Profile) : State :=
  s.onHeld fun h => { h with profiles := h.profiles.set initialProfile p g }

/-- The events of a change of profile p from `old` to `new` (R76, R123). -/
def State.profileEvents (s : State) (p : Nat) (old new : Profile) : State :=
  let t := if old.Moves new then s.profileChange p old new else s
  if old.period ≠ new.period then t.periodChange p old { new with tolerance := old.tolerance } else t

/-- Apply profile p if any of its bytes is named. -/
def State.applyNamedProfile (s : State) (bytes : List (Nat × Byte)) (p : Nat) : State :=
  if names bytes (profileOffset p) 20 then s.applyProfile bytes p else s

section
variable (s : State)

theorem State.applyProfile_eq (bytes : List (Nat × Byte)) (p : Nat) :
    s.applyProfile bytes p =
      ((s.noteProfile bytes p (s.newProfile bytes p)).holdProfile p (s.newProfile bytes p)).profileEvents p
        (s.profile p) (s.newProfile bytes p) := rfl

theorem State.applyProfiles_cons (bytes : List (Nat × Byte)) (p : Nat) (l : List Nat) :
    s.applyProfiles bytes (p :: l) = (s.applyNamedProfile bytes p).applyProfiles bytes l := rfl

/-- What an entry fault and the writes of the two changes keep, the events keep. -/
theorem State.profileEvents_keep {β : Type} (k : State → β) (hchecked : ∀ t i, k (State.checked t i) = k t)
    (hflow : ∀ t i e, k (State.setFlow t i e) = k t) (hleave : ∀ t i, k (State.leaveDue t i) = k t)
    (hdue : ∀ t i d, k (State.setDue t i d) = k t) (p : Nat) (old new : Profile) :
    k (s.profileEvents p old new) = k s := by
  have hprofile (t : State) : k (t.profileChange p old new) = k t := by
    refine t.overFlows_keep k _ _ hchecked fun t i => ?_
    split
    · exact hflow _ _ _
    · rfl
  have hperiod (t : State) (g : Profile) : k (t.periodChange p old g) = k t := by
    refine t.overFlows_keep k _ _ hchecked fun t i => ?_
    unfold State.periodChangeEntry
    split
    · split
      · split
        · exact (hflow _ _ _).trans (hleave _ _)
        · split
          · exact hdue _ _ _
          · rfl
      · rfl
    · rfl
  unfold State.profileEvents
  dsimp only
  split
  · rw [hperiod]
    split
    · exact hprofile s
    · rfl
  · split
    · exact hprofile s
    · rfl

@[simp] theorem State.profileEvents_ci (p : Nat) (old new : Profile) : (s.profileEvents p old new).ci = s.ci :=
  s.profileEvents_keep State.ci (fun t i => by simp) (fun t i e => rfl) (fun t i => rfl) (fun t i d => by simp) p old new

@[simp] theorem State.profileEvents_timeBase (p : Nat) (old new : Profile) :
    (s.profileEvents p old new).cm.timeBase = s.cm.timeBase :=
  s.profileEvents_keep (fun t => t.cm.timeBase) (fun t i => by simp) (fun t i e => rfl) (fun t i => rfl) (fun t i d => rfl)
    p old new

@[simp] theorem State.agg_profileEvents_clampedFields (p : Nat) (old new : Profile) :
    (s.profileEvents p old new).agg .clampedFields = s.agg .clampedFields := by
  refine s.profileEvents_keep (fun t => t.agg .clampedFields) (fun t i => ?_) (fun t i e => rfl) (fun t i => rfl)
    (fun t i d => rfl) p old new
  rcases t.checked_cases i with ⟨_, heq⟩ | ⟨_, heq⟩
  · rw [heq]
  · rw [heq, State.entryFault, State.agg_trigger, State.agg_count, if_neg (by decide)]; rfl

theorem State.noteProfile_cm (l : List (Nat × Byte)) (p : Nat) (g : Profile) : (s.noteProfile l p g).cm = s.cm := by
  unfold State.noteProfile
  dsimp only
  (repeat' split) <;> simp

/-- An entry and its due time after the events of a change of profile p. -/
theorem State.cellAt_profileEvents (p : Nat) (old new : Profile) {j : Nat} (hj : j < 1024) :
    (s.profileEvents p old new).cellAt j = appliedCell p old new s.now (s.cellAt j) := by
  have hprofile : (s.profileChange p old new).cellAt j = visitCell (reprofileCell p old new) (s.cellAt j) :=
    (changesCells_profileChange s.now p old new).cellAt_pass rfl hj
  have hnow : (s.profileChange p old new).now = s.now :=
    (changesCells_profileChange s.now p old new).timeBase_overFlows s s.flowIndexes
  have hperiod (t : State) (ht : t.now = s.now) (g : Profile) :
      (t.periodChange p old g).cellAt j = visitCell (periodCell p old g s.now) (t.cellAt j) :=
    (changesCells_periodChange s.now p old g).cellAt_pass ht hj
  unfold State.profileEvents appliedCell
  dsimp only
  split
  · split
    · rw [hperiod _ hnow, hprofile]
    · rw [hperiod s rfl]
  · split
    · exact hprofile
    · rfl

/-! ## Profiles -/

theorem State.image_of_tables {s t : State} (h : t.tables = s.tables) : t.ci.image = s.ci.image := (Prod.mk.inj h).1

theorem State.profile_of_tables {s t : State} (h : t.tables = s.tables) (p : Nat) : t.profile p = s.profile p := by
  have hprofiles : t.ci.held.profiles = s.ci.held.profiles := (Prod.mk.inj (Prod.mk.inj h).2).1
  rw [State.profile, State.profile, hprofiles]

theorem State.classifierEntry_of_tables {s t : State} (h : t.tables = s.tables) (c : Nat) :
    t.classifierEntry c = s.classifierEntry c := by
  have hclassifier : t.ci.held.classifier = s.ci.held.classifier :=
    (Prod.mk.inj (Prod.mk.inj (Prod.mk.inj h).2).2).1
  rw [State.classifierEntry, State.classifierEntry, hclassifier]

theorem State.pending_of_tables {s t : State} (h : t.tables = s.tables) : t.pending = s.pending :=
  (Prod.mk.inj (Prod.mk.inj (Prod.mk.inj h).2).2).2

theorem State.image_applyNamedProfile (bytes : List (Nat × Byte)) (p : Nat) :
    (s.applyNamedProfile bytes p).ci.image = s.ci.image := by
  unfold State.applyNamedProfile
  split
  · rw [State.applyProfile_eq, State.profileEvents_ci]
    exact State.image_of_tables (t := s.noteProfile bytes p (s.newProfile bytes p)) (s.tables_noteProfile bytes p _)
  · rfl

theorem State.classifierEntry_applyNamedProfile (bytes : List (Nat × Byte)) (p c : Nat) :
    (s.applyNamedProfile bytes p).classifierEntry c = s.classifierEntry c := by
  unfold State.applyNamedProfile
  split
  · rw [State.applyProfile_eq, State.classifierEntry, State.profileEvents_ci]
    exact State.classifierEntry_of_tables (s.tables_noteProfile bytes p _) c
  · rfl

theorem State.now_applyNamedProfile (bytes : List (Nat × Byte)) (p : Nat) :
    (s.applyNamedProfile bytes p).now = s.now := by
  unfold State.applyNamedProfile
  split
  · rw [State.applyProfile_eq, State.now, State.profileEvents_timeBase, State.holdProfile, State.onHeld_cm,
      State.noteProfile_cm, State.now]
  · rfl

/-- The profile applied is held anew, every other one stands. -/
theorem State.profile_applyNamedProfile (bytes : List (Nat × Byte)) (p q : Nat) :
    (s.applyNamedProfile bytes p).profile q = if q = p then s.newProfile bytes p else s.profile q := by
  unfold State.applyNamedProfile
  split
  · have hnoted := State.profile_of_tables (s.tables_noteProfile bytes p (s.newProfile bytes p)) q
    rw [State.applyProfile_eq, State.profile, State.profileEvents_ci]
    simp only [State.holdProfile, State.onHeld_ci, Store.get_set]
    rw [← hnoted]
    rfl
  · next hout =>
    rw [s.newProfile_of_unnamed (Bool.eq_false_iff.mpr hout)]
    split
    · next hq => rw [hq]
    · rfl

/-- An entry and its due time after the application of profile p. -/
theorem State.cellAt_applyNamedProfile (bytes : List (Nat × Byte)) (p : Nat) {j : Nat} (hj : j < 1024) :
    (s.applyNamedProfile bytes p).cellAt j =
      appliedCell p (s.profile p) (s.newProfile bytes p) s.now (s.cellAt j) := by
  unfold State.applyNamedProfile
  split
  · let t := (s.noteProfile bytes p (s.newProfile bytes p)).holdProfile p (s.newProfile bytes p)
    have hft : t.ft = s.ft := s.noteProfile_ft bytes p _
    have hcm : t.cm = s.cm := s.noteProfile_cm bytes p _
    have hcell : t.cellAt j = s.cellAt j := by
      simp only [State.cellAt, State.flow, State.dueOf, hft, hcm]
    have hnow : t.now = s.now := by rw [State.now, hcm, State.now]
    rw [State.applyProfile_eq, State.cellAt_profileEvents _ _ _ _ hj, hcell, hnow]
  · next hout => rw [s.newProfile_of_unnamed (Bool.eq_false_iff.mpr hout), appliedCell_self]

theorem State.newProfile_applyNamedProfile (bytes : List (Nat × Byte)) {p q : Nat} (hq : q ≠ p) :
    (s.applyNamedProfile bytes p).newProfile bytes q = s.newProfile bytes q :=
  State.newProfile_congr (s.image_applyNamedProfile bytes p) bytes
    (by rw [s.profile_applyNamedProfile, if_neg hq])

theorem State.image_applyProfiles (bytes : List (Nat × Byte)) (l : List Nat) :
    (s.applyProfiles bytes l).ci.image = s.ci.image := by
  induction l generalizing s with
  | nil => rfl
  | cons p rest ih => rw [State.applyProfiles_cons, ih, State.image_applyNamedProfile]

theorem State.classifierEntry_applyProfiles (bytes : List (Nat × Byte)) (l : List Nat) (c : Nat) :
    (s.applyProfiles bytes l).classifierEntry c = s.classifierEntry c := by
  induction l generalizing s with
  | nil => rfl
  | cons p rest ih => rw [State.applyProfiles_cons, ih, State.classifierEntry_applyNamedProfile]

/-- Every profile of the list is held anew, from the values before. -/
theorem State.profile_applyProfiles (bytes : List (Nat × Byte)) {l : List Nat} (hl : l.Nodup) (q : Nat) :
    (s.applyProfiles bytes l).profile q = if q ∈ l then s.newProfile bytes q else s.profile q := by
  induction l generalizing s with
  | nil => rfl
  | cons p rest ih =>
    rw [List.nodup_cons] at hl
    rw [State.applyProfiles_cons, ih _ hl.2, State.profile_applyNamedProfile]
    by_cases hq : q = p
    · subst hq; simp [hl.1]
    · rw [State.newProfile_applyNamedProfile s bytes hq]; simp [hq]

/-- An entry and its due time after the application of the profiles of the list. -/
theorem State.cellAt_applyProfiles (bytes : List (Nat × Byte)) {l : List Nat} (hl : l.Nodup) {j : Nat} (hj : j < 1024) :
    (s.applyProfiles bytes l).cellAt j = appliedCells s.profile (s.newProfile bytes) s.now l (s.cellAt j) := by
  induction l generalizing s with
  | nil => rfl
  | cons p rest ih =>
    rw [List.nodup_cons] at hl
    rw [State.applyProfiles_cons, ih _ hl.2, State.cellAt_applyNamedProfile s bytes p hj, State.now_applyNamedProfile,
      appliedCells, appliedCells, List.foldl_cons]
    refine List.foldl_ext _ _ _ fun x q hq => ?_
    have hqp : q ≠ p := fun h => hl.1 (h ▸ hq)
    rw [State.profile_applyNamedProfile, if_neg hqp, State.newProfile_applyNamedProfile s bytes hqp]

end

theorem repayedDue_self (h : Profile) (T : Time) (state : EntryState) (due : Option Time) :
    repayedDue h h T state due = due := by
  rw [repayedDue, if_neg fun hleaves => hleaves.2.1 hleaves.2.2, if_neg fun hjoins => hjoins.2.2 hjoins.2.1]

theorem movedEntry_self (h : Profile) (T : Time) (e : FlowEntry) : movedEntry h h T e = e := by
  simp [movedEntry, repayedDue_self]

section
variable {s u : State} {g : Nat → Profile} {j : Nat}

theorem State.flow_eq_of_cell {x : EntryCell} (h : u.cellAt j = x) : u.flow j = x.1 ∧ u.cm.due.find? j = x.2 :=
  ⟨congrArg Prod.fst h, congrArg Prod.snd h⟩

/-- A sound valid entry moves with the profile it names, one above the sixteen standing. -/
theorem appliedCells_range (hnew : ∀ p, u.profile p = if p < 16 then g p else s.profile p) {x : EntryCell}
    (hok : x.1.checkOk = true) (hvalid : x.1.valid = true) :
    appliedCells s.profile g s.now (List.range 16) x =
      (movedEntry (s.profile x.1.profile) (u.profile x.1.profile) s.now x.1,
        repayedDue (s.profile x.1.profile) (u.profile x.1.profile) s.now x.1.state x.2) := by
  rw [hnew]
  split
  · next hp => exact appliedCells_of_own _ _ _ List.nodup_range hok hvalid (List.mem_range.mpr hp)
  · next hp =>
    rw [appliedCells_of_other _ _ _ hok hvalid fun hmem => hp (List.mem_range.mp hmem), movedEntry_self,
      repayedDue_self]

/-- The application of the profiles reaches the entries (R76 to R79, R123). -/
theorem ProfileChangesReachEntries.of_cells
    (hcell : ∀ j < 1024, u.cellAt j = appliedCells s.profile g s.now (List.range 16) (s.cellAt j))
    (hnew : ∀ p, u.profile p = if p < 16 then g p else s.profile p) : ProfileChangesReachEntries s u := by
  refine ⟨?_, ?_⟩
  · rintro j e h g' new hj rfl hok rfl rfl rfl
    refine ⟨fun hvacant => ?_, fun hvalid => ?_⟩
    · exact State.flow_eq_of_cell ((hcell j hj).trans (appliedCells_of_vacant _ _ _ _ hok hvacant))
    · exact State.flow_eq_of_cell ((hcell j hj).trans (appliedCells_range hnew hok hvalid))
  · rintro changed rfl j hj hfail
    have hfault := (hcell j hj).trans (appliedCells_of_fail s.profile g s.now (List.range 16) hfail)
    refine ⟨?_, fun hstands => ?_⟩
    · rintro ⟨p, hp, hreads⟩
      rw [hnew, if_pos hp] at hreads
      rw [if_pos ⟨p, List.mem_range.mpr hp, hreads⟩] at hfault
      exact State.flow_eq_of_cell hfault
    · have hnone : ¬∃ p ∈ List.range 16, (s.profile p).Reads (g p) := by
        rintro ⟨p, hp, hreads⟩
        refine hstands p (List.mem_range.mp hp) ?_
        change (s.profile p).Reads (u.profile p)
        rwa [hnew, if_pos (List.mem_range.mp hp)]
      rw [if_neg hnone] at hfault
      exact State.flow_eq_of_cell hfault

end

end Sys2Proof.Machine
end

