-- ==== Sys2Proof/Proofs/ProfileWrites.lean ====
section
/-! PROOFS. The clamps noted by an application of profiles, and what a control write of profiles and classifier entries
holds. -/

namespace Sys2Proof.Machine

/-! ## Clamps (R164) -/

/-- From `s` to `u` the clamps of the list are noted, and the image and the time base stand. -/
structure ClampStep (s u : State) (clamps : List ClampRecord) : Prop where
  noted : ClampsNoted s u clamps
  image : u.ci.image = s.ci.image
  timeBase : u.cm.timeBase = s.cm.timeBase

theorem ClampsNoted.of_eq {s u : State} (hagg : u.agg .clampedFields = s.agg .clampedFields)
    (hlast : u.ci.lastClamp = s.ci.lastClamp) : ClampsNoted s u [] := ⟨hagg, hlast⟩

/-- Clamps noted in turn are noted together, the last of them last. -/
theorem ClampsNoted.trans {s t u : State} {l m : List ClampRecord} (hl : ClampsNoted s t l) (hm : ClampsNoted t u m) :
    ClampsNoted s u (l ++ m) := by
  obtain ⟨hcountl, hlastl⟩ := hl
  obtain ⟨hcountm, hlastm⟩ := hm
  refine ⟨?_, ?_⟩
  · rw [hcountm, hcountl, List.length_append]
    unfold counted
    (repeat' split) <;> omega
  · rw [hlastm, hlastl, List.getLast?_append]
    cases m.getLast? <;> rfl

theorem ClampStep.refl (s : State) : ClampStep s s [] := ⟨.of_eq rfl rfl, rfl, rfl⟩

theorem ClampStep.trans {s t u : State} {l m : List ClampRecord} (hl : ClampStep s t l) (hm : ClampStep t u m) :
    ClampStep s u (l ++ m) :=
  ⟨hl.noted.trans hm.noted, hm.image.trans hl.image, hm.timeBase.trans hl.timeBase⟩

/-- A step that leaves the clamps, the image and the time base may follow. -/
theorem ClampStep.then_leaves {s t u : State} {l : List ClampRecord} (hl : ClampStep s t l)
    (hagg : u.agg .clampedFields = t.agg .clampedFields) (hlast : u.ci.lastClamp = t.ci.lastClamp)
    (himage : u.ci.image = t.ci.image) (htime : u.cm.timeBase = t.cm.timeBase) : ClampStep s u l := by
  have hboth := hl.trans ⟨.of_eq hagg hlast, himage, htime⟩
  rwa [List.append_nil] at hboth

/-- Note the clamp of a field, if the field is considered. -/
def State.noteField (s : State) (considered : Bool) (o f n held : Nat) : State :=
  if considered then s.noteClamp o f (s.imageField o n) held else s

theorem State.noteProfile_eq (s : State) (bytes : List (Nat × Byte)) (p : Nat) (g : Profile) :
    s.noteProfile bytes p g =
      (((((s.noteField (names bytes (profileOffset p + 1) 1) (profileOffset p + 1) 4 1 g.width).noteField
        (names bytes (profileOffset p + 2) 1) (profileOffset p + 2) 5 1 g.window).noteField
        (names bytes (profileOffset p + 3) 1) (profileOffset p + 3) 7 1 g.staleLimit).noteField
        (names bytes (profileOffset p + 4) 2 || decide (g.jumpLimit ≠ (s.profile p).jumpLimit))
          (profileOffset p + 4) 6 2 g.jumpLimit).noteField
        (names bytes (profileOffset p + 6) 1) (profileOffset p + 6) 8 1 g.silenceLimit).noteField
        (names bytes (profileOffset p + 12) 4) (profileOffset p + 12) 9 4 g.budget := rfl

/-- A field's clamp follows the clamps before it. -/
theorem ClampStep.noteField {s t : State} {l : List ClampRecord} (h : ClampStep s t l) (considered : Bool)
    (o f n held : Nat) :
    ClampStep s (t.noteField considered o f n held)
      (l ++ clampOf considered o f (s.imageField o n) held s.cm.timeBase) := by
  refine h.trans ?_
  rw [← State.imageField_congr h.image, ← h.timeBase]
  unfold State.noteField clampOf State.noteClamp
  by_cases hconsidered : considered = true
  · by_cases hheld : t.imageField o n = held
    · rw [if_pos hconsidered, if_pos hheld, if_neg fun hclamps => hclamps.2 hheld]
      exact .refl t
    · rw [if_pos hconsidered, if_neg hheld, if_pos ⟨hconsidered, hheld⟩]
      have hcount : (t.count .clampedFields).agg .clampedFields = satAdd (t.agg .clampedFields) 1 := by
        rw [State.agg_count, if_pos rfl]
      exact ⟨⟨hcount, rfl⟩, rfl, rfl⟩
  · rw [if_neg hconsidered, if_neg fun hclamps => hconsidered hclamps.1]
    exact .refl t

/-- The clamps of a profile hang on the image after, the profile after and before, and the time base. -/
theorem profileClamps_congr {bytes : List (Nat × Byte)} {s t u v : State} {p : Nat} (himage : u.ci.image = v.ci.image)
    (hnew : u.profile p = v.profile p) (hold : s.profile p = t.profile p) (htime : s.cm.timeBase = t.cm.timeBase) :
    profileClamps bytes s u p = profileClamps bytes t v p := by
  unfold profileClamps
  dsimp only
  simp only [State.imageByte_congr himage, State.imageField_congr himage]
  rw [hnew, hold, htime]

/-- The note of a profile's clamps. -/
theorem ClampStep.noteProfile {t u : State} {bytes : List (Nat × Byte)} {p : Nat} {g : Profile}
    (himage : u.ci.image = t.ci.image) (hnew : u.profile p = g) :
    ClampStep t (t.noteProfile bytes p g) (profileClamps bytes t u p) := by
  subst hnew
  rw [State.noteProfile_eq]
  unfold profileClamps
  dsimp only
  simp only [State.imageByte_congr himage, State.imageField_congr himage, ← State.imageField_one]
  exact ((((((ClampStep.refl t).noteField _ _ _ _ _).noteField _ _ _ _ _).noteField _ _ _ _ _).noteField _ _ _ _
    _).noteField _ _ _ _ _).noteField _ _ _ _ _

/-- A profile of which no byte is named has no clamps. -/
theorem profileClamps_of_unnamed {bytes : List (Nat × Byte)} {t u : State} {p : Nat}
    (hout : names bytes (profileOffset p) 20 = false) (hstands : u.profile p = t.profile p) :
    profileClamps bytes t u p = [] := by
  have hb : 0x200 + 32 * p = profileOffset p := rfl
  have hfield (k n : Nat) (hk : k + n ≤ 20) : names bytes (profileOffset p + k) n = false :=
    names_of_within hout (Nat.le_add_right _ _) (by omega)
  unfold profileClamps
  simp [hb, hfield, hstands, clampOf]

/-- The application of profile p notes its clamps. -/
theorem ClampStep.applyNamedProfile {t u : State} {bytes : List (Nat × Byte)} {p : Nat}
    (himage : u.ci.image = t.ci.image) (hnew : u.profile p = t.newProfile bytes p) :
    ClampStep t (t.applyNamedProfile bytes p) (profileClamps bytes t u p) := by
  unfold State.applyNamedProfile
  split
  · rw [State.applyProfile_eq]
    obtain ⟨hnoted, himageNoted, htime⟩ := ClampStep.noteProfile himage hnew
    have hheld : ClampStep t ((t.noteProfile bytes p (t.newProfile bytes p)).holdProfile p (t.newProfile bytes p))
        (profileClamps bytes t u p) := ⟨hnoted, himageNoted, htime⟩
    exact hheld.then_leaves (State.agg_profileEvents_clampedFields _ _ _ _)
      (congrArg ControlInterface.lastClamp (State.profileEvents_ci _ _ _ _))
      (congrArg ControlInterface.image (State.profileEvents_ci _ _ _ _)) (State.profileEvents_timeBase _ _ _ _)
  · next hnamed =>
    have hout := Bool.eq_false_iff.mpr hnamed
    rw [profileClamps_of_unnamed hout (hnew.trans (t.newProfile_of_unnamed hout))]
    exact .refl t

/-- The application of the profiles of a list notes their clamps in order. -/
theorem ClampStep.applyProfiles {t u : State} {bytes : List (Nat × Byte)} (himage : u.ci.image = t.ci.image)
    {l : List Nat} (hl : l.Nodup) (hnew : ∀ p ∈ l, u.profile p = t.newProfile bytes p) :
    ClampStep t (t.applyProfiles bytes l) (l.flatMap (profileClamps bytes t u)) := by
  induction l generalizing t with
  | nil => exact .refl t
  | cons p rest ih =>
    rw [List.nodup_cons] at hl
    have hfirst := ClampStep.applyNamedProfile himage (hnew p List.mem_cons_self)
    have hother {q : Nat} (hq : q ∈ rest) : q ≠ p := fun h => hl.1 (h ▸ hq)
    have hrest := ih (t := t.applyNamedProfile bytes p) (himage.trans hfirst.image.symm) hl.2 fun q hq => by
      rw [State.newProfile_applyNamedProfile t bytes (hother hq)]
      exact hnew q (List.mem_cons_of_mem _ hq)
    have hsame : rest.flatMap (profileClamps bytes (t.applyNamedProfile bytes p) u) =
        rest.flatMap (profileClamps bytes t u) := by
      refine List.flatMap_congr fun q hq => ?_
      exact profileClamps_congr rfl rfl (by rw [State.profile_applyNamedProfile, if_neg (hother hq)]) hfirst.timeBase
    rw [hsame] at hrest
    rw [State.applyProfiles_cons, List.flatMap_cons]
    exact hfirst.trans hrest

/-! ## A control write of profiles and classifier entries -/

/-- A control write is handed out and applied, then its command word is considered. -/
theorem exec_controlWrite {s : State} {o : Observation} (hready : s.controlReady = some o) :
    exec .controlWrite s =
      .next (((s.afterSettings o).considerCommand o.body.named).settle (s.afterSettings o)) := by
  change s.controlCase (fun _ => true) = _
  rw [State.controlCase, hready]
  rfl

@[simp] theorem State.considerCommand_mem (s : State) (l : List (Nat × Byte)) : (s.considerCommand l).mem = s.mem := by
  unfold State.considerCommand
  split
  · exact s.mailbox_mem
  · rfl

/-- The state in which the profiles of an application are applied: the bytes merged, and the settings before them
applied. -/
def State.beforeProfiles (s : State) (bytes : List (Nat × Byte)) : State :=
  (((s.merge bytes).applyGlobals bytes).applyConsume bytes).applyRings bytes s.ci.image

section
variable (s : State) (bytes : List (Nat × Byte))

theorem State.applySettings_eq :
    s.applySettings bytes =
      (((s.beforeProfiles bytes).applyProfiles bytes (List.range 16)).applyClassifier bytes
        (List.range 32)).testThreshold s := rfl

/-- The settings before the profiles leave the merged image and the tables. -/
theorem State.tables_beforeProfiles : (s.beforeProfiles bytes).tables = (s.merge bytes).tables := by
  rw [State.beforeProfiles, State.tables_applyRings, State.tables_applyConsume, State.tables_applyGlobals]

/-- Bytes of the profile table alone name none of the settings before it. -/
theorem State.beforeProfiles_of_range (hrange : ∀ c ∈ bytes, 0x200 ≤ c.1 ∧ c.1 < 0x400) :
    s.beforeProfiles bytes = s.merge bytes := by
  have hout (o n : Nat) (h : o + n ≤ 0x200) : names bytes o n = false := names_of_outside hrange (.inl h)
  simp [State.beforeProfiles, State.applyGlobals, State.applyConsume, State.applyRings, hout]

/-- Bytes of the profile table alone name no classifier entry. -/
theorem State.applyClassifier_of_range (hrange : ∀ c ∈ bytes, 0x200 ≤ c.1 ∧ c.1 < 0x400) (l : List Nat) :
    s.applyClassifier bytes l = s := by
  induction l with
  | nil => rfl
  | cons n rest ih =>
    have hout : names bytes (classifierOffset n) 8 = false :=
      names_of_outside hrange (.inr (by unfold classifierOffset; omega))
    rw [State.applyClassifier, if_neg (by simp [hout])]
    exact ih

/-- The state that the settings and the command of an application leave. -/
def State.applied : State := (s.applySettings bytes).considerCommand bytes

theorem State.tables_applied :
    (s.applied bytes).tables =
      (((s.beforeProfiles bytes).applyProfiles bytes (List.range 16)).applyClassifier bytes (List.range 32)).tables := by
  rw [State.applied, State.tables_considerCommand, State.applySettings_eq, State.tables_testThreshold]

theorem State.image_applied : (s.applied bytes).ci.image = (s.beforeProfiles bytes).ci.image := by
  rw [State.image_of_tables (s.tables_applied bytes), (State.applyClassifier_ci _ _ _).1, State.image_applyProfiles]

theorem State.profile_beforeProfiles (p : Nat) : (s.beforeProfiles bytes).profile p = s.profile p :=
  State.profile_of_tables (s.tables_beforeProfiles bytes) p

/-- The sixteen profiles are held anew, from the values held before. -/
theorem State.profile_applied (p : Nat) :
    (s.applied bytes).profile p = if p < 16 then (s.beforeProfiles bytes).newProfile bytes p else s.profile p := by
  have hclassifier (t : State) (l : List Nat) : (t.applyClassifier bytes l).profile p = t.profile p := by
    rw [State.profile, (State.applyClassifier_ci t bytes l).2, State.profile]
  rw [State.profile_of_tables (s.tables_applied bytes), hclassifier, State.profile_applyProfiles _ _ List.nodup_range,
    State.profile_beforeProfiles]
  simp only [List.mem_range]

theorem State.holdsProfileFields_applied : HoldsProfileFields bytes s (s.applied bytes) :=
  .of_newProfile (s.image_applied bytes) (s.profile_beforeProfiles bytes) fun p hp => by
    rw [State.profile_applied, if_pos hp]

theorem State.holdsClassifier_applied : HoldsClassifier bytes s (s.applied bytes) := by
  refine .of_applyClassifier (v := (s.beforeProfiles bytes).applyProfiles bytes (List.range 16)) ?_ (fun c => ?_)
    (State.classifierEntry_of_tables (s.tables_applied bytes))
  · rw [State.image_applied, State.image_applyProfiles]
  · rw [State.classifierEntry_applyProfiles]
    exact State.classifierEntry_of_tables (s.tables_beforeProfiles bytes) c

/-- Bytes of the profile table alone apply the profiles, and nothing else. -/
theorem State.applied_of_range (hrange : ∀ c ∈ bytes, 0x200 ≤ c.1 ∧ c.1 < 0x400) :
    s.applied bytes = ((s.merge bytes).applyProfiles bytes (List.range 16)).testThreshold s := by
  have hcommand : names bytes 0 8 = false := names_of_outside hrange (.inl (by decide))
  rw [State.applied, State.considerCommand, hcommand, if_neg Bool.false_ne_true, State.applySettings_eq,
    State.beforeProfiles_of_range s bytes hrange, State.applyClassifier_of_range _ bytes hrange]

theorem State.profileChangesReachEntries_applied (hrange : ∀ c ∈ bytes, 0x200 ≤ c.1 ∧ c.1 < 0x400) :
    ProfileChangesReachEntries s (s.applied bytes) := by
  refine .of_cells (g := (s.merge bytes).newProfile bytes) (fun j hj => ?_) fun p => ?_
  · have hthreshold (t : State) : (t.testThreshold s).cellAt j = t.cellAt j := by
      simp only [State.cellAt, State.flow, State.dueOf, State.testThreshold_ft, State.testThreshold_cm]
    rw [State.applied_of_range s bytes hrange, hthreshold]
    exact (s.merge bytes).cellAt_applyProfiles bytes List.nodup_range hj
  · rw [State.profile_applied, State.beforeProfiles_of_range s bytes hrange]

theorem State.clampsNoted_applied (hrange : ∀ c ∈ bytes, 0x200 ≤ c.1 ∧ c.1 < 0x400) :
    ClampsNoted s (s.applied bytes) ((List.range 16).flatMap (profileClamps bytes s (s.applied bytes))) := by
  have hbefore := s.beforeProfiles_of_range bytes hrange
  have himage : (s.applied bytes).ci.image = (s.merge bytes).ci.image := by rw [State.image_applied, hbefore]
  have hsteps := ClampStep.applyProfiles (t := s.merge bytes) (bytes := bytes) himage List.nodup_range (l := List.range 16)
    fun p hp => by rw [State.profile_applied, if_pos (List.mem_range.mp hp), hbefore]
  obtain ⟨hcount, hlast⟩ := hsteps.noted
  have heq := s.applied_of_range bytes hrange
  refine ⟨?_, ?_⟩
  · rw [heq, State.agg, State.testThreshold_tau, ← heq]; exact hcount
  · rw [heq, State.testThreshold_ci, ← heq]; exact hlast

theorem State.holdsProfiles_applied : HoldsProfiles bytes s (s.applied bytes) :=
  ⟨s.holdsProfileFields_applied bytes, s.holdsClassifier_applied bytes, fun hrange =>
    ⟨s.profileChangesReachEntries_applied bytes hrange, s.clampsNoted_applied bytes hrange⟩⟩

end

/-- Settles O41: the profiles are applied in turn, each from the values held before and with the same image, and each
change visits every entry; the bytes' other settings and the command leave the tables. -/
theorem profileWritesHoldWhatTheyName : Obligations.ProfileWritesHoldWhatTheyName := by
  intro s o hready
  refine ⟨_, exec_controlWrite hready, ?_, ?_, s.popHead.holdsProfiles_applied o.body.named⟩
  · rw [State.considerCommand_mem]
    exact State.applySettings_mem _ _
  · rw [State.pending_of_tables (State.tables_considerCommand _ _)]
    exact State.applySettings_pending _ _

end Sys2Proof.Machine
end

