-- ==== Sys2Proof/Proofs/Sequences.lean ====
section
/-! PROOFS. Sequence evaluation: the signed difference, the classes of an arrival, the shift of the window, and what an
arrival does to the fields and tallies of its entry. -/

namespace Sys2Proof.Machine

/-! ## The signed difference (R60) -/

/-- The sequence s as it stands ahead of t, modulo 2^w. -/
theorem signedDiff_eq (w s t : Nat) :
    ∃ x q : Nat, x < 2 ^ w ∧ s + (2 ^ w - t % 2 ^ w) = 2 ^ w * q + x ∧
      signedDiff w s t = if x < 2 ^ (w - 1) then (x : Int) else (x : Int) - (2 ^ w : Nat) :=
  ⟨(s + (2 ^ w - t % 2 ^ w)) % 2 ^ w, (s + (2 ^ w - t % 2 ^ w)) / 2 ^ w, Nat.mod_lt _ (Nat.two_pow_pos w),
    (Nat.div_add_mod _ _).symm, rfl⟩

/-- The signed difference is s − T up to a multiple of 2^w. -/
theorem signedDiff_congruent (w s t : Nat) : ∃ q : Int, (s : Int) - (t : Int) = signedDiff w s t + q * 2 ^ w := by
  obtain ⟨x, q, -, hx, hdiff⟩ := signedDiff_eq w s t
  have ht : t % 2 ^ w + 2 ^ w * (t / 2 ^ w) = t := Nat.mod_add_div t (2 ^ w)
  have hle : t % 2 ^ w ≤ 2 ^ w := (Nat.mod_lt t (Nat.two_pow_pos w)).le
  have hahead : (s : Int) - t = x + (q - 1 - (t / 2 ^ w : Nat)) * 2 ^ w := by
    zify [hle] at hx ht
    push_cast
    linarith
  rw [hdiff, hahead]
  split
  · exact ⟨_, rfl⟩
  · exact ⟨q - (t / 2 ^ w : Nat), by push_cast; ring⟩

/-- Settles O25: the remainder modulo 2^w lies in its upper half exactly when 2^w is taken off. -/
theorem signedDifferenceIsCentred : Obligations.SignedDifferenceIsCentred := by
  intro w s t hw
  obtain ⟨x, q, hx, -, hdiff⟩ := signedDiff_eq w s t
  have hhalf : 2 ^ (w - 1) * 2 = 2 ^ w := Nat.two_pow_pred_mul_two hw
  have hhalf' : (2 ^ (w - 1) : Int) = (2 ^ (w - 1) : Nat) := by push_cast; rfl
  refine ⟨?_, ?_, signedDiff_congruent w s t⟩
  · rw [hdiff, hhalf']
    split <;> omega
  · rw [hdiff, hhalf']
    split <;> omega

/-! ## The classes of an arrival (R61, R66, R67) -/

section
variable {p : Profile} {e : FlowEntry} {s : Nat}

theorem arrivalClass_of_reanchor (h : e.reanchor = true) : arrivalClass p e s = .anchor := if_pos h

/-- The cases of R61 for an entry that is not to anchor. -/
theorem arrivalClass_of_anchored (h : e.reanchor = false) {d : Int} (hd : d = signedDiff p.width s e.nextSeq) :
    arrivalClass p e s =
      if d = 0 then .inOrder
      else if 0 < d then (if d ≤ p.jumpLimit then .ahead d.toNat else .jump)
      else if -(p.window : Int) ≤ d then
        classAtMark (-d - 1).toNat (e.window.getD (-d - 1).toNat .unawaited)
      else if p.staleLimit ≤ e.staleRun + 1 then .anchor
      else .staleBelow := by
  rw [arrivalClass, h, ← hd]
  rfl

/-- An arrival k + 1 sequences behind, inside the window, falls by the mark of position k (R66). -/
theorem arrivalClass_of_mark (h : e.reanchor = false) {k : Nat} (hd : -(k : Int) - 1 = signedDiff p.width s e.nextSeq)
    (hk : k < p.window) {m : Mark} (hm : e.window[k]? = some m) : arrivalClass p e s = classAtMark k m := by
  have hposition : (-(-(k : Int) - 1) - 1).toNat = k := by omega
  rw [arrivalClass_of_anchored h hd, if_neg (by omega), if_neg (by omega), if_pos (by omega), hposition,
    List.getD_eq_getElem?_getD, hm]
  rfl

/-- An arrival below the window anchors when the stale run reaches K, and is STALE until then (R67). -/
theorem arrivalClass_of_below (h : e.reanchor = false) {d : Int} (hd : d = signedDiff p.width s e.nextSeq)
    (hbelow : d < -(p.window : Int)) :
    arrivalClass p e s = if p.staleLimit ≤ e.staleRun + 1 then .anchor else .staleBelow := by
  rw [arrivalClass_of_anchored h hd, if_neg (by omega), if_neg (by omega), if_neg (by omega)]

end

/-- Settles O26: each condition picks its case of R61. -/
theorem arrivalFallsInItsClass : Obligations.ArrivalFallsInItsClass := by
  intro p e s d hd
  refine ⟨arrivalClass_of_reanchor, fun h hzero => ?_, fun h hpos hle => ?_, fun h hpos hgt => ?_,
    fun k h hk hwindow _ => ?_, fun h hbelow hrun => ?_, fun h hbelow hrun => ?_⟩
  · rw [arrivalClass_of_anchored h hd, if_pos hzero]
  · rw [arrivalClass_of_anchored h hd, if_neg (by omega), if_pos (by omega), if_pos hle]
  · rw [arrivalClass_of_anchored h hd, if_neg (by omega), if_pos (by omega), if_neg (by omega)]
  · have hat {m : Mark} := arrivalClass_of_mark (m := m) h (hk ▸ hd) hwindow
    exact ⟨hat, hat, hat⟩
  · rw [arrivalClass_of_below h hd hbelow, if_neg (by omega)]
  · rw [arrivalClass_of_below h hd hbelow, if_pos hrun]

/-! ## The shift (R70, R71, R72) -/

theorem length_shiftedWindow {size : Nat} (n : Nat) {window : List Mark} (h : window.length = size) :
    (shiftedWindow size n window).length = size := by
  simp only [shiftedWindow, List.length_take, List.length_append, List.length_cons, List.length_replicate, h]
  omega

/-- The marks after a shift by n, position by position (R70). -/
theorem getElem?_shiftedWindow {size n k : Nat} (window : List Mark) (hn : 1 ≤ n) (hk : k < size) :
    (shiftedWindow size n window)[k]? =
      if k = 0 then some .received else if k < n then some .missing else window[k - n]? := by
  rw [shiftedWindow, List.getElem?_take_of_lt hk]
  cases k with
  | zero => rfl
  | succ k =>
    rw [if_neg (Nat.succ_ne_zero k), List.cons_append, List.getElem?_cons_succ]
    split
    · rw [List.getElem?_append_left (by rw [List.length_replicate]; omega), List.getElem?_replicate,
        if_pos (by omega)]
    · rw [List.getElem?_append_right (by rw [List.length_replicate]; omega), List.length_replicate]
      congr 1
      omega

theorem shiftDrops_le (size n : Nat) (window : List Mark) : shiftDrops size n window ≤ n := by
  have hcount := List.count_le_length (a := Mark.missing) (l := (window.take size).drop (size - min n size))
  simp only [List.length_drop, List.length_take] at hcount
  unfold shiftDrops
  omega

/-- Settles O28: the marks by position, the drops by the length of what leaves. -/
theorem shiftMovesTheMarks : Obligations.ShiftMovesTheMarks := fun size n window hlength hn =>
  ⟨length_shiftedWindow n hlength, shiftDrops_le size n window, fun _ hk => getElem?_shiftedWindow window hn hk⟩

/-- The occurrences among the last m places, counted from the end. -/
theorem count_drop_length_sub {α : Type} [DecidableEq α] (a : α) (l : List α) {m : Nat}
    (hm : m ≤ l.length) :
    (l.drop (l.length - m)).count a =
      ((List.range m).filter fun k => decide (l[l.length - 1 - k]? = some a)).length := by
  induction m with
  | zero => simp
  | succ m ih =>
    have hlt : l.length - (m + 1) < l.length := by omega
    have hdrop : l.drop (l.length - (m + 1)) = l[l.length - (m + 1)] :: l.drop (l.length - m) := by
      rw [List.drop_eq_getElem_cons hlt, show l.length - (m + 1) + 1 = l.length - m by omega]
    have hlast : l[l.length - 1 - m]? = some l[l.length - (m + 1)] := by
      rw [show l.length - 1 - m = l.length - (m + 1) by omega, List.getElem?_eq_getElem hlt]
    rw [hdrop, List.count_cons, ih (by omega), List.range_succ, List.filter_append, List.length_append]
    simp [List.filter_cons, hlast, apply_ite List.length]

/-- A shift that confirms no drop leaves the tallies, and any other adds its drops to gap_drops (R71). -/
theorem FlowEntry.tallies_shift (e : FlowEntry) (p : Profile) (n : Nat) :
    (e.shift p n).tallies =
      if shiftDrops p.window n e.window = 0 then e.tallies
      else (e.bump .gapDrops (shiftDrops p.window n e.window)).tallies := by
  unfold FlowEntry.shift
  dsimp only
  split <;> rfl

theorem FlowEntry.tally_congr {e f : FlowEntry} (h : e.tallies = f.tallies) (t : Tally) : e.tally t = f.tally t := by
  rw [FlowEntry.tally, FlowEntry.tally, h]

/-- Settles O29: the places that leave, counted from the end, then the tally of a shift. -/
theorem shiftConfirmsItsDrops : Obligations.ShiftConfirmsItsDrops := by
  refine ⟨fun size n window hlength => ?_, fun e p n => ⟨fun h => ?_, fun h => ?_⟩⟩
  · subst hlength
    rw [shiftDrops, List.take_length, count_drop_length_sub _ _ (Nat.min_le_right _ _)]
    split <;> omega
  · rw [FlowEntry.tallies_shift, if_pos h]
  · have htallies := (e.tallies_shift p n).trans (if_neg h)
    rw [FlowEntry.tally_congr htallies, FlowEntry.tally_bump, if_pos rfl]
    rfl

/-! ## What an arrival does to its entry (R57, R62 to R68, R73, R93) -/

/-- A shift moves T and the window, ends the stale run, and marks the entry dirty where it confirms drops (R70, R71). -/
theorem FlowEntry.shift_eq (e : FlowEntry) (p : Profile) (n : Nat) :
    e.shift p n = { e with
      nextSeq := (e.nextSeq + n) % 2 ^ p.width, window := shiftedWindow p.window n e.window, staleRun := 0,
      dirty := e.dirty || decide (shiftDrops p.window n e.window ≠ 0), tallies := (e.shift p n).tallies } := by
  unfold FlowEntry.shift
  dsimp only
  split
  · next h => simp [h]
  · next h => simp [h, FlowEntry.mark, FlowEntry.bump]

/-- What an arrival makes of an entry hangs on the tallies in the tallies alone. -/
theorem FlowEntry.arrive_bump (e : FlowEntry) (p : Profile) (s : Nat) (c : ArrivalClass) (t : Tally) (n : Nat) :
    (e.bump t n).arrive p s c = { e.arrive p s c with tallies := ((e.bump t n).arrive p s c).tallies } := by
  cases c with
  | inOrder => simp only [FlowEntry.arrive]; rw [FlowEntry.shift_eq, (e.bump .inOrder 1).shift_eq]; rfl
  | ahead d => simp only [FlowEntry.arrive]; rw [FlowEntry.shift_eq, ((e.bump .ahead 1).mark).shift_eq]; rfl
  | anchor | jump | duplicate | filled | staleUnawaited | staleBelow => rfl

section
variable {p : Profile} {e : FlowEntry} {q : BitVec 16} {v : Bool}

theorem FlowEntry.evaluate_of_evaluated (h : (v && p.evaluates) = true) :
    e.evaluate p q v =
      ((e.bump .accepted 1).arrive p (arrivalSequence p q) (arrivalClass p e (arrivalSequence p q)),
        e.dropsOf p (arrivalClass p e (arrivalSequence p q))) := if_pos h

theorem FlowEntry.evaluate_of_unsequenced (h : (v && p.evaluates) = false) :
    e.evaluate p q v = ((e.bump .accepted 1).bump .unsequenced 1, 0) := if_neg (by simp [h])

end

/-! ## What an arrival counts (R57, R61, R69, R71) -/

/-- The class counter of a class (R62 to R68). -/
def ArrivalClass.counter : ArrivalClass → Tally
  | .anchor => .anchors
  | .jump => .anchors
  | .inOrder => .inOrder
  | .ahead _ => .ahead
  | .duplicate => .duplicates
  | .filled _ => .reorderedIn
  | .staleUnawaited => .stale
  | .staleBelow => .stale

/-- The class counters, with the counter of the arrivals that are not evaluated (R69). -/
def classCounters : List Tally :=
  [.anchors, .inOrder, .ahead, .reorderedIn, .duplicates, .stale, .unsequenced]

/-- The one class counter that an arrival counts (R57, R61). -/
def FlowEntry.counterOf (e : FlowEntry) (p : Profile) (q : BitVec 16) (v : Bool) : Tally :=
  if (v && p.evaluates) = false then .unsequenced else (arrivalClass p e (arrivalSequence p q)).counter

theorem ArrivalClass.counter_mem (c : ArrivalClass) : c.counter ∈ classCounters := by
  cases c <;> simp [ArrivalClass.counter, classCounters]

theorem FlowEntry.counterOf_mem (e : FlowEntry) (p : Profile) (q : BitVec 16) (v : Bool) :
    e.counterOf p q v ∈ classCounters := by
  unfold FlowEntry.counterOf
  split
  · decide
  · exact ArrivalClass.counter_mem _

theorem satAdd_one_of_lt {old : Nat} (h : old < 4294967295) : satAdd old 1 = old + 1 := Nat.min_eq_left h

theorem FlowEntry.tally_shift (e : FlowEntry) (p : Profile) (n : Nat) (t : Tally) :
    (e.shift p n).tally t =
      if t = .gapDrops then counted (e.tally t) (shiftDrops p.window n e.window) else e.tally t := by
  have htallies := e.tallies_shift p n
  unfold counted
  split at htallies
  · next h => rw [FlowEntry.tally_congr htallies, if_pos h, ite_self]
  · next h =>
    rw [FlowEntry.tally_congr htallies, FlowEntry.tally_bump, if_neg h]
    split
    · next ht => rw [ht]; rfl
    · rfl

/-- An arrival of a class counts its class counter and adds the drops it confirms to gap_drops. -/
theorem FlowEntry.tally_arrive (e : FlowEntry) (p : Profile) (s : Nat) (c : ArrivalClass) (t : Tally) :
    (e.arrive p s c).tally t =
      if t = c.counter then satAdd (e.tally t) 1
      else if t = .gapDrops then counted (e.tally t) (e.dropsOf p c) else e.tally t := by
  have hnone : (if t = .gapDrops then counted (e.tally t) 0 else e.tally t) = e.tally t := ite_self _
  have hbump : (e.bump c.counter 1).tally t = if t = c.counter then satAdd (e.tally t) 1 else e.tally t := by
    rw [FlowEntry.tally_bump]; split <;> simp [*]
  cases c with
  | inOrder =>
    refine (FlowEntry.tally_shift _ p 1 t).trans ?_
    by_cases ht : t = .inOrder
    · simp [ht, ArrivalClass.counter]
    · simp [ht, ArrivalClass.counter, FlowEntry.dropsOf]
  | ahead d =>
    refine (FlowEntry.tally_shift _ p (d + 1) t).trans ?_
    by_cases ht : t = .ahead
    · simp [ht, ArrivalClass.counter]
    · simp [ht, ArrivalClass.counter, FlowEntry.dropsOf]
  | anchor | jump | duplicate | filled | staleUnawaited | staleBelow =>
    rw [show e.dropsOf p _ = 0 from rfl, hnone]
    exact hbump

theorem FlowEntry.dropsOf_bump (e : FlowEntry) (p : Profile) (c : ArrivalClass) (t : Tally) (n : Nat) :
    (e.bump t n).dropsOf p c = e.dropsOf p c := by cases c <;> rfl

theorem ne_accepted_of_mem {t : Tally} (h : t ∈ classCounters) : t ≠ .accepted := by rintro rfl; revert h; decide

/-- All that an arrival counts: accepted, one class counter, and the drops it confirms. -/
theorem FlowEntry.tally_evaluate (e : FlowEntry) (p : Profile) (q : BitVec 16) (v : Bool) (t : Tally) :
    (e.evaluate p q v).1.tally t =
      if t = .accepted ∨ t = e.counterOf p q v then satAdd (e.tally t) 1
      else if t = .gapDrops then counted (e.tally t) (e.evaluate p q v).2 else e.tally t := by
  unfold FlowEntry.counterOf
  cases hv : (v && p.evaluates)
  · rw [FlowEntry.evaluate_of_unsequenced hv, if_pos rfl, FlowEntry.tally_bump, FlowEntry.tally_bump]
    by_cases hclass : t = .unsequenced
    · simp [hclass]
    · by_cases haccepted : t = .accepted <;> simp [haccepted, hclass, counted]
  · rw [FlowEntry.evaluate_of_evaluated hv, if_neg (by decide : ¬ true = false), FlowEntry.tally_arrive,
      FlowEntry.tally_bump, FlowEntry.dropsOf_bump]
    have hne := ne_accepted_of_mem (ArrivalClass.counter_mem (arrivalClass p e (arrivalSequence p q)))
    by_cases haccepted : t = .accepted
    · simp [haccepted, hne.symm]
    · simp [haccepted]

theorem FlowEntry.tally_evaluate_of_ne {e : FlowEntry} {p : Profile} {q : BitVec 16} {v : Bool} {t : Tally}
    (haccepted : t ≠ .accepted) (hdrops : t ≠ .gapDrops) :
    (e.evaluate p q v).1.tally t = if t = e.counterOf p q v then satAdd (e.tally t) 1 else e.tally t := by
  simp [FlowEntry.tally_evaluate, haccepted, hdrops]

/-! ## The statement (R57, R61 to R69, R71, R73, R93) -/

/-- A counter below its ceiling counts one exactly where it is the one to count. -/
theorem ite_satAdd_one {old : Nat} {c : Prop} [Decidable c] (h : c → old < 4294967295) :
    (if c then satAdd old 1 else old) = old + if c then 1 else 0 := by
  split
  · next hc => exact satAdd_one_of_lt (h hc)
  · rfl

/-- Settles O27: the fields class by class, and the tallies by what an arrival counts. -/
theorem eachClassMovesItsFields : Obligations.EachClassMovesItsFields := by
  refine ⟨fun p e s => ⟨?_, ⟨_, (e.bump .inOrder 1).shift_eq p 1⟩,
    fun d => ⟨_, ((e.bump .ahead 1).mark).shift_eq p (d + 1)⟩, ⟨_, rfl⟩, fun k => ⟨_, rfl⟩, ⟨_, rfl⟩, ⟨_, rfl⟩⟩, ?_, ?_⟩
  · simp only [List.forall_mem_cons, List.not_mem_nil, false_imp_iff, implies_true, and_true]
    exact ⟨⟨_, rfl⟩, ⟨_, rfl⟩⟩
  · intro p e q v s hs
    obtain rfl : s = arrivalSequence p q := hs
    refine ⟨fun hv => ?_, fun hv => ?_, ?_⟩
    · rw [FlowEntry.evaluate_of_evaluated hv]
      exact ⟨⟨_, e.arrive_bump _ _ _ _ _⟩, by cases arrivalClass p e (arrivalSequence p q) <;> rfl⟩
    · rw [FlowEntry.evaluate_of_unsequenced hv]
    · have hnot : e.counterOf p q v ≠ .gapDrops := fun h => absurd (h ▸ e.counterOf_mem p q v) (by decide)
      rw [FlowEntry.tally_evaluate, if_neg (by simp [hnot.symm]), if_pos rfl]
  · intro p e q v t haccepted hclasses
    refine ⟨?_, fun hv => ?_, fun ht => ?_⟩
    · rw [FlowEntry.tally_evaluate, if_pos (.inl rfl), satAdd_one_of_lt haccepted]
    · rw [FlowEntry.evaluate_of_unsequenced hv]
      exact ⟨_, rfl⟩
    · simp only [List.mem_cons, List.not_mem_nil, or_false, not_or] at ht
      rw [FlowEntry.tally_evaluate_of_ne ht.1 ht.2]
      exact ite_satAdd_one fun h => hclasses t (h ▸ e.counterOf_mem p q v)

end Sys2Proof.Machine
end

