-- ==== Sys2Proof/Proofs/EntryMoves.lean ====
section
/-! PROOFS. The ways a command moves a flow entry, as far as the counting of its arrivals goes: a relation of an entry to
what events make of it, and that every command relates every entry so. -/

namespace Sys2Proof.Machine

variable (s : State)

/-! ## Operations that leave the flow table -/

@[simp] theorem State.applyPinCount_ft : s.applyPinCount.ft = s.ft := by simp [State.applyPinCount]

@[simp] theorem State.applyAlarmOn_ft : s.applyAlarmOn.ft = s.ft := by simp [State.applyAlarmOn]

@[simp] theorem State.applyInterval_ft : s.applyInterval.ft = s.ft := by
  unfold State.applyInterval
  dsimp only
  split
  · rfl
  · split <;> simp

@[simp] theorem State.applyThreshold_ft : s.applyThreshold.ft = s.ft := by
  unfold State.applyThreshold
  dsimp only
  split <;> simp

@[simp] theorem State.consumeEffect_ft : s.consumeEffect.ft = s.ft := by
  unfold State.consumeEffect
  split <;> simp

@[simp] theorem State.applyConsume_ft (l : List (Nat × Byte)) : (s.applyConsume l).ft = s.ft := by
  unfold State.applyConsume
  dsimp only
  split
  · split
    · split <;> simp
    · simp
  · rfl

@[simp] theorem State.applyClassifier_ft (l : List (Nat × Byte)) (ns : List Nat) :
    (s.applyClassifier l ns).ft = s.ft := by
  induction ns generalizing s with
  | nil => rfl
  | cons n rest ih =>
    rw [State.applyClassifier, ih]
    split <;> simp

@[simp] theorem State.startWaiting_ft : s.startWaiting.ft = s.ft := by
  unfold State.startWaiting
  split <;> simp

@[simp] theorem State.coverageAtLoadEnd_ft : s.coverageAtLoadEnd.ft = s.ft := by
  unfold State.coverageAtLoadEnd
  split
  · simp
  · split
    · unfold State.useFree
      split <;> simp
    · simp

@[simp] theorem State.answerRestart_ft : s.answerRestart.ft = s.ft := by
  unfold State.answerRestart
  split <;> simp

@[simp] theorem State.answerReload_ft (o : ReloadOrigin) : (s.answerReload o).ft = s.ft := by
  unfold State.answerReload
  split <;> simp

/-- The end of a load leaves the flow table (R173, R174). -/
theorem State.endLoad_ft : s.endLoad.ft = s.ft := by
  unfold State.endLoad
  split
  · rfl
  · dsimp only
    split
    · simp [State.endInitial, State.startWriter]
    · simp [State.endReload]

theorem State.takeForwarded_ft (t : Transaction) : (s.takeForwarded t).ft = s.ft := by
  rw [State.takeForwarded_eq, State.observe_ft, State.linkTaken_ft]

theorem State.grant_ft : s.grant.ft = s.ft := by
  unfold State.grant
  split
  · rfl
  · rfl
  · split <;> rfl
  · rfl

/-- A job that goes on or ends takes a RETIRE record from the retire buffer at most (R48). -/
theorem State.advanceJob_flows : s.advanceJob.ft.flows = s.ft.flows := by
  unfold State.advanceJob
  split
  · rfl
  · next j _ =>
    split
    · cases j.kind <;> rfl
    · rfl

theorem State.completeRead_flows (r : ReturnRead) : (s.completeRead r).ft.flows = s.ft.flows := by
  unfold State.completeRead
  dsimp only
  split
  · rw [State.advanceJob_flows]; rfl
  · rfl

theorem State.completeWrite_flows (t : Transaction) (live : Bool) :
    (s.completeWrite t live).ft.flows = s.ft.flows := by
  unfold State.completeWrite
  dsimp only
  split
  · rw [State.advanceJob_flows]; rfl
  · rfl

/-! ## One entry (R69) -/

/-- What events make of a flow entry, as far as the counting of its arrivals goes (R69): they leave its tallies, count in
a tally that no arrival counts in, leave it without tallies, or evaluate an arrival. -/
inductive FlowEntry.Moves : FlowEntry → FlowEntry → Prop
  | kept {e f : FlowEntry} (hvalid : f.valid = e.valid) (htallies : f.tallies = e.tallies) : Moves e f
  | aside {e f : FlowEntry} (t : Tally) (n : Nat) (ht : t ∉ .accepted :: classCounters) (hvalid : f.valid = e.valid)
      (htallies : f.tallies = (e.bump t n).tallies) : Moves e f
  | zeroed {e f : FlowEntry} (htallies : f.tallies = ⟨[]⟩) : Moves e f
  | arrival (e : FlowEntry) (p : Profile) (q : BitVec 16) (v : Bool) : Moves e (e.evaluate p q v).1
  | trans {e f g : FlowEntry} (h : Moves e f) (h' : Moves f g) : Moves e g

theorem FlowEntry.Moves.refl (e : FlowEntry) : e.Moves e := .kept rfl rfl

/-! ## All entries -/

/-- Every entry of `u` is what events make of that entry of `s`. -/
structure FlowsMove (s u : State) : Prop where
  entry : ∀ i, (s.flow i).Moves (u.flow i)

theorem FlowsMove.refl (s : State) : FlowsMove s s := ⟨fun _ => .refl _⟩

theorem FlowsMove.trans {s t u : State} (h : FlowsMove s t) (h' : FlowsMove t u) : FlowsMove s u :=
  ⟨fun i => (h.entry i).trans (h'.entry i)⟩

theorem FlowsMove.of_flows {s u : State} (h : u.ft.flows = s.ft.flows) : FlowsMove s u :=
  ⟨fun i => by rw [State.flow, State.flow, h]; exact .refl _⟩

theorem FlowsMove.of_ft {s u : State} (h : u.ft = s.ft) : FlowsMove s u := .of_flows (congrArg FlowTable.flows h)

/-- A change that takes every entry away. -/
theorem FlowsMove.of_vacated {s u : State} (h : u.ft.flows = ⟨[]⟩) : FlowsMove s u :=
  ⟨fun i => .zeroed (by rw [State.flow, h]; rfl)⟩

theorem FlowsMove.setFlow {i : Nat} {e : FlowEntry} (h : (s.flow i).Moves e) : FlowsMove s (s.setFlow i e) := by
  refine ⟨fun j => ?_⟩
  rw [State.flow_setFlow]
  split
  · next hj => rw [hj]; exact h.trans (.kept rfl rfl)
  · exact .refl _

/-! ### Flow entries -/

theorem FlowsMove.setDue (i : Nat) (d : Time) : FlowsMove s (s.setDue i d) := by
  refine ⟨fun j => ?_⟩
  rw [State.flow_setDue]
  split
  · next hj => rw [hj]; exact .kept rfl rfl
  · exact .refl _

theorem FlowsMove.entryFault (i : Nat) : FlowsMove s (s.entryFault i) := by
  refine ⟨fun j => ?_⟩
  rw [State.flow_entryFault]
  split
  · exact .zeroed rfl
  · exact .refl _

theorem FlowsMove.checked (i : Nat) : FlowsMove s (s.checked i) := by
  rcases s.checked_cases i with ⟨_, heq⟩ | ⟨_, heq⟩
  · rw [heq]; exact .refl s
  · rw [heq]; exact .entryFault s i

theorem FlowsMove.checkedAll (l : List Nat) : FlowsMove s (s.checkedAll l) := by
  induction l generalizing s with
  | nil => exact .refl s
  | cons i rest ih => exact (FlowsMove.checked s i).trans (ih _)

/-- A pass over the entries moves them as its change of one entry does. -/
theorem FlowsMove.overFlows {f : State → Nat → State} (hf : ∀ t i, FlowsMove t (f t i)) (l : List Nat) :
    FlowsMove s (s.overFlows f l) := by
  induction l generalizing s with
  | nil => exact .refl s
  | cons i rest ih =>
    refine (FlowsMove.checked s i).trans (.trans ?_ (ih _))
    split
    · exact hf _ i
    · exact .refl _

theorem FlowsMove.clearFlow (a : Nat) : FlowsMove s (s.clearFlow a).1 := by
  unfold State.clearFlow
  split
  · dsimp only
    split
    · exact (FlowsMove.checked s a).trans (.setFlow _ (.zeroed rfl))
    · exact .checked s a
  · exact .refl s

theorem FlowsMove.evict (a : Nat) : FlowsMove s (s.evict a) :=
  (FlowsMove.setFlow s (i := a) (e := vacantEntry (s.flow a).generation) (.zeroed rfl)).trans (.of_ft rfl)

theorem FlowsMove.evictFlow (a : Nat) : FlowsMove s (s.evictFlow a).1 := by
  unfold State.evictFlow
  split
  · refine (FlowsMove.checked s a).trans ?_
    dsimp only
    split
    · exact .refl _
    · split
      · exact .evict _ a
      · split
        · exact .trans (t := (s.checked a).retireEntry a .commanded (s.checked a).now) (.of_flows rfl) (.evict _ a)
        · exact .refl _
  · exact .refl s

theorem FlowsMove.walkStep (i : Nat) : FlowsMove s (s.walkStep i) := by
  refine (FlowsMove.checked s i).trans ?_
  unfold State.walkStep
  dsimp only
  split
  · exact .setFlow _ (.zeroed rfl)
  · exact .refl _

/-! ### Arrivals and expiries -/

theorem FlowEntry.Moves.heard (e : FlowEntry) : e.Moves e.heard := by
  unfold FlowEntry.heard
  split
  · next hsilent => exact .kept (by simp [FlowEntry.valid, hsilent]) rfl
  · exact .refl e

theorem FlowsMove.trigger (k : AlarmKind) (v : Nat) : FlowsMove s (s.trigger k v) := .of_ft (by simp)

theorem FlowsMove.evaluateArrival (i : Nat) (q : BitVec 16) (v : Bool) : FlowsMove s (s.evaluateArrival i q v) := by
  refine (FlowsMove.setFlow s (.arrival (s.flow i) (s.profileOf (s.flow i)) q v)).trans ?_
  unfold State.evaluateArrival
  dsimp only
  split
  · exact .trigger _ _ _
  · exact .refl _

theorem FlowsMove.reArm (i : Nat) (d : Time) : FlowsMove s (s.reArm i d) := by
  have hheard : FlowsMove s (s.setFlow i (s.flow i).heard) := .setFlow s (.heard _)
  unfold State.reArm
  dsimp only
  split
  · exact hheard
  · refine hheard.trans (.trans (.setFlow _ ?_) (.setDue _ i _))
    rw [State.flow_setFlow, if_pos rfl]; exact .kept rfl rfl

theorem FlowsMove.silence (i : Nat) (hvalid : (s.flow i).valid = true) : FlowsMove s (s.silence i) := by
  refine ⟨fun j => ?_⟩
  rw [State.flow_silence]
  split
  · next hj => rw [hj]; exact .aside .silences 1 (by decide) hvalid.symm rfl
  · exact .refl _

/-- A counted expiry counts cadence_misses (R119). -/
theorem FlowEntry.Moves.missed (e : FlowEntry) :
    e.Moves { (e.bump .cadenceMisses 1).mark with misses := e.misses + 1 } := by
  cases e; exact .aside .cadenceMisses 1 (by decide) rfl rfl

theorem FlowsMove.countedExpiry (i : Nat) (d : Time) (hvalid : (s.flow i).valid = true) :
    FlowsMove s (s.countedExpiry i d) := by
  have hmissed := FlowsMove.setFlow s (.missed (s.flow i))
  unfold State.countedExpiry
  dsimp only
  split
  · refine hmissed.trans (.silence _ i ?_)
    rw [State.flow_setFlow, if_pos rfl]
    simp only [FlowEntry.valid, FlowEntry.mark_state, FlowEntry.bump_state]
    exact hvalid
  · exact hmissed.trans (.setDue _ i _)

theorem FlowsMove.takeExpiry (i : Nat) (d : Time) : FlowsMove s (s.takeExpiry i d) := by
  refine (FlowsMove.checked s i).trans ?_
  unfold State.takeExpiry
  dsimp only
  split
  · exact .of_ft rfl
  · next hvalid =>
    split
    · exact .countedExpiry _ i d (by simpa using hvalid)
    · exact .setDue _ i _

/-! ### Slots -/

/-- A verdict counts in a tally of its own, or in none (R98, R99, R101). -/
theorem FlowEntry.Moves.credit (e : FlowEntry) (r : Nat) (v : Verdict) : e.Moves (e.credit r v) := by
  cases e
  cases v with
  | overrun => exact .aside .overruns 1 (by decide) rfl rfl
  | discarded => exact .aside .discards 1 (by decide) rfl rfl
  | late x => exact .aside .lateResidence 1 (by decide) rfl rfl
  | unresolved => exact .aside .unresolved 1 (by decide) rfl rfl
  | onTime | unjudged => exact .kept rfl rfl

theorem FlowsMove.creditFlow (i r : Nat) (v : Verdict) : FlowsMove s (s.creditFlow i r v) := by
  have hcredit := FlowsMove.setFlow s (i := i) (.credit (s.flow i) r v)
  unfold State.creditFlow
  dsimp only
  split
  · exact hcredit.trans (.trigger _ _ _)
  · exact hcredit

theorem FlowsMove.credit (r : Nat) (f : FlowRef) (v : Verdict) : FlowsMove s (s.credit r f v) := by
  cases f with
  | unlisted p => exact .of_ft (State.creditUnlisted_ft s v)
  | listed i g =>
    refine (FlowsMove.checked s i).trans ?_
    unfold State.credit
    dsimp only
    split
    · exact .creditFlow _ i r v
    · exact .of_ft rfl

theorem FlowsMove.sent (r : Nat) (f : Frame) (d : Time) : FlowsMove s (s.sent r f d) := by
  unfold State.sent
  split
  · exact .credit s r _ _
  · split
    · exact .credit s r _ _
    · next i _ _ => exact (FlowsMove.checked s i).trans (.credit _ r _ _)

/-- A checked departure counts reordered_out at most (R92). -/
theorem FlowEntry.Moves.depart (e : FlowEntry) (p : Profile) (q : BitVec 16) : e.Moves (e.depart p q) := by
  unfold FlowEntry.depart
  dsimp only
  split
  · exact .kept rfl rfl
  · split
    · exact .kept rfl rfl
    · exact .aside .reorderedOut 1 (by decide) rfl rfl

theorem FlowsMove.departureCheck (r : Nat) (f : Frame) : FlowsMove s (s.departureCheck r f) := by
  unfold State.departureCheck
  split
  · next i g q _ _ _ =>
    split
    · refine (FlowsMove.checked s i).trans ?_
      dsimp only
      split
      · exact .setFlow _ (.depart _ _ _)
      · exact .refl _
    · exact .refl s
  · exact .refl s

theorem FlowsMove.setSlot (r i : Nat) (x : Slot) : FlowsMove s (s.setSlot r i x) := .of_ft rfl

theorem FlowsMove.displace (r i : Nat) : FlowsMove s (s.displace r i) := by
  unfold State.displace
  split
  · exact .refl s
  · unfold State.overrun
    split
    · exact .credit s r _ _
    · exact (FlowsMove.credit s r _ _).trans (.trigger _ _ _)
  · exact .credit s r _ _

theorem FlowsMove.dequeueSlot (r i : Nat) (d : Time) : FlowsMove s (s.dequeueSlot r i d) := by
  unfold State.dequeueSlot
  split
  · exact .of_ft rfl
  · exact (FlowsMove.setSlot s r i _).trans (.departureCheck _ r _)
  · exact .refl s

theorem FlowsMove.discardFrame (r i : Nat) (f : Frame) : FlowsMove s (s.discardFrame r i f) :=
  (FlowsMove.credit s r f.ref _).trans (.setSlot _ r i _)

theorem FlowsMove.completeSlot (r i : Nat) (c : BitVec 3) (d : Time) : FlowsMove s (s.completeSlot r i c d) := by
  unfold State.completeSlot
  split
  · exact .refl s
  · split
    · exact .of_ft rfl
    · split
      · exact ((FlowsMove.departureCheck s r _).trans (.sent _ r _ _)).trans (.setSlot _ r i _)
      · exact .discardFrame s r i _
    · split
      · exact (FlowsMove.sent s r _ _).trans (.setSlot _ r i _)
      · exact .discardFrame s r i _

theorem FlowsMove.resolveSlots (r : Nat) (l : List Nat) : FlowsMove s (s.resolveSlots r l) := by
  induction l generalizing s with
  | nil => exact .refl s
  | cons i rest ih =>
    refine .trans ?_ (ih (s.resolveSlot r i))
    unfold State.resolveSlot
    split
    · exact .refl s
    · exact (FlowsMove.credit s r _ _).trans (.setSlot _ r i _)
    · exact (FlowsMove.credit s r _ _).trans (.setSlot _ r i _)

/-! ### The report writer and the end of an event -/

theorem FlowsMove.drainPick (n : Nat) : FlowsMove s (s.drainPick n).1 := by
  induction n generalizing s with
  | zero => exact .refl s
  | succ n ih =>
    unfold State.drainPick
    split
    · exact .refl s
    · next i _ =>
      split
      · exact .refl s
      · exact (FlowsMove.entryFault s i).trans (ih _)

theorem FlowsMove.drainStep : FlowsMove s s.drainStep := by
  have hpick := FlowsMove.drainPick s (s.flowIndexes.length + 1)
  unfold State.drainStep
  split
  · exact .of_ft (by simp)
  · split
    · exact .of_ft (by simp)
    · split
      · next t heq => rw [heq] at hpick; exact hpick.trans (.of_ft (by simp))
      · next t i heq =>
        rw [heq] at hpick
        have hbuild : FlowsMove t (t.drainBuild i) :=
          (FlowsMove.setFlow t (i := i) (e := { t.flow i with dirty := false }) (.kept rfl rfl)).trans (.of_ft rfl)
        exact hpick.trans hbuild

theorem FlowsMove.drainRound : FlowsMove s (if s.rw.drain = .draining then s.drainStep.refreshAlert else s) := by
  split
  · exact (FlowsMove.drainStep s).trans (.of_ft (by simp))
  · exact .refl s

theorem FlowsMove.selectOnce : FlowsMove s s.selectOnce := by
  unfold State.selectOnce
  split
  · exact .of_ft rfl
  · split
    · exact .of_ft rfl
    · split
      · exact .of_ft (by simp)
      · split
        · split
          · exact .of_ft rfl
          · exact .drainRound s
        · exact .drainRound s

theorem FlowsMove.selectRounds (n : Nat) : FlowsMove s (s.selectRounds n) := by
  induction n generalizing s with
  | zero => exact .refl s
  | succ n ih =>
    unfold State.selectRounds
    split
    · exact .refl s
    · exact (FlowsMove.selectOnce s).trans (ih _)

theorem FlowsMove.settle (b : State) : FlowsMove s (s.settle b) := by
  have hbefore : FlowsMove s (s.returnToSighted.refreshAlert.testThreshold b) := .of_ft (by simp)
  exact hbefore.trans (.selectRounds _ 3)

/-! ### Settings -/

theorem FlowsMove.sweep : FlowsMove s s.sweep := by
  have hpass := FlowsMove.overFlows s (f := fun t i => t.setFlow i (t.flow i).swept)
    (fun t i => .setFlow t (.kept rfl rfl)) s.flowIndexes
  unfold State.sweep
  dsimp only
  split
  · exact hpass.trans (.of_ft (by rw [State.requestReload_ft]; rfl))
  · exact hpass.trans (.of_ft rfl)

theorem FlowsMove.applyMonitoring : FlowsMove s s.applyMonitoring := by
  unfold State.applyMonitoring
  dsimp only
  split
  · exact .refl s
  · refine .trans (FlowsMove.of_ft (u := s.onHeld fun h => { h with monitoring := s.imageBit 8 0 }) rfl) ?_
    unfold State.monitoringEffect
    split
    · split
      · split
        · exact (FlowsMove.sweep _).trans (.of_ft (by simp))
        · exact .refl _
      · split
        · exact .refl _
        · exact .of_ft (by simp)
    · exact .refl _

/-- A step of an application that runs only when a byte is named moves the entries as the step does. -/
theorem FlowsMove.ite (c : Bool) {u : State} (h : FlowsMove s u) : FlowsMove s (if c then u else s) := by
  cases c
  · exact .refl s
  · exact h

theorem FlowsMove.applyGlobals (l : List (Nat × Byte)) : FlowsMove s (s.applyGlobals l) := by
  unfold State.applyGlobals
  have hmonitoring (t : State) : FlowsMove t t.applyMonitoring.applyFreeze :=
    (FlowsMove.applyMonitoring t).trans (.of_ft rfl)
  exact ((((FlowsMove.ite s _ (hmonitoring s)).trans (.ite _ _ (.of_ft (by simp)))).trans
    (.ite _ _ (.of_ft (by simp)))).trans (.ite _ _ (.of_ft (by simp)))).trans (.ite _ _ (.of_ft (by simp)))

theorem FlowsMove.changeRings (r : Nat) (l : List RingGeometry) : FlowsMove s (s.changeRings r l) := by
  induction l generalizing s r with
  | nil => exact .refl s
  | cons g rest ih =>
    refine .trans ?_ (ih (s.changeRing r g) (r + 1))
    unfold State.changeRing
    dsimp only
    split
    · exact .refl s
    · split
      · exact (FlowsMove.resolveSlots s r _).trans (.of_ft rfl)
      · exact .of_ft rfl

theorem FlowsMove.applyRings (l : List (Nat × Byte)) (m : Store Byte) : FlowsMove s (s.applyRings l m) := by
  unfold State.applyRings
  split
  · exact .trans (.of_ft (State.noteRings_ft _ _ _ _ _)) (.changeRings _ _ _)
  · exact .refl s

theorem FlowsMove.profileChange (p : Nat) (old new : Profile) : FlowsMove s (s.profileChange p old new) := by
  refine .overFlows s (fun t i => ?_) _
  split
  · exact .setFlow t (.kept rfl rfl)
  · exact .refl t

theorem FlowsMove.periodChangeEntry (i : Nat) (old new : Profile) : FlowsMove s (s.periodChangeEntry i old new) := by
  unfold State.periodChangeEntry
  split
  · split
    · have hleave : FlowsMove s (s.leaveDue i) := .of_ft rfl
      exact hleave.trans (.setFlow _ (.kept rfl rfl))
    · split
      · exact .setDue s i _
      · exact .refl s
  · exact .refl s

theorem FlowsMove.periodChange (p : Nat) (old new : Profile) : FlowsMove s (s.periodChange p old new) := by
  refine .overFlows s (fun t i => ?_) _
  split
  · exact .periodChangeEntry t i old new
  · exact .refl t

theorem FlowsMove.applyProfile (l : List (Nat × Byte)) (p : Nat) : FlowsMove s (s.applyProfile l p) := by
  have hheld (g : Profile) :
      FlowsMove s ((s.noteProfile l p g).onHeld fun h => { h with profiles := h.profiles.set initialProfile p g }) :=
    .of_ft (s.noteProfile_ft l p g)
  unfold State.applyProfile
  dsimp only
  split
  · split
    · exact ((hheld _).trans (.profileChange _ _ _ _)).trans (.periodChange _ _ _ _)
    · exact (hheld _).trans (.periodChange _ _ _ _)
  · split
    · exact (hheld _).trans (.profileChange _ _ _ _)
    · exact hheld _

theorem FlowsMove.applyProfiles (l : List (Nat × Byte)) (ps : List Nat) : FlowsMove s (s.applyProfiles l ps) := by
  induction ps generalizing s with
  | nil => exact .refl s
  | cons p rest ih => exact (FlowsMove.ite s _ (.applyProfile s l p)).trans (ih _)

theorem FlowsMove.applySettings (l : List (Nat × Byte)) : FlowsMove s (s.applySettings l) := by
  have hmerge : FlowsMove s (s.merge l) := .of_ft rfl
  have happlied := (((hmerge.trans (.applyGlobals _ l)).trans (.of_ft (State.applyConsume_ft _ l))).trans
    (.applyRings _ l s.ci.image)).trans (.applyProfiles _ l (List.range 16))
  exact happlied.trans (.of_ft ((State.testThreshold_ft _ s).trans (State.applyClassifier_ft _ l _)))

/-! ### Commands -/

theorem FlowsMove.result (tag : BitVec 8) (c : ResultCode) : FlowsMove s (s.result tag c) := .of_ft rfl

theorem FlowsMove.act (tag : BitVec 8) (a : Nat) (k : MailboxCommand) : FlowsMove s (s.act tag a k) := by
  cases k with
  | clearFlow => exact (FlowsMove.clearFlow s a).trans (.result _ tag _)
  | evictFlow => exact (FlowsMove.evictFlow s a).trans (.result _ tag _)
  | interrogate =>
    change FlowsMove s (s.startInterrogate tag a)
    unfold State.startInterrogate
    split
    · exact (FlowsMove.checked s a).trans (.of_ft rfl)
    · exact .of_ft rfl
  | snapshot =>
    have hpass := FlowsMove.overFlows s (f := fun t i => t.setFlow i (t.flow i).mark)
      (fun t i => .setFlow t (.kept rfl rfl)) s.flowIndexes
    exact (hpass.trans (.of_ft (State.triggerDrain_ft _))).trans (.result _ tag .done)
  | restart => exact .of_vacated rfl
  | ping | clearAll | unknown => exact .of_ft rfl
  | alarmAck => exact .of_ft (by simp [State.act, State.acknowledge])
  | alarmHold => exact .of_ft (by simp [State.act, State.hold])
  | alarmRelease => exact .of_ft (by simp [State.act, State.release])
  | reloadConfig => exact .of_ft (by simp [State.act, State.startReload])

theorem FlowsMove.mailbox : FlowsMove s s.mailbox := by
  unfold State.mailbox
  dsimp only
  split
  · exact .refl s
  · split
    · have htag : FlowsMove s (s.takeTag s.commandTag) := .of_ft rfl
      exact htag.trans (.act _ _ _ _)
    · exact .of_ft rfl

theorem FlowsMove.popHead : FlowsMove s s.popHead := .of_flows rfl

theorem FlowsMove.handOutControl (o : Observation) : FlowsMove s (s.handOutControl o) := by
  let t := s.popHead.applySettings o.body.named
  have hcommand : FlowsMove t (t.considerCommand o.body.named) := .ite t _ (.mailbox t)
  exact ((FlowsMove.popHead s).trans (.applySettings _ _)).trans (hcommand.trans (.settle _ t))

theorem FlowsMove.considerLoadRead (r : LoadRead) : FlowsMove s (s.considerLoadRead r) := by
  have htag : FlowsMove s (s.takeTag s.commandTag) := .of_ft rfl
  exact .ite s _ (htag.trans (.of_ft (State.endLoad_ft _)))

theorem FlowsMove.applyLoadRead (r : LoadRead) : FlowsMove s (s.applyLoadRead r) := by
  let t := s.applySettings r.bytes
  exact (FlowsMove.applySettings s r.bytes).trans ((FlowsMove.considerLoadRead t r).trans (.settle _ t))

/-! ### The walk (R134) -/

theorem FlowsMove.advanceWalk (n : Nat) (tag : BitVec 8) : FlowsMove s (s.advanceWalk n tag) := by
  unfold State.advanceWalk
  split
  · exact (FlowsMove.walkStep s n).trans (.of_ft (State.onCi_ft _ _))
  · exact .of_ft (s.endWalk_ft tag)

/-! ### An ENQUEUE (R35, R38, R42) -/

theorem FlowsMove.fillWay (set way : Nat) (port : BitVec 4) (tag : BitVec 20) (p : Nat) :
    FlowsMove s (s.fillWay set way port tag p) := by
  refine ⟨fun j => ?_⟩
  rw [State.flow_fillWay]
  split
  · exact .zeroed rfl
  · exact .refl _

theorem FlowsMove.allocate (set : Nat) (port : BitVec 4) (tag : BitVec 20) (d : Time) :
    FlowsMove s (s.allocate set port tag d).1 := by
  unfold State.allocate
  dsimp only
  split
  · exact .of_ft rfl
  · split
    · next t hdispose =>
      have hdisposed : FlowsMove s t := .of_flows (by rw [State.dispose_frame hdispose])
      exact hdisposed.trans (.fillWay t _ _ _ _ _)
    · exact .of_ft (by simp)

theorem FlowsMove.lookup (port : BitVec 4) (tag : BitVec 20) (copy : BitVec 4) (d : Time) :
    FlowsMove s (s.lookup port tag copy d).1 := by
  refine (FlowsMove.checkedAll s (setWays (setIndex port tag))).trans ?_
  unfold State.lookup
  dsimp only
  generalize s.checkedAll (setWays (setIndex port tag)) = t
  split
  · split
    · exact .of_flows rfl
    · exact .refl _
  · split
    · exact .allocate _ _ _ _ _
    · exact .refl _

theorem FlowsMove.takeEnqueue (o : Observation) (r i : Nat) (port : BitVec 4) (tag : BitVec 20) (copy : BitVec 4)
    (q : BitVec 16) (v : Bool) : FlowsMove s (s.takeEnqueue o r i port tag copy q v) := by
  refine (FlowsMove.lookup s port tag copy o.stamp).trans ?_
  have hfill (t : State) (f : Frame) : FlowsMove t (t.fillSlot r i f) :=
    (FlowsMove.displace t r i).trans (.setSlot _ r i _)
  unfold State.takeEnqueue
  dsimp only
  split
  · exact ((FlowsMove.evaluateArrival _ _ q v).trans (.reArm _ _ o.stamp)).trans (hfill _ _)
  · exact hfill _ _
  · exact hfill _ _

/-! ## Every command -/

theorem Effect.flowsMove {s : State} {c : Instr} {u : State} (h : Effect s c u) : FlowsMove s u := by
  cases h with
  | idle => exact .refl s
  | assertReset => exact .of_vacated rfl
  | present | returnRead | takeInjectedRead | tick => exact .of_flows rfl
  | releaseReset straps =>
    have hreleased : FlowsMove s (s.releaseReset straps) := .of_flows rfl
    exact hreleased.trans (.settle _ s)
  | grant t =>
    have hpresent : FlowsMove s (s.present t) := .of_flows rfl
    exact hpresent.trans (.of_ft (State.grant_ft _))
  | takeForwarded t => exact (FlowsMove.of_ft (s.takeForwarded_ft t)).trans (.settle _ s)
  | completeWrite t live => exact (FlowsMove.of_flows (s.completeWrite_flows t live)).trans (.settle _ s)
  | completeRead r => exact (FlowsMove.of_flows (s.completeRead_flows r)).trans (.settle _ s)
  | expireTimer =>
    have htimer : FlowsMove s s.expireTimer := .of_ft (by simp)
    exact htimer.trans (.settle _ s)
  | takeEnqueue o r i port tag copy q v =>
    exact ((FlowsMove.popHead s).trans (.takeEnqueue _ o r i port tag copy q v)).trans (.settle _ s)
  | dequeueSlot o r i => exact ((FlowsMove.popHead s).trans (.dequeueSlot _ r i o.stamp)).trans (.settle _ s)
  | completeSlot o r i code =>
    exact ((FlowsMove.popHead s).trans (.completeSlot _ r i code o.stamp)).trans (.settle _ s)
  | discardHead => exact (FlowsMove.popHead s).trans (.settle _ s)
  | sweepHead =>
    have hswept (t : State) : FlowsMove t (t.onOq fun q => { q with headSwept := true }) := .of_flows rfl
    exact ((FlowsMove.sweep s).trans (hswept _)).trans (.settle _ s)
  | sweepEmpty => exact (FlowsMove.sweep s).trans (.settle _ s)
  | takeExpiry i due => exact (FlowsMove.takeExpiry s i due).trans (.settle _ s)
  | control c o => exact .handOutControl s o
  | advanceWalk n tag => exact (FlowsMove.advanceWalk s n tag).trans (.settle _ s)
  | applyLoadRead r =>
    have hnext : FlowsMove s (s.onCi fun c => { c with loadReads := c.loadReads.tail }) := .of_flows rfl
    exact hnext.trans (.applyLoadRead _ r)

end Sys2Proof.Machine
end

