-- ==== Sys2Proof/Proofs/SumRule.lean ====
section
/-! PROOFS. The sum rule of a flow entry, kept by every way a command moves it. -/

namespace Sys2Proof.Machine

theorem FlowEntry.sumRule_iff (e : FlowEntry) :
    e.SumRule ↔ ((∀ t ∈ .accepted :: classCounters, e.tally t < 4294967295) →
      e.tally .accepted = (classCounters.map e.tally).sum) := by
  simp only [FlowEntry.SumRule, classCounters, List.map_cons, List.map_nil, List.sum_cons, List.sum_nil, add_zero,
    add_assoc]

/-- The sum rule hangs on the counters of arrivals alone. -/
theorem FlowEntry.SumRule.congr {e f : FlowEntry} (he : e.SumRule)
    (h : ∀ t ∈ .accepted :: classCounters, f.tally t = e.tally t) : f.SumRule := by
  rw [FlowEntry.sumRule_iff] at he ⊢
  have hsum : classCounters.map f.tally = classCounters.map e.tally :=
    List.map_congr_left fun t ht => h t (List.mem_cons_of_mem _ ht)
  intro hlt
  rw [h _ List.mem_cons_self, hsum]
  exact he fun t ht => h t ht ▸ hlt t ht

theorem FlowEntry.sumRule_of_zeroed {e : FlowEntry} (h : e.tallies = ⟨[]⟩) : e.SumRule := by
  have hzero (t : Tally) : e.tally t = 0 := by rw [FlowEntry.tally, h]; rfl
  intro _
  simp [hzero]

theorem lt_of_satAdd_one_lt {old : Nat} (h : satAdd old 1 < 4294967295) : old < 4294967295 := by
  simp only [satAdd, Config.counterMax] at h; omega

/-- Each class counter stands once among the class counters. -/
theorem sum_map_classCounters_ite :
    ∀ u ∈ classCounters, (classCounters.map fun t => if t = u then 1 else 0).sum = 1 := by decide

/-- An arrival counts accepted and one class counter, so both sides of the sum rule grow by one (R57, R61, R69). -/
theorem FlowEntry.SumRule.evaluate {e : FlowEntry} (he : e.SumRule) (p : Profile) (q : BitVec 16) (v : Bool) :
    (e.evaluate p q v).1.SumRule := by
  rw [FlowEntry.sumRule_iff] at he ⊢
  intro hlt
  have haccepted : (e.evaluate p q v).1.tally .accepted = satAdd (e.tally .accepted) 1 := by
    rw [FlowEntry.tally_evaluate, if_pos (.inl rfl)]
  have hclass (t : Tally) (ht : t ∈ classCounters) :
      (e.evaluate p q v).1.tally t = if t = e.counterOf p q v then satAdd (e.tally t) 1 else e.tally t :=
    FlowEntry.tally_evaluate_of_ne (ne_accepted_of_mem ht) (ne_of_mem_of_not_mem ht (by decide))
  have hbelow : ∀ t ∈ .accepted :: classCounters, e.tally t < 4294967295 := by
    intro t ht
    have hnew := hlt t ht
    rcases List.mem_cons.1 ht with rfl | ht
    · exact lt_of_satAdd_one_lt (haccepted ▸ hnew)
    · rw [hclass t ht] at hnew
      split at hnew
      · exact lt_of_satAdd_one_lt hnew
      · exact hnew
  have hsum : classCounters.map (e.evaluate p q v).1.tally =
      classCounters.map fun t => e.tally t + if t = e.counterOf p q v then 1 else 0 :=
    List.map_congr_left fun t ht => (hclass t ht).trans
      (ite_satAdd_one fun _ => hbelow t (List.mem_cons_of_mem _ ht))
  rw [haccepted, satAdd_one_of_lt (hbelow _ List.mem_cons_self), hsum, List.sum_map_add,
    sum_map_classCounters_ite _ (e.counterOf_mem p q v), he hbelow]

/-- A move keeps the sum rule of a valid entry: only an arrival counts in it, and it counts on both sides. -/
theorem FlowEntry.Moves.sumRule {e f : FlowEntry} (h : e.Moves f) (he : e.valid = true → e.SumRule)
    (hvalid : f.valid = true) : f.SumRule := by
  induction h with
  | kept hsame htallies =>
    exact (he (hsame ▸ hvalid)).congr fun t _ => FlowEntry.tally_congr htallies t
  | @aside e f u n hu hsame htallies =>
    refine (he (hsame ▸ hvalid)).congr fun t ht => ?_
    rw [FlowEntry.tally_congr htallies, FlowEntry.tally_bump, if_neg (ne_of_mem_of_not_mem ht hu)]
  | zeroed htallies => exact FlowEntry.sumRule_of_zeroed htallies
  | arrival e p q v =>
    have hsame := (e.sameFlow_evaluate p q v).state
    rw [FlowEntry.valid, hsame] at hvalid
    exact (he hvalid).evaluate p q v
  | trans _ _ ih ih' => exact ih' (ih he) hvalid

/-- Settles O54: every command moves every entry, and every move of an entry keeps its sum rule. -/
theorem stepsKeepTheSumRule : Obligations.StepsKeepTheSumRule := by
  intro s u hs h i hvalid
  rcases step_effect h with rfl | ⟨c, rest, _, heffect⟩
  · exact hs i hvalid
  · exact (heffect.flowsMove.entry i).sumRule (hs i) hvalid

end Sys2Proof.Machine
end

