-- ==== Sys2Proof/Proofs/SlotFrames.lean ====
section
/-! PROOFS. Where frames stand: every operation but an ENQUEUE and a change of ring geometry keeps the rings and brings no
frame into an EMPTY slot, and these two leave frames in slots of enabled rings alone. -/

namespace Sys2Proof.Machine

/-! ## Changes that bring no frame (R86) -/

/-- `u` is `s` with the rings as they were, the slot table in its form, and no frame in a slot that was EMPTY. -/
structure FramesStand (s u : State) : Prop where
  rings : u.ci.held.rings = s.ci.held.rings
  wf : s.tt.wf .empty = true → u.tt.wf .empty = true
  empty : ∀ n, s.tt.get .empty n = .empty → u.tt.get .empty n = .empty

theorem FramesStand.refl (s : State) : FramesStand s s := ⟨rfl, id, fun _ => id⟩

theorem FramesStand.trans {s t u : State} (h : FramesStand s t) (h' : FramesStand t u) : FramesStand s u :=
  ⟨h'.rings.trans h.rings, h'.wf ∘ h.wf, fun n => h'.empty n ∘ h.empty n⟩

theorem FramesStand.ring {s u : State} (h : FramesStand s u) (r : Nat) : u.ring r = s.ring r := by
  rw [State.ring, h.rings, State.ring]

/-- Frames that stand in enabled rings do so after a change that brings none. -/
theorem FramesStand.occupiedSlotsEnabled {s u : State} (h : FramesStand s u) (hs : s.OccupiedSlotsEnabled) :
    u.OccupiedSlotsEnabled := by
  obtain ⟨hwf, hsize, hframe⟩ := hs
  refine ⟨h.wf hwf, fun r => by rw [h.ring]; exact hsize r, fun n hn => ?_⟩
  rw [h.ring]
  exact hframe n fun hempty => hn (h.empty n hempty)

/-- A change that leaves the slots and the rings. -/
theorem FramesStand.of_rings {s u : State} (htt : u.tt = s.tt) (hrings : u.ci.held.rings = s.ci.held.rings) :
    FramesStand s u := ⟨hrings, fun h => htt ▸ h, fun _ h => htt ▸ h⟩

/-- A change that leaves the slots and the control interface. -/
theorem FramesStand.of_ci {s u : State} (htt : u.tt = s.tt) (hci : u.ci = s.ci) : FramesStand s u :=
  .of_rings htt (by rw [hci])

/-- A change that leaves the rings and empties every slot. -/
theorem FramesStand.of_emptied {s u : State} (htt : u.tt = ⟨[]⟩) (hrings : u.ci.held.rings = s.ci.held.rings) :
    FramesStand s u := ⟨hrings, fun _ => htt ▸ rfl, fun _ _ => htt ▸ rfl⟩

variable (s : State)

/-- A slot may be emptied, or written where a frame already stands. -/
theorem FramesStand.setSlot {r i : Nat} {x : Slot} (h : x = .empty ∨ s.slot r i ≠ .empty) :
    FramesStand s (s.setSlot r i x) := by
  refine ⟨rfl, Store.wf_set _ _ _ _, fun n hn => ?_⟩
  change (s.tt.set .empty (slotNumber r i) x).get .empty n = .empty
  rw [Store.get_set]
  split
  · next heq =>
    subst heq
    rcases h with hx | hframe
    · exact hx
    · exact absurd hn hframe
  · exact hn

/-- A step that runs only under a condition. -/
theorem FramesStand.ite (c : Bool) {u : State} (h : FramesStand s u) : FramesStand s (if c then u else s) := by
  cases c
  · exact .refl s
  · exact h

/-! ### Slot events -/

theorem FramesStand.dequeueSlot (r i : Nat) (d : Time) : FramesStand s (s.dequeueSlot r i d) := by
  unfold State.dequeueSlot
  split
  · exact .of_ci rfl rfl
  · next f hf =>
    have hdeparts : FramesStand s (s.setSlot r i (.departing f d)) := .setSlot s (.inr (by rw [hf]; nofun))
    exact hdeparts.trans (.of_ci (by simp) (by simp))
  · exact .refl s

/-- A slot is emptied after changes that leave slots and rings. -/
theorem FramesStand.then_empty {u : State} (h : FramesStand s u) (r i : Nat) :
    FramesStand s (u.setSlot r i .empty) := h.trans (.setSlot u (.inl rfl))

theorem FramesStand.credit (r : Nat) (f : FlowRef) (v : Verdict) : FramesStand s (s.credit r f v) :=
  .of_ci (by simp) (by simp)

theorem FramesStand.completeSlot (r i : Nat) (c : BitVec 3) (d : Time) : FramesStand s (s.completeSlot r i c d) := by
  unfold State.completeSlot
  split
  · exact .refl s
  · split
    · exact .of_ci rfl rfl
    · split
      · exact .then_empty s (.of_ci (by simp) (by simp)) r i
      · exact .then_empty s (.credit s _ _ _) r i
    · split
      · exact .then_empty s (.of_ci (by simp) (by simp)) r i
      · exact .then_empty s (.credit s _ _ _) r i

theorem FramesStand.resolveSlot (r i : Nat) : FramesStand s (s.resolveSlot r i) := by
  unfold State.resolveSlot
  split
  · exact .refl s
  · exact .then_empty s (.credit s _ _ _) r i
  · exact .then_empty s (.credit s _ _ _) r i

theorem FramesStand.resolveSlots (r : Nat) (l : List Nat) : FramesStand s (s.resolveSlots r l) := by
  induction l generalizing s with
  | nil => exact .refl s
  | cons i rest ih => exact (FramesStand.resolveSlot s r i).trans (ih _)

/-! ### The end of an event, the link, and the walk -/

theorem FramesStand.settle (b : State) : FramesStand s (s.settle b) := by
  obtain ⟨-, -, -, hci, -⟩ := s.settle_keeps b
  exact .of_rings (by simp) (by rw [hci])

theorem FramesStand.grant : FramesStand s s.grant := by
  unfold State.grant
  split
  · exact .of_ci rfl rfl
  · exact .of_ci rfl rfl
  · split <;> exact .of_ci rfl rfl
  · exact .refl s

theorem FramesStand.takeForwarded (t : Transaction) : FramesStand s (s.takeForwarded t) := by
  have htaken : FramesStand s (s.linkTaken t) := .of_ci (by simp) (by simp)
  rw [State.takeForwarded_eq]
  exact htaken.trans (.of_ci (by simp) (by simp))

theorem FramesStand.advanceJob : FramesStand s s.advanceJob := by
  unfold State.advanceJob
  split
  · exact .refl s
  · next j _ =>
    split
    · cases j.kind <;> exact .of_rings rfl rfl
    · exact .of_ci rfl rfl

theorem FramesStand.completeRead (r : ReturnRead) : FramesStand s (s.completeRead r) := by
  unfold State.completeRead
  dsimp only
  split
  · have hreceived : FramesStand s ((s.onFp fun f => { f with ret := none }).receiveLoad r) := .of_rings rfl rfl
    exact hreceived.trans (.advanceJob _)
  · exact .of_ci rfl rfl

theorem FramesStand.completeWrite (t : Transaction) (live : Bool) : FramesStand s (s.completeWrite t live) := by
  have htaken : FramesStand s (s.takeRequest t) := .of_ci rfl rfl
  exact htaken.trans (.ite _ live (.advanceJob _))

theorem FramesStand.advanceWalk (n : Nat) (tag : BitVec 8) : FramesStand s (s.advanceWalk n tag) := by
  unfold State.advanceWalk
  split
  · have hstep : FramesStand s (s.walkStep n) := .of_ci (by simp) (by simp)
    exact hstep.trans (.of_rings rfl rfl)
  · have hcleared : FramesStand s ((s.onTau fun t => { t with agg := ⟨[]⟩ }).clearOccurrences AlarmKind.all) :=
      .of_ci (by simp) (by simp)
    have hdone (t : State) : FramesStand t (t.finishCommand tag .done) := .of_rings rfl rfl
    exact hcleared.trans (hdone _)

/-! ### Loads and sweeps -/

theorem FramesStand.requestReload (o : ReloadOrigin) : FramesStand s (s.requestReload o) := by
  unfold State.requestReload
  split <;> exact .of_rings rfl rfl

theorem FramesStand.startWaiting : FramesStand s s.startWaiting := by
  unfold State.startWaiting
  split
  · exact .refl s
  · next o _ =>
    have hclear : FramesStand s (s.onCi fun c => { c with reloadWaiting := none }) := .of_rings rfl rfl
    exact hclear.trans (.requestReload _ o)

theorem FramesStand.coverageAtLoadEnd : FramesStand s s.coverageAtLoadEnd := by
  have hfree (t : State) : FramesStand t t.useFree := by
    unfold State.useFree
    split <;> exact .of_ci rfl rfl
  unfold State.coverageAtLoadEnd
  split
  · exact .of_ci (by simp) (by simp)
  · split
    · exact .trans (t := s.goBlind s.blindCapture) (.of_ci (by simp) (by simp)) (hfree _)
    · exact .of_ci (by simp) (by simp)

theorem FramesStand.answerRestart : FramesStand s s.answerRestart := by
  unfold State.answerRestart
  split
  · exact .of_rings rfl rfl
  · exact .refl s

theorem FramesStand.answerReload (o : ReloadOrigin) : FramesStand s (s.answerReload o) := by
  unfold State.answerReload
  split
  · exact .of_rings rfl rfl
  · exact .refl s

theorem FramesStand.endLoad : FramesStand s s.endLoad := by
  unfold State.endLoad
  split
  · exact .refl s
  · dsimp only
    split
    · let t := (s.onCi fun c => { c with load := none }).onCi fun c => { c with part := .running }
      have hrun : FramesStand s t := .of_rings rfl rfl
      have hwriter : FramesStand t t.coverageAtLoadEnd.startWriter.requestStatus :=
        (FramesStand.coverageAtLoadEnd t).trans (.of_ci rfl rfl)
      exact (hrun.trans hwriter).trans ((FramesStand.answerRestart _).trans (.startWaiting _))
    · next o _ =>
      have hload : FramesStand s (s.onCi fun c => { c with load := none }) := .of_rings rfl rfl
      have hstatus (t : State) : FramesStand t t.requestStatus := .of_ci rfl rfl
      exact ((hload.trans (.answerReload _ o)).trans (hstatus _)).trans (.startWaiting _)

theorem FramesStand.considerLoadRead (r : LoadRead) : FramesStand s (s.considerLoadRead r) := by
  have htag : FramesStand s (s.takeTag s.commandTag) := .of_rings rfl rfl
  exact .ite s _ (htag.trans (.endLoad _))

/-- A sweep keeps the rings. -/
theorem State.sweep_rings : s.sweep.ci.held.rings = s.ci.held.rings := by
  rw [s.sweep_keep (fun t => t.ci.held.rings) fun t o => (FramesStand.requestReload t o).rings, State.sweepBlocks_ci]

/-- A sweep marks frames uncertain and brings none (R24). -/
theorem FramesStand.sweep (hwf : s.tt.wf .empty = true) : FramesStand s s.sweep := by
  have hblocks : s.sweepBlocks.tt = s.tt.update .empty fun _ x => x.doubted := by simp [State.sweepBlocks]
  refine ⟨s.sweep_rings, fun _ => ?_, fun n hn => ?_⟩
  · rw [s.sweep_keep State.tt fun t o => t.requestReload_tt o, hblocks]
    exact Store.wf_update _ _ _ hwf
  · rw [State.tt_sweep s hwf, hn]; rfl

/-! ### Settings other than the ring geometry -/

theorem FramesStand.noteClamp (o f w h : Nat) : FramesStand s (s.noteClamp o f w h) := by
  unfold State.noteClamp
  split
  · exact .refl s
  · exact .of_rings rfl rfl

theorem FramesStand.applyMonitoring (hwf : s.tt.wf .empty = true) : FramesStand s s.applyMonitoring := by
  unfold State.applyMonitoring
  dsimp only
  split
  · exact .refl s
  · refine .trans (FramesStand.of_rings (u := s.onHeld fun h => { h with monitoring := s.imageBit 8 0 }) rfl rfl) ?_
    unfold State.monitoringEffect
    split
    · split
      · split
        · exact (FramesStand.sweep (s.onHeld fun h => { h with monitoring := s.imageBit 8 0 }) hwf).trans
            (.of_ci (by simp) (by simp))
        · exact .refl _
      · split
        · exact .refl _
        · exact .of_ci (by simp) (by simp)
    · exact .refl _

theorem FramesStand.applyThreshold : FramesStand s s.applyThreshold := by
  let t := s.onHeld fun h => { h with dirtyThreshold := min (s.imageField 14 2) 1024 }
  have hheld : FramesStand s t := .of_rings rfl rfl
  have hnoted := hheld.trans (.noteClamp t 14 2 (s.imageField 14 2) (min (s.imageField 14 2) 1024))
  unfold State.applyThreshold
  dsimp only
  split
  · exact hnoted.trans (.of_ci (State.triggerDrain_tt _) (State.triggerDrain_ci _))
  · exact hnoted

theorem FramesStand.applyInterval : FramesStand s s.applyInterval := by
  unfold State.applyInterval
  dsimp only
  split
  · exact .refl s
  · refine .trans (FramesStand.of_rings (u := s.onHeld fun h => { h with interval := s.imageField 12 2 }) rfl rfl) ?_
    split
    · exact .of_ci (by simp) (by simp)
    · exact .refl _

/-- The globals behind monitoring enable and freeze. -/
def State.applyOtherGlobals (s : State) (bytes : List (Nat × Byte)) : State :=
  let s := if names bytes 9 1 then s.applyPinCount else s
  let s := if names bytes 10 1 then s.applyAlarmOn else s
  let s := if names bytes 12 2 then s.applyInterval else s
  if names bytes 14 2 then s.applyThreshold else s

theorem State.applyGlobals_eq (l : List (Nat × Byte)) :
    s.applyGlobals l = (if names l 8 1 then s.applyMonitoring.applyFreeze else s).applyOtherGlobals l := rfl

theorem FramesStand.applyOtherGlobals (l : List (Nat × Byte)) : FramesStand s (s.applyOtherGlobals l) := by
  have hpins (t : State) : FramesStand t t.applyPinCount := by
    let u := t.onHeld fun h => { h with pinCount := min (t.imageField 9 1) 3 }
    have hheld : FramesStand t u := .of_rings rfl rfl
    exact hheld.trans (.noteClamp u _ _ _ _)
  have halarm (t : State) : FramesStand t t.applyAlarmOn :=
    .of_rings (by simp [State.applyAlarmOn]) (by simp [State.applyAlarmOn])
  unfold State.applyOtherGlobals
  exact (((FramesStand.ite s _ (hpins s)).trans (.ite _ _ (halarm _))).trans (.ite _ _ (.applyInterval _))).trans
    (.ite _ _ (.applyThreshold _))

theorem FramesStand.applyGlobals (hwf : s.tt.wf .empty = true) (l : List (Nat × Byte)) :
    FramesStand s (s.applyGlobals l) := by
  have hmonitoring : FramesStand s s.applyMonitoring.applyFreeze :=
    (FramesStand.applyMonitoring s hwf).trans (.of_rings rfl rfl)
  rw [State.applyGlobals_eq]
  exact (FramesStand.ite s _ hmonitoring).trans (.applyOtherGlobals _ l)

theorem FramesStand.applyConsume (l : List (Nat × Byte)) : FramesStand s (s.applyConsume l) := by
  unfold State.applyConsume
  dsimp only
  split
  · split
    · split
      · exact .refl s
      · let t := s.onHeld fun h => { h with consume := s.imageField 0x80 2 }
        have hheld : FramesStand s t := .of_rings rfl rfl
        have heffect : FramesStand t t.consumeEffect := by
          unfold State.consumeEffect
          split
          · exact .of_ci (by simp) (by simp)
          · exact .refl t
        exact hheld.trans heffect
    · exact .noteClamp s _ _ _ _
  · exact .refl s

theorem FramesStand.noteRings (b : State) (l : List (Nat × Byte)) (r : Nat) (gs : List RingGeometry) :
    FramesStand s (s.noteRings b l r gs) := by
  induction gs generalizing s r with
  | nil => exact .refl s
  | cons g rest ih =>
    refine .trans ?_ (ih (s.noteRing l (b.ring r).enabled g r) (r + 1))
    unfold State.noteRing
    exact ((FramesStand.ite s _ (.noteClamp s _ _ _ _)).trans (.ite _ _ (.noteClamp _ _ _ _ _))).trans
      (.ite _ _ (.noteClamp _ _ _ _ _))

/-- The notes and the events of profiles leave the slots. -/
theorem State.noteProfile_tt (l : List (Nat × Byte)) (p : Nat) (g : Profile) : (s.noteProfile l p g).tt = s.tt := by
  unfold State.noteProfile
  dsimp only
  (repeat' split) <;> simp

theorem State.noteProfile_rings (l : List (Nat × Byte)) (p : Nat) (g : Profile) :
    (s.noteProfile l p g).ci.held.rings = s.ci.held.rings := by
  have hfield (t : State) (c : Bool) (o f n h : Nat) : FramesStand t (t.noteField c o f n h) :=
    .ite t c (.noteClamp t _ _ _ _)
  rw [State.noteProfile_eq]
  exact ((((((hfield s _ _ _ _ _).trans (hfield _ _ _ _ _ _)).trans (hfield _ _ _ _ _ _)).trans
    (hfield _ _ _ _ _ _)).trans (hfield _ _ _ _ _ _)).trans (hfield _ _ _ _ _ _)).rings

theorem State.applyProfile_tt (l : List (Nat × Byte)) (p : Nat) : (s.applyProfile l p).tt = s.tt := by
  unfold State.applyProfile
  dsimp only
  (repeat' split) <;> simp [State.noteProfile_tt]

theorem State.applyProfile_rings (l : List (Nat × Byte)) (p : Nat) :
    (s.applyProfile l p).ci.held.rings = s.ci.held.rings := by
  rw [State.applyProfile_eq, State.profileEvents_ci]
  exact s.noteProfile_rings l p _

theorem State.applyProfiles_tt (l : List (Nat × Byte)) (ps : List Nat) : (s.applyProfiles l ps).tt = s.tt := by
  induction ps generalizing s with
  | nil => rfl
  | cons p rest ih =>
    rw [State.applyProfiles, ih]
    split
    · exact s.applyProfile_tt l p
    · rfl

theorem State.applyProfiles_rings (l : List (Nat × Byte)) (ps : List Nat) :
    (s.applyProfiles l ps).ci.held.rings = s.ci.held.rings := by
  induction ps generalizing s with
  | nil => rfl
  | cons p rest ih =>
    rw [State.applyProfiles, ih]
    split
    · exact s.applyProfile_rings l p
    · rfl

theorem State.applyClassifier_tt (l : List (Nat × Byte)) (ns : List Nat) : (s.applyClassifier l ns).tt = s.tt := by
  induction ns generalizing s with
  | nil => rfl
  | cons n rest ih =>
    rw [State.applyClassifier, ih]
    split <;> rfl

theorem State.applyClassifier_rings (l : List (Nat × Byte)) (ns : List Nat) :
    (s.applyClassifier l ns).ci.held.rings = s.ci.held.rings := by
  induction ns generalizing s with
  | nil => rfl
  | cons n rest ih =>
    rw [State.applyClassifier, ih]
    split <;> rfl

/-- The settings behind the ring geometry leave the slots and the rings. -/
theorem FramesStand.afterRings (l : List (Nat × Byte)) (b : State) :
    FramesStand s (((s.applyProfiles l (List.range 16)).applyClassifier l (List.range 32)).testThreshold b) :=
  .of_rings (by simp [State.applyClassifier_tt, State.applyProfiles_tt])
    (by rw [State.testThreshold_ci, State.applyClassifier_rings, State.applyProfiles_rings])

/-! ### Commands -/

theorem FramesStand.act (tag : BitVec 8) (a : Nat) (k : MailboxCommand) : FramesStand s (s.act tag a k) := by
  cases k with
  | clearFlow => exact .of_rings (s.clearFlow_tt a) (congrArg (·.held.rings) (s.clearFlow_ci a))
  | evictFlow => exact .of_rings (s.evictFlow_tt a) (congrArg (·.held.rings) (s.evictFlow_ci a))
  | interrogate =>
    change FramesStand s (s.startInterrogate tag a)
    unfold State.startInterrogate
    split
    · exact .of_rings (s.checked_tt a) (congrArg (·.held.rings) (s.checked_ci a))
    · exact .of_rings rfl rfl
  | snapshot =>
    have hpass : FramesStand s (s.overFlows (fun t i => t.setFlow i (t.flow i).mark) s.flowIndexes) :=
      .of_ci (s.overFlows_keep State.tt _ _ (fun t i => by simp) fun t i => rfl)
        (s.overFlows_keep State.ci _ _ (fun t i => by simp) fun t i => rfl)
    exact hpass.trans (.of_rings (State.triggerDrain_tt _) (congrArg (·.held.rings) (State.triggerDrain_ci _)))
  | restart => exact .of_emptied rfl rfl
  | ping | clearAll | unknown => exact .of_rings rfl rfl
  | alarmAck | alarmHold | alarmRelease =>
    exact .of_rings (State.onMasked_tt _ _ _ _) (congrArg (·.held.rings) (State.onMasked_ci _ _ _ _))
  | reloadConfig =>
    have hflight : FramesStand s (s.onCi fun c => { c with inFlight := some (.reloadConfig, tag) }) := .of_rings rfl rfl
    exact hflight.trans (.requestReload _ _)

theorem FramesStand.considerCommand (l : List (Nat × Byte)) : FramesStand s (s.considerCommand l) := by
  have htag : FramesStand s (s.takeTag s.commandTag) := .of_rings rfl rfl
  refine .ite s _ ?_
  unfold State.mailbox
  dsimp only
  split
  · exact .refl s
  · split
    · exact htag.trans (.act _ _ _ _)
    · exact .of_rings rfl rfl

end Sys2Proof.Machine
end

