-- ==== Sys2Proof/Proofs/EnabledRings.lean ====
section
/-! PROOFS. Frames stand in enabled rings: a change of ring geometry empties the slots of a ring that was enabled, and an
ENQUEUE fills a slot that the decoder found in an enabled ring. -/

namespace Sys2Proof.Machine

/-! ## Changes of flows, due list and tallies -/

/-- `u` is `s` but for the flow table, the cadence monitor and the tally unit. -/
def FlowSide (s u : State) : Prop := u = { s with ft := u.ft, cm := u.cm, tau := u.tau }

theorem FlowSide.refl (s : State) : FlowSide s s := rfl

theorem FlowSide.trans {s t u : State} (h : FlowSide s t) (h' : FlowSide t u) : FlowSide s u := by
  unfold FlowSide at *
  rw [h', h]

theorem FlowSide.tt {s u : State} (h : FlowSide s u) : u.tt = s.tt := by rw [h]
theorem FlowSide.ci {s u : State} (h : FlowSide s u) : u.ci = s.ci := by rw [h]
theorem FlowSide.rw {s u : State} (h : FlowSide s u) : u.rw = s.rw := by rw [h]
theorem FlowSide.oq {s u : State} (h : FlowSide s u) : u.oq = s.oq := by rw [h]
theorem FlowSide.sameLink {s u : State} (h : FlowSide s u) : SameLink s u := by rw [h]; exact ⟨rfl, rfl, rfl⟩

theorem FlowSide.framesStand {s u : State} (h : FlowSide s u) : FramesStand s u := .of_ci h.tt h.ci

variable (s : State)

theorem FlowSide.of_tau {s u : State} (h : u = { s with tau := u.tau }) : FlowSide s u := by
  unfold FlowSide
  rw [h]

theorem FlowSide.trigger (k : AlarmKind) (v : Nat) : FlowSide s (s.trigger k v) := .of_tau (s.trigger_frame k v)

theorem FlowSide.entryFault (i : Nat) : FlowSide s (s.entryFault i) := by
  let t := ((s.leaveDue i).setFlow i (vacantEntry ((s.flow i).generation + 1))).count .entryFaults
  have hvacated : FlowSide s t := rfl
  exact hvacated.trans (.trigger t _ _)

theorem FlowSide.checked (i : Nat) : FlowSide s (s.checked i) := by
  rcases s.checked_cases i with ⟨_, heq⟩ | ⟨_, heq⟩ <;> rw [heq]
  · exact .refl s
  · exact .entryFault s i

theorem FlowSide.checkedAll (l : List Nat) : FlowSide s (s.checkedAll l) := by
  induction l generalizing s with
  | nil => exact .refl s
  | cons i rest ih => exact (FlowSide.checked s i).trans (ih _)

theorem FlowSide.allocate (set : Nat) (port : BitVec 4) (tag : BitVec 20) (d : Time) :
    FlowSide s (s.allocate set port tag d).1 := by
  unfold State.allocate
  dsimp only
  split
  · rfl
  · split
    · next t hdispose =>
      have hdisposed : FlowSide s t := by
        rw [State.dispose_frame hdispose]
        rfl
      exact hdisposed.trans rfl
    · have hfailed : FlowSide s (s.allocationFailure port tag) :=
        .trans (t := s.count .allocationFailures) rfl (.trigger _ _ _)
      exact hfailed.trans rfl

theorem FlowSide.lookup (port : BitVec 4) (tag : BitVec 20) (copy : BitVec 4) (d : Time) :
    FlowSide s (s.lookup port tag copy d).1 := by
  have hread := FlowSide.checkedAll s (setWays (setIndex port tag))
  unfold State.lookup
  dsimp only
  split
  · split
    · exact hread.trans rfl
    · exact hread
  · split
    · exact hread.trans (.allocate _ _ _ _ _)
    · exact hread

theorem FlowSide.arrival (i : Nat) (q : BitVec 16) (v : Bool) (d : Time) :
    FlowSide s ((s.evaluateArrival i q v).reArm i d) := by
  have hframe := s.arrival_frame i q v d
  unfold FlowSide
  generalize (s.evaluateArrival i q v).reArm i d = u at hframe ⊢
  rw [hframe]

/-- What an ENQUEUE leaves before its frame fills the slot: the lookup, and the arrival of a listed copy 0. -/
def State.listed (s : State) (o : Observation) (port : BitVec 4) (tag : BitVec 20) (copy : BitVec 4)
    (q : BitVec 16) (v : Bool) : State :=
  match (s.lookup port tag copy o.stamp).2 with
  | .arrival i => ((s.lookup port tag copy o.stamp).1.evaluateArrival i q v).reArm i o.stamp
  | .copy _ => (s.lookup port tag copy o.stamp).1
  | .unlisted _ => (s.lookup port tag copy o.stamp).1

theorem State.takeEnqueue_eq (o : Observation) (r i : Nat) (port : BitVec 4) (tag : BitVec 20) (copy : BitVec 4)
    (q : BitVec 16) (v : Bool) :
    s.takeEnqueue o r i port tag copy q v = (s.listed o port tag copy q v).fillSlot r i
      (newFrame ((s.listed o port tag copy q v).refOf (s.lookup port tag copy o.stamp).2) copy q v o.stamp) := by
  unfold State.takeEnqueue State.listed
  rfl

theorem FlowSide.listed (o : Observation) (port : BitVec 4) (tag : BitVec 20) (copy : BitVec 4) (q : BitVec 16)
    (v : Bool) : FlowSide s (s.listed o port tag copy q v) := by
  have hlookup := FlowSide.lookup s port tag copy o.stamp
  unfold State.listed
  split
  · exact hlookup.trans (.arrival _ _ q v o.stamp)
  · exact hlookup
  · exact hlookup

/-! ## The slots of a changed ring (R84) -/

/-- A resolved slot is EMPTY. -/
theorem State.slot_resolveSlot (r i : Nat) : (s.resolveSlot r i).slot r i = .empty := by
  unfold State.resolveSlot
  split
  · assumption
  · exact State.slot_setSlot_self _ _ _ _
  · exact State.slot_setSlot_self _ _ _ _

/-- Every slot of a list of resolved slots is EMPTY. -/
theorem State.slot_resolveSlots {r i : Nat} {l : List Nat} (hi : i ∈ l) : (s.resolveSlots r l).slot r i = .empty := by
  induction l generalizing s with
  | nil => cases hi
  | cons j rest ih =>
    rcases List.mem_cons.1 hi with rfl | hrest
    · exact (FramesStand.resolveSlots (s.resolveSlot r i) r rest).empty _ (s.slot_resolveSlot r i)
    · exact ih (s.resolveSlot r j) hrest

/-- Ring r holds a new geometry. -/
def State.holdRing (s : State) (r : Nat) (g : RingGeometry) : State :=
  s.onHeld fun h => { h with rings := h.rings.set initialRing r g }

theorem State.ring_holdRing (r q : Nat) (g : RingGeometry) :
    (s.holdRing r g).ring q = if q = r then g else s.ring q := by
  change (s.ci.held.rings.set initialRing r g).get initialRing q = _
  rw [Store.get_set]; rfl

/-- The frames of a ring about to change are resolved, if it is enabled (R84). -/
def State.vacateRing (s : State) (r : Nat) : State :=
  if (s.ring r).enabled then s.resolveSlots r (List.range (s.ring r).slots) else s

theorem State.changeRing_of_eq {r : Nat} {g : RingGeometry} (h : s.ring r = g) : s.changeRing r g = s := if_pos h

theorem State.changeRing_of_ne {r : Nat} {g : RingGeometry} (h : s.ring r ≠ g) :
    s.changeRing r g = (s.vacateRing r).holdRing r g := if_neg h

theorem FramesStand.vacateRing (r : Nat) : FramesStand s (s.vacateRing r) := .ite s _ (.resolveSlots s r _)

/-- The slots of a vacated ring that was enabled are EMPTY. -/
theorem State.slot_vacateRing {r i : Nat} (henabled : (s.ring r).enabled = true) (hi : i < (s.ring r).slots) :
    (s.vacateRing r).slot r i = .empty := by
  rw [State.vacateRing, if_pos henabled]
  exact s.slot_resolveSlots (List.mem_range.2 hi)

theorem State.ring_changeRing (r q : Nat) (g : RingGeometry) :
    (s.changeRing r g).ring q = if q = r then g else s.ring q := by
  by_cases h : s.ring r = g
  · rw [s.changeRing_of_eq h]
    split
    · next hq => rw [hq]; exact h
    · rfl
  · rw [s.changeRing_of_ne h, State.ring_holdRing, (FramesStand.vacateRing s r).ring]

/-! ## Frames stand in enabled rings -/

variable {s}

theorem State.OccupiedSlotsEnabled.changeRing (hs : s.OccupiedSlotsEnabled) (r : Nat) {g : RingGeometry}
    (hg : g.slots ≤ 256) : (s.changeRing r g).OccupiedSlotsEnabled := by
  by_cases h : s.ring r = g
  · rwa [s.changeRing_of_eq h]
  have hvacated := FramesStand.vacateRing s r
  obtain ⟨hwf, hsize, hframe⟩ := hvacated.occupiedSlotsEnabled hs
  have hgone (n : Nat) (hn : n / 256 = r) : (s.vacateRing r).tt.get .empty n = .empty := by
    by_contra hoccupied
    obtain ⟨henabled, hi⟩ := hframe n hoccupied
    rw [hn, hvacated.ring] at henabled hi
    have hslot : slotNumber r (n % 256) = n := by unfold slotNumber; omega
    have hempty := s.slot_vacateRing henabled hi
    rw [State.slot, hslot] at hempty
    exact hoccupied hempty
  rw [s.changeRing_of_ne h]
  refine ⟨hwf, fun q => ?_, fun n hn => ?_⟩
  · rw [State.ring_holdRing]
    split
    · exact hg
    · exact hsize q
  · rw [State.ring_holdRing, if_neg fun hring => hn (hgone n hring)]
    exact hframe n hn

theorem State.OccupiedSlotsEnabled.changeRings (hs : s.OccupiedSlotsEnabled) (r : Nat) {l : List RingGeometry}
    (hl : ∀ g ∈ l, g.slots ≤ 256) : (s.changeRings r l).OccupiedSlotsEnabled := by
  induction l generalizing s r with
  | nil => exact hs
  | cons g rest ih =>
    exact ih (hs.changeRing r (hl g List.mem_cons_self)) (r + 1) fun g' hg' => hl g' (List.mem_cons_of_mem _ hg')

/-- A legal slot count is 256 at most (R164). -/
theorem clampSlots_le (v : Nat) : clampSlots v ≤ 256 := by
  unfold clampSlots
  (repeat' split) <;> decide

theorem State.slots_evaluateRings (s : State) {lower : List RingGeometry} (hlower : ∀ g ∈ lower, g.slots ≤ 256)
    (l : List Nat) : ∀ g ∈ s.evaluateRings lower l, g.slots ≤ 256 := by
  induction l generalizing lower with
  | nil => exact hlower
  | cons r rest ih =>
    refine ih fun g hg => ?_
    rcases List.mem_append.1 hg with hlow | hnew
    · exact hlower g hlow
    · rw [List.mem_singleton.1 hnew]
      exact clampSlots_le _

theorem State.slots_ringsAfter (hsize : ∀ r, (s.ring r).slots ≤ 256) (old : Store Byte) :
    ∀ g ∈ s.ringsAfter old, g.slots ≤ 256 := by
  unfold State.ringsAfter
  split
  · exact s.slots_evaluateRings (by simp) _
  · intro g hg
    obtain ⟨r, -, rfl⟩ := List.mem_map.1 hg
    exact hsize r

theorem State.OccupiedSlotsEnabled.applyRings (hs : s.OccupiedSlotsEnabled) (l : List (Nat × Byte)) (m : Store Byte) :
    (s.applyRings l m).OccupiedSlotsEnabled := by
  unfold State.applyRings
  split
  · exact ((FramesStand.noteRings s s l 0 _).occupiedSlotsEnabled hs).changeRings 0 (State.slots_ringsAfter hs.2.1 m)
  · exact hs

theorem State.OccupiedSlotsEnabled.applySettings (hs : s.OccupiedSlotsEnabled) (l : List (Nat × Byte)) :
    (s.applySettings l).OccupiedSlotsEnabled := by
  have hmerge : FramesStand s (s.merge l) := .of_rings rfl rfl
  have hbefore := (hmerge.trans (.applyGlobals _ (hmerge.wf hs.1) l)).trans (.applyConsume _ l)
  exact (FramesStand.afterRings _ l s).occupiedSlotsEnabled
    ((hbefore.occupiedSlotsEnabled hs).applyRings l s.ci.image)

theorem FramesStand.popHead (s : State) : FramesStand s s.popHead := .of_ci rfl rfl

/-- A control write, to the end of its event. -/
theorem State.OccupiedSlotsEnabled.handOutControl (hs : s.OccupiedSlotsEnabled) (o : Observation) :
    (s.handOutControl o).OccupiedSlotsEnabled := by
  have happlied := ((FramesStand.popHead s).occupiedSlotsEnabled hs).applySettings o.body.named
  exact ((FramesStand.considerCommand _ o.body.named).trans (.settle _ _)).occupiedSlotsEnabled happlied

theorem State.OccupiedSlotsEnabled.applyLoadRead (hs : s.OccupiedSlotsEnabled) (r : LoadRead) :
    (s.applyLoadRead r).OccupiedSlotsEnabled :=
  ((FramesStand.considerLoadRead _ r).trans (.settle _ _)).occupiedSlotsEnabled (hs.applySettings r.bytes)

/-- A frame may enter a slot of an enabled ring (R87). -/
theorem State.OccupiedSlotsEnabled.setSlot (hs : s.OccupiedSlotsEnabled) {r i : Nat}
    (henabled : (s.ring r).enabled = true) (hi : i < (s.ring r).slots) (x : Slot) :
    (s.setSlot r i x).OccupiedSlotsEnabled := by
  obtain ⟨hwf, hsize, hframe⟩ := hs
  refine ⟨Store.wf_set _ _ _ _ hwf, hsize, fun n hn => ?_⟩
  change (s.tt.set .empty (slotNumber r i) x).get .empty n ≠ .empty at hn
  rw [Store.get_set] at hn
  split at hn
  · next heq =>
    have hbound := hsize r
    have hring : n / 256 = r ∧ n % 256 = i := by unfold slotNumber at heq; omega
    rw [hring.1, hring.2]
    exact ⟨henabled, hi⟩
  · exact hframe n hn

theorem FlowSide.credit (s : State) (r : Nat) (f : FlowRef) (v : Verdict) : FlowSide s (s.credit r f v) := by
  cases f with
  | unlisted p => cases v <;> rfl
  | listed i g =>
    refine (FlowSide.checked s i).trans ?_
    unfold State.credit State.creditFlow
    dsimp only
    split
    · split
      · exact .trans (t := (s.checked i).setFlow i (((s.checked i).flow i).credit r v)) rfl (.trigger _ _ _)
      · rfl
    · rfl

theorem FlowSide.displace (s : State) (r i : Nat) : FlowSide s (s.displace r i) := by
  unfold State.displace
  split
  · exact .refl s
  · unfold State.overrun
    split
    · exact .credit s _ _ _
    · exact (FlowSide.credit s _ _ _).trans (.trigger _ _ _)
  · exact .credit s _ _ _

/-- An ENQUEUE fills a slot that the decoder found in an enabled ring (R14, R87). -/
theorem State.OccupiedSlotsEnabled.takeEnqueue (hs : s.OccupiedSlotsEnabled) {a : Addr} {r i : Nat}
    (hslot : s.findSlot a = some (r, i)) (o : Observation) (port : BitVec 4) (tag : BitVec 20) (copy : BitVec 4)
    (q : BitVec 16) (v : Bool) : (s.takeEnqueue o r i port tag copy q v).OccupiedSlotsEnabled := by
  obtain ⟨-, hcovers, -, hi⟩ := State.findSlot_eq_some hslot
  obtain ⟨henabled, hbase, hend⟩ := (RingGeometry.covers_iff _ _).1 hcovers
  have hbefore := ((FlowSide.listed s o port tag copy q v).trans (.displace _ r i)).framesStand
  rw [State.takeEnqueue_eq]
  refine (hbefore.occupiedSlotsEnabled hs).setSlot ?_ ?_ _
  · rw [hbefore.ring]; exact henabled
  · rw [hbefore.ring]; omega

/-! ## Every command -/

/-- RESET_N asserted leaves no frame (R107). -/
theorem State.assertReset_occupiedSlotsEnabled (s : State) : s.assertReset.OccupiedSlotsEnabled :=
  ⟨rfl, fun _ => (by decide : initialRing.slots ≤ 256), fun _ hn => absurd rfl hn⟩

/-- No command leaves a frame in a slot of a ring that is not enabled. -/
theorem Effect.keeps_occupiedSlotsEnabled {c : Instr} {u : State} (h : Effect s c u) (hs : s.OccupiedSlotsEnabled) :
    u.OccupiedSlotsEnabled := by
  have hsettle {t : State} (ht : FramesStand s t) : (t.settle s).OccupiedSlotsEnabled :=
    (ht.trans (.settle t s)).occupiedSlotsEnabled hs
  cases h with
  | idle => exact hs
  | assertReset => exact s.assertReset_occupiedSlotsEnabled
  | present | returnRead | takeInjectedRead | tick => exact hs
  | releaseReset straps => exact hsettle (.of_rings rfl rfl)
  | grant t => exact (FramesStand.grant (s.present t)).occupiedSlotsEnabled hs
  | takeForwarded t => exact hsettle (.takeForwarded s t)
  | completeWrite t live => exact hsettle (.completeWrite s t live)
  | completeRead r => exact hsettle (.completeRead s r)
  | expireTimer => exact hsettle (.of_ci (by simp) (by simp))
  | takeEnqueue o r i port tag copy q v hhead hslot =>
    have htaken := ((FramesStand.popHead s).occupiedSlotsEnabled hs).takeEnqueue hslot o port tag copy q v
    exact (FramesStand.settle _ s).occupiedSlotsEnabled htaken
  | dequeueSlot o r i => exact hsettle ((FramesStand.popHead s).trans (.dequeueSlot _ r i o.stamp))
  | completeSlot o r i code => exact hsettle ((FramesStand.popHead s).trans (.completeSlot _ r i code o.stamp))
  | discardHead => exact hsettle (.popHead s)
  | sweepHead => exact hsettle ((FramesStand.sweep s hs.1).trans (.of_ci rfl rfl))
  | sweepEmpty => exact hsettle (.sweep s hs.1)
  | takeExpiry i due => exact hsettle (.of_ci (by simp) (by simp))
  | control c o => exact hs.handOutControl o
  | advanceWalk n tag => exact hsettle (.advanceWalk s n tag)
  | applyLoadRead r =>
    have hnext : FramesStand s (s.onCi fun c => { c with loadReads := c.loadReads.tail }) := .of_rings rfl rfl
    exact (hnext.occupiedSlotsEnabled hs).applyLoadRead r

/-- Settles O59: a frame enters a slot only by an ENQUEUE, in an enabled ring, and a ring that changes loses its frames
first; every other command brings no frame and keeps the rings. -/
theorem stepsKeepFramesInEnabledRings : Obligations.StepsKeepFramesInEnabledRings := by
  intro s u hs h
  rcases step_effect h with rfl | ⟨c, rest, _, heffect⟩
  · exact hs
  · exact heffect.keeps_occupiedSlotsEnabled hs

end Sys2Proof.Machine
end

