-- ==== Sys2Proof/Proofs/Crediting.lean ====
section
/-! PROOFS. The verdict of a frame: whom it is credited to, the judging of a SENT frame on its residence, and the check of
the departure order. -/

namespace Sys2Proof.Machine

/-! ## Entries read and written (R34) -/

variable (s : State)

/-- A second read with the check changes nothing. -/
theorem State.checked_checked (i : Nat) : (s.checked i).checked i = s.checked i := State.checked_of_ok _ (s.checked_ok i)

/-- A sound entry written is the entry read. -/
theorem State.flow_setFlow_sound (i : Nat) {e : FlowEntry} (h : e.checkOk = true) : (s.setFlow i e).flow i = e := by
  rw [State.flow_setFlow, if_pos rfl]
  cases e
  cases h
  rfl

/-- A trigger leaves the rows of the other kinds (R138). -/
theorem State.alarm_trigger_of_ne {k j : AlarmKind} (h : j ≠ k) (v : Nat) : (s.trigger k v).alarm j = s.alarm j := by
  rcases s.trigger_cases k v with ⟨_, heq⟩ | ⟨_, row, _, heq⟩
  · rw [heq]
  · rw [heq, State.alarm_setAlarm, if_neg h]

theorem State.trigger_of_off {k : AlarmKind} (h : s.alarmOn k = false) (v : Nat) : s.trigger k v = s := if_neg (by simp [h])

/-! ## Occupancies (R33, R101, R102) -/

theorem FlowEntry.occupiedBy_iff {e : FlowEntry} {g : BitVec 8} :
    e.occupiedBy g = true ↔ e.valid = true ∧ e.generation = g := by
  simp [FlowEntry.occupiedBy]

theorem FlowEntry.not_occupiedBy {e : FlowEntry} {g : BitVec 8} (h : e.valid = false ∨ e.generation ≠ g) :
    ¬ e.occupiedBy g = true := by
  rw [FlowEntry.occupiedBy_iff]
  rintro ⟨hvalid, hgeneration⟩
  rcases h with hinvalid | hother
  · rw [hinvalid] at hvalid; cases hvalid
  · exact hother hgeneration

variable {s}

/-- The entry that a read finds failing is VACANT after it, so it holds no occupancy (R51, R52). -/
theorem State.valid_checked_of_fail {j : Nat} (hfail : (s.flow j).checkOk = false) :
    ((s.checked j).flow j).valid = false := by
  rw [State.flow_checked, if_pos ⟨rfl, hfail⟩]; rfl

/-! ## Crediting (R101 to R103) -/

/-- A verdict for a listed frame is credited behind the read of its entry. -/
theorem State.credit_checked (s : State) (r j : Nat) (g : BitVec 8) (v : Verdict) :
    (s.checked j).credit r (.listed j g) v = s.credit r (.listed j g) v := by
  simp only [State.credit, State.checked_checked]

theorem State.credit_of_occupied {r j : Nat} {g : BitVec 8} (hok : (s.flow j).checkOk = true)
    (hvalid : (s.flow j).valid = true) (hgeneration : (s.flow j).generation = g) (v : Verdict) :
    s.credit r (.listed j g) v = s.creditFlow j r v := by
  simp only [State.credit, State.checked_of_ok _ hok]
  exact if_pos (FlowEntry.occupiedBy_iff.2 ⟨hvalid, hgeneration⟩)

theorem State.credit_of_gone {r j : Nat} {g : BitVec 8} (hok : (s.flow j).checkOk = true)
    (hgone : (s.flow j).valid = false ∨ (s.flow j).generation ≠ g) (v : Verdict) :
    s.credit r (.listed j g) v = s.count .orphanVerdicts := by
  simp only [State.credit, State.checked_of_ok _ hok]
  exact if_neg (FlowEntry.not_occupiedBy hgone)

/-- A verdict whose entry fails its check is an orphan behind the fault (R52, R102). -/
theorem State.credit_of_fail {r j : Nat} {g : BitVec 8} (hfail : (s.flow j).checkOk = false) (v : Verdict) :
    s.credit r (.listed j g) v = (s.checked j).count .orphanVerdicts := by
  rw [← s.credit_checked]
  exact State.credit_of_gone (s.checked_ok j) (.inl (State.valid_checked_of_fail hfail)) v

/-- A verdict that fires no LATE_RUN writes its entry, and nothing else (R101). -/
theorem State.creditFlow_of_quiet {j : Nat} {v : Verdict}
    (h : lateRunFires (s.profileOf (s.flow j)) (s.flow j) v = false) (r : Nat) :
    s.creditFlow j r v = s.setFlow j ((s.flow j).credit r v) := if_neg (by simp [h])

theorem State.creditFlow_of_fires {j : Nat} {v : Verdict}
    (h : lateRunFires (s.profileOf (s.flow j)) (s.flow j) v = true) (r : Nat) :
    s.creditFlow j r v = (s.setFlow j ((s.flow j).credit r v)).trigger .lateRun j := if_pos h

/-- A verdict leaves the check code of its entry as it was. -/
theorem FlowEntry.checkOk_credit (e : FlowEntry) (r : Nat) (v : Verdict) : (e.credit r v).checkOk = e.checkOk := by
  cases v <;> simp [FlowEntry.credit, FlowEntry.lost]

/-- The entry after its verdict (R98, R99, R101). -/
theorem State.flow_creditFlow {j : Nat} (hok : (s.flow j).checkOk = true) (r : Nat) (v : Verdict) :
    (s.creditFlow j r v).flow j = (s.flow j).credit r v := by
  have hcredit : ((s.flow j).credit r v).checkOk = true := by rw [FlowEntry.checkOk_credit, hok]
  unfold State.creditFlow
  dsimp only
  split
  · rw [State.flow_trigger, State.flow_setFlow_sound _ _ hcredit]
  · rw [State.flow_setFlow_sound _ _ hcredit]

/-- A verdict touches no other entry (R101). -/
theorem State.flow_credit_of_ne (s : State) (r : Nat) {j n : Nat} (h : n ≠ j) (g : BitVec 8) (v : Verdict) :
    (s.credit r (.listed j g) v).flow n = s.flow n := by
  have hread : (s.checked j).flow n = s.flow n := by rw [State.flow_checked, if_neg fun hc => h hc.1]
  unfold State.credit State.creditFlow
  dsimp only
  split
  · split <;> simp [h, hread]
  · exact hread

/-- The verdict of an unlisted frame moves TAU alone (R103). -/
theorem State.creditUnlisted_frame (s : State) (v : Verdict) :
    s.creditUnlisted v = { s with tau := (s.creditUnlisted v).tau } := by
  cases v <;> rfl

/-- A count as the obligations state it (R127). -/
theorem State.agg_count_eq (s : State) (a b : Aggregate) :
    (s.count a).agg b = if b = a then min (s.agg b + 1) 4294967295 else s.agg b := by
  rw [State.agg_count]
  split
  · next h => rw [h]; rfl
  · rfl

/-! ## Departure order (R92, R93) -/

/-- The frames whose departure is checked at all. -/
def Frame.Checkable (f : Frame) (j : Nat) (g : BitVec 8) (q : BitVec 16) : Prop :=
  f.ref = .listed j g ∧ f.uncertain = false ∧ f.copy = 0#4 ∧ f.sequence = some q

theorem State.departureCheck_of_checkable {r j : Nat} {g : BitVec 8} {q : BitVec 16} {f : Frame}
    (hf : f.Checkable j g q) :
    s.departureCheck r f =
      if ((s.checked j).flow j).occupiedBy g &&
          ((s.checked j).profileOf ((s.checked j).flow j)).watched.getLsbD r &&
          ((s.checked j).profileOf ((s.checked j).flow j)).evaluates then
        (s.checked j).setFlow j
          (((s.checked j).flow j).depart ((s.checked j).profileOf ((s.checked j).flow j)) q)
      else s.checked j := by
  obtain ⟨href, hcertain, hcopy, hsequence⟩ := hf
  simp only [State.departureCheck, href, hcertain, hcopy, hsequence, if_true]

theorem State.departureCheck_of_not_checkable {f : Frame} (hf : ∀ j g q, ¬ f.Checkable j g q) (r : Nat) :
    s.departureCheck r f = s := by
  unfold State.departureCheck
  split
  · next j g q hcertain href hsequence =>
    split
    · next hcopy => exact absurd ⟨href, hcertain, hcopy, hsequence⟩ (hf j g q)
    · rfl
  · rfl

/-- A frame of which the slot allows no check is not checkable. -/
theorem Frame.not_checkable {f : Frame}
    (h : f.uncertain = true ∨ (∃ p, f.ref = .unlisted p) ∨ f.copy ≠ 0#4 ∨ f.sequence = none) (j : Nat) (g : BitVec 8)
    (q : BitVec 16) : ¬ f.Checkable j g q := by
  rintro ⟨href, hcertain, hcopy, hsequence⟩
  rcases h with huncertain | ⟨p, hunlisted⟩ | hother | hnone
  · rw [hcertain] at huncertain; cases huncertain
  · rw [href] at hunlisted; cases hunlisted
  · exact hother hcopy
  · rw [hsequence] at hnone; cases hnone

/-- The check of a sound entry that does not call for it changes nothing. -/
theorem State.departureCheck_of_exempt {r j : Nat} {g : BitVec 8} {f : Frame} (href : f.ref = .listed j g)
    (hok : (s.flow j).checkOk = true)
    (h : (s.flow j).valid = false ∨ (s.flow j).generation ≠ g ∨
      (s.profileOf (s.flow j)).watched.getLsbD r = false ∨ (s.profileOf (s.flow j)).evaluates = false) :
    s.departureCheck r f = s := by
  by_cases hf : ∃ q, f.Checkable j g q
  · obtain ⟨q, hf⟩ := hf
    rw [State.departureCheck_of_checkable hf, State.checked_of_ok _ hok, if_neg]
    simp only [Bool.and_eq_true, FlowEntry.occupiedBy_iff]
    rintro ⟨⟨⟨hvalid, hgeneration⟩, hwatched⟩, hevaluates⟩
    rcases h with h | h | h | h <;> simp_all
  · refine State.departureCheck_of_not_checkable (fun j' g' q hf' => hf ⟨q, ?_⟩) r
    obtain ⟨rfl, rfl⟩ := FlowRef.listed.inj (href.symm.trans hf'.1)
    exact hf'

/-- The check of an entry that fails its own is not made (R51, R52). -/
theorem State.departureCheck_of_fail {r j : Nat} {g : BitVec 8} {q : BitVec 16} {f : Frame} (hf : f.Checkable j g q)
    (hfail : (s.flow j).checkOk = false) : s.departureCheck r f = s.checked j := by
  rw [State.departureCheck_of_checkable hf, if_neg]
  simp [FlowEntry.not_occupiedBy (.inl (State.valid_checked_of_fail hfail))]

theorem State.departureCheck_of_sound {r j : Nat} {g : BitVec 8} {q : BitVec 16} {f : Frame} (hf : f.Checkable j g q)
    (hok : (s.flow j).checkOk = true) (hvalid : (s.flow j).valid = true) (hgeneration : (s.flow j).generation = g)
    (hwatched : (s.profileOf (s.flow j)).watched.getLsbD r = true)
    (hevaluates : (s.profileOf (s.flow j)).evaluates = true) :
    s.departureCheck r f = s.setFlow j ((s.flow j).depart (s.profileOf (s.flow j)) q) := by
  rw [State.departureCheck_of_checkable hf, State.checked_of_ok _ hok, if_pos]
  simp [FlowEntry.occupiedBy_iff, hvalid, hgeneration, hwatched, hevaluates]

/-- The check touches no entry but the frame's own (R92). -/
theorem State.flow_departureCheck_of_ne (s : State) (r : Nat) {j n : Nat} {g : BitVec 8} {f : Frame}
    (href : f.ref = .listed j g) (h : n ≠ j) : (s.departureCheck r f).flow n = s.flow n := by
  have hread : (s.checked j).flow n = s.flow n := by rw [State.flow_checked, if_neg fun hc => h hc.1]
  by_cases hf : ∃ q, f.Checkable j g q
  · obtain ⟨q, hf⟩ := hf
    rw [State.departureCheck_of_checkable hf]
    split
    · rw [State.flow_setFlow, if_neg h, hread]
    · exact hread
  · rw [State.departureCheck_of_not_checkable]
    intro j' g' q hf'
    obtain ⟨rfl, rfl⟩ := FlowRef.listed.inj (href.symm.trans hf'.1)
    exact hf ⟨q, hf'⟩

theorem FlowSide.departureCheck (s : State) (r : Nat) (f : Frame) : FlowSide s (s.departureCheck r f) := by
  unfold State.departureCheck
  split
  · next j g q _ _ _ =>
    have hread := FlowSide.checked s j
    split
    · dsimp only
      split
      · exact hread.trans rfl
      · exact hread
    · exact .refl s
  · exact .refl s

/-- D follows the first departure, and one that leaves ahead of it (R92). -/
theorem FlowEntry.depart_of_ahead {e : FlowEntry} {p : Profile} {q : BitVec 16} {x : Nat} (hx : x = q.toNat % 2 ^ p.width)
    (h : e.departed = none ∨ ∃ d, e.departed = some d ∧ 0 < signedDiff p.width x (d % 2 ^ p.width)) :
    e.depart p q = { e with departed := some x } := by
  subst hx
  rcases h with hnone | ⟨d, hsome, hahead⟩
  · simp only [FlowEntry.depart, hnone]
  · simp only [FlowEntry.depart, hsome, if_pos hahead]

/-- A departure that is not ahead of D is counted (R92). -/
theorem FlowEntry.depart_of_behind {e : FlowEntry} {p : Profile} {q : BitVec 16} {x d : Nat}
    (hx : x = q.toNat % 2 ^ p.width) (hd : e.departed = some d) (h : signedDiff p.width x (d % 2 ^ p.width) ≤ 0) :
    e.depart p q = (e.bump .reorderedOut 1).mark := by
  subst hx
  simp only [FlowEntry.depart, hd, if_neg (Int.not_lt.2 h)]

/-- Settles O34: a checkable frame has its entry read; the check is then made of a sound entry that holds the frame's
occupancy, on a watched ring, under evaluation, and moves D or counts. -/
theorem departureOrderIsChecked : Obligations.DepartureOrderIsChecked := by
  refine ⟨fun s r f h => ?_, fun s r j g f q href hcertain hcopy hsequence hfail =>
    State.departureCheck_of_fail ⟨href, hcertain, hcopy, hsequence⟩ hfail, ?_⟩
  · rcases h with h | h | h | h | ⟨j, g, href, hok, hexempt⟩
    · exact State.departureCheck_of_not_checkable (Frame.not_checkable (.inl h)) r
    · exact State.departureCheck_of_not_checkable (Frame.not_checkable (.inr (.inl h))) r
    · exact State.departureCheck_of_not_checkable (Frame.not_checkable (.inr (.inr (.inl h)))) r
    · exact State.departureCheck_of_not_checkable (Frame.not_checkable (.inr (.inr (.inr h)))) r
    · exact State.departureCheck_of_exempt href hok hexempt
  · rintro s r j g f q p x href hcertain hcopy hsequence hok hvalid hgeneration rfl hwatched hevaluates hx
    have hcheck := State.departureCheck_of_sound ⟨href, hcertain, hcopy, hsequence⟩ hok hvalid hgeneration hwatched
      hevaluates
    have hahead (h : (s.flow j).departed = none ∨ ∃ d, (s.flow j).departed = some d ∧
        0 < signedDiff (s.profileOf (s.flow j)).width x (d % 2 ^ (s.profileOf (s.flow j)).width)) :
        (s.departureCheck r f).flow j = { s.flow j with departed := some x } := by
      rw [hcheck, FlowEntry.depart_of_ahead hx h, State.flow_setFlow_sound]
      exact hok
    refine ⟨fun hnone => hahead (.inl hnone), fun d hd => ⟨fun h => hahead (.inr ⟨d, hd, h⟩), fun h => ?_⟩⟩
    rw [hcheck, FlowEntry.depart_of_behind hx hd h, State.flow_setFlow_sound _ _ (by simpa using hok)]
    rfl

/-! ## Judging (R96, R98, R99) -/

/-- The residence is the time between the stamps modulo 2^48 (R98). -/
theorem residence_eq (e d : Time) : residence e d = (d.toNat + 2 ^ 48 - e.toNat) % 2 ^ 48 := by
  have he := e.isLt
  rw [residence, BitVec.toNat_sub]
  congr 1
  omega

theorem Profile.judge_of_unwatched {p : Profile} {r : Nat} (h : p.watched.getLsbD r = false ∨ p.budget = 0) (x : Nat) :
    p.judge r x = .unjudged := by
  unfold Profile.judge
  rcases h with h | h <;> simp [h]

theorem Profile.judge_of_within {p : Profile} {r x : Nat} (hwatched : p.watched.getLsbD r = true) (hbudget : 0 < p.budget)
    (hx : x ≤ p.budget) : p.judge r x = .onTime x := by
  unfold Profile.judge
  rw [if_pos hwatched, if_neg (by omega), if_neg (by omega)]

theorem Profile.judge_of_late {p : Profile} {r x : Nat} (hwatched : p.watched.getLsbD r = true) (hbudget : 0 < p.budget)
    (hx : p.budget < x) : p.judge r x = .late x := by
  unfold Profile.judge
  rw [if_pos hwatched, if_neg (by omega), if_pos hx]

theorem Profile.judge_of_not_late {p : Profile} {r x : Nat}
    (h : p.watched.getLsbD r = false ∨ p.budget = 0 ∨ x ≤ p.budget) :
    p.judge r x = .unjudged ∨ p.judge r x = .onTime x := by
  by_cases hunwatched : p.watched.getLsbD r = false ∨ p.budget = 0
  · exact .inl (Profile.judge_of_unwatched hunwatched x)
  · rw [not_or] at hunwatched
    obtain ⟨hwatched, hbudget⟩ := hunwatched
    have hwithin := (h.resolve_left hwatched).resolve_left hbudget
    exact .inr (Profile.judge_of_within (by simpa using hwatched) (Nat.pos_of_ne_zero hbudget) hwithin)

theorem State.sent_of_uncertain {f : Frame} (h : f.uncertain = true) (r : Nat) (d : Time) :
    s.sent r f d = s.credit r f.ref .unresolved := if_pos h

theorem State.sent_of_unlisted {f : Frame} {p : Nat} (hcertain : f.uncertain = false) (href : f.ref = .unlisted p)
    (r : Nat) (d : Time) : s.sent r f d = s.creditUnlisted ((s.profile p).judge r (residence f.enqueued d)) := by
  simp [State.sent, State.credit, hcertain, href]

/-- A certain frame of a flow is judged by the profile its entry names, behind the read of the entry (R96). -/
theorem State.sent_of_listed {f : Frame} {j : Nat} {g : BitVec 8} (hcertain : f.uncertain = false)
    (href : f.ref = .listed j g) (r : Nat) (d : Time) :
    s.sent r f d = s.credit r (.listed j g)
      (((s.checked j).profileOf ((s.checked j).flow j)).judge r (residence f.enqueued d)) := by
  rw [← State.credit_checked]
  simp [State.sent, hcertain, href]

/-- A verdict in which LATE_RUN does not fire leaves TAU. -/
theorem State.tau_creditFlow_of_quiet {j : Nat} {v : Verdict}
    (h : lateRunFires (s.profileOf (s.flow j)) (s.flow j) v = false) (r : Nat) :
    (s.creditFlow j r v).tau = s.tau := by
  rw [State.creditFlow_of_quiet h, State.setFlow_tau]

/-- Settles O33: the residence decides the verdict, and the verdict the entry, the tally and the trigger. -/
theorem sentFrameIsJudgedOnResidence : Obligations.SentFrameIsJudgedOnResidence := by
  refine ⟨?_, ?_, ?_⟩
  · rintro s r q f dep p x href rfl hx
    rw [← residence_eq] at hx
    refine ⟨fun h => ?_, fun hcertain hwatched hbudget hlate => ?_⟩
    · by_cases huncertain : f.uncertain = true
      · rw [State.sent_of_uncertain huncertain, href]; rfl
      have hcertain : f.uncertain = false := by simpa using huncertain
      rw [State.sent_of_unlisted hcertain href, ← hx]
      rcases Profile.judge_of_not_late (h.resolve_left huncertain) with hverdict | hverdict <;> rw [hverdict] <;> rfl
    · rw [State.sent_of_unlisted hcertain href, ← hx, Profile.judge_of_late hwatched hbudget hlate]
      exact ⟨rfl, fun k => rfl, fun a => s.agg_count_eq .unlistedLate a⟩
  · intro s r j g f dep href huncertain hok hvalid hgeneration
    rw [State.sent_of_uncertain huncertain, href, State.credit_of_occupied hok hvalid hgeneration]
    exact ⟨State.tau_creditFlow_of_quiet rfl r, State.flow_creditFlow hok r _⟩
  · rintro s r j g f dep p x href hcertain hok hvalid hgeneration rfl hx
    have hsent : s.sent r f dep = s.creditFlow j r ((s.profileOf (s.flow j)).judge r x) := by
      rw [State.sent_of_listed hcertain href, State.checked_of_ok _ hok, State.credit_of_occupied hok hvalid hgeneration,
        residence_eq, ← hx]
    rw [hsent]
    refine ⟨fun h => ?_, fun hwatched hbudget hwithin => ?_, fun hwatched hbudget hlate => ?_⟩
    · rw [Profile.judge_of_unwatched h]
      exact ⟨State.flow_creditFlow hok r _, State.tau_creditFlow_of_quiet rfl r⟩
    · rw [Profile.judge_of_within hwatched hbudget hwithin]
      exact ⟨State.tau_creditFlow_of_quiet rfl r, State.flow_creditFlow hok r _⟩
    · rw [Profile.judge_of_late hwatched hbudget hlate]
      refine ⟨State.flow_creditFlow hok r _, fun hlimit => State.tau_creditFlow_of_quiet ?_ r,
        fun hlimit hrun hon => ?_⟩
      · simp [lateRunFires, Ne.symm hlimit]
      · have hfires : lateRunFires (s.profileOf (s.flow j)) (s.flow j) (.late x) = true := by
          simp [lateRunFires, hlimit, hrun]
        rw [State.creditFlow_of_fires hfires, State.alarm_trigger_of_on (s.setFlow j _) hon]
        exact ⟨rfl, rfl, fun hclear => if_neg (Bool.eq_false_iff.mp hclear)⟩

end Sys2Proof.Machine
end

