-- ==== Sys2Proof/Proofs/SlotEvents.lean ====
section
/-! PROOFS. The events of a slot: the frame an ENQUEUE overwrites, the DEQUEUE and the COMPLETION, each by what the slot
holds and by whose frame it is. -/

namespace Sys2Proof.Machine

variable {s : State}

/-! ## The frame an ENQUEUE overwrites (R87 to R89) -/

theorem State.displace_of_empty {r i : Nat} (h : s.slot r i = .empty) : s.displace r i = s := by
  simp only [State.displace, h]

/-- A certain QUEUED frame is an OVERRUN, which fires its trigger (R88). -/
theorem State.displace_of_queued {r i : Nat} {f : Frame} (h : s.slot r i = .queued f) (hcertain : f.uncertain = false) :
    s.displace r i = (s.credit r f.ref .overrun).trigger .overrun (slotNumber r i) := by
  simp only [State.displace, h, State.overrun, hcertain, Bool.false_eq_true, if_false]

/-- A DEPARTING frame and an uncertain one are UNRESOLVED (R89, R105). -/
theorem State.displace_of_unresolved {r i : Nat} {f : Frame}
    (h : (∃ d, s.slot r i = .departing f d) ∨ (s.slot r i = .queued f ∧ f.uncertain = true)) :
    s.displace r i = s.credit r f.ref .unresolved := by
  rcases h with ⟨d, hslot⟩ | ⟨hslot, huncertain⟩
  · simp only [State.displace, hslot]
  · simp only [State.displace, hslot, State.overrun, huncertain, if_true]

/-- A slot that holds the frame displaces it as an OVERRUN or as UNRESOLVED. -/
theorem State.displace_cases {r i : Nat} {f : Frame} (h : s.slot r i = .queued f ∨ ∃ d, s.slot r i = .departing f d) :
    (s.slot r i = .queued f ∧ f.uncertain = false) ∨
      ((∃ d, s.slot r i = .departing f d) ∨ (s.slot r i = .queued f ∧ f.uncertain = true)) := by
  rcases h with hqueued | hdeparting
  · cases huncertain : f.uncertain
    · exact .inl ⟨hqueued, rfl⟩
    · exact .inr (.inr ⟨hqueued, rfl⟩)
  · exact .inr (.inl hdeparting)

/-- A frame that stands in a slot as QUEUED does not stand in it as DEPARTING. -/
theorem State.not_departing_of_queued {r i : Nat} {f : Frame} (h : s.slot r i = .queued f) (g : Frame) :
    ¬ ∃ d, s.slot r i = .departing g d := by
  rintro ⟨d, hd⟩
  rw [h] at hd; cases hd

theorem State.slot_checked (s : State) (j r i : Nat) : (s.checked j).slot r i = s.slot r i := by
  simp only [State.slot, State.checked_tt]

/-- The frame of a failing entry is displaced behind the fault (R52). -/
theorem State.displace_checked {r i j : Nat} {g : BitVec 8} {f : Frame} (href : f.ref = .listed j g)
    (h : s.slot r i = .queued f ∨ ∃ d, s.slot r i = .departing f d) :
    s.displace r i = (s.checked j).displace r i := by
  rcases State.displace_cases h with ⟨hslot, hcertain⟩ | hunresolved
  · rw [State.displace_of_queued hslot hcertain, href, ← s.credit_checked, ← href,
      State.displace_of_queued (s := s.checked j) (by rw [State.slot_checked, hslot]) hcertain]
  · rw [State.displace_of_unresolved hunresolved, href, ← s.credit_checked, ← href,
      State.displace_of_unresolved (s := s.checked j) (by simpa only [State.slot_checked] using hunresolved)]

/-- The OVERRUN of an orphan counts and still fires its trigger (R88, R102). -/
theorem State.displace_orphan_queued {r i j : Nat} {g : BitVec 8} {f : Frame} (href : f.ref = .listed j g)
    (hok : (s.flow j).checkOk = true) (hgone : (s.flow j).valid = false ∨ (s.flow j).generation ≠ g)
    (hslot : s.slot r i = .queued f) (hcertain : f.uncertain = false) :
    s.displace r i = (s.count .orphanVerdicts).trigger .overrun (slotNumber r i) := by
  rw [State.displace_of_queued hslot hcertain, href, State.credit_of_gone hok hgone]

theorem State.displace_orphan_unresolved {r i j : Nat} {g : BitVec 8} {f : Frame} (href : f.ref = .listed j g)
    (hok : (s.flow j).checkOk = true) (hgone : (s.flow j).valid = false ∨ (s.flow j).generation ≠ g)
    (h : (∃ d, s.slot r i = .departing f d) ∨ (s.slot r i = .queued f ∧ f.uncertain = true)) :
    s.displace r i = s.count .orphanVerdicts := by
  rw [State.displace_of_unresolved h, href, State.credit_of_gone hok hgone]

/-- Settles O32: the frame is an OVERRUN when it is QUEUED and certain, else UNRESOLVED, and is credited by its
reference. -/
theorem overwrittenFrameGetsItsVerdict : Obligations.OverwrittenFrameGetsItsVerdict := by
  refine ⟨fun s r i => State.displace_of_empty, fun s r i p f href => ⟨fun hslot hcertain => ?_, fun h => ?_⟩,
    fun s r i j g f href h => ⟨fun _ => State.displace_checked href h, fun hok hgone => ?_⟩,
    fun s r i j g f href hok hvalid hgeneration => ⟨fun hslot hcertain => ?_, fun h => ?_⟩⟩
  · have heq : s.displace r i = (s.count .unlistedOverruns).trigger .overrun (slotNumber r i) := by
      rw [State.displace_of_queued hslot hcertain, href]; rfl
    rw [heq]
    refine ⟨State.trigger_frame _ _ _, fun hon => ?_, fun a => ?_⟩
    · rw [State.alarm_trigger_of_on (s.count .unlistedOverruns) hon]
      exact ⟨rfl, rfl⟩
    · rw [State.agg_trigger, State.agg_count_eq]
  · rw [State.displace_of_unresolved h, href]; rfl
  · rcases State.displace_cases h with ⟨hslot, hcertain⟩ | hunresolved
    · rw [State.displace_orphan_queued href hok hgone hslot hcertain]
      refine ⟨State.trigger_frame _ _ _, fun a => ?_, fun k hk => ?_, fun _ _ hon => ?_, fun hquiet => ?_⟩
      · rw [State.agg_trigger, State.agg_count_eq]
      · exact State.alarm_trigger_of_ne _ hk _
      · rw [State.alarm_trigger_of_on (s.count .orphanVerdicts) hon]; rfl
      · have hoff := (hquiet.resolve_left (State.not_departing_of_queued hslot f)).resolve_left (by simp [hcertain])
        rw [State.trigger_of_off (s.count .orphanVerdicts) hoff]; rfl
    · rw [State.displace_orphan_unresolved href hok hgone hunresolved]
      refine ⟨rfl, fun a => s.agg_count_eq _ a, fun _ _ => rfl, fun hslot hcertain _ => ?_, fun _ => rfl⟩
      rcases hunresolved with hdeparting | ⟨-, huncertain⟩
      · exact absurd hdeparting (State.not_departing_of_queued hslot f)
      · rw [hcertain] at huncertain; cases huncertain
  · rw [State.displace_of_queued hslot hcertain, href, State.credit_of_occupied hok hvalid hgeneration,
      State.creditFlow_of_quiet rfl]
    refine ⟨?_, fun hon => ?_⟩
    · rw [State.flow_trigger, State.flow_setFlow_sound _ _ (by rw [FlowEntry.checkOk_credit, hok])]; rfl
    · rw [State.alarm_trigger_of_on (s.setFlow j _) hon]
      exact ⟨rfl, rfl, fun hclear => if_neg (Bool.eq_false_iff.mp hclear)⟩
  · rw [State.displace_of_unresolved h, href, State.credit_of_occupied hok hvalid hgeneration]
    exact ⟨State.flow_creditFlow hok r _, State.tau_creditFlow_of_quiet rfl r⟩

/-! ## The head record leaves the queue (R18) -/

/-- A trigger, a fault and a read with its check do not hang on the queue. -/
theorem State.trigger_popHead (s : State) (k : AlarmKind) (v : Nat) :
    s.popHead.trigger k v = (s.trigger k v).popHead := by
  unfold State.trigger
  rw [apply_ite State.popHead]
  rfl

theorem State.entryFault_popHead (s : State) (i : Nat) : s.popHead.entryFault i = (s.entryFault i).popHead :=
  State.trigger_popHead (((s.leaveDue i).setFlow i (vacantEntry ((s.flow i).generation + 1))).count .entryFaults) _ _

theorem State.checked_popHead (s : State) (i : Nat) : s.popHead.checked i = (s.checked i).popHead := by
  have hfault := s.entryFault_popHead i
  unfold State.checked
  rw [apply_ite State.popHead, hfault]
  rfl

/-! ## DEQUEUE (R90, R91) -/

theorem State.dequeueSlot_of_empty {r i : Nat} (h : s.slot r i = .empty) (d : Time) :
    s.dequeueSlot r i d = s.count .strayDequeues := by
  simp only [State.dequeueSlot, h]

theorem State.dequeueSlot_of_queued {r i : Nat} {f : Frame} (h : s.slot r i = .queued f) (d : Time) :
    s.dequeueSlot r i d = (s.setSlot r i (.departing f d)).departureCheck r f := by
  simp only [State.dequeueSlot, h]

theorem State.dequeueSlot_of_departing {r i : Nat} {f : Frame} {t : Time} (h : s.slot r i = .departing f t) (d : Time) :
    s.dequeueSlot r i d = s := by
  simp only [State.dequeueSlot, h]

/-- A DEQUEUE in a ring window is handed out (R18, R20). -/
theorem exec_dequeue {o : Observation} {r i : Nat} (hhead : s.headReady = some o) (hbody : o.body = .dequeue)
    (hslot : s.findSlot o.address = some (r, i)) :
    exec .dequeue s = .next ((s.popHead.dequeueSlot r i o.stamp).settle s) := by
  simp only [exec, execDequeue, hhead, hbody, hslot]

/-- The write of a slot leaves every other slot. -/
theorem SameSlotsBut.setSlot {s t : State} (h : t.tt = s.tt) (r i : Nat) (x : Slot) :
    SameSlotsBut r i s (t.setSlot r i x) := by
  intro n hn
  change (t.tt.set .empty (slotNumber r i) x).get .empty n = _
  rw [Store.get_set, if_neg hn, h]

/-- Settles O30: the slot's state decides; the departing frame's check reads and writes its own entry alone. -/
theorem dequeueActsBySlotState : Obligations.DequeueActsBySlotState := by
  rintro s v o r i hhead hbody hfound rfl
  have hexec := exec_dequeue hhead hbody hfound
  refine ⟨fun hslot => ⟨_, hexec, ?_⟩, fun f d hslot => ?_, fun f hslot => ⟨_, hexec, ?_⟩⟩
  · rw [State.dequeueSlot_of_empty (s := s.popHead) hslot]
    exact ⟨rfl, fun _ => rfl, fun a => s.popHead.agg_count_eq .strayDequeues a⟩
  · rw [hexec, State.dequeueSlot_of_departing (s := s.popHead) hslot]; rfl
  · rw [State.dequeueSlot_of_queued (s := s.popHead) hslot]
    have hside := FlowSide.departureCheck (s.popHead.setSlot r i (.departing f o.stamp)) r f
    have hslots : SameSlotsBut r i s (s.popHead.setSlot r i (.departing f o.stamp)) := .setSlot rfl r i _
    refine ⟨hside.sameLink, hside.oq, rfl, hside.ci, hside.rw, ?_, fun n hn => ?_, fun j g href n hn => ?_, fun h => ?_⟩
    · rw [State.slot, hside.tt]
      exact State.slot_setSlot_self _ _ _ _
    · rw [hside.tt]; exact hslots n hn
    · exact State.flow_departureCheck_of_ne _ r href hn
    · rw [State.departureCheck_of_not_checkable (Frame.not_checkable h)]
      exact ⟨rfl, rfl, rfl⟩

/-! ## COMPLETION (R94 to R97) -/

/-- A COMPLETION in a ring window is handed out (R18, R20). -/
theorem exec_completion {o : Observation} {r i : Nat} {code : BitVec 3} (hhead : s.headReady = some o)
    (hbody : o.body = .completion code) (hslot : s.findSlot o.address = some (r, i)) :
    exec .completion s = .next ((s.popHead.completeSlot r i code o.stamp).settle s) := by
  simp only [exec, execCompletion, hhead, hbody, hslot]

theorem State.completeSlot_of_zero (s : State) (r i : Nat) (d : Time) : s.completeSlot r i 0#3 d = s := if_pos rfl

theorem State.completeSlot_of_empty {r i : Nat} {code : BitVec 3} (hcode : code ≠ 0#3) (h : s.slot r i = .empty)
    (d : Time) : s.completeSlot r i code d = s.count .strayCompletions := by
  simp only [State.completeSlot, if_neg hcode, h]

theorem State.completeSlot_of_queued {r i : Nat} {f : Frame} (h : s.slot r i = .queued f) (d : Time) :
    s.completeSlot r i 1#3 d = ((s.departureCheck r f).sent r f d).setSlot r i .empty := by
  simp [State.completeSlot, h]

theorem State.completeSlot_of_departing {r i : Nat} {f : Frame} {t : Time} (h : s.slot r i = .departing f t) (d : Time) :
    s.completeSlot r i 1#3 d = (s.sent r f t).setSlot r i .empty := by
  simp [State.completeSlot, h]

/-- Any code but 0 and 1 reports the frame dropped, QUEUED or DEPARTING (R97, R105). -/
theorem State.completeSlot_of_dropped {r i : Nat} {f : Frame} {code : BitVec 3} (hcode : code ≠ 0#3)
    (hdropped : code ≠ 1#3) (h : s.slot r i = .queued f ∨ ∃ t, s.slot r i = .departing f t) (d : Time) :
    s.completeSlot r i code d =
      (s.credit r f.ref (if f.uncertain then .unresolved else .discarded)).setSlot r i .empty := by
  rcases h with hslot | ⟨t, hslot⟩ <;>
    simp only [State.completeSlot, if_neg hcode, hslot, if_neg hdropped, State.discardFrame]

/-- `w` is `s` after the verdict of a frame on ring r that a COMPLETION with `code` reports. -/
structure Concluded (s w : State) (r : Nat) (f : Frame) (code : BitVec 3) : Prop where
  side : FlowSide s w
  uncertain : f.uncertain = true → w = s.credit r f.ref .unresolved
  dropped : f.uncertain = false → code ≠ 1#3 → w = s.credit r f.ref .discarded
  unlisted : ∀ p, f.ref = .unlisted p → w = { s with tau := w.tau }
  orphan : ∀ j g, f.ref = .listed j g → (s.flow j).checkOk = true →
    ((s.flow j).valid = false ∨ (s.flow j).generation ≠ g) → w = s.count .orphanVerdicts
  failing : ∀ j g, f.ref = .listed j g → (s.flow j).checkOk = false → w = (s.checked j).count .orphanVerdicts
  other : ∀ j g, f.ref = .listed j g → ∀ n, n ≠ j → w.flow n = s.flow n

/-- A verdict credited concludes a frame that is uncertain or dropped. -/
theorem Concluded.credit {r : Nat} {f : Frame} {code : BitVec 3} {v : Verdict}
    (huncertain : f.uncertain = true → v = .unresolved)
    (hdropped : f.uncertain = false → code ≠ 1#3 → v = .discarded) :
    Concluded s (s.credit r f.ref v) r f code where
  side := .credit s r f.ref v
  uncertain h := by rw [huncertain h]
  dropped h hcode := by rw [hdropped h hcode]
  unlisted p href := by rw [href]; exact s.creditUnlisted_frame v
  orphan j g href hok hgone := by rw [href]; exact State.credit_of_gone hok hgone v
  failing j g href hfail := by rw [href]; exact State.credit_of_fail hfail v
  other j g href n hn := by rw [href]; exact s.flow_credit_of_ne r hn g v

/-- A SENT frame is concluded with the verdict of its judging (R96). -/
theorem Concluded.sent (s : State) (r : Nat) (f : Frame) (d : Time) : Concluded s (s.sent r f d) r f 1#3 := by
  cases huncertain : f.uncertain
  · cases href : f.ref with
    | unlisted p =>
      rw [State.sent_of_unlisted huncertain href]
      have hcredit := Concluded.credit (s := s) (r := r) (f := f) (code := 1#3)
        (v := (s.profile p).judge r (residence f.enqueued d)) (by simp [huncertain]) (by simp)
      rwa [href] at hcredit
    | listed j g =>
      rw [State.sent_of_listed huncertain href, ← href]
      exact .credit (by simp [huncertain]) (by simp)
  · rw [State.sent_of_uncertain huncertain]
    exact .credit (fun _ => rfl) (by simp)

/-- The departure-order check before the judging of a QUEUED frame leaves its conclusion (R95). -/
theorem Concluded.departed (s : State) (r : Nat) (f : Frame) (d : Time) :
    Concluded s ((s.departureCheck r f).sent r f d) r f 1#3 := by
  have hsent := Concluded.sent (s.departureCheck r f) r f d
  have hstands (h : s.departureCheck r f = s) : Concluded s ((s.departureCheck r f).sent r f d) r f 1#3 := by
    rw [h]; exact .sent s r f d
  by_cases hf : ∃ j g q, f.Checkable j g q
  · obtain ⟨j, g, q, hf⟩ := hf
    have href := hf.1
    have hsame {j' : Nat} {g' : BitVec 8} (href' : f.ref = .listed j' g') : j = j' ∧ g = g' :=
      FlowRef.listed.inj (href.symm.trans href')
    refine ⟨(FlowSide.departureCheck s r f).trans hsent.side, fun h => ?_, fun _ h => absurd rfl h, fun p hp => ?_,
      fun j' g' href' hok hgone => ?_, fun j' g' href' hfail => ?_, fun j' g' href' n hn => ?_⟩
    · rw [hf.2.1] at h; cases h
    · rw [href] at hp; cases hp
    · obtain ⟨rfl, rfl⟩ := hsame href'
      have hexempt : s.departureCheck r f = s := State.departureCheck_of_exempt href hok (hgone.imp_right .inl)
      exact (hstands hexempt).orphan j g href hok hgone
    · obtain ⟨rfl, rfl⟩ := hsame href'
      rw [State.departureCheck_of_fail hf hfail]
      exact (Concluded.sent (s.checked j) r f d).orphan j g href (s.checked_ok j)
        (.inl (State.valid_checked_of_fail hfail))
    · obtain ⟨rfl, rfl⟩ := hsame href'
      rw [hsent.other j g href n hn, s.flow_departureCheck_of_ne r href hn]
  · exact hstands (State.departureCheck_of_not_checkable (fun j g q h => hf ⟨j, g, q, h⟩) r)

/-- A COMPLETION of a slot with a frame concludes the frame and empties the slot. -/
theorem State.completeSlot_of_frame {r i : Nat} {f : Frame} {code : BitVec 3} (hcode : code ≠ 0#3)
    (h : s.slot r i = .queued f ∨ ∃ t, s.slot r i = .departing f t) (d : Time) :
    ∃ w, s.completeSlot r i code d = w.setSlot r i .empty ∧ Concluded s w r f code := by
  by_cases hsent : code = 1#3
  · subst hsent
    rcases h with hslot | ⟨t, hslot⟩
    · exact ⟨_, State.completeSlot_of_queued hslot d, .departed s r f d⟩
    · exact ⟨_, State.completeSlot_of_departing hslot d, .sent s r f t⟩
  · exact ⟨_, State.completeSlot_of_dropped hcode hsent h d, .credit (by simp +contextual) (by simp +contextual)⟩

/-- What is said of a frame of no flow (R103). -/
theorem Concluded.unlisted_effect {s w : State} {r p : Nat} {f : Frame} {code : BitVec 3} (h : Concluded s w r f code)
    (href : f.ref = .unlisted p) :
    w.ft = s.ft ∧ w.cm = s.cm ∧ (f.uncertain = true → w.tau = s.tau) ∧
      (f.uncertain = false → code ≠ 1#3 → (∀ k, w.alarm k = s.alarm k) ∧
        ∀ a, w.agg a = if a = .unlistedDiscards then min (s.agg a + 1) 4294967295 else s.agg a) := by
  have hframe := h.unlisted p href
  refine ⟨by rw [hframe], by rw [hframe], fun huncertain => ?_, fun hcertain hdropped => ?_⟩
  · rw [h.uncertain huncertain, href]; rfl
  · rw [h.dropped hcertain hdropped, href]
    exact ⟨fun _ => rfl, fun a => s.agg_count_eq .unlistedDiscards a⟩

/-- What is said of a frame whose occupancy is gone (R102). -/
theorem Concluded.orphan_effect {s w : State} {r j : Nat} {g : BitVec 8} {f : Frame} {code : BitVec 3}
    (h : Concluded s w r f code) (href : f.ref = .listed j g) (hok : (s.flow j).checkOk = true)
    (hgone : (s.flow j).valid = false ∨ (s.flow j).generation ≠ g) :
    w.ft = s.ft ∧ w.cm = s.cm ∧ (∀ k, w.alarm k = s.alarm k) ∧
      ∀ a, w.agg a = if a = .orphanVerdicts then min (s.agg a + 1) 4294967295 else s.agg a := by
  rw [h.orphan j g href hok hgone]
  exact ⟨rfl, rfl, fun _ => rfl, fun a => s.agg_count_eq .orphanVerdicts a⟩

/-- An entry fault counts no orphan. -/
theorem State.agg_checked_orphanVerdicts (s : State) (j : Nat) :
    (s.checked j).agg .orphanVerdicts = s.agg .orphanVerdicts := by
  rcases s.checked_cases j with ⟨_, heq⟩ | ⟨_, heq⟩ <;> rw [heq]
  rw [State.entryFault, State.agg_trigger, State.agg_count, if_neg (by decide)]
  rfl

/-- What is said of a frame whose entry fails its check (R51, R52, R102). -/
theorem Concluded.failing_effect {s w : State} {r j : Nat} {g : BitVec 8} {f : Frame} {code : BitVec 3}
    (h : Concluded s w r f code) (href : f.ref = .listed j g) (hfail : (s.flow j).checkOk = false) :
    w.flow j = vacantEntry ((s.flow j).generation + 1) ∧ w.ft = (s.checked j).ft ∧ w.cm = (s.checked j).cm ∧
      (∀ k, w.alarm k = (s.checked j).alarm k) ∧
      ∀ a, w.agg a = if a = .orphanVerdicts then min (s.agg a + 1) 4294967295 else (s.checked j).agg a := by
  have hvacant : (s.checked j).flow j = vacantEntry ((s.flow j).generation + 1) := by
    rw [State.flow_checked, if_pos ⟨rfl, hfail⟩]
  rw [h.failing j g href hfail, State.flow_count, hvacant]
  refine ⟨rfl, rfl, rfl, fun _ => rfl, fun a => ?_⟩
  rw [State.agg_count_eq]
  split
  · next ha => rw [ha, State.agg_checked_orphanVerdicts]
  · rfl

/-- What is said of a frame whose occupancy stands (R97, R101, R105). -/
theorem Concluded.occupied_effect {s w : State} {r j : Nat} {g : BitVec 8} {f : Frame} {code : BitVec 3}
    (h : Concluded s w r f code) (href : f.ref = .listed j g) (hok : (s.flow j).checkOk = true)
    (hvalid : (s.flow j).valid = true) (hgeneration : (s.flow j).generation = g) :
    (f.uncertain = false → code ≠ 1#3 → w.flow j = { s.flow j with
      tallies := (s.flow j).tallies.set 0 9 (min ((s.flow j).tally .discards + 1) 4294967295)
      faultMask := (s.flow j).faultMask ||| BitVec.ofNat 16 (2 ^ r), dirty := true }) ∧
      (f.uncertain = true → w.flow j = { s.flow j with
        tallies := (s.flow j).tallies.set 0 15 (min ((s.flow j).tally .unresolved + 1) 4294967295), dirty := true }) := by
  refine ⟨fun hcertain hdropped => ?_, fun huncertain => ?_⟩
  · rw [h.dropped hcertain hdropped, href, State.credit_of_occupied hok hvalid hgeneration]
    exact State.flow_creditFlow hok r _
  · rw [h.uncertain huncertain, href, State.credit_of_occupied hok hvalid hgeneration]
    exact State.flow_creditFlow hok r _

/-- Settles O31: the code and the slot decide whether a frame is concluded, and its reference how. -/
theorem completionActsBySlotAndCode : Obligations.CompletionActsBySlotAndCode := by
  rintro s v o code r i hhead hbody hfound rfl
  have hexec := exec_completion hhead hbody hfound
  refine ⟨?_, fun hcode hslot => ⟨_, hexec, ?_⟩, fun hcode hslot => ⟨_, hexec, ?_⟩⟩
  · rintro rfl
    rw [hexec, State.completeSlot_of_zero]; rfl
  · rw [State.completeSlot_of_empty (s := s.popHead) hcode hslot]
    exact ⟨rfl, fun _ => rfl, fun a => s.popHead.agg_count_eq .strayCompletions a⟩
  · obtain ⟨f, hf⟩ : ∃ f, s.slot r i = .queued f ∨ ∃ t, s.slot r i = .departing f t := by
      cases h : s.slot r i with
      | empty => exact absurd h hslot
      | queued f => exact ⟨f, .inl rfl⟩
      | departing f t => exact ⟨f, .inr ⟨t, rfl⟩⟩
    have hqueued (f : Frame) (h : code = 1#3) (hq : s.slot r i = .queued f) :
        s.popHead.completeSlot r i code o.stamp = _ := h ▸ State.completeSlot_of_queued (s := s.popHead) hq o.stamp
    have hdeparting (f : Frame) (t : Time) (h : code = 1#3) (hd : s.slot r i = .departing f t) :
        s.popHead.completeSlot r i code o.stamp = _ := h ▸ State.completeSlot_of_departing (s := s.popHead) hd o.stamp
    have hframe (f' : Frame) (hf' : s.slot r i = .queued f' ∨ ∃ t, s.slot r i = .departing f' t) :=
      State.completeSlot_of_frame (s := s.popHead) hcode hf' o.stamp
    obtain ⟨w, hw, hconcluded⟩ := hframe f hf
    have hside := hconcluded.side
    refine ⟨?_, ?_, ?_, ?_, ?_, ?_, hqueued, hdeparting, fun f' hf' => ?_⟩
    · rw [hw]; exact hside.sameLink
    · rw [hw]; exact hside.oq
    · rw [hw]; exact hside.ci
    · rw [hw]; exact hside.rw
    · rw [hw]; exact State.slot_setSlot_self _ _ _ _
    · rw [hw]; exact .setSlot hside.tt r i _
    · obtain ⟨w', hw', hconcluded'⟩ := hframe f' hf'
      have hfailing {j : Nat} {g : BitVec 8} (href : f'.ref = .listed j g) (hfail : (s.flow j).checkOk = false) :=
        hconcluded'.failing_effect href hfail
      simp only [State.checked_popHead] at hfailing
      rw [hw']
      exact ⟨hconcluded'.other, fun p => hconcluded'.unlisted_effect, fun j g => hconcluded'.orphan_effect,
        fun j g => hfailing, fun j g => hconcluded'.occupied_effect⟩

end Sys2Proof.Machine
end

