-- ==== Sys2Proof/Proofs/EnqueueListing.lean ====
section
/-! PROOFS. The hand-out of an ENQUEUE: how its frame is listed, and the slot it fills. -/

namespace Sys2Proof.Machine

variable {s : State} {o : Observation} {port : BitVec 4} {tag : BitVec 20} {copy : BitVec 4} {q : BitVec 16} {v : Bool}

/-! ## The lookup (R35, R36) -/

/-- The four ways are read in ascending order (R34, R35). -/
theorem State.checkedAll_setWays (s : State) (set : Nat) :
    s.checkedAll (setWays set) =
      (((s.checked (4 * set)).checked (4 * set + 1)).checked (4 * set + 2)).checked (4 * set + 3) := by
  simp only [setWays, flowIndex, Nat.mul_comm set 4]
  rfl

/-- No way is found where none hits (R35). -/
theorem State.hitWay_eq_none (h : ∀ x < 4, ¬ s.HitsAt port tag x) : s.hitWay (setIndex port tag) port tag = none := by
  rw [State.hitWay, show [0, 1, 2, 3] = List.range 4 from rfl, List.find?_range_eq_none]
  intro x hx
  simpa using (s.hitsAt_iff port tag x).not.1 (h x hx)

theorem State.lookup_of_hit {c : State} {x : Nat} (hc : c = s.checkedAll (setWays (setIndex port tag)))
    (hhit : c.hitWay (setIndex port tag) port tag = some x) (copy : BitVec 4) (time : Time) :
    s.lookup port tag copy time =
      if copy = 0#4 then (c.useWay (setIndex port tag) x, .arrival (flowIndex (setIndex port tag) x))
      else (c, .copy (flowIndex (setIndex port tag) x)) := by
  subst hc
  rw [State.lookup, hhit]

theorem State.lookup_of_miss {c : State} (hc : c = s.checkedAll (setWays (setIndex port tag)))
    (hmiss : c.hitWay (setIndex port tag) port tag = none) (copy : BitVec 4) (time : Time) :
    s.lookup port tag copy time =
      if copy = 0#4 then c.allocate (setIndex port tag) port tag time else (c, .unlisted (c.classify port tag)) := by
  subst hc
  rw [State.lookup, hmiss]

/-- The classifier's answer hangs on CI alone (R29). -/
theorem State.classify_congr {s t : State} (h : t.ci = s.ci) (port : BitVec 4) (tag : BitVec 20) :
    t.classify port tag = s.classify port tag := by
  simp only [State.classify, State.classifierEntry, h]

/-- Under freeze, or for an untracked profile, nothing is allocated (R46, R47). -/
theorem State.allocate_of_barred
    (h : s.ci.held.freeze = true ∨ (s.profile (s.classify port tag)).tracked = false) (set : Nat) (time : Time) :
    s.allocate set port tag time = (s.count .unlistedArrivals, .unlisted (s.classify port tag)) := by
  have hbarred : (s.ci.held.freeze || !(s.profile (s.classify port tag)).tracked) = true := by
    rcases h with h | h <;> simp [h]
  exact if_pos hbarred

/-- An allocation lists its frame as an arrival, or not at all. -/
theorem State.allocate_ne_copy (s : State) (set : Nat) (port : BitVec 4) (tag : BitVec 20) (time : Time) (n : Nat) :
    (s.allocate set port tag time).2 ≠ .copy n := by
  unfold State.allocate
  dsimp only
  split
  · nofun
  · split <;> nofun

/-! ## Before the slot is filled -/

theorem State.listed_of_arrival {t : State} {n : Nat} (h : s.lookup port tag copy o.stamp = (t, .arrival n)) :
    s.listed o port tag copy q v = (t.evaluateArrival n q v).reArm n o.stamp := by
  unfold State.listed
  rw [h]

theorem State.listed_of_copy {t : State} {n : Nat} (h : s.lookup port tag copy o.stamp = (t, .copy n)) :
    s.listed o port tag copy q v = t := by
  unfold State.listed
  rw [h]

theorem State.listed_of_unlisted {t : State} {p : Nat} (h : s.lookup port tag copy o.stamp = (t, .unlisted p)) :
    s.listed o port tag copy q v = t := by
  unfold State.listed
  rw [h]

/-- The reference TT receives for an ENQUEUE (R37). -/
def State.listedRef (s : State) (o : Observation) (port : BitVec 4) (tag : BitVec 20) (copy : BitVec 4) (q : BitVec 16)
    (v : Bool) : FlowRef :=
  (s.listed o port tag copy q v).refOf (s.lookup port tag copy o.stamp).2

/-- An arrival is referred to by the generation its entry has at the lookup, which the arrival keeps (R33, R37). -/
theorem State.listedRef_of_arrival {t : State} {n : Nat} (h : s.lookup port tag copy o.stamp = (t, .arrival n)) :
    s.listedRef o port tag copy q v = .listed n (t.flow n).generation := by
  have hgeneration := t.generation_arrival n q v o.stamp
  rw [State.listedRef, State.listed_of_arrival h, h, State.refOf, hgeneration]

theorem State.listedRef_of_copy {t : State} {n : Nat} (h : s.lookup port tag copy o.stamp = (t, .copy n)) :
    s.listedRef o port tag copy q v = .listed n (t.flow n).generation := by
  simp only [State.listedRef, State.listed_of_copy h, h, State.refOf]

theorem State.listedRef_of_unlisted {t : State} {p : Nat} (h : s.lookup port tag copy o.stamp = (t, .unlisted p)) :
    s.listedRef o port tag copy q v = .unlisted p := by
  simp only [State.listedRef, h, State.refOf]

/-- A hit lists the frame under its way's entry (R35, R36). -/
theorem State.listed_hit {c : State} {x n : Nat} (hc : c = s.checkedAll (setWays (setIndex port tag)))
    (hhit : c.hitWay (setIndex port tag) port tag = some x) (hn : n = 4 * setIndex port tag + x) :
    s.listedRef o port tag copy q v = .listed n (c.flow n).generation ∧
      (copy ≠ 0#4 → s.listed o port tag copy q v = c) ∧
      (copy = 0#4 → s.listed o port tag copy q v =
        ((c.useWay (setIndex port tag) x).evaluateArrival n q v).reArm n o.stamp) := by
  have hindex : flowIndex (setIndex port tag) x = n := by rw [hn, flowIndex, Nat.mul_comm]
  have hlookup := State.lookup_of_hit hc hhit copy o.stamp
  rw [hindex] at hlookup
  by_cases hcopy : copy = 0#4
  · rw [if_pos hcopy] at hlookup
    have href := State.listedRef_of_arrival (q := q) (v := v) hlookup
    exact ⟨href, fun h => absurd hcopy h, fun _ => State.listed_of_arrival hlookup⟩
  · rw [if_neg hcopy] at hlookup
    exact ⟨State.listedRef_of_copy hlookup, fun _ => State.listed_of_copy hlookup, fun h => absurd h hcopy⟩

/-- A miss leaves another copy, and a copy 0 that may not be allocated, unlisted (R36, R46, R47). -/
theorem State.listed_miss {c : State} (hc : c = s.checkedAll (setWays (setIndex port tag)))
    (hmiss : c.hitWay (setIndex port tag) port tag = none) (hci : c.ci = s.ci) :
    (copy ≠ 0#4 → s.listed o port tag copy q v = c ∧
      s.listedRef o port tag copy q v = .unlisted (s.classify port tag)) ∧
    (copy = 0#4 → s.ci.held.freeze = true ∨ (s.profile (s.classify port tag)).tracked = false →
      s.listed o port tag copy q v = c.count .unlistedArrivals ∧
      s.listedRef o port tag copy q v = .unlisted (s.classify port tag)) := by
  have hlookup := State.lookup_of_miss hc hmiss copy o.stamp
  have hclass := State.classify_congr hci port tag
  refine ⟨fun hcopy => ?_, fun hcopy hbarred => ?_⟩
  · rw [if_neg hcopy, hclass] at hlookup
    exact ⟨State.listed_of_unlisted hlookup, State.listedRef_of_unlisted hlookup⟩
  · have hbarred' : c.ci.held.freeze = true ∨ (c.profile (c.classify port tag)).tracked = false := by
      rwa [hclass, State.profile, hci]
    rw [if_pos hcopy, State.allocate_of_barred hbarred', hclass] at hlookup
    exact ⟨State.listed_of_unlisted hlookup, State.listedRef_of_unlisted hlookup⟩

/-- A copy 0 that may be allocated is listed, or not, as the allocation says (R38, R41). -/
theorem State.listed_allocated {c : State} (hc : c = s.checkedAll (setWays (setIndex port tag)))
    (hmiss : c.hitWay (setIndex port tag) port tag = none) (hcopy : copy = 0#4) {t : State} {l : Listing}
    (hallocate : c.allocate (setIndex port tag) port tag o.stamp = (t, l)) :
    (∀ n, l = .arrival n → s.listed o port tag copy q v = (t.evaluateArrival n q v).reArm n o.stamp ∧
      s.listedRef o port tag copy q v = .listed n (t.flow n).generation) ∧
    (∀ n, l ≠ .copy n) ∧
    ∀ p, l = .unlisted p → s.listed o port tag copy q v = t ∧ s.listedRef o port tag copy q v = .unlisted p := by
  have hlookup := State.lookup_of_miss hc hmiss copy o.stamp
  rw [if_pos hcopy, hallocate] at hlookup
  have hnever := c.allocate_ne_copy (setIndex port tag) port tag o.stamp
  rw [hallocate] at hnever
  refine ⟨?_, hnever, ?_⟩
  · rintro n rfl
    exact ⟨State.listed_of_arrival hlookup, State.listedRef_of_arrival hlookup⟩
  · rintro p rfl
    exact ⟨State.listed_of_unlisted hlookup, State.listedRef_of_unlisted hlookup⟩

/-! ## The slot (R87 to R89) -/

/-- An ENQUEUE displaces the frame in its slot and fills the slot, behind the lookup and the arrival (R37, R87). -/
theorem State.takeEnqueue_fills (s : State) (o : Observation) (r i : Nat) (port : BitVec 4) (tag : BitVec 20)
    (copy : BitVec 4) (q : BitVec 16) (v : Bool) :
    s.takeEnqueue o r i port tag copy q v = ((s.listed o port tag copy q v).displace r i).setSlot r i
      (.queued (newFrame (s.listedRef o port tag copy q v) copy q v o.stamp)) := s.takeEnqueue_eq o r i port tag copy q v

/-- Settles O22: the record leaves the queue, the lookup lists the frame, the frame in the slot is displaced, and the slot
is filled. -/
theorem enqueueFillsItsSlot : Obligations.EnqueueFillsItsSlot := by
  intro s v c o port tag copy q valid r i set hhead hbody hfound hset hv hc
  change v = s.popHead at hv
  subst hset
  rw [← State.checkedAll_setWays] at hc
  have hexec := exec_enqueue hhead hbody hfound
  rw [State.takeEnqueue_fills, ← hv] at hexec
  have hlink : SameLink s v := by rw [hv]; exact ⟨rfl, rfl, rfl⟩
  have hvci : v.ci = s.ci := by rw [hv]; rfl
  have hvrw : v.rw = s.rw := by rw [hv]; rfl
  have hvtt : v.tt = s.tt := by rw [hv]; rfl
  have hclass : v.classify port tag = s.classify port tag := State.classify_congr hvci port tag
  have hprofile (p : Nat) : v.profile p = s.profile p := by rw [State.profile, hvci, State.profile]
  have hci : c.ci = v.ci := by rw [hc]; exact (FlowSide.checkedAll v _).ci
  have hside := FlowSide.listed v o port tag copy q valid
  have hdisplaced := hside.trans (.displace _ r i)
  obtain ⟨t, ht⟩ : ∃ t, t = (v.listed o port tag copy q valid).displace r i := ⟨_, rfl⟩
  rw [← ht] at hexec hdisplaced
  refine ⟨_, v.listed o port tag copy q valid, v.listedRef o port tag copy q valid, hexec, ?_,
    hdisplaced.ci.trans hvci, hdisplaced.rw.trans hvrw, hdisplaced.oq, State.slot_setSlot_self _ _ _ _,
    .setSlot (hdisplaced.tt.trans hvtt) r i _, ?_, hside,
    fun x n hx hhit hlower hn => State.listed_hit hc (State.hitWay_eq_some hx hhit hlower) hn, fun hmiss => ?_⟩
  · obtain ⟨hfp, hmem, hpending⟩ := hlink
    obtain ⟨hfp', hmem', hpending'⟩ := hdisplaced.sameLink
    exact ⟨hfp'.trans hfp, hmem'.trans hmem, hpending'.trans hpending⟩
  · rw [State.slot_setSlot_self, ht]
  · have hnone := State.hitWay_eq_none hmiss
    obtain ⟨hother, hbarred⟩ := State.listed_miss (o := o) (copy := copy) (q := q) (v := valid) hc hnone hci
    rw [hclass, hvci, hprofile] at hbarred
    rw [hclass] at hother
    refine ⟨hother, fun hcopy h => ?_, fun hcopy _ _ => ?_⟩
    · obtain ⟨hcount, href⟩ := hbarred hcopy h
      rw [hcount]
      exact ⟨rfl, href, fun _ => rfl, c.agg_count_eq .unlistedArrivals⟩
    · obtain ⟨t, l, hallocate⟩ : ∃ t l, c.allocate (setIndex port tag) port tag o.stamp = (t, l) := ⟨_, _, rfl⟩
      exact ⟨t, l, hallocate, State.listed_allocated hc hnone hcopy hallocate⟩

end Sys2Proof.Machine
end

