-- ==== Sys2Proof/Proofs/RingGeometry.lean ====
section
/-! PROOFS. The ring geometry after an application: the evaluation of the sixteen rings, each behind the lower-numbered
ones, and what a change of rings leaves of rings and slots. -/

namespace Sys2Proof.Machine

variable (s : State)

/-! ## The evaluation (R165) -/

/-- Ring r's geometry as the evaluation of all rings holds it. -/
def State.newRing (s : State) (r : Nat) : RingGeometry := s.evaluateRing (s.evaluateRings [] (List.range r)) r

theorem State.evaluateRings_append (lower : List RingGeometry) (l m : List Nat) :
    s.evaluateRings lower (l ++ m) = s.evaluateRings (s.evaluateRings lower l) m := by
  induction l generalizing lower with
  | nil => rfl
  | cons r rest ih => exact ih _

/-- The evaluation lists each ring as evaluated behind the rings before it. -/
theorem State.evaluateRings_range (n : Nat) : s.evaluateRings [] (List.range n) = (List.range n).map s.newRing := by
  induction n with
  | zero => rfl
  | succ n ih =>
    have hlast : s.evaluateRings [] (List.range n ++ [n]) = s.evaluateRings [] (List.range n) ++ [s.newRing n] :=
      s.evaluateRings_append [] (List.range n) [n]
    rw [List.range_succ, hlast, ih, List.map_append]
    rfl

theorem State.newRing_eq (r : Nat) : s.newRing r = s.evaluateRing ((List.range r).map s.newRing) r := by
  rw [State.newRing, State.evaluateRings_range]

/-- The image bytes of the ring geometry table differ from those of an older image. -/
def State.geometryChanged (s : State) (old : Store Byte) : Bool :=
  (List.range 256).any fun k => decide (s.ci.image.get 0#8 (0x100 + k) ≠ old.get 0#8 (0x100 + k))

theorem State.geometryChanged_iff (old : Store Byte) :
    s.geometryChanged old = true ↔ ∃ k < 256, s.imageByte (0x100 + k) ≠ old.get 0#8 (0x100 + k) := by
  simp [State.geometryChanged, State.imageByte]

/-- Ring r's geometry after an application whose image was `old` before. -/
def State.ringAfter (s : State) (old : Store Byte) (r : Nat) : RingGeometry :=
  if s.geometryChanged old then s.newRing r else s.ring r

theorem State.ringsAfter_eq (old : Store Byte) : s.ringsAfter old = (List.range 16).map (s.ringAfter old) := by
  change (if s.geometryChanged old then s.evaluateRings [] (List.range 16) else (List.range 16).map s.ring) = _
  unfold State.ringAfter
  split
  · exact s.evaluateRings_range 16
  · rfl

theorem State.slots_ringAfter (hsize : ∀ r, (s.ring r).slots ≤ 256) (old : Store Byte) (r : Nat) :
    (s.ringAfter old r).slots ≤ 256 := by
  unfold State.ringAfter
  split
  · exact clampSlots_le _
  · exact hsize r

/-! ### The values of an evaluated ring -/

/-- The base held is the written one with its low five bits cleared (R164). -/
theorem State.base_newRing (r : Nat) : (s.newRing r).base.toNat = clampBase (s.writtenBase r) := by
  have hwritten : s.writtenBase r < 2 ^ 27 := Nat.mod_lt _ (by decide)
  have hclamped : clampBase (s.writtenBase r) ≤ s.writtenBase r := Nat.div_mul_le_self _ _
  change (BitVec.ofNat 27 (clampBase (s.writtenBase r))).toNat = _
  rw [BitVec.toNat_ofNat, Nat.mod_eq_of_lt (by omega)]

theorem State.slots_newRing (r : Nat) : (s.newRing r).slots = clampSlots (s.writtenSlots r) := rfl

theorem State.enabled_newRing (r : Nat) :
    (s.newRing r).enabled =
      (s.writtenEnable r && mayEnable s.controlBase ((List.range r).map s.newRing) (s.newRing r).base.toNat
        (s.newRing r).slots) := by
  rw [State.base_newRing, State.slots_newRing, State.newRing_eq]
  rfl

theorem overlaps_eq_false_iff (a aSize b bSize : Nat) :
    overlaps a aSize b bSize = false ↔ a + aSize ≤ b ∨ b + bSize ≤ a := by
  simp only [overlaps, Bool.and_eq_false_iff, decide_eq_false_iff_not, Nat.not_lt]
  exact Or.comm

/-- A ring may be enabled when its window ends in the address space, keeps off the control region and off the lower
rings that are enabled, and its slots fit with theirs (R165). -/
theorem mayEnable_iff (control r base slots : Nat) (g : Nat → RingGeometry) :
    mayEnable control ((List.range r).map g) base slots = true ↔
      base + 32 * slots ≤ 2 ^ 27 ∧ (base + 32 * slots ≤ control ∨ control + 65536 ≤ base) ∧
      (∀ q < r, (g q).enabled = true →
        base + 32 * slots ≤ (g q).base.toNat ∨ (g q).base.toNat + 32 * (g q).slots ≤ base) ∧
      slots + (((List.range r).filter fun q => (g q).enabled).map fun q => (g q).slots).sum ≤ 2048 := by
  simp only [mayEnable, List.filter_map, List.map_map, Bool.and_eq_true, Bool.not_eq_true', decide_eq_true_eq,
    List.any_map, List.any_eq_false, List.mem_filter, List.mem_range, Function.comp_apply, and_imp, Bool.not_eq_true,
    overlaps_eq_false_iff, Config.slotTotal, and_assoc]
  rfl

/-! ## A change of rings (R84, R165) -/

/-- Rings change to the geometries of a function, in the order of a list. -/
def State.regeometry (s : State) (g : Nat → RingGeometry) : List Nat → State
  | [] => s
  | r :: rest => (s.changeRing r (g r)).regeometry g rest

theorem State.changeRings_range' (k n : Nat) (g : Nat → RingGeometry) :
    s.changeRings k ((List.range' k n).map g) = s.regeometry g (List.range' k n) := by
  induction n generalizing s k with
  | zero => rfl
  | succ n ih => exact ih (s.changeRing k (g k)) (k + 1)

theorem State.changeRings_range (n : Nat) (g : Nat → RingGeometry) :
    s.changeRings 0 ((List.range n).map g) = s.regeometry g (List.range n) := by
  rw [List.range_eq_range']
  exact s.changeRings_range' 0 n g

theorem State.ring_regeometry (g : Nat → RingGeometry) (l : List Nat) (q : Nat) :
    (s.regeometry g l).ring q = if q ∈ l then g q else s.ring q := by
  induction l generalizing s with
  | nil => rfl
  | cons r rest ih =>
    rw [State.regeometry, ih, State.ring_changeRing]
    by_cases hq : q = r
    · subst hq; simp
    · simp [hq]

/-! ### Slots -/

/-- A change of a ring brings no frame. -/
theorem State.changeRing_empty {n : Nat} (h : s.tt.get .empty n = .empty) (r : Nat) (g : RingGeometry) :
    (s.changeRing r g).tt.get .empty n = .empty := by
  by_cases hne : s.ring r = g
  · rwa [s.changeRing_of_eq hne]
  · rw [s.changeRing_of_ne hne]
    exact (FramesStand.vacateRing s r).empty n h

theorem State.regeometry_empty {n : Nat} (h : s.tt.get .empty n = .empty) (g : Nat → RingGeometry) (l : List Nat) :
    (s.regeometry g l).tt.get .empty n = .empty := by
  induction l generalizing s with
  | nil => exact h
  | cons r rest ih => exact ih _ (s.changeRing_empty h r (g r))

/-- A ring that was enabled and changes loses its frames (R84). -/
theorem State.slot_regeometry_of_changed {g : Nat → RingGeometry} {l : List Nat} {r i : Nat} (hr : r ∈ l)
    (hne : s.ring r ≠ g r) (henabled : (s.ring r).enabled = true) (hi : i < (s.ring r).slots) :
    (s.regeometry g l).slot r i = .empty := by
  induction l generalizing s with
  | nil => cases hr
  | cons q rest ih =>
    by_cases hq : r = q
    · subst hq
      refine State.regeometry_empty _ ?_ g rest
      rw [s.changeRing_of_ne hne]
      exact s.slot_vacateRing henabled hi
    · have hring : (s.changeRing q (g q)).ring r = s.ring r := by rw [State.ring_changeRing, if_neg hq]
      exact ih _ ((List.mem_cons.1 hr).resolve_left hq) (by rwa [hring]) (by rwa [hring]) (by rwa [hring])

/-- The resolution of slots of one ring leaves the slots of another. -/
theorem State.slot_resolveSlots_of_ne {r q i : Nat} (hr : r ≠ q) (hi : i < 256) {l : List Nat}
    (hl : ∀ k ∈ l, k < 256) :
    (s.resolveSlots q l).slot r i = s.slot r i := by
  induction l generalizing s with
  | nil => rfl
  | cons k rest ih =>
    rw [State.resolveSlots, ih _ fun k' hk' => hl k' (List.mem_cons_of_mem _ hk')]
    have hk := hl k List.mem_cons_self
    have hnumber : slotNumber r i ≠ slotNumber q k := fun h => hr (slotNumber_inj r q i k hi hk h).1
    have hother (t : State) (ht : t.tt = s.tt) : (t.setSlot q k .empty).slot r i = s.slot r i :=
      SameSlotsBut.setSlot ht q k .empty _ hnumber
    unfold State.resolveSlot
    split
    · rfl
    · exact hother _ (State.credit_tt _ _ _ _)
    · exact hother _ (State.credit_tt _ _ _ _)

/-- A change of one ring leaves the slots of the others. -/
theorem State.slot_changeRing_of_ne (hsize : ∀ r, (s.ring r).slots ≤ 256) {r q i : Nat} (hr : r ≠ q) (hi : i < 256)
    (g : RingGeometry) : (s.changeRing q g).slot r i = s.slot r i := by
  by_cases hne : s.ring q = g
  · rw [s.changeRing_of_eq hne]
  · rw [s.changeRing_of_ne hne]
    change (s.vacateRing q).slot r i = s.slot r i
    unfold State.vacateRing
    split
    · refine s.slot_resolveSlots_of_ne hr hi fun k hk => ?_
      have hbound := hsize q
      have hbelow := List.mem_range.1 hk
      omega
    · rfl

theorem State.slots_changeRing (hsize : ∀ r, (s.ring r).slots ≤ 256) (q : Nat) {g : RingGeometry} (hg : g.slots ≤ 256)
    (r : Nat) : ((s.changeRing q g).ring r).slots ≤ 256 := by
  rw [State.ring_changeRing]
  split
  · exact hg
  · exact hsize r

/-- The slots of a ring that stands are left. -/
theorem State.slot_regeometry_of_stands (hsize : ∀ r, (s.ring r).slots ≤ 256) {g : Nat → RingGeometry}
    (hg : ∀ r, (g r).slots ≤ 256) {l : List Nat} {r i : Nat} (hstands : r ∈ l → g r = s.ring r) (hi : i < 256) :
    (s.regeometry g l).slot r i = s.slot r i := by
  induction l generalizing s with
  | nil => rfl
  | cons q rest ih =>
    rw [State.regeometry, ih _ (s.slots_changeRing hsize q (hg q)) fun hr => ?_]
    · by_cases hq : r = q
      · subst hq
        rw [s.changeRing_of_eq (hstands List.mem_cons_self).symm]
      · exact s.slot_changeRing_of_ne hsize hq hi (g q)
    · rw [State.ring_changeRing]
      split
      · next hq => rw [hq]
      · exact hstands (List.mem_cons_of_mem _ hr)

/-- The application of the ring geometry: the clamps are noted, and the rings change. -/
theorem State.applyRings_eq {bytes : List (Nat × Byte)} (hnamed : names bytes 0x100 256 = true) (old : Store Byte) :
    s.applyRings bytes old =
      (s.noteRings s bytes 0 ((List.range 16).map (s.ringAfter old))).regeometry (s.ringAfter old) (List.range 16) := by
  unfold State.applyRings
  rw [if_pos hnamed, State.ringsAfter_eq]
  exact State.changeRings_range _ 16 _

end Sys2Proof.Machine
end

