-- ==== Sys2Proof/Proofs/LostFrames.lean ====
section
/-! PROOFS. The frames that a change of ring geometry loses, as the list of their references, and what their UNRESOLVED
verdicts make of a flow entry. -/

namespace Sys2Proof.Machine

/-! ## One UNRESOLVED verdict (R84, R101) -/

/-- What the UNRESOLVED verdict of a frame with a reference makes of flow entry j. -/
def FlowEntry.resolve (j : Nat) (e : FlowEntry) : FlowRef → FlowEntry
  | .unlisted _ => e
  | .listed i g =>
    if i = j then
      if e.checkOk then if e.occupiedBy g then (e.bump .unresolved 1).mark else e else vacantEntry (e.generation + 1)
    else e

theorem FlowEntry.resolve_listed (j : Nat) (e : FlowEntry) (g : BitVec 8) :
    e.resolve j (.listed j g) =
      if e.checkOk then if e.occupiedBy g then (e.bump .unresolved 1).mark else e
      else vacantEntry (e.generation + 1) := if_pos rfl

theorem FlowEntry.resolve_listed_of_ne {i j : Nat} (h : i ≠ j) (e : FlowEntry) (g : BitVec 8) :
    e.resolve j (.listed i g) = e := if_neg h

theorem State.flow_creditUnlisted (s : State) (v : Verdict) (j : Nat) : (s.creditUnlisted v).flow j = s.flow j := by
  rw [s.creditUnlisted_frame v]
  rfl

/-- An UNRESOLVED verdict resolves its reference in every entry. -/
theorem State.flow_credit_unresolved (s : State) (r : Nat) (ref : FlowRef) (j : Nat) :
    (s.credit r ref .unresolved).flow j = (s.flow j).resolve j ref := by
  cases ref with
  | unlisted p => exact s.flow_creditUnlisted .unresolved j
  | listed i g =>
    by_cases hj : i = j
    · subst hj
      rw [FlowEntry.resolve_listed]
      by_cases hok : (s.flow i).checkOk = true
      · rw [if_pos hok]
        by_cases hoccupied : (s.flow i).occupiedBy g = true
        · obtain ⟨hvalid, hgeneration⟩ := FlowEntry.occupiedBy_iff.1 hoccupied
          rw [if_pos hoccupied, State.credit_of_occupied hok hvalid hgeneration, State.flow_creditFlow hok]
          rfl
        · have hgone : (s.flow i).valid = false ∨ (s.flow i).generation ≠ g := by
            rw [FlowEntry.occupiedBy_iff, not_and_or, Bool.not_eq_true] at hoccupied
            exact hoccupied
          rw [if_neg hoccupied, State.credit_of_gone hok hgone, State.flow_count]
      · rw [if_neg hok, State.credit_of_fail (by simpa using hok), State.flow_count, State.flow_checked,
          if_pos ⟨rfl, by simpa using hok⟩]
    · rw [State.flow_credit_of_ne s r (Ne.symm hj), FlowEntry.resolve_listed_of_ne hj]

/-! ## Many UNRESOLVED verdicts -/

/-- What the UNRESOLVED verdicts of a list of frames make of flow entry j. -/
def FlowEntry.resolveAll (j : Nat) (e : FlowEntry) (l : List FlowRef) : FlowEntry := l.foldl (FlowEntry.resolve j) e

theorem FlowEntry.resolveAll_append (j : Nat) (e : FlowEntry) (l m : List FlowRef) :
    e.resolveAll j (l ++ m) = (e.resolveAll j l).resolveAll j m := List.foldl_append

/-- A reference that a sound entry does not answer to changes nothing. -/
theorem FlowEntry.resolve_of_other {j : Nat} {e : FlowEntry} (hok : e.checkOk = true) {ref : FlowRef}
    (h : e.valid = false ∨ ref ≠ .listed j e.generation) : e.resolve j ref = e := by
  cases ref with
  | unlisted p => rfl
  | listed i g =>
    by_cases hi : i = j
    · subst hi
      rw [FlowEntry.resolve_listed, if_pos hok, if_neg]
      rw [FlowEntry.occupiedBy_iff]
      rintro ⟨hvalid, rfl⟩
      rcases h with hvacant | hne
      · rw [hvalid] at hvacant; cases hvacant
      · exact hne rfl
    · exact FlowEntry.resolve_listed_of_ne hi e g

theorem FlowEntry.resolveAll_of_other {j : Nat} {e : FlowEntry} (hok : e.checkOk = true) {l : List FlowRef}
    (h : e.valid = false ∨ .listed j e.generation ∉ l) : e.resolveAll j l = e := by
  induction l with
  | nil => rfl
  | cons ref rest ih =>
    have hfirst : e.resolve j ref = e :=
      FlowEntry.resolve_of_other hok (h.imp_right fun hnot heq => hnot (by simp [heq]))
    rw [FlowEntry.resolveAll, List.foldl_cons, hfirst]
    exact ih (h.imp_right fun hnot hmem => hnot (List.mem_cons_of_mem _ hmem))

theorem FlowEntry.resolve_of_occupied {j : Nat} {e : FlowEntry} (hok : e.checkOk = true) (hvalid : e.valid = true) :
    e.resolve j (.listed j e.generation) = (e.bump .unresolved 1).mark := by
  rw [FlowEntry.resolve_listed, if_pos hok, if_pos (FlowEntry.occupiedBy_iff.2 ⟨hvalid, rfl⟩)]

/-- Listing a value twice at one key lists the second. -/
theorem insertCell_insertCell {α : Type} (k : Nat) (v w : α) (l : List (Nat × α)) :
    insertCell k v (insertCell k w l) = insertCell k v l := by
  induction l with
  | nil => simp [insertCell]
  | cons c rest ih =>
    simp only [insertCell]
    split
    · simp [insertCell]
    · next hlt =>
      split
      · simp [insertCell]
      · next hne => rw [insertCell, if_neg hlt, if_neg hne, ih]

/-- Writing two values that are listed in turn at one key writes the second. -/
theorem Store.set_set {α : Type} [DecidableEq α] (m : Store α) {d v w : α} (hv : v ≠ d) (hw : w ≠ d) (k : Nat) :
    (m.set d k w).set d k v = m.set d k v := by
  simp only [Store.set, if_neg hv, if_neg hw, Store.put, insertCell_insertCell]

/-- A tally that counts `m` frames counts them together (R127). -/
theorem FlowEntry.bump_bump (e : FlowEntry) (m : Nat) :
    { (e.bump .unresolved 1).mark with
        tallies := (e.bump .unresolved 1).mark.tallies.set 0 15
          (min ((e.bump .unresolved 1).mark.tally .unresolved + m) 4294967295), dirty := true } =
      { e with tallies := e.tallies.set 0 15 (min (e.tally .unresolved + (1 + m)) 4294967295), dirty := true } := by
  have hone : (e.bump .unresolved 1).mark.tally .unresolved = min (e.tally .unresolved + 1) 4294967295 := by
    rw [FlowEntry.mark_tally, FlowEntry.tally_bump, if_pos rfl]; rfl
  have hsum : min (min (e.tally .unresolved + 1) 4294967295 + m) 4294967295 =
      min (e.tally .unresolved + (1 + m)) 4294967295 := by omega
  have htallies : (e.bump .unresolved 1).mark.tallies =
      e.tallies.set 0 15 (min (e.tally .unresolved + 1) 4294967295) := rfl
  rw [hone, hsum, htallies, Store.set_set _ (by omega) (by omega)]
  rfl

/-- A valid sound entry counts the frames of its occupancy, and nothing else (R84, R101). -/
theorem FlowEntry.resolveAll_of_occupied {j : Nat} {e : FlowEntry} (hok : e.checkOk = true) (hvalid : e.valid = true)
    {l : List FlowRef} (hl : l.count (.listed j e.generation) ≠ 0) :
    e.resolveAll j l = { e with
      tallies := e.tallies.set 0 15 (min (e.tally .unresolved + l.count (.listed j e.generation)) 4294967295)
      dirty := true } := by
  induction l generalizing e with
  | nil => exact absurd rfl hl
  | cons ref rest ih =>
    rw [FlowEntry.resolveAll, List.foldl_cons]
    by_cases href : ref = .listed j e.generation
    · subst href
      rw [FlowEntry.resolve_of_occupied hok hvalid, List.count_cons_self]
      by_cases hrest : rest.count (.listed j e.generation) = 0
      · rw [hrest]
        exact FlowEntry.resolveAll_of_other (e := (e.bump .unresolved 1).mark) hok (.inr (List.count_eq_zero.1 hrest))
      · rw [Nat.add_comm (rest.count _), ← e.bump_bump]
        exact ih (e := (e.bump .unresolved 1).mark) hok hvalid hrest
    · have hcount : (ref :: rest).count (.listed j e.generation) = rest.count (.listed j e.generation) :=
        List.count_cons_of_ne href
      rw [hcount] at hl ⊢
      rw [FlowEntry.resolve_of_other hok (.inr href)]
      exact ih hok hvalid hl

/-- An entry that fails its check stands until a frame refers to it. -/
theorem FlowEntry.resolveAll_of_unread {j : Nat} {e : FlowEntry} {l : List FlowRef}
    (h : ∀ g, .listed j g ∉ l) : e.resolveAll j l = e := by
  induction l with
  | nil => rfl
  | cons ref rest ih =>
    have hfirst : e.resolve j ref = e := by
      cases ref with
      | unlisted p => rfl
      | listed i g => exact if_neg fun hi => h g (by simp [hi])
    rw [FlowEntry.resolveAll, List.foldl_cons, hfirst]
    exact ih fun g hg => h g (List.mem_cons_of_mem _ hg)

/-- The first frame that refers to a failing entry faults it, whatever its generation (R51, R52). -/
theorem FlowEntry.resolveAll_of_fail {j : Nat} {e : FlowEntry} (hfail : e.checkOk = false) {l : List FlowRef}
    (h : ∃ g, .listed j g ∈ l) : e.resolveAll j l = vacantEntry (e.generation + 1) := by
  induction l with
  | nil => obtain ⟨g, hg⟩ := h; cases hg
  | cons ref rest ih =>
    rw [FlowEntry.resolveAll, List.foldl_cons]
    by_cases href : ∃ g, ref = .listed j g
    · obtain ⟨g, rfl⟩ := href
      have hfirst : e.resolve j (.listed j g) = vacantEntry (e.generation + 1) := by
        rw [FlowEntry.resolve_listed, if_neg (by simp [hfail])]
      rw [hfirst]
      exact FlowEntry.resolveAll_of_other rfl (.inl rfl)
    · have hfirst : e.resolve j ref = e := FlowEntry.resolveAll_of_unread (l := [ref]) fun g hg =>
        href ⟨g, (List.mem_singleton.1 hg).symm⟩
      rw [hfirst]
      obtain ⟨g, hg⟩ := h
      exact ih ⟨g, (List.mem_cons.1 hg).resolve_left fun heq => href ⟨g, heq.symm⟩⟩

/-! ## The frames lost (R84) -/

/-- The reference of the frame in a slot. -/
def Slot.ref : Slot → Option FlowRef
  | .empty => none
  | .queued f => some f.ref
  | .departing f _ => some f.ref

theorem Slot.holdsFrameOf_eq (x : Slot) (j : Nat) (g : BitVec 8) :
    x.holdsFrameOf j g = decide (x.ref = some (.listed j g)) := by
  cases x <;> simp [Slot.holdsFrameOf, Slot.ref]

variable (s : State)

/-- The references of the frames in slots of ring r. -/
def State.frameRefs (s : State) (r : Nat) (l : List Nat) : List FlowRef := l.filterMap fun i => (s.slot r i).ref

/-- The references of the frames that ring r loses when its geometry becomes `g`. -/
def State.lostRefs (s : State) (g : Nat → RingGeometry) (r : Nat) : List FlowRef :=
  if g r ≠ s.ring r ∧ (s.ring r).enabled = true then s.frameRefs r (List.range (s.ring r).slots) else []

theorem State.flow_resolveSlot (r i j : Nat) :
    (s.resolveSlot r i).flow j = (s.flow j).resolveAll j (s.slot r i).ref.toList := by
  unfold State.resolveSlot
  split
  · next h => rw [h]; rfl
  · next f h => rw [h]; exact s.flow_credit_unresolved r f.ref j
  · next f d h => rw [h]; exact s.flow_credit_unresolved r f.ref j

/-- A resolved slot leaves the others of its ring. -/
theorem State.slot_resolveSlot_of_ne {r i k : Nat} (hk : k ≠ i) : (s.resolveSlot r i).slot r k = s.slot r k := by
  have hnumber : slotNumber r k ≠ slotNumber r i := by unfold slotNumber; omega
  have hother (t : State) (ht : t.tt = s.tt) : (t.setSlot r i .empty).slot r k = s.slot r k :=
    SameSlotsBut.setSlot ht r i .empty _ hnumber
  unfold State.resolveSlot
  split
  · rfl
  · exact hother _ (State.credit_tt _ _ _ _)
  · exact hother _ (State.credit_tt _ _ _ _)

/-- Slots resolved in turn resolve the frames that stood in them at first. -/
theorem State.flow_resolveSlots (r j : Nat) {l : List Nat} (hl : l.Nodup) :
    (s.resolveSlots r l).flow j = (s.flow j).resolveAll j (s.frameRefs r l) := by
  induction l generalizing s with
  | nil => rfl
  | cons i rest ih =>
    rw [List.nodup_cons] at hl
    have hrest : (s.resolveSlot r i).frameRefs r rest = s.frameRefs r rest := by
      refine List.filterMap_congr fun k hk => ?_
      have hki : k ≠ i := fun h => hl.1 (h ▸ hk)
      rw [s.slot_resolveSlot_of_ne hki]
    have hfirst : s.frameRefs r (i :: rest) = (s.slot r i).ref.toList ++ s.frameRefs r rest := by
      unfold State.frameRefs
      rw [List.filterMap_cons]
      cases (s.slot r i).ref <;> rfl
    rw [State.resolveSlots, ih _ hl.2, hrest, State.flow_resolveSlot, hfirst, FlowEntry.resolveAll_append]

theorem State.flow_changeRing (g : Nat → RingGeometry) (r j : Nat) :
    (s.changeRing r (g r)).flow j = (s.flow j).resolveAll j (s.lostRefs g r) := by
  by_cases hne : s.ring r = g r
  · rw [s.changeRing_of_eq hne, State.lostRefs, if_neg fun h => h.1 hne.symm]
    rfl
  · rw [s.changeRing_of_ne hne]
    change (s.vacateRing r).flow j = _
    unfold State.vacateRing State.lostRefs
    by_cases henabled : (s.ring r).enabled = true
    · rw [if_pos henabled, if_pos ⟨Ne.symm hne, henabled⟩]
      exact s.flow_resolveSlots r j List.nodup_range
    · rw [if_neg henabled, if_neg fun h => henabled h.2]
      rfl

/-- Rings changed in turn resolve the frames that stood in them at first. -/
theorem State.flow_regeometry (hsize : ∀ r, (s.ring r).slots ≤ 256) {g : Nat → RingGeometry}
    (hg : ∀ r, (g r).slots ≤ 256) {l : List Nat} (hl : l.Nodup) (j : Nat) :
    (s.regeometry g l).flow j = (s.flow j).resolveAll j (l.flatMap (s.lostRefs g)) := by
  induction l generalizing s with
  | nil => rfl
  | cons r rest ih =>
    rw [List.nodup_cons] at hl
    have hrest : rest.flatMap ((s.changeRing r (g r)).lostRefs g) = rest.flatMap (s.lostRefs g) := by
      refine List.flatMap_congr fun q hq => ?_
      have hqr : q ≠ r := fun h => hl.1 (h ▸ hq)
      have hring : (s.changeRing r (g r)).ring q = s.ring q := by rw [State.ring_changeRing, if_neg hqr]
      unfold State.lostRefs State.frameRefs
      rw [hring]
      congr 1
      refine List.filterMap_congr fun i hi => ?_
      have hbound := hsize q
      have hbelow := List.mem_range.1 hi
      rw [s.slot_changeRing_of_ne hsize hqr (by omega)]
    rw [State.regeometry, ih _ (s.slots_changeRing hsize r (hg r)) hl.2, hrest, State.flow_changeRing,
      List.flatMap_cons, FlowEntry.resolveAll_append]

/-- The frames of an occupancy among those lost are counted by their references. -/
theorem State.lostFrames_eq {u : State} {g : Nat → RingGeometry} (hu : ∀ r < 16, u.ring r = g r) (j : Nat)
    (n : BitVec 8) :
    s.lostFrames u j n = ((List.range 16).flatMap (s.lostRefs g)).count (.listed j n) := by
  have hring (r : Nat) (hr : r < 16) :
      (((List.range (s.ring r).slots).map fun i => (r, i)).filter fun c =>
        decide (u.ring c.1 ≠ s.ring c.1) && (s.ring c.1).enabled && (s.slot c.1 c.2).holdsFrameOf j n).length =
      (s.lostRefs g r).count (.listed j n) := by
    rw [List.filter_map, List.length_map, ← List.countP_eq_length_filter]
    unfold State.lostRefs State.frameRefs
    split
    · next h =>
      rw [List.count_filterMap]
      refine List.countP_congr fun i _ => ?_
      simp [hu r hr, h.1, h.2, Slot.holdsFrameOf_eq]
    · next h =>
      rw [List.count_nil, List.countP_eq_zero]
      intro i _ hlost
      simp only [Function.comp_apply, Bool.and_eq_true, decide_eq_true_eq, hu r hr] at hlost
      exact h hlost.1
  unfold State.lostFrames
  rw [List.filter_flatMap, List.length_flatMap, List.count_flatMap]
  congr 1
  exact List.map_congr_left fun r hr => hring r (List.mem_range.1 hr)

end Sys2Proof.Machine
end

