-- ==== Sys2Proof/Proofs/RingWrites.lean ====
section
/-! PROOFS. A control write of ring geometry: the state in which the rings change, the clamps noted, and all that is held
and lost. -/

namespace Sys2Proof.Machine

/-! ## Clamps (R164) -/

/-- Note the clamp of a value, if it is considered. -/
def State.noteValue (s : State) (considered : Bool) (o f written held : Nat) : State :=
  if considered then s.noteClamp o f written held else s

/-- The clamp of a value follows the clamps before it. -/
theorem ClampStep.noteValue {s t : State} {l : List ClampRecord} (h : ClampStep s t l) (considered : Bool)
    (o f written held : Nat) :
    ClampStep s (t.noteValue considered o f written held)
      (l ++ clampOf considered o f written held s.cm.timeBase) := by
  refine h.trans ?_
  rw [← h.timeBase]
  unfold State.noteValue clampOf State.noteClamp
  by_cases hconsidered : considered = true
  · by_cases hheld : written = held
    · rw [if_pos hconsidered, if_pos hheld, if_neg fun hclamps => hclamps.2 hheld]
      exact .refl t
    · rw [if_pos hconsidered, if_neg hheld, if_pos ⟨hconsidered, hheld⟩]
      have hcount : (t.count .clampedFields).agg .clampedFields = satAdd (t.agg .clampedFields) 1 := by
        rw [State.agg_count, if_pos rfl]
      exact ⟨⟨hcount, rfl⟩, rfl, rfl⟩
  · rw [if_neg hconsidered, if_neg fun hclamps => hconsidered hclamps.1]
    exact .refl t

theorem State.image_noteValue (s : State) (considered : Bool) (o f written held : Nat) :
    (s.noteValue considered o f written held).ci.image = s.ci.image :=
  ((ClampStep.refl s).noteValue considered o f written held).image

/-- The notes of a ring's clamps leave the written values that the later ones read. -/
theorem State.noteRing_eq (s : State) (bytes : List (Nat × Byte)) (was : Bool) (g : RingGeometry) (r : Nat) :
    s.noteRing bytes was g r =
      ((s.noteValue (names bytes (ringOffset r) 4) (ringOffset r) 10 (s.writtenBase r)
        (clampBase (s.writtenBase r))).noteValue (names bytes (ringOffset r + 4) 2) (ringOffset r + 4) 11
        (s.writtenSlots r) (clampSlots (s.writtenSlots r))).noteValue
        (s.writtenEnable r && !g.enabled && (names bytes (ringOffset r) 7 || was)) (ringOffset r + 6) 12 1 0 := by
  let t := s.noteValue (names bytes (ringOffset r) 4) (ringOffset r) 10 (s.writtenBase r) (clampBase (s.writtenBase r))
  let u := t.noteValue (names bytes (ringOffset r + 4) 2) (ringOffset r + 4) 11 (t.writtenSlots r)
    (clampSlots (t.writtenSlots r))
  have ht : t.ci.image = s.ci.image := s.image_noteValue _ _ _ _ _
  have hu : u.ci.image = s.ci.image := (t.image_noteValue _ _ _ _ _).trans ht
  have hslots : t.writtenSlots r = s.writtenSlots r := State.imageField_congr ht _ _
  have henable : u.writtenEnable r = s.writtenEnable r :=
    congrArg (BitVec.getLsbD · 0) (State.imageByte_congr hu (ringOffset r + 6))
  change u.noteValue (u.writtenEnable r && !g.enabled && (names bytes (ringOffset r) 7 || was)) _ _ _ _ = _
  rw [henable]
  change (t.noteValue _ _ _ (t.writtenSlots r) (clampSlots (t.writtenSlots r))).noteValue _ _ _ _ _ = _
  rw [hslots]

/-- A ring written enabled counts as clamped exactly while it is held disabled (R165). -/
theorem clampOf_enable (considered enabled : Bool) (o : Nat) (now : Time) :
    clampOf considered o 12 1 (if enabled then 1 else 0) now = clampOf (considered && !enabled) o 12 1 0 now := by
  cases considered <;> cases enabled <;> rfl

/-- The note of a ring's clamps. -/
theorem ClampStep.noteRing {b t u : State} (himage : u.ci.image = t.ci.image) (htime : t.cm.timeBase = b.cm.timeBase)
    (bytes : List (Nat × Byte)) (r : Nat) :
    ClampStep t (t.noteRing bytes (b.ring r).enabled (u.ring r) r) (ringClamps bytes b u r) := by
  have hbase : t.writtenBase r = u.imageField (ringOffset r) 4 % 2 ^ 27 := by
    rw [State.writtenBase, State.imageField_congr himage]
  have hslots : t.writtenSlots r = u.imageField (ringOffset r + 4) 2 := by
    rw [State.writtenSlots, State.imageField_congr himage]
  have henable : t.writtenEnable r = (u.imageByte (ringOffset r + 6)).getLsbD 0 := by
    rw [State.imageByte_congr himage]; rfl
  have hnotes := (((ClampStep.refl t).noteValue (names bytes (ringOffset r) 4) (ringOffset r) 10 (t.writtenBase r)
    (clampBase (t.writtenBase r))).noteValue (names bytes (ringOffset r + 4) 2) (ringOffset r + 4) 11
    (t.writtenSlots r) (clampSlots (t.writtenSlots r))).noteValue
    (t.writtenEnable r && !(u.ring r).enabled && (names bytes (ringOffset r) 7 || (b.ring r).enabled))
    (ringOffset r + 6) 12 1 0
  rw [← State.noteRing_eq, hbase, hslots, henable, htime] at hnotes
  unfold ringClamps
  dsimp only
  rw [clampOf_enable, Bool.and_right_comm]
  exact hnotes

/-- The notes of the clamps of all rings. -/
theorem ClampStep.noteRings {b t u : State} (himage : u.ci.image = t.ci.image) (htime : t.cm.timeBase = b.cm.timeBase)
    (bytes : List (Nat × Byte)) (k n : Nat) :
    ClampStep t (t.noteRings b bytes k ((List.range' k n).map u.ring))
      ((List.range' k n).flatMap (ringClamps bytes b u)) := by
  induction n generalizing t k with
  | zero => exact .refl t
  | succ n ih =>
    have hfirst := ClampStep.noteRing himage htime bytes k
    have hrest := ih (t := t.noteRing bytes (b.ring k).enabled (u.ring k) k) (himage.trans hfirst.image.symm)
      (hfirst.timeBase.trans htime) (k + 1)
    exact hfirst.trans hrest

/-! ## What the change of rings leaves -/

theorem State.agg_checked_clampedFields (s : State) (i : Nat) :
    (s.checked i).agg .clampedFields = s.agg .clampedFields := by
  rcases s.checked_cases i with ⟨_, heq⟩ | ⟨_, heq⟩ <;> rw [heq]
  rw [State.entryFault, State.agg_trigger, State.agg_count, if_neg (by decide)]
  rfl

theorem State.agg_credit_clampedFields (s : State) (r : Nat) (f : FlowRef) (v : Verdict) :
    (s.credit r f v).agg .clampedFields = s.agg .clampedFields := by
  cases f with
  | unlisted p =>
    change (s.creditUnlisted v).agg .clampedFields = _
    cases v <;> simp [State.creditUnlisted]
  | listed i g =>
    unfold State.credit State.creditFlow
    dsimp only
    rw [← s.agg_checked_clampedFields i]
    split
    · split
      · rw [State.agg_trigger]; rfl
      · rfl
    · rw [State.agg_count, if_neg (by decide)]

theorem State.agg_resolveSlots_clampedFields (s : State) (r : Nat) (l : List Nat) :
    (s.resolveSlots r l).agg .clampedFields = s.agg .clampedFields := by
  induction l generalizing s with
  | nil => rfl
  | cons i rest ih =>
    rw [State.resolveSlots, ih]
    unfold State.resolveSlot
    split
    · rfl
    · exact s.agg_credit_clampedFields _ _ _
    · exact s.agg_credit_clampedFields _ _ _

/-- A change of a ring notes no clamp. -/
theorem ClampsNoted.changeRing (s : State) (r : Nat) (g : RingGeometry) : ClampsNoted s (s.changeRing r g) [] := by
  by_cases hne : s.ring r = g
  · rw [s.changeRing_of_eq hne]
    exact .of_eq rfl rfl
  · rw [s.changeRing_of_ne hne]
    have hvacated : (s.vacateRing r).agg .clampedFields = s.agg .clampedFields ∧ (s.vacateRing r).ci = s.ci := by
      unfold State.vacateRing
      split
      · exact ⟨s.agg_resolveSlots_clampedFields r _, s.resolveSlots_ci r _⟩
      · exact ⟨rfl, rfl⟩
    have hlast : (s.vacateRing r).ci.lastClamp = s.ci.lastClamp := by rw [hvacated.2]
    exact .of_eq hvacated.1 hlast

theorem ClampsNoted.regeometry (s : State) (g : Nat → RingGeometry) (l : List Nat) :
    ClampsNoted s (s.regeometry g l) [] := by
  induction l generalizing s with
  | nil => exact .of_eq rfl rfl
  | cons r rest ih => exact (ClampsNoted.changeRing s r (g r)).trans (ih _)

theorem State.noteRings_tt (s b : State) (l : List (Nat × Byte)) (r : Nat) (gs : List RingGeometry) :
    (s.noteRings b l r gs).tt = s.tt := by
  induction gs generalizing s r with
  | nil => rfl
  | cons g rest ih =>
    rw [State.noteRings, ih]
    unfold State.noteRing
    dsimp only
    (repeat' split) <;> simp

end Sys2Proof.Machine
end

