-- ==== Sys2Proof/Proofs/RingWriteEffects.lean ====
section
/-! PROOFS. What a control write of ring geometry holds: the rings, the slots, the verdicts of the frames lost, and the
clamps. -/

namespace Sys2Proof.Machine

/-! ## The state in which the rings change -/

theorem State.applyMonitoring_rings (s : State) : s.applyMonitoring.ci.held.rings = s.ci.held.rings := by
  unfold State.applyMonitoring State.monitoringEffect
  dsimp only
  (repeat' split) <;> simp [State.sweep_rings]

theorem State.applyGlobals_rings (s : State) (l : List (Nat × Byte)) :
    (s.applyGlobals l).ci.held.rings = s.ci.held.rings := by
  rw [State.applyGlobals_eq, (FramesStand.applyOtherGlobals _ l).rings]
  split
  · exact s.applyMonitoring_rings
  · rfl

section
variable (s : State) (bytes : List (Nat × Byte))

/-- The state in which the ring geometry of an application is applied. -/
def State.beforeRings (s : State) (bytes : List (Nat × Byte)) : State :=
  ((s.merge bytes).applyGlobals bytes).applyConsume bytes

/-- Ring r's geometry as an application of ring geometry leaves it. -/
def State.heldRing (s : State) (bytes : List (Nat × Byte)) (r : Nat) : RingGeometry :=
  (s.beforeRings bytes).ringAfter s.ci.image r

/-- The state with the clamps of the ring geometry noted. -/
def State.notedRings (s : State) (bytes : List (Nat × Byte)) : State :=
  (s.beforeRings bytes).noteRings (s.beforeRings bytes) bytes 0 ((List.range 16).map (s.heldRing bytes))

theorem State.image_beforeRings : (s.beforeRings bytes).ci.image = (s.merge bytes).ci.image :=
  State.image_of_tables (by rw [State.beforeRings, State.tables_applyConsume, State.tables_applyGlobals])

theorem State.ring_beforeRings (r : Nat) : (s.beforeRings bytes).ring r = s.ring r := by
  rw [State.beforeRings, (FramesStand.applyConsume _ bytes).ring, State.ring, State.applyGlobals_rings]
  rfl

theorem State.controlBase_beforeRings : (s.beforeRings bytes).controlBase = s.controlBase := by
  simp [State.controlBase, State.beforeRings]

theorem State.ring_notedRings (r : Nat) : (s.notedRings bytes).ring r = s.ring r := by
  rw [State.notedRings, (FramesStand.noteRings _ _ bytes 0 _).ring, State.ring_beforeRings]

variable {bytes} (hnamed : names bytes 0x100 256 = true)

include hnamed in
theorem State.beforeProfiles_eq :
    s.beforeProfiles bytes = (s.notedRings bytes).regeometry (s.heldRing bytes) (List.range 16) :=
  (s.beforeRings bytes).applyRings_eq hnamed s.ci.image

/-- What follows the ring geometry keeps the rings and brings no frame. -/
theorem State.framesStand_applied : FramesStand (s.beforeProfiles bytes) (s.applied bytes) :=
  (FramesStand.afterRings (s.beforeProfiles bytes) bytes s).trans (.considerCommand _ bytes)

theorem State.image_applied_eq : (s.applied bytes).ci.image = (s.beforeRings bytes).ci.image := by
  rw [State.image_applied, State.image_of_tables (s.tables_beforeProfiles bytes), State.image_beforeRings]

include hnamed in
theorem State.ring_applied (r : Nat) :
    (s.applied bytes).ring r = if r < 16 then s.heldRing bytes r else s.ring r := by
  rw [s.framesStand_applied.ring, s.beforeProfiles_eq hnamed, State.ring_regeometry, State.ring_notedRings]
  simp only [List.mem_range]

theorem State.geometryChanged_beforeRings :
    (s.beforeRings bytes).geometryChanged s.ci.image = true ↔
      ∃ k < 256, (s.applied bytes).imageByte (0x100 + k) ≠ s.imageByte (0x100 + k) := by
  rw [State.geometryChanged_iff]
  simp only [State.imageByte, State.image_applied_eq]

theorem State.slots_heldRing (hsize : ∀ r, (s.ring r).slots ≤ 256) (r : Nat) : (s.heldRing bytes r).slots ≤ 256 :=
  State.slots_ringAfter _ (fun q => by rw [State.ring_beforeRings]; exact hsize q) _ r

/-! ## The rings (R165) -/

include hnamed in
/-- When an image byte of an entry changes, every ring is held as the evaluation gives it. -/
theorem State.ring_applied_of_changed
    (hchanged : ∃ k < 256, (s.applied bytes).imageByte (0x100 + k) ≠ s.imageByte (0x100 + k)) {r : Nat} (hr : r < 16) :
    (s.applied bytes).ring r = (s.beforeRings bytes).newRing r := by
  rw [s.ring_applied hnamed, if_pos hr]
  exact if_pos (s.geometryChanged_beforeRings.2 hchanged)

include hnamed in
/-- When no image byte of an entry changes, every ring stands. -/
theorem State.ring_applied_of_unchanged
    (h : ∀ k < 256, (s.applied bytes).imageByte (0x100 + k) = s.imageByte (0x100 + k)) (r : Nat) :
    (s.applied bytes).ring r = s.ring r := by
  have hnot : ¬ (s.beforeRings bytes).geometryChanged s.ci.image = true := by
    rw [s.geometryChanged_beforeRings]
    rintro ⟨k, hk, hne⟩
    exact hne (h k hk)
  rw [s.ring_applied hnamed]
  split
  · exact (if_neg hnot).trans (s.ring_beforeRings bytes r)
  · rfl

include hnamed in
/-- The evaluated rings, said of the image and the rings held (R164, R165). -/
theorem State.evaluated_applied
    (hchanged : ∃ k < 256, (s.applied bytes).imageByte (0x100 + k) ≠ s.imageByte (0x100 + k)) {u : State}
    (hu : u = s.applied bytes) {r : Nat} (hr : r < 16) :
    (u.ring r).base.toNat = u.imageField (0x100 + 16 * r) 4 % 2 ^ 27 / 32 * 32 ∧
    (u.ring r).slots = heldSlots (u.imageField (0x104 + 16 * r) 2) ∧
    ((u.ring r).enabled = true ↔
      (u.imageByte (0x106 + 16 * r)).getLsbD 0 = true ∧
      (u.ring r).base.toNat + 32 * (u.ring r).slots ≤ 2 ^ 27 ∧
      ((u.ring r).base.toNat + 32 * (u.ring r).slots ≤ s.controlBase ∨
        s.controlBase + 65536 ≤ (u.ring r).base.toNat) ∧
      (∀ q < r, (u.ring q).enabled = true →
        (u.ring r).base.toNat + 32 * (u.ring r).slots ≤ (u.ring q).base.toNat ∨
        (u.ring q).base.toNat + 32 * (u.ring q).slots ≤ (u.ring r).base.toNat) ∧
      (u.ring r).slots +
        (((List.range r).filter fun q => (u.ring q).enabled).map fun q => (u.ring q).slots).sum ≤ 2048) := by
  have himage : u.ci.image = (s.beforeRings bytes).ci.image := by rw [hu, State.image_applied_eq]
  have hring {q : Nat} (hq : q < 16) : u.ring q = (s.beforeRings bytes).newRing q := by
    rw [hu, s.ring_applied_of_changed hnamed hchanged hq]
  have hslots : 0x104 + 16 * r = ringOffset r + 4 := by unfold ringOffset; omega
  have henable : 0x106 + 16 * r = ringOffset r + 6 := by unfold ringOffset; omega
  have hlower : (List.range r).map (s.beforeRings bytes).newRing = (List.range r).map u.ring :=
    List.map_congr_left fun q hq => (hring (Nat.lt_trans (List.mem_range.1 hq) hr)).symm
  have henabled := (s.beforeRings bytes).enabled_newRing r
  rw [← hring hr, hlower, State.controlBase_beforeRings] at henabled
  refine ⟨?_, ?_, ?_⟩
  · rw [hring hr, State.base_newRing, State.writtenBase, ← State.imageField_congr himage]
    rfl
  · rw [hring hr, State.slots_newRing, State.writtenSlots, ← State.imageField_congr himage, hslots]
    rfl
  · rw [henabled, Bool.and_eq_true, mayEnable_iff, henable, State.imageByte_congr himage]
    rfl

/-! ## The slots (R84) -/

include hnamed in
/-- A ring that was enabled and changes has lost its frames. -/
theorem State.slot_applied_of_changed {r i : Nat} (hne : (s.applied bytes).ring r ≠ s.ring r)
    (henabled : (s.ring r).enabled = true) (hi : i < (s.ring r).slots) : (s.applied bytes).slot r i = .empty := by
  have hring := s.ring_applied hnamed r
  have hr : r < 16 := by
    by_contra hbeyond
    rw [if_neg hbeyond] at hring
    exact hne hring
  rw [if_pos hr] at hring
  refine s.framesStand_applied.empty _ ?_
  rw [s.beforeProfiles_eq hnamed]
  refine State.slot_regeometry_of_changed _ (List.mem_range.2 hr) ?_ ?_ ?_
  · rw [State.ring_notedRings, ← hring]
    exact Ne.symm hne
  · rw [State.ring_notedRings]; exact henabled
  · rw [State.ring_notedRings]; exact hi

/-- Bytes behind the consume index name no setting before the ring geometry, and no command. -/
theorem State.beforeRings_of_range (hrange : ∀ c ∈ bytes, 0x100 ≤ c.1) : s.beforeRings bytes = s.merge bytes := by
  have hout (o n : Nat) (h : o + n ≤ 0x100) : names bytes o n = false := by
    rw [← Bool.not_eq_true, names_iff]
    rintro ⟨c, hc, _, hend⟩
    have := hrange c hc
    omega
  simp [State.beforeRings, State.applyGlobals, State.applyConsume, hout]

theorem State.considerCommand_of_range (hrange : ∀ c ∈ bytes, 0x100 ≤ c.1) (t : State) :
    t.considerCommand bytes = t := by
  refine if_neg ?_
  rw [names_iff]
  rintro ⟨c, hc, _, hend⟩
  have := hrange c hc
  omega

theorem State.notedRings_tt (hrange : ∀ c ∈ bytes, 0x100 ≤ c.1) : (s.notedRings bytes).tt = s.tt := by
  rw [State.notedRings, State.noteRings_tt, s.beforeRings_of_range hrange]
  rfl

include hnamed in
/-- The write of geometry alone leaves the slots of a ring that stands. -/
theorem State.slot_applied_of_stands (hsize : ∀ r, (s.ring r).slots ≤ 256) (hrange : ∀ c ∈ bytes, 0x100 ≤ c.1)
    {r i : Nat} (hstands : (s.applied bytes).ring r = s.ring r) (hi : i < 256) :
    (s.applied bytes).slot r i = s.slot r i := by
  have htt : (s.applied bytes).tt = (s.beforeProfiles bytes).tt := by
    rw [State.applied, State.considerCommand_of_range hrange, State.applySettings_eq, State.testThreshold_tt,
      State.applyClassifier_tt, State.applyProfiles_tt]
  have hsize' (q : Nat) : ((s.notedRings bytes).ring q).slots ≤ 256 := by rw [State.ring_notedRings]; exact hsize q
  rw [State.slot, htt, ← State.slot, s.beforeProfiles_eq hnamed,
    State.slot_regeometry_of_stands _ hsize' (s.slots_heldRing hsize) (fun hr => ?_) hi, State.slot,
    s.notedRings_tt hrange, State.slot]
  rw [State.ring_notedRings, ← hstands, s.ring_applied hnamed, if_pos (List.mem_range.1 hr)]

/-! ## A write of the geometry table alone -/

section
variable (hsize : ∀ r, (s.ring r).slots ≤ 256) (hrange : ∀ c ∈ bytes, 0x100 ≤ c.1 ∧ c.1 < 0x200)

theorem State.applyProfiles_of_unnamed (t : State) {l : List Nat}
    (h : ∀ p ∈ l, names bytes (profileOffset p) 20 = false) : t.applyProfiles bytes l = t := by
  induction l with
  | nil => rfl
  | cons p rest ih =>
    rw [State.applyProfiles, if_neg (by simp [h p List.mem_cons_self])]
    exact ih fun q hq => h q (List.mem_cons_of_mem _ hq)

theorem State.applyClassifier_of_unnamed (t : State) {l : List Nat}
    (h : ∀ n ∈ l, names bytes (classifierOffset n) 8 = false) : t.applyClassifier bytes l = t := by
  induction l with
  | nil => rfl
  | cons n rest ih =>
    rw [State.applyClassifier, if_neg (by simp [h n List.mem_cons_self])]
    exact ih fun m hm => h m (List.mem_cons_of_mem _ hm)

include hrange in
/-- Bytes of the geometry table alone apply the rings, and nothing else. -/
theorem State.applied_of_ringRange : s.applied bytes = (s.beforeProfiles bytes).testThreshold s := by
  have hprofile (p : Nat) : names bytes (profileOffset p) 20 = false :=
    names_of_outside hrange (.inr (by unfold profileOffset; omega))
  have hclassifier (n : Nat) : names bytes (classifierOffset n) 8 = false :=
    names_of_outside hrange (.inr (by unfold classifierOffset; omega))
  rw [State.applied, State.considerCommand_of_range fun c hc => (hrange c hc).1, State.applySettings_eq,
    State.applyProfiles_of_unnamed _ fun p _ => hprofile p, State.applyClassifier_of_unnamed _ fun n _ => hclassifier n]

include hnamed hsize hrange in
/-- Every entry is left as the UNRESOLVED verdicts of the frames lost leave it (R84, R101). -/
theorem State.flow_applied (j : Nat) :
    (s.applied bytes).flow j =
      (s.flow j).resolveAll j ((List.range 16).flatMap (s.lostRefs (s.heldRing bytes))) := by
  have hrange' : ∀ c ∈ bytes, 0x100 ≤ c.1 := fun c hc => (hrange c hc).1
  have hsize' (q : Nat) : ((s.notedRings bytes).ring q).slots ≤ 256 := by rw [State.ring_notedRings]; exact hsize q
  have hflow : (s.notedRings bytes).flow j = s.flow j := by
    rw [State.flow, State.notedRings, State.noteRings_ft, s.beforeRings_of_range hrange']
    rfl
  have hslot (r i : Nat) : (s.notedRings bytes).slot r i = s.slot r i := by
    rw [State.slot, s.notedRings_tt hrange', State.slot]
  have hlost : (s.notedRings bytes).lostRefs (s.heldRing bytes) = s.lostRefs (s.heldRing bytes) := by
    funext r
    simp only [State.lostRefs, State.frameRefs, State.ring_notedRings, hslot]
  rw [s.applied_of_ringRange hrange, State.flow, State.testThreshold_ft, ← State.flow, s.beforeProfiles_eq hnamed,
    State.flow_regeometry _ hsize' (s.slots_heldRing hsize) List.nodup_range, hflow, hlost]

include hnamed in
theorem State.lostFrames_applied (j : Nat) (g : BitVec 8) :
    s.lostFrames (s.applied bytes) j g =
      ((List.range 16).flatMap (s.lostRefs (s.heldRing bytes))).count (.listed j g) :=
  s.lostFrames_eq (fun r hr => by rw [s.ring_applied hnamed, if_pos hr]) j g

include hnamed hrange in
theorem State.clampsNoted_rings :
    ClampsNoted s (s.applied bytes) ((List.range 16).flatMap (ringClamps bytes s (s.applied bytes))) := by
  have hmerged := s.beforeRings_of_range fun c hc => (hrange c hc).1
  have hheld : (List.range 16).map (s.heldRing bytes) = (List.range 16).map (s.applied bytes).ring :=
    List.map_congr_left fun r hr => by rw [s.ring_applied hnamed, if_pos (List.mem_range.1 hr)]
  have hnotes := ClampStep.noteRings (b := s.beforeRings bytes) (s.image_applied_eq (bytes := bytes)) rfl bytes 0 16
  rw [← List.range_eq_range', ← hheld, ← State.notedRings] at hnotes
  obtain ⟨hcount, hlast⟩ := hnotes.noted.trans (ClampsNoted.regeometry _ (s.heldRing bytes) (List.range 16))
  rw [← s.beforeProfiles_eq hnamed, hmerged, List.append_nil] at hcount hlast
  have happlied := s.applied_of_ringRange hrange
  refine ⟨?_, ?_⟩
  · rw [happlied, State.agg, State.testThreshold_tau, ← happlied]; exact hcount
  · rw [happlied, State.testThreshold_ci, ← happlied]; exact hlast

end

include hnamed in
theorem State.holdsRings_applied (hsize : ∀ r, (s.ring r).slots ≤ 256) : HoldsRings bytes s (s.applied bytes) := by
  refine ⟨fun hchanged r hr => s.evaluated_applied hnamed hchanged rfl hr, s.ring_applied_of_unchanged hnamed,
    fun r hne henabled i hi => s.slot_applied_of_changed hnamed hne henabled hi,
    fun hrange r hstands i hi => s.slot_applied_of_stands hnamed hsize hrange hstands hi, fun hrange =>
    ⟨?_, fun j hfail => ⟨fun hlost => ?_, fun hnone => ?_⟩, s.clampsNoted_rings hnamed hrange⟩⟩
  · rintro j m e rfl hok hm
    rw [s.lostFrames_applied hnamed] at hm
    rw [s.flow_applied hnamed hsize hrange]
    refine ⟨fun h => FlowEntry.resolveAll_of_other hok (h.imp_right fun hzero => ?_), fun hvalid hlost => ?_⟩
    · exact List.count_eq_zero.1 (hm.symm.trans hzero)
    · rw [hm] at hlost ⊢
      exact FlowEntry.resolveAll_of_occupied hok hvalid hlost
  · obtain ⟨g, hg⟩ := hlost
    rw [s.lostFrames_applied hnamed] at hg
    rw [s.flow_applied hnamed hsize hrange]
    exact FlowEntry.resolveAll_of_fail hfail ⟨g, List.count_pos_iff.1 (Nat.pos_of_ne_zero hg)⟩
  · rw [s.flow_applied hnamed hsize hrange]
    refine FlowEntry.resolveAll_of_unread fun g => List.count_eq_zero.1 ?_
    rw [← s.lostFrames_applied hnamed]
    exact hnone g

end

/-! ## The statement settled -/

/-- A control write that names ring geometry is handed out and applied, then its command word is considered. -/
theorem exec_ringGeometryWrite {s : State} {o : Observation} (hready : s.controlReady = some o)
    (hnamed : names o.body.named 0x100 256 = true) :
    exec .ringGeometryWrite s =
      .next (((s.afterSettings o).considerCommand o.body.named).settle (s.afterSettings o)) := by
  change s.controlCase (namesField 0x100 256) = _
  rw [State.controlCase, hready]
  exact if_pos hnamed

/-- Settles O40: the rings are evaluated afresh when the image of their table changes, the changed ones lose their frames,
whose references the flow entries resolve in turn, and what follows keeps rings and brings no frame. -/
theorem ringGeometryWriteEvaluatesAllRings : Obligations.RingGeometryWriteEvaluatesAllRings := by
  intro s o hready hnamed hsize
  refine ⟨_, exec_ringGeometryWrite hready hnamed, ?_, ?_, s.popHead.holdsRings_applied hnamed hsize⟩
  · rw [State.considerCommand_mem]
    exact State.applySettings_mem _ _
  · rw [State.pending_of_tables (State.tables_considerCommand _ _)]
    exact State.applySettings_pending _ _

end Sys2Proof.Machine
end

