-- ==== Sys2Proof/Proofs/Times.lean ====
section
/-! PROOFS. Times of the 48-bit time base: their order and their distance, as numbers. -/

namespace Sys2Proof.Machine

/-- The distance between two times, modulo 2^48 (R110). -/
theorem toNat_time_sub (t1 t2 : Time) : (t1 - t2).toNat = (t1.toNat + 2 ^ 48 - t2.toNat) % 2 ^ 48 := by
  rw [BitVec.toNat_sub]
  have := t2.isLt
  omega

theorem atOrAfter_iff (t1 t2 : Time) :
    atOrAfter t1 t2 = true ↔ (t1.toNat + 2 ^ 48 - t2.toNat) % 2 ^ 48 < 2 ^ 47 := by
  rw [atOrAfter, decide_eq_true_iff, toNat_time_sub]

theorem atOrAfter_self (t : Time) : atOrAfter t t = true := by
  rw [atOrAfter, BitVec.sub_self]; rfl

/-- Of two different times that are not half the range apart, one is after the other and not the other way round. -/
theorem atOrAfter_asymm {t1 t2 : Time} (hne : t1 ≠ t2) (hhalf : (t1 - t2).toNat ≠ 2 ^ 47) :
    atOrAfter t1 t2 = true ↔ atOrAfter t2 t1 = false := by
  have hnat : t1.toNat ≠ t2.toNat := fun h => hne (BitVec.eq_of_toNat_eq h)
  rw [toNat_time_sub] at hhalf
  rw [← Bool.not_eq_true, atOrAfter_iff, atOrAfter_iff]
  have := t1.isLt
  have := t2.isLt
  omega

/-- Settles O6: a time after another is so by their distance, which is also the residence between them. -/
theorem timesCompareModulo : Obligations.TimesCompareModulo := fun t1 t2 =>
  ⟨atOrAfter_iff t1 t2, atOrAfter_asymm, atOrAfter_self t1, toNat_time_sub t1 t2⟩

/-- The time base after one nanosecond, as a number (R109). -/
theorem time_add_one (t : Time) : t + 1 = BitVec.ofNat 48 ((t.toNat + 1) % 2 ^ 48) := by
  apply BitVec.eq_of_toNat_eq
  rw [BitVec.toNat_add, BitVec.toNat_ofNat, Nat.mod_mod]
  rfl

end Sys2Proof.Machine
end

