-- ==== Sys2Proof/Proofs/DueList.lean ====
section
/-! PROOFS. The agreement of the due list with the flow entries, entry by entry, and the changes that keep it with the
time base: what hangs on neither, writes of entries, faults, expiries, and the events of slots. -/

namespace Sys2Proof.Machine

/-! ## The agreement at one entry (R111, R112) -/

/-- The due time listed for an entry is the one it holds, and there is one exactly when the flow is TRACKING under a
non-zero period of the profiles `g` (R111, R112). -/
def CellAgrees (g : Nat → Profile) (x : EntryCell) : Prop :=
  x.2 = x.1.due ∧ (x.1.due.isSome = true ↔ x.1.state = .tracking ∧ (g x.1.profile).period ≠ 0)

theorem State.dueListAgrees_iff (s : State) : s.DueListAgrees ↔ ∀ j < 1024, CellAgrees s.profile (s.cellAt j) := Iff.rfl

section
variable {g : Nat → Profile} {x y : EntryCell}

/-- The agreement hangs on state, profile and due times alone. -/
theorem CellAgrees.congr (hx : CellAgrees g x) (hstate : y.1.state = x.1.state) (hprofile : y.1.profile = x.1.profile)
    (hdue : y.1.due = x.1.due) (hlisted : y.2 = x.2) : CellAgrees g y := by
  unfold CellAgrees
  rw [hstate, hprofile, hdue, hlisted]
  exact hx

/-- A TRACKING flow with a period agrees with one due time in both places. -/
theorem CellAgrees.armed {d : Time} (htracking : x.1.state = .tracking) (hperiod : (g x.1.profile).period ≠ 0)
    (hdue : x.1.due = some d) (hlisted : x.2 = some d) : CellAgrees g x :=
  ⟨hlisted.trans hdue.symm, by simp [hdue, htracking, hperiod]⟩

/-- A flow that is not TRACKING or has no period agrees without a due time. -/
theorem CellAgrees.unarmed (hstill : x.1.state = .tracking → (g x.1.profile).period = 0) (hdue : x.1.due = none)
    (hlisted : x.2 = none) : CellAgrees g x :=
  ⟨hlisted.trans hdue.symm, by simpa [hdue] using hstill⟩

theorem CellAgrees.vacant (n : BitVec 8) : CellAgrees g (vacantEntry n, none) := .unarmed nofun rfl rfl

/-- A flow with a due time is TRACKING under a period (R111). -/
theorem CellAgrees.tracking (hx : CellAgrees g x) (hlisted : x.2 ≠ none) :
    x.1.state = .tracking ∧ (g x.1.profile).period ≠ 0 :=
  hx.2.1 (Option.isSome_iff_ne_none.2 (hx.1 ▸ hlisted))

/-- A flow that is not TRACKING, or has no period, has no due time (R111). -/
theorem CellAgrees.due_eq_none (hx : CellAgrees g x) (hstill : x.1.state = .tracking → (g x.1.profile).period = 0) :
    x.1.due = none ∧ x.2 = none := by
  have hdue : x.1.due = none := by
    rw [← Option.not_isSome_iff_eq_none, hx.2]
    exact fun ⟨htracking, hperiod⟩ => hperiod (hstill htracking)
  exact ⟨hdue, hx.1.trans hdue⟩

end

/-! ## Changes that keep the time base and the agreement -/

/-- What cadence supervision hangs on: the time base, the due list, the flow entries and the profiles. -/
def State.cadence (s : State) : Time × Store Time × Store FlowEntry × Store Profile :=
  (s.cm.timeBase, s.cm.due, s.ft.flows, s.ci.held.profiles)

/-- `u` is `s` with its time base, and with the agreement at every entry that agreed. -/
structure CadenceKept (s u : State) : Prop where
  timeBase : u.cm.timeBase = s.cm.timeBase
  cell : ∀ j < 1024, CellAgrees s.profile (s.cellAt j) → CellAgrees u.profile (u.cellAt j)

theorem CadenceKept.dueListAgrees {s u : State} (h : CadenceKept s u) (hs : s.DueListAgrees) : u.DueListAgrees :=
  u.dueListAgrees_iff.2 fun j hj => h.cell j hj (s.dueListAgrees_iff.1 hs j hj)

theorem CadenceKept.refl (s : State) : CadenceKept s s := ⟨rfl, fun _ _ => id⟩

theorem CadenceKept.trans {s t u : State} (h : CadenceKept s t) (h' : CadenceKept t u) : CadenceKept s u :=
  ⟨h'.timeBase.trans h.timeBase, fun j hj hx => h'.cell j hj (h.cell j hj hx)⟩

/-- A change of what cadence supervision does not hang on. -/
theorem CadenceKept.of_cadence {s u : State} (h : u.cadence = s.cadence) : CadenceKept s u := by
  simp only [State.cadence, Prod.mk.injEq] at h
  obtain ⟨htime, hdue, hflows, hprofiles⟩ := h
  refine ⟨htime, fun j _ hx => ?_⟩
  have hcell : u.cellAt j = s.cellAt j := by simp only [State.cellAt, State.flow, State.dueOf, hflows, hdue]
  have hprofile : u.profile = s.profile := funext fun p => by simp only [State.profile, hprofiles]
  rw [hcell, hprofile]
  exact hx

/-- A step that runs only under a condition. -/
theorem CadenceKept.ite {s : State} (c : Bool) {u : State} (h : CadenceKept s u) :
    CadenceKept s (if c then u else s) := by
  cases c
  · exact .refl s
  · exact h

variable (s : State)

/-! ### Operations that leave what cadence supervision hangs on -/

theorem State.cadence_congr {s t : State} (hcm : t.cm = s.cm) (hft : t.ft = s.ft) (hci : t.ci = s.ci) :
    t.cadence = s.cadence := by
  rw [State.cadence, State.cadence, hcm, hft, hci]

@[simp] theorem State.cadence_onOq (f : ObservationQueue → ObservationQueue) : (s.onOq f).cadence = s.cadence := rfl
@[simp] theorem State.cadence_count (a : Aggregate) : (s.count a).cadence = s.cadence := rfl
@[simp] theorem State.cadence_requestStatus : s.requestStatus.cadence = s.cadence := rfl

@[simp] theorem State.cadence_trigger (k : AlarmKind) (v : Nat) : (s.trigger k v).cadence = s.cadence :=
  State.cadence_congr (by simp) (by simp) (by simp)

@[simp] theorem State.cadence_setCoverage (c : Coverage) : (s.setCoverage c).cadence = s.cadence := by cases c <;> rfl

@[simp] theorem State.cadence_goBlind (a : Addr) : (s.goBlind a).cadence = s.cadence := by simp [State.goBlind]

theorem CadenceKept.trigger (k : AlarmKind) (v : Nat) : CadenceKept s (s.trigger k v) := .of_cadence (by simp)

/-! ### Flow entries -/

/-- `f` is `e` with another content: what the due list hangs on stands. -/
structure FlowEntry.SameCadence (e f : FlowEntry) : Prop where
  state : f.state = e.state
  profile : f.profile = e.profile
  due : f.due = e.due

/-- A change of one entry and its due time alone. -/
theorem CadenceKept.of_cell {u : State} {i : Nat} (htime : u.cm.timeBase = s.cm.timeBase) (hci : u.ci = s.ci)
    (hother : ∀ j, j ≠ i → u.cellAt j = s.cellAt j)
    (hcell : CellAgrees s.profile (s.cellAt i) → CellAgrees s.profile (u.cellAt i)) : CadenceKept s u := by
  have hprofile : u.profile = s.profile := funext fun p => by simp only [State.profile, hci]
  refine ⟨htime, fun j _ hx => ?_⟩
  rw [hprofile]
  by_cases hj : j = i
  · subst hj; exact hcell hx
  · rw [hother j hj]; exact hx

theorem CadenceKept.setFlow {i : Nat} {e : FlowEntry} (h : (s.flow i).SameCadence e) :
    CadenceKept s (s.setFlow i e) := by
  refine .of_cell s (i := i) rfl rfl (fun j hj => ?_) fun hx => ?_
  · rw [State.cellAt, State.flow_setFlow, if_neg hj]; rfl
  · refine hx.congr ?_ ?_ ?_ rfl
    · exact (congrArg FlowEntry.state ((s.flow_setFlow i i e).trans (if_pos rfl))).trans h.state
    · exact (congrArg FlowEntry.profile ((s.flow_setFlow i i e).trans (if_pos rfl))).trans h.profile
    · exact (congrArg FlowEntry.due ((s.flow_setFlow i i e).trans (if_pos rfl))).trans h.due

/-- An entry given up leaves the due list, as a VACANT one (R49). -/
theorem CadenceKept.vacate (i : Nat) (n : BitVec 8) : CadenceKept s ((s.leaveDue i).setFlow i (vacantEntry n)) := by
  refine .of_cell s (i := i) rfl rfl (fun j hj => ?_) fun _ => ?_
  · simp [State.cellAt, hj]
  · have hcell : ((s.leaveDue i).setFlow i (vacantEntry n)).cellAt i = (vacantEntry n, none) := by
      simp [State.cellAt, vacantEntry]
    rw [hcell]
    exact .vacant n

/-- A flow with a due time moves in the due list (R112). -/
theorem CadenceKept.setDue {i : Nat} (hlisted : s.dueOf i ≠ none) (d : Time) : CadenceKept s (s.setDue i d) := by
  refine .of_cell s (i := i) rfl rfl (fun j hj => ?_) fun hx => ?_
  · simp [State.cellAt, hj]
  · have hcell : (s.setDue i d).cellAt i = ({ s.flow i with due := some d, checkOk := true }, some d) := by
      simp [State.cellAt]
    obtain ⟨htracking, hperiod⟩ := hx.tracking hlisted
    rw [hcell]
    exact .armed htracking hperiod rfl rfl

/-- A flow that is not TRACKING has no due time to take from the list. -/
theorem CadenceKept.leaveDue {i : Nat} (hvacant : (s.flow i).valid = false) : CadenceKept s (s.leaveDue i) := by
  refine .of_cell s (i := i) rfl rfl (fun j hj => ?_) fun hx => ?_
  · simp [State.cellAt, hj]
  · have hstill : (s.flow i).state ≠ .tracking := fun h => by simp [FlowEntry.valid, h] at hvacant
    have hcell : (s.leaveDue i).cellAt i = (s.flow i, none) := by simp [State.cellAt]
    rw [hcell]
    exact hx.congr rfl rfl rfl (hx.due_eq_none fun h => absurd h hstill).2.symm

theorem CadenceKept.entryFault (i : Nat) : CadenceKept s (s.entryFault i) := by
  have hcounted (t : State) : CadenceKept t (t.count .entryFaults) := .of_cadence rfl
  exact ((CadenceKept.vacate s i _).trans (hcounted _)).trans (.trigger _ _ _)

theorem CadenceKept.checked (i : Nat) : CadenceKept s (s.checked i) := by
  rcases s.checked_cases i with ⟨_, heq⟩ | ⟨_, heq⟩
  · rw [heq]; exact .refl s
  · rw [heq]; exact .entryFault s i

theorem CadenceKept.checkedAll (l : List Nat) : CadenceKept s (s.checkedAll l) := by
  induction l generalizing s with
  | nil => exact .refl s
  | cons i rest ih => exact (CadenceKept.checked s i).trans (ih _)

/-- A pass over the entries keeps what its change of one entry keeps. -/
theorem CadenceKept.overFlows {f : State → Nat → State} (hf : ∀ t i, CadenceKept t (f t i)) (l : List Nat) :
    CadenceKept s (s.overFlows f l) := by
  induction l generalizing s with
  | nil => exact .refl s
  | cons i rest ih =>
    refine (CadenceKept.checked s i).trans (.trans ?_ (ih _))
    split
    · exact hf _ i
    · exact .refl _

theorem CadenceKept.clearFlow (a : Nat) : CadenceKept s (s.clearFlow a).1 := by
  unfold State.clearFlow
  split
  · dsimp only
    split
    · exact (CadenceKept.checked s a).trans (.setFlow _ ⟨rfl, rfl, rfl⟩)
    · exact .checked s a
  · exact .refl s

theorem CadenceKept.evict (a : Nat) : CadenceKept s (s.evict a) :=
  (CadenceKept.vacate s a _).trans (.of_cadence rfl)

theorem CadenceKept.evictFlow (a : Nat) : CadenceKept s (s.evictFlow a).1 := by
  unfold State.evictFlow
  split
  · refine (CadenceKept.checked s a).trans ?_
    dsimp only
    split
    · exact .refl _
    · split
      · exact .evict _ a
      · split
        · exact .trans (t := (s.checked a).retireEntry a .commanded (s.checked a).now) (.of_cadence rfl) (.evict _ a)
        · exact .refl _
  · exact .refl s

theorem CadenceKept.walkStep (i : Nat) : CadenceKept s (s.walkStep i) := by
  refine (CadenceKept.checked s i).trans ?_
  unfold State.walkStep
  dsimp only
  split
  · exact .setFlow _ ⟨rfl, rfl, rfl⟩
  · exact .refl _

/-! ### Expiries (R118 to R122) -/

/-- A flow that becomes SILENT leaves the due list (R120). -/
theorem CadenceKept.silence (i : Nat) : CadenceKept s (s.silence i) := by
  refine .of_cell s (i := i) (by simp [State.silence, State.leaveDue]) (by simp) (fun j hj => ?_) fun _ => ?_
  · simp [State.cellAt, State.dueOf, State.silence, State.leaveDue, Store.find?_erase, hj]
  · refine .unarmed ?_ ?_ ?_
    · simp [State.cellAt, State.flow_silence]
    · simp [State.cellAt, State.flow_silence]
    · simp [State.cellAt, State.dueOf, State.silence, State.leaveDue, Store.find?_erase]

/-- The entry of a counted expiry, before its limit is tested (R119). -/
def FlowEntry.missed (e : FlowEntry) : FlowEntry :=
  { (e.bump .cadenceMisses 1).mark with misses := e.misses + 1 }

theorem FlowEntry.sameCadence_missed (e : FlowEntry) : e.SameCadence e.missed := ⟨rfl, rfl, rfl⟩

theorem State.countedExpiry_eq (i : Nat) (d : Time) :
    s.countedExpiry i d =
      if (s.profileOf (s.flow i)).silenceLimit ≤ (s.flow i).misses + 1 then
        (s.setFlow i (s.flow i).missed).silence i
      else
        (s.setFlow i (s.flow i).missed).setDue i (d + ofMicroseconds (s.profileOf (s.flow i)).period) := by
  unfold State.countedExpiry FlowEntry.missed
  dsimp only

theorem CadenceKept.countedExpiry {i : Nat} (hlisted : s.dueOf i ≠ none) (d : Time) :
    CadenceKept s (s.countedExpiry i d) := by
  have hmissed : CadenceKept s (s.setFlow i (s.flow i).missed) := .setFlow s (FlowEntry.sameCadence_missed _)
  have hstill : (s.setFlow i (s.flow i).missed).dueOf i ≠ none := hlisted
  rw [State.countedExpiry_eq]
  split
  · exact hmissed.trans (.silence _ i)
  · exact hmissed.trans (.setDue _ hstill _)

theorem CadenceKept.takeExpiry {i : Nat} (hlisted : s.dueOf i ≠ none) (d : Time) :
    CadenceKept s (s.takeExpiry i d) := by
  refine (CadenceKept.checked s i).trans ?_
  unfold State.takeExpiry
  dsimp only
  split
  · next hvacant => exact .leaveDue _ (by simpa using hvacant)
  · next hvalid =>
    have hstill : (s.checked i).dueOf i ≠ none := by
      rcases s.checked_cases i with ⟨_, heq⟩ | ⟨hfail, _⟩
      · rw [heq]; exact hlisted
      · rw [State.flow_checked, if_pos ⟨rfl, hfail⟩] at hvalid
        simp [FlowEntry.valid, vacantEntry] at hvalid
    split
    · exact .countedExpiry _ hstill d
    · exact .setDue _ hstill _

/-! ### Slots -/

theorem FlowEntry.sameCadence_credit (e : FlowEntry) (r : Nat) (v : Verdict) : e.SameCadence (e.credit r v) := by
  cases v <;> constructor <;> simp [FlowEntry.credit, FlowEntry.lost]

theorem CadenceKept.creditFlow (i r : Nat) (v : Verdict) : CadenceKept s (s.creditFlow i r v) := by
  have hcredit := CadenceKept.setFlow s ((s.flow i).sameCadence_credit r v)
  unfold State.creditFlow
  dsimp only
  split
  · exact hcredit.trans (.trigger _ _ _)
  · exact hcredit

theorem CadenceKept.credit (r : Nat) (f : FlowRef) (v : Verdict) : CadenceKept s (s.credit r f v) := by
  cases f with
  | unlisted p =>
    exact .of_cadence (State.cadence_congr (s.creditUnlisted_cm v) (s.creditUnlisted_ft v) (s.creditUnlisted_ci v))
  | listed i g =>
    refine (CadenceKept.checked s i).trans ?_
    unfold State.credit
    dsimp only
    split
    · exact .creditFlow _ i r v
    · exact .of_cadence rfl

theorem CadenceKept.sent (r : Nat) (f : Frame) (d : Time) : CadenceKept s (s.sent r f d) := by
  unfold State.sent
  split
  · exact .credit s r _ _
  · split
    · exact .credit s r _ _
    · next i _ _ => exact (CadenceKept.checked s i).trans (.credit _ r _ _)

theorem FlowEntry.sameCadence_depart (e : FlowEntry) (p : Profile) (q : BitVec 16) : e.SameCadence (e.depart p q) := by
  unfold FlowEntry.depart
  dsimp only
  split
  · exact ⟨rfl, rfl, rfl⟩
  · split <;> exact ⟨rfl, rfl, rfl⟩

theorem CadenceKept.departureCheck (r : Nat) (f : Frame) : CadenceKept s (s.departureCheck r f) := by
  unfold State.departureCheck
  split
  · next i g q _ _ _ =>
    split
    · refine (CadenceKept.checked s i).trans ?_
      dsimp only
      split
      · exact .setFlow _ (FlowEntry.sameCadence_depart _ _ _)
      · exact .refl _
    · exact .refl s
  · exact .refl s

theorem CadenceKept.setSlot (r i : Nat) (x : Slot) : CadenceKept s (s.setSlot r i x) := .of_cadence rfl

theorem CadenceKept.fillSlot (r i : Nat) (f : Frame) : CadenceKept s (s.fillSlot r i f) := by
  refine .trans ?_ (.setSlot _ r i _)
  unfold State.displace
  split
  · exact .refl s
  · unfold State.overrun
    split
    · exact .credit s r _ _
    · exact (CadenceKept.credit s r _ _).trans (.trigger _ _ _)
  · exact .credit s r _ _

theorem CadenceKept.dequeueSlot (r i : Nat) (d : Time) : CadenceKept s (s.dequeueSlot r i d) := by
  unfold State.dequeueSlot
  split
  · exact .of_cadence rfl
  · exact (CadenceKept.setSlot s r i _).trans (.departureCheck _ r _)
  · exact .refl s

theorem CadenceKept.discardFrame (r i : Nat) (f : Frame) : CadenceKept s (s.discardFrame r i f) :=
  (CadenceKept.credit s r f.ref _).trans (.setSlot _ r i _)

theorem CadenceKept.completeSlot (r i : Nat) (c : BitVec 3) (d : Time) : CadenceKept s (s.completeSlot r i c d) := by
  unfold State.completeSlot
  split
  · exact .refl s
  · split
    · exact .of_cadence rfl
    · split
      · exact ((CadenceKept.departureCheck s r _).trans (.sent _ r _ _)).trans (.setSlot _ r i _)
      · exact .discardFrame s r i _
    · split
      · exact (CadenceKept.sent s r _ _).trans (.setSlot _ r i _)
      · exact .discardFrame s r i _

theorem CadenceKept.resolveSlots (r : Nat) (l : List Nat) : CadenceKept s (s.resolveSlots r l) := by
  induction l generalizing s with
  | nil => exact .refl s
  | cons i rest ih =>
    refine .trans ?_ (ih (s.resolveSlot r i))
    unfold State.resolveSlot
    split
    · exact .refl s
    · exact (CadenceKept.credit s r _ _).trans (.setSlot _ r i _)
    · exact (CadenceKept.credit s r _ _).trans (.setSlot _ r i _)

end Sys2Proof.Machine
end

