-- ==== Sys2Proof/Proofs/DueListWrites.lean ====
section
/-! PROOFS. The changes that list a flow anew or take its period: the arrival, whose entry may be a new one, and the
application of a profile. -/

namespace Sys2Proof.Machine

/-! ## The arrival (R42, R114, R115) -/

theorem FlowEntry.due_shift (e : FlowEntry) (p : Profile) (n : Nat) : (e.shift p n).due = e.due := by
  unfold FlowEntry.shift
  dsimp only
  split <;> rfl

theorem FlowEntry.due_arrive (e : FlowEntry) (p : Profile) (q : Nat) (c : ArrivalClass) :
    (e.arrive p q c).due = e.due := by
  cases c with
  | inOrder => exact (e.bump .inOrder 1).due_shift p 1
  | ahead d => exact ((e.bump .ahead 1).mark).due_shift p (d + 1)
  | anchor | jump | duplicate | filled | staleUnawaited | staleBelow => simp [FlowEntry.arrive, FlowEntry.anchorAt]

/-- An evaluated arrival leaves the due time of its entry. -/
theorem FlowEntry.due_evaluate (e : FlowEntry) (p : Profile) (q : BitVec 16) (v : Bool) :
    (e.evaluate p q v).1.due = e.due := by
  unfold FlowEntry.evaluate
  split
  · exact (e.bump .accepted 1).due_arrive p _ _
  · rfl

/-- `t` is `s` with entry n listed for an arrival: the time base stands, every other entry that agreed agrees, and entry n
is valid and, without a period, has no due time. -/
structure ListedAt (s t : State) (n : Nat) : Prop where
  timeBase : t.cm.timeBase = s.cm.timeBase
  other : ∀ j < 1024, j ≠ n → CellAgrees s.profile (s.cellAt j) → CellAgrees t.profile (t.cellAt j)
  valid : (t.flow n).state ≠ .vacant
  unarmed : n < 1024 → CellAgrees s.profile (s.cellAt n) → (t.profileOf (t.flow n)).period = 0 →
    (t.flow n).due = none ∧ t.dueOf n = none

variable {s t : State}

theorem CadenceKept.trans_listedAt {u : State} {n : Nat} (h : CadenceKept s t) (h' : ListedAt t u n) :
    ListedAt s u n where
  timeBase := h'.timeBase.trans h.timeBase
  other j hj hne hx := h'.other j hj hne (h.cell j hj hx)
  valid := h'.valid
  unarmed hn hx := h'.unarmed hn (h.cell n hn hx)

/-- A valid entry that agrees may be listed as it stands. -/
theorem ListedAt.of_hit {n : Nat} (h : CadenceKept s t) (hvalid : (t.flow n).state ≠ .vacant) : ListedAt s t n where
  timeBase := h.timeBase
  other j hj _ := h.cell j hj
  valid := hvalid
  unarmed hn hx hperiod := (h.cell n hn hx).due_eq_none fun _ => hperiod

/-- A new entry is listed without a due time (R42, R49). -/
theorem ListedAt.fillWay (s : State) (set way : Nat) (port : BitVec 4) (tag : BitVec 20) (p : Nat) :
    ListedAt s (s.fillWay set way port tag p) (flowIndex set way) where
  timeBase := rfl
  other j _ hne hx := by
    have hcell : (s.fillWay set way port tag p).cellAt j = s.cellAt j := by
      rw [State.cellAt, State.flow_fillWay, State.dueOf_fillWay, if_neg hne, if_neg hne, State.cellAt]
    rw [hcell]
    exact hx
  valid := by rw [State.flow_fillWay, if_pos rfl]; nofun
  unarmed _ _ _ := by
    rw [State.flow_fillWay, State.dueOf_fillWay, if_pos rfl, if_pos rfl]
    exact ⟨rfl, rfl⟩

/-- An arrival arms a TRACKING flow with a period, and leaves one without a period unarmed (R114, R115). -/
theorem ArrivalEffect.cellAgrees {n : Nat} {q : BitVec 16} {v : Bool} {stamp : Time} (h : ArrivalEffect s t n q v stamp)
    (hvalid : (s.flow n).state ≠ .vacant)
    (hunarmed : (s.profileOf (s.flow n)).period = 0 → (s.flow n).due = none ∧ s.dueOf n = none) :
    CellAgrees s.profile (t.cellAt n) := by
  obtain ⟨p, e, drops, due, rfl, heval, -, -, -, -, hcm, htracking, hsilent, harmed⟩ := h
  have he : e = ((s.flow n).evaluate (s.profileOf (s.flow n)) q v).1 := congrArg Prod.fst heval
  have hsame : (s.flow n).SameFlow e := he ▸ (s.flow n).sameFlow_evaluate _ q v
  have hdue : e.due = (s.flow n).due := he ▸ FlowEntry.due_evaluate _ _ _ _
  have hperiodOf : (s.profile e.profile).period = (s.profileOf (s.flow n)).period := by
    rw [hsame.profile, State.profileOf]
  by_cases hperiod : (s.profileOf (s.flow n)).period = 0
  · obtain ⟨hnone, hunlisted⟩ := hunarmed hperiod
    have hentry : (t.flow n).due = e.due ∧ (t.flow n).profile = e.profile := by
      cases hstate : e.state with
      | vacant => exact absurd (hsame.state.symm.trans hstate) hvalid
      | tracking => rw [htracking hstate hperiod]; exact ⟨rfl, rfl⟩
      | silent => rw [hsilent hstate hperiod]; exact ⟨rfl, rfl⟩
    refine .unarmed (fun _ => ?_) (hentry.1.trans (hdue.trans hnone)) ?_
    · rw [State.cellAt, hentry.2, hperiodOf, hperiod]
    · rw [State.cellAt, State.dueOf, hcm hperiod]; exact hunlisted
  · obtain ⟨hlisted, hentry⟩ := harmed hperiod
    refine .armed (d := due) ?_ ?_ ?_ hlisted
    · rw [State.cellAt, hentry]
    · rw [State.cellAt, hentry, hperiodOf]; exact hperiod
    · rw [State.cellAt, hentry]

/-- The arrival of a listed entry brings it into agreement, and leaves every other. -/
theorem ListedAt.arrival {n : Nat} (h : ListedAt s t n) (q : BitVec 16) (v : Bool) (stamp : Time) :
    CadenceKept s ((t.evaluateArrival n q v).reArm n stamp) := by
  have heffect := t.arrivalEffect h.valid q v stamp
  have hframe := t.arrival_frame n q v stamp
  generalize (t.evaluateArrival n q v).reArm n stamp = u at *
  have hprofile : u.profile = t.profile := by rw [hframe]; rfl
  refine ⟨?_, fun j hj hx => ?_⟩
  · rw [hframe]; exact h.timeBase
  rw [hprofile]
  by_cases hjn : j = n
  · subst hjn
    exact heffect.cellAgrees h.valid (h.unarmed hj hx)
  · obtain ⟨-, -, -, -, -, -, -, hother, -⟩ := heffect
    have hcell : u.cellAt j = t.cellAt j := Prod.ext (hother j hjn).1 (hother j hjn).2
    rw [hcell]
    exact h.other j hj hjn hx

/-- What a listing leaves of cadence supervision before its arrival is evaluated. -/
def Listing.Keeps (s t : State) : Listing → Prop
  | .arrival n => ListedAt s t n
  | .copy _ => CadenceKept s t
  | .unlisted _ => CadenceKept s t

variable (s)

theorem State.keeps_allocate (set : Nat) (port : BitVec 4) (tag : BitVec 20) (time : Time) :
    (s.allocate set port tag time).2.Keeps s (s.allocate set port tag time).1 := by
  unfold State.allocate
  dsimp only
  split
  · exact CadenceKept.of_cadence rfl
  · split
    · next t hdispose =>
      have hdisposed : CadenceKept s t := .of_cadence (by rw [State.dispose_frame hdispose]; rfl)
      exact hdisposed.trans_listedAt (.fillWay t _ _ _ _ _)
    · have hfailed : CadenceKept s (s.allocationFailure port tag) :=
        .of_cadence (State.cadence_congr (by simp) (by simp) (by simp))
      exact hfailed.trans (.of_cadence rfl)

theorem State.keeps_lookup (port : BitVec 4) (tag : BitVec 20) (copy : BitVec 4) (time : Time) :
    (s.lookup port tag copy time).2.Keeps s (s.lookup port tag copy time).1 := by
  have hread := CadenceKept.checkedAll s (setWays (setIndex port tag))
  unfold State.lookup
  dsimp only
  generalize s.checkedAll (setWays (setIndex port tag)) = c at *
  split
  · next x hhit =>
    split
    · have hholds : (c.flow (flowIndex (setIndex port tag) x)).holds port tag = true := by
        simpa using List.find?_some (p := fun x => (c.flow (flowIndex (setIndex port tag) x)).holds port tag) hhit
      exact .of_hit (hread.trans (.of_cadence rfl)) ((FlowEntry.holds_iff _ port tag).1 hholds).1
    · exact hread
  · split
    · have hallocated := c.keeps_allocate (setIndex port tag) port tag time
      generalize c.allocate (setIndex port tag) port tag time = r at *
      obtain ⟨t, l⟩ := r
      cases l with
      | arrival n => exact hread.trans_listedAt hallocated
      | copy n | unlisted p => exact hread.trans hallocated
    · exact hread

theorem CadenceKept.takeEnqueue (o : Observation) (r i : Nat) (port : BitVec 4) (tag : BitVec 20) (copy : BitVec 4)
    (q : BitVec 16) (v : Bool) : CadenceKept s (s.takeEnqueue o r i port tag copy q v) := by
  have hlisted := s.keeps_lookup port tag copy o.stamp
  unfold State.takeEnqueue
  generalize s.lookup port tag copy o.stamp = l at *
  obtain ⟨t, l⟩ := l
  cases l with
  | arrival n => exact (ListedAt.arrival hlisted q v o.stamp).trans (.fillSlot _ r i _)
  | copy n | unlisted p => exact CadenceKept.trans hlisted (.fillSlot _ r i _)

/-! ## The application of a profile (R123) -/

/-- The agreement hangs on a profile only by whether its period is 0, and only for a TRACKING flow. -/
theorem CellAgrees.reprofiled {g g' : Nat → Profile} {x : EntryCell} (hx : CellAgrees g x)
    (h : x.1.state = .tracking → ((g' x.1.profile).period = 0 ↔ (g x.1.profile).period = 0)) : CellAgrees g' x :=
  ⟨hx.1, hx.2.trans (and_congr_right fun htracking => (h htracking).not.symm)⟩

/-- A TRACKING flow whose profile gains a period is due in the list and in its entry at one time (R123). -/
theorem repayedDue_of_joins {old new : Profile} (hold : old.period = 0) (hnew : new.period ≠ 0) (T : Time)
    (due : Option Time) :
    repayedDue old new T .tracking due = some (T + BitVec.ofNat 48 ((new.period + old.tolerance) * 1000)) := by
  simp [repayedDue, hold, hnew]

/-- A flow whose profile gains or loses its period joins or leaves the due list (R123). -/
theorem CellAgrees.repayed {g g' : Nat → Profile} {x : EntryCell} (hx : CellAgrees g x) (T : Time) :
    CellAgrees g' (movedEntry (g x.1.profile) (g' x.1.profile) T x.1,
      repayedDue (g x.1.profile) (g' x.1.profile) T x.1.state x.2) := by
  by_cases hleaves : x.1.state = .tracking ∧ (g x.1.profile).period ≠ 0 ∧ (g' x.1.profile).period = 0
  · have hnone (due : Option Time) : repayedDue (g x.1.profile) (g' x.1.profile) T x.1.state due = none :=
      if_pos hleaves
    exact .unarmed (fun _ => hleaves.2.2) (hnone _) (hnone _)
  · by_cases hjoins : x.1.state = .tracking ∧ (g x.1.profile).period = 0 ∧ (g' x.1.profile).period ≠ 0
    · obtain ⟨htracking, hold, hnew⟩ := hjoins
      have hsome (due : Option Time) := repayedDue_of_joins hold hnew T due
      rw [← htracking] at hsome
      exact .armed htracking hnew (hsome _) (hsome _)
    · have hstands (due : Option Time) : repayedDue (g x.1.profile) (g' x.1.profile) T x.1.state due = due :=
        (if_neg hleaves).trans (if_neg hjoins)
      have hperiod : x.1.state = .tracking → ((g' x.1.profile).period = 0 ↔ (g x.1.profile).period = 0) := by tauto
      exact (hx.reprofiled hperiod).congr rfl rfl (hstands _) (hstands _)

/-- The application of profile p keeps the agreement of an entry with the profiles held. -/
theorem CellAgrees.applied {g : Nat → Profile} {x : EntryCell} (hx : CellAgrees g x) (p : Nat) (new : Profile)
    (T : Time) : CellAgrees (fun q => if q = p then new else g q) (appliedCell p (g p) new T x) := by
  cases hok : x.1.checkOk
  · rw [appliedCell_of_fail _ _ _ _ hok]
    split
    · exact .vacant _
    · next hstands =>
      refine hx.reprofiled fun _ => ?_
      split
      · next hp =>
        have hperiod : (g p).period = new.period := by tauto
        rw [hp, hperiod]
      · rfl
  · cases hvalid : x.1.valid
    · rw [appliedCell_of_vacant _ _ _ _ hok hvalid]
      exact hx.reprofiled fun htracking => by simp [FlowEntry.valid, htracking] at hvalid
    · by_cases hp : x.1.profile = p
      · have hmoved := hx.repayed (g' := fun q => if q = p then new else g q) T
        rw [appliedCell_of_own _ _ _ _ hok hvalid hp]
        simpa [hp] using hmoved
      · rw [appliedCell_of_other _ _ _ _ hok hvalid hp]
        exact hx.reprofiled fun _ => by simp [hp]

theorem CadenceKept.applyNamedProfile (bytes : List (Nat × Byte)) (p : Nat) :
    CadenceKept s (s.applyNamedProfile bytes p) := by
  have hprofile : (s.applyNamedProfile bytes p).profile = fun q => if q = p then s.newProfile bytes p else s.profile q :=
    funext (s.profile_applyNamedProfile bytes p)
  refine ⟨s.now_applyNamedProfile bytes p, fun j hj hx => ?_⟩
  rw [hprofile, s.cellAt_applyNamedProfile bytes p hj]
  exact hx.applied p _ _

theorem CadenceKept.applyProfiles (bytes : List (Nat × Byte)) (l : List Nat) :
    CadenceKept s (s.applyProfiles bytes l) := by
  induction l generalizing s with
  | nil => exact .refl s
  | cons p rest ih => rw [State.applyProfiles_cons]; exact (CadenceKept.applyNamedProfile s bytes p).trans (ih _)

end Sys2Proof.Machine
end

