-- ==== Sys2Proof/Proofs/CadenceKept.lean ====
section
/-! PROOFS. Every command keeps the agreement of the due list with the flow entries, and every command but the tick and the
resets keeps the time base. -/

namespace Sys2Proof.Machine

variable (s : State)

/-! ## Operations that leave what cadence supervision hangs on -/

@[simp] theorem State.cadence_onMasked (m : BitVec 8) (f : AlarmRow → AlarmRow) (l : List AlarmKind) :
    (s.onMasked m f l).cadence = s.cadence := State.cadence_congr (by simp) (by simp) (by simp)

@[simp] theorem State.cadence_noteClamp (o f v h : Nat) : (s.noteClamp o f v h).cadence = s.cadence := by
  unfold State.noteClamp
  split <;> rfl

@[simp] theorem State.cadence_refreshAlert : s.refreshAlert.cadence = s.cadence :=
  State.cadence_congr (by simp) (by simp) (by simp)

@[simp] theorem State.cadence_returnToSighted : s.returnToSighted.cadence = s.cadence := by
  unfold State.returnToSighted
  split
  · simp
  · rfl

@[simp] theorem State.cadence_triggerDrain : s.triggerDrain.cadence = s.cadence :=
  State.cadence_congr (by simp) (by simp) (by simp)

@[simp] theorem State.cadence_expireTimer : s.expireTimer.cadence = s.cadence :=
  State.cadence_congr (by simp) (by simp) (by simp)

@[simp] theorem State.cadence_drainIdle : s.drainIdle.cadence = s.cadence :=
  State.cadence_congr (by simp) (by simp) (by simp)

@[simp] theorem State.cadence_endDrain : s.endDrain.cadence = s.cadence :=
  State.cadence_congr (by simp) (by simp) (by simp)

@[simp] theorem State.cadence_stallDrain : s.stallDrain.cadence = s.cadence :=
  State.cadence_congr (by simp) (by simp) (by simp)

@[simp] theorem State.cadence_testThreshold (b : State) : (s.testThreshold b).cadence = s.cadence :=
  State.cadence_congr (by simp) (by simp) (by simp)

@[simp] theorem State.cadence_selectInterrogate (x : ReportRecord) : (s.selectInterrogate x).cadence = s.cadence := by
  unfold State.selectInterrogate
  dsimp only
  split <;> rfl

@[simp] theorem State.cadence_requestReload (o : ReloadOrigin) : (s.requestReload o).cadence = s.cadence := by
  unfold State.requestReload
  split <;> rfl

/-! ### Settings -/

@[simp] theorem State.cadence_applyFreeze : s.applyFreeze.cadence = s.cadence := rfl

@[simp] theorem State.cadence_applyPinCount : s.applyPinCount.cadence = s.cadence := by
  unfold State.applyPinCount
  dsimp only
  rw [State.cadence_noteClamp]
  rfl

@[simp] theorem State.cadence_applyAlarmOn : s.applyAlarmOn.cadence = s.cadence := by
  unfold State.applyAlarmOn
  dsimp only
  rw [State.cadence_onMasked]
  rfl

@[simp] theorem State.cadence_applyInterval : s.applyInterval.cadence = s.cadence := by
  unfold State.applyInterval
  dsimp only
  split
  · rfl
  · split
    · rw [State.cadence_expireTimer]; rfl
    · rfl

@[simp] theorem State.cadence_applyThreshold : s.applyThreshold.cadence = s.cadence := by
  unfold State.applyThreshold
  dsimp only
  split
  · rw [State.cadence_triggerDrain, State.cadence_noteClamp]; rfl
  · rw [State.cadence_noteClamp]; rfl

@[simp] theorem State.cadence_applyConsume (l : List (Nat × Byte)) : (s.applyConsume l).cadence = s.cadence := by
  have heffect (t : State) : t.consumeEffect.cadence = t.cadence := by
    unfold State.consumeEffect
    split
    · exact t.cadence_drainIdle
    · rfl
  unfold State.applyConsume
  dsimp only
  split
  · split
    · split
      · rfl
      · rw [heffect]; rfl
    · exact s.cadence_noteClamp _ _ _ _
  · rfl

@[simp] theorem State.cadence_noteRings (b : State) (l : List (Nat × Byte)) (r : Nat) (gs : List RingGeometry) :
    (s.noteRings b l r gs).cadence = s.cadence := by
  induction gs generalizing s r with
  | nil => rfl
  | cons g rest ih =>
    rw [State.noteRings, ih]
    unfold State.noteRing
    dsimp only
    (repeat' split) <;> simp

@[simp] theorem State.cadence_applyClassifier (l : List (Nat × Byte)) (ns : List Nat) :
    (s.applyClassifier l ns).cadence = s.cadence := by
  induction ns generalizing s with
  | nil => rfl
  | cons n rest ih =>
    rw [State.applyClassifier, ih]
    split <;> rfl

/-! ### The end of a load -/

@[simp] theorem State.cadence_startWaiting : s.startWaiting.cadence = s.cadence := by
  unfold State.startWaiting
  split
  · rfl
  · rw [State.cadence_requestReload]; rfl

@[simp] theorem State.cadence_coverageAtLoadEnd : s.coverageAtLoadEnd.cadence = s.cadence := by
  have hfree (t : State) : t.useFree.cadence = t.cadence := by
    unfold State.useFree
    split <;> rfl
  unfold State.coverageAtLoadEnd
  split
  · simp
  · split
    · simp [hfree]
    · simp

@[simp] theorem State.cadence_answerRestart : s.answerRestart.cadence = s.cadence := by
  unfold State.answerRestart
  split <;> rfl

@[simp] theorem State.cadence_answerReload (o : ReloadOrigin) : (s.answerReload o).cadence = s.cadence := by
  unfold State.answerReload
  split <;> rfl

@[simp] theorem State.cadence_endLoad : s.endLoad.cadence = s.cadence := by
  have hwriter (t : State) : t.startWriter.cadence = t.cadence := rfl
  unfold State.endLoad
  split
  · rfl
  · dsimp only
    split
    · simp only [State.endInitial, State.cadence_startWaiting, State.cadence_answerRestart, State.cadence_requestStatus,
        hwriter, State.cadence_coverageAtLoadEnd]
      rfl
    · simp only [State.endReload, State.cadence_startWaiting, State.cadence_requestStatus, State.cadence_answerReload]
      rfl

/-! ### The link -/

@[simp] theorem State.cadence_observe (t : Transaction) (place : Nat) : (s.observe t place).cadence = s.cadence := by
  have hcount (b : ObservationBody) : (s.countLoss b).cadence = s.cadence :=
    State.cadence_congr (by simp) (by simp) (by simp)
  unfold State.observe
  split
  · rfl
  · split
    · rfl
    · split
      · rfl
      · unfold State.lose
        dsimp only
        split <;> simp [hcount]

@[simp] theorem State.cadence_takeForwarded (t : Transaction) : (s.takeForwarded t).cadence = s.cadence := by
  rw [State.takeForwarded_eq, State.cadence_observe]
  exact State.cadence_congr (by simp) (by simp) (by simp)

@[simp] theorem State.cadence_grant : s.grant.cadence = s.cadence := by
  unfold State.grant
  split
  · rfl
  · rfl
  · split <;> rfl
  · rfl

@[simp] theorem State.cadence_advanceJob : s.advanceJob.cadence = s.cadence := by
  unfold State.advanceJob
  split
  · rfl
  · next j _ =>
    split
    · cases j.kind <;> rfl
    · rfl

@[simp] theorem State.cadence_completeRead (r : ReturnRead) : (s.completeRead r).cadence = s.cadence := by
  unfold State.completeRead
  dsimp only
  split
  · rw [State.cadence_advanceJob]; rfl
  · rfl

@[simp] theorem State.cadence_completeWrite (t : Transaction) (live : Bool) :
    (s.completeWrite t live).cadence = s.cadence := by
  unfold State.completeWrite
  dsimp only
  split
  · rw [State.cadence_advanceJob]; rfl
  · rfl

/-! ## The report writer and the end of an event -/

theorem CadenceKept.drainPick (n : Nat) : CadenceKept s (s.drainPick n).1 := by
  induction n generalizing s with
  | zero => exact .refl s
  | succ n ih =>
    unfold State.drainPick
    split
    · exact .refl s
    · next i _ =>
      split
      · exact .refl s
      · exact (CadenceKept.entryFault s i).trans (ih _)

theorem CadenceKept.drainBuild (i : Nat) : CadenceKept s (s.drainBuild i) := by
  have hclean : CadenceKept s (s.setFlow i { s.flow i with dirty := false }) := .setFlow s ⟨rfl, rfl, rfl⟩
  exact hclean.trans (.of_cadence rfl)

theorem CadenceKept.drainStep : CadenceKept s s.drainStep := by
  have hpick := CadenceKept.drainPick s (s.flowIndexes.length + 1)
  unfold State.drainStep
  split
  · exact .of_cadence (by simp)
  · split
    · exact .of_cadence (by simp)
    · split
      · next t heq => rw [heq] at hpick; exact hpick.trans (.of_cadence (by simp))
      · next t i heq => rw [heq] at hpick; exact hpick.trans (.drainBuild t i)

theorem CadenceKept.drainRound : CadenceKept s (if s.rw.drain = .draining then s.drainStep.refreshAlert else s) := by
  split
  · exact (CadenceKept.drainStep s).trans (.of_cadence (by simp))
  · exact .refl s

theorem CadenceKept.selectOnce : CadenceKept s s.selectOnce := by
  unfold State.selectOnce
  split
  · exact .of_cadence rfl
  · split
    · exact .of_cadence rfl
    · split
      · exact .of_cadence (by simp)
      · split
        · split
          · exact .of_cadence rfl
          · exact .drainRound s
        · exact .drainRound s

theorem CadenceKept.selectRounds (n : Nat) : CadenceKept s (s.selectRounds n) := by
  induction n generalizing s with
  | zero => exact .refl s
  | succ n ih =>
    unfold State.selectRounds
    split
    · exact .refl s
    · exact (CadenceKept.selectOnce s).trans (ih _)

theorem CadenceKept.settle (b : State) : CadenceKept s (s.settle b) := by
  have hbefore : CadenceKept s (s.returnToSighted.refreshAlert.testThreshold b) := .of_cadence (by simp)
  exact hbefore.trans (.selectRounds _ 3)

/-! ## Settings -/

theorem CadenceKept.sweep : CadenceKept s s.sweep := by
  have hpass := CadenceKept.overFlows s (f := fun t i => t.setFlow i (t.flow i).swept)
    (fun t i => .setFlow t ⟨rfl, rfl, rfl⟩) s.flowIndexes
  refine hpass.trans (.of_cadence ?_)
  rw [s.sweep_keep State.cadence fun t o => t.cadence_requestReload o]
  rfl

theorem CadenceKept.applyMonitoring : CadenceKept s s.applyMonitoring := by
  unfold State.applyMonitoring
  dsimp only
  split
  · exact .refl s
  · refine .trans (CadenceKept.of_cadence (u := s.onHeld fun h => { h with monitoring := s.imageBit 8 0 }) rfl) ?_
    unfold State.monitoringEffect
    split
    · split
      · split
        · exact (CadenceKept.sweep _).trans (.of_cadence (by simp))
        · exact .refl _
      · split
        · exact .refl _
        · exact .of_cadence (by simp)
    · exact .refl _

theorem CadenceKept.applyGlobals (l : List (Nat × Byte)) : CadenceKept s (s.applyGlobals l) := by
  unfold State.applyGlobals
  have hmonitoring (t : State) : CadenceKept t t.applyMonitoring.applyFreeze :=
    (CadenceKept.applyMonitoring t).trans (.of_cadence rfl)
  exact ((((CadenceKept.ite _ (hmonitoring s)).trans (.ite _ (.of_cadence (by simp)))).trans
    (.ite _ (.of_cadence (by simp)))).trans (.ite _ (.of_cadence (by simp)))).trans (.ite _ (.of_cadence (by simp)))

theorem CadenceKept.changeRings (r : Nat) (l : List RingGeometry) : CadenceKept s (s.changeRings r l) := by
  induction l generalizing s r with
  | nil => exact .refl s
  | cons g rest ih =>
    refine .trans ?_ (ih (s.changeRing r g) (r + 1))
    unfold State.changeRing
    dsimp only
    split
    · exact .refl s
    · split
      · exact (CadenceKept.resolveSlots s r _).trans (.of_cadence rfl)
      · exact .of_cadence rfl

theorem CadenceKept.applyRings (l : List (Nat × Byte)) (m : Store Byte) : CadenceKept s (s.applyRings l m) := by
  unfold State.applyRings
  split
  · exact .trans (.of_cadence (State.cadence_noteRings _ _ _ _ _)) (.changeRings _ _ _)
  · exact .refl s

theorem CadenceKept.applySettings (l : List (Nat × Byte)) : CadenceKept s (s.applySettings l) := by
  have hmerge : CadenceKept s (s.merge l) := .of_cadence rfl
  have happlied := (((hmerge.trans (.applyGlobals _ l)).trans (.of_cadence (State.cadence_applyConsume _ l))).trans
    (.applyRings _ l s.ci.image)).trans (.applyProfiles _ l (List.range 16))
  exact happlied.trans (.of_cadence ((State.cadence_testThreshold _ s).trans (State.cadence_applyClassifier _ l _)))

/-! ## Commands -/

/-- A change that keeps the time base and takes every entry away with its due time. -/
theorem CadenceKept.of_vacated {s u : State} (htime : u.cm.timeBase = s.cm.timeBase) (hdue : u.cm.due = ⟨[]⟩)
    (hflows : u.ft.flows = ⟨[]⟩) : CadenceKept s u := by
  refine ⟨htime, fun j _ _ => ?_⟩
  have hcell : u.cellAt j = (vacantEntry 0#8, none) := by
    rw [State.cellAt, State.flow, State.dueOf, hflows, hdue]; rfl
  rw [hcell]
  exact .vacant _

theorem CadenceKept.act (tag : BitVec 8) (a : Nat) (k : MailboxCommand) : CadenceKept s (s.act tag a k) := by
  have hresult (t : State) (c : ResultCode) : CadenceKept t (t.result tag c) := .of_cadence rfl
  cases k with
  | clearFlow => exact (CadenceKept.clearFlow s a).trans (hresult _ _)
  | evictFlow => exact (CadenceKept.evictFlow s a).trans (hresult _ _)
  | interrogate =>
    change CadenceKept s (s.startInterrogate tag a)
    unfold State.startInterrogate
    split
    · exact (CadenceKept.checked s a).trans (.of_cadence rfl)
    · exact hresult s _
  | snapshot =>
    have hpass := CadenceKept.overFlows s (f := fun t i => t.setFlow i (t.flow i).mark)
      (fun t i => .setFlow t ⟨rfl, rfl, rfl⟩) s.flowIndexes
    exact (hpass.trans (.of_cadence (State.cadence_triggerDrain _))).trans (hresult _ _)
  | restart => exact .of_vacated rfl rfl rfl
  | ping | clearAll | unknown => exact .of_cadence rfl
  | alarmAck | alarmHold | alarmRelease =>
    have hmasked (f : AlarmRow → AlarmRow) : CadenceKept s (s.onMasked (kindMask a) f AlarmKind.all) :=
      .of_cadence (by simp)
    exact (hmasked _).trans (hresult _ _)
  | reloadConfig => exact .of_cadence (State.cadence_requestReload _ _)

theorem CadenceKept.mailbox : CadenceKept s s.mailbox := by
  unfold State.mailbox
  dsimp only
  split
  · exact .refl s
  · split
    · have htag : CadenceKept s (s.takeTag s.commandTag) := .of_cadence rfl
      exact htag.trans (.act _ _ _ _)
    · exact .of_cadence rfl

theorem CadenceKept.popHead : CadenceKept s s.popHead := .of_cadence rfl

theorem CadenceKept.considerCommand (l : List (Nat × Byte)) : CadenceKept s (s.considerCommand l) := by
  unfold State.considerCommand
  exact .ite _ (.mailbox s)

theorem CadenceKept.handOutControl (o : Observation) : CadenceKept s (s.handOutControl o) :=
  ((CadenceKept.popHead s).trans (.applySettings _ _)).trans ((CadenceKept.considerCommand _ _).trans (.settle _ _))

theorem CadenceKept.considerLoadRead (r : LoadRead) : CadenceKept s (s.considerLoadRead r) := by
  unfold State.considerLoadRead
  exact .ite _ (.of_cadence (State.cadence_endLoad _))

theorem CadenceKept.applyLoadRead (r : LoadRead) : CadenceKept s (s.applyLoadRead r) :=
  (CadenceKept.applySettings s r.bytes).trans ((CadenceKept.considerLoadRead _ r).trans (.settle _ _))

theorem CadenceKept.advanceWalk (n : Nat) (tag : BitVec 8) : CadenceKept s (s.advanceWalk n tag) := by
  unfold State.advanceWalk
  split
  · exact (CadenceKept.walkStep s n).trans (.of_cadence rfl)
  · have hcleared : ((s.onTau fun t => { t with agg := ⟨[]⟩ }).clearOccurrences AlarmKind.all).cadence = s.cadence :=
      State.cadence_congr (by simp) (by simp) (by simp)
    have hdone (t : State) : CadenceKept t (t.finishCommand tag .done) := .of_cadence rfl
    exact (CadenceKept.of_cadence hcleared).trans (hdone _)

/-! ## The head of the due list (R112) -/

/-- The head of a due list is listed. -/
theorem dueFirst_mem {now : Time} {l : List (Nat × Time)} {a : Nat × Time} (h : dueFirst now l = some a) : a ∈ l := by
  induction l with
  | nil => cases h
  | cons c rest ih =>
    rw [dueFirst] at h
    split at h
    · cases h; exact List.mem_cons_self
    · next b hb =>
      split at h <;> cases h
      · exact List.mem_cons_of_mem _ (ih hb)
      · exact List.mem_cons_self

theorem lookupCell_ne_none_of_mem {α : Type} {l : List (Nat × α)} {a : Nat × α} (h : a ∈ l) :
    lookupCell a.1 l ≠ none := by
  induction l with
  | nil => cases h
  | cons c rest ih =>
    rw [lookupCell]
    split
    · nofun
    · next hne => exact ih ((List.mem_cons.1 h).resolve_left fun heq => hne (heq ▸ rfl))

/-- The head of the due list is a flow with a due time. -/
theorem State.dueOf_of_dueHead {s : State} {i : Nat} {d : Time} (h : s.dueHead = some (i, d)) : s.dueOf i ≠ none :=
  lookupCell_ne_none_of_mem (dueFirst_mem h)

/-! ## Every command -/

variable {s} {c : Instr} {u : State}

/-- The tick and the resets apart, every command keeps the time base and the agreement of the due list. -/
theorem Effect.cadenceKept (h : Effect s c u) (htick : c ≠ .timeBaseAdvance) (hassert : c ≠ .resetNAsserted)
    (hrelease : ∀ straps, c ≠ .resetNReleased straps) : CadenceKept s u := by
  cases h with
  | idle => exact .refl s
  | assertReset => exact absurd rfl hassert
  | releaseReset straps => exact absurd rfl (hrelease straps)
  | tick => exact absurd rfl htick
  | present | returnRead | takeInjectedRead => exact .of_cadence rfl
  | grant t => exact .of_cadence (State.cadence_grant _)
  | takeForwarded t => exact (CadenceKept.of_cadence (s.cadence_takeForwarded t)).trans (.settle _ s)
  | completeWrite t live => exact (CadenceKept.of_cadence (s.cadence_completeWrite t live)).trans (.settle _ s)
  | completeRead r => exact (CadenceKept.of_cadence (s.cadence_completeRead r)).trans (.settle _ s)
  | expireTimer => exact (CadenceKept.of_cadence s.cadence_expireTimer).trans (.settle _ s)
  | takeEnqueue o r i port tag copy q v =>
    exact ((CadenceKept.popHead s).trans (.takeEnqueue _ o r i port tag copy q v)).trans (.settle _ s)
  | dequeueSlot o r i => exact ((CadenceKept.popHead s).trans (.dequeueSlot _ r i o.stamp)).trans (.settle _ s)
  | completeSlot o r i code =>
    exact ((CadenceKept.popHead s).trans (.completeSlot _ r i code o.stamp)).trans (.settle _ s)
  | discardHead => exact (CadenceKept.popHead s).trans (.settle _ s)
  | sweepHead =>
    have hswept (t : State) : CadenceKept t (t.onOq fun q => { q with headSwept := true }) := .of_cadence rfl
    exact ((CadenceKept.sweep s).trans (hswept _)).trans (.settle _ s)
  | sweepEmpty => exact (CadenceKept.sweep s).trans (.settle _ s)
  | takeExpiry i due hhead =>
    exact (CadenceKept.takeExpiry s (State.dueOf_of_dueHead hhead) due).trans (.settle _ s)
  | control c o => exact .handOutControl s o
  | advanceWalk n tag => exact (CadenceKept.advanceWalk s n tag).trans (.settle _ s)
  | applyLoadRead r =>
    have hnext : CadenceKept s (s.onCi fun c => { c with loadReads := c.loadReads.tail }) := .of_cadence rfl
    exact hnext.trans (.applyLoadRead _ r)

/-- Every command keeps the agreement of the due list with the entries: the resets empty both or leave both. -/
theorem Effect.keeps_dueListAgrees (h : Effect s c u) (hs : s.DueListAgrees) : u.DueListAgrees := by
  have hkept := h.cadenceKept
  cases h with
  | assertReset =>
    have hvacated : CadenceKept (s.onCm fun m => { m with timeBase := 0#48 }) s.assertReset := .of_vacated rfl rfl rfl
    exact hvacated.dueListAgrees hs
  | releaseReset straps =>
    have hreleased : (s.releaseReset straps).DueListAgrees := hs
    exact (CadenceKept.settle _ s).dueListAgrees hreleased
  | tick | idle => exact hs
  | control c o => exact (CadenceKept.handOutControl s o).dueListAgrees hs
  | _ => exact (hkept nofun nofun nofun).dueListAgrees hs

/-- Settles O55: every command keeps the agreement at each entry that agreed, and the resets empty list and table. -/
theorem stepsKeepTheDueListTrue : Obligations.StepsKeepTheDueListTrue := by
  intro s u hs h
  rcases step_effect h with rfl | ⟨c, rest, _, heffect⟩
  · exact hs
  · exact heffect.keeps_dueListAgrees hs

/-- The tick moves the time base by one nanosecond, and is idle while RESET_N is asserted (R109). -/
theorem exec_timeBaseAdvance (s : State) :
    exec .timeBaseAdvance s =
      if s.ci.part = .offline then .next s else .next { s with cm := { s.cm with timeBase := s.cm.timeBase + 1 } } := rfl

/-- Settles O5: the tick by its definition, and every other command by what it keeps of cadence supervision. -/
theorem timeBaseFollowsTheReference : Obligations.TimeBaseFollowsTheReference := by
  refine ⟨fun s => ⟨fun hrunning => ?_, fun hoffline => ?_⟩, fun c s u h htick hassert hrelease => ?_⟩
  · rw [exec_timeBaseAdvance, if_neg hrunning, time_add_one]
  · rw [exec_timeBaseAdvance, if_pos hoffline]
  · exact ((exec_effect h).cadenceKept htick hassert hrelease).timeBase

end Sys2Proof.Machine
end

