-- ==== Sys2Proof/Proofs/Expiries.lean ====
section
/-! PROOFS. The EXPIRY: which flow heads the due list, when its expiry waits, and what its taking does. -/

namespace Sys2Proof.Machine

/-! ## The head of the due list (R112) -/

/-- Keys that rise stand in order. -/
theorem pairwise_of_risingFrom {α : Type} {lo : Option Nat} {l : List (Nat × α)} (h : risingFrom lo l = true) :
    (∀ k ∈ lo, ∀ a ∈ l, k < a.1) ∧ l.Pairwise fun a b => a.1 < b.1 := by
  induction l generalizing lo with
  | nil => exact ⟨nofun, .nil⟩
  | cons c rest ih =>
    have hrest : risingFrom (some c.1) rest = true ∧ ∀ k ∈ lo, k < c.1 := by
      cases lo <;> simp_all [risingFrom]
    obtain ⟨habove, hordered⟩ := ih hrest.1
    refine ⟨fun k hk => List.forall_mem_cons.2 ⟨hrest.2 k hk, fun a ha => ?_⟩, .cons (habove c.1 rfl) hordered⟩
    exact (hrest.2 k hk).trans (habove c.1 rfl a ha)

/-- Of keys in order each is listed with its own value. -/
theorem lookupCell_of_mem {α : Type} {l : List (Nat × α)} (hl : l.Pairwise fun a b => a.1 < b.1) {a : Nat × α}
    (ha : a ∈ l) : lookupCell a.1 l = some a.2 := by
  induction hl with
  | nil => cases ha
  | @cons c rest hbelow _ ih =>
    rw [lookupCell]
    rcases List.mem_cons.1 ha with rfl | hrest
    · exact if_pos rfl
    · rw [if_neg (hbelow a hrest).ne]
      exact ih hrest

theorem mem_of_lookupCell {α : Type} {k : Nat} {v : α} {l : List (Nat × α)} (h : lookupCell k l = some v) :
    (k, v) ∈ l := by
  induction l with
  | nil => cases h
  | cons c rest ih =>
    rw [lookupCell] at h
    split at h
    · next hk => cases h; exact hk ▸ List.mem_cons_self
    · exact List.mem_cons_of_mem _ (ih h)

theorem dueFirst_eq_none {now : Time} {l : List (Nat × Time)} (h : dueFirst now l = none) : l = [] := by
  cases l with
  | nil => rfl
  | cons c rest =>
    rw [dueFirst] at h
    split at h
    · cases h
    · split at h <;> cases h

/-- The head of the due list is due the earliest, and has the lowest flow index among those due with it. -/
theorem dueFirst_le {now : Time} {l : List (Nat × Time)} (hl : l.Pairwise fun a b => a.1 < b.1) {a : Nat × Time}
    (h : dueFirst now l = some a) :
    ∀ b ∈ l, (a.2 - now).toInt ≤ (b.2 - now).toInt ∧ ((a.2 - now).toInt = (b.2 - now).toInt → a.1 ≤ b.1) := by
  induction hl generalizing a with
  | nil => nofun
  | @cons c rest hbelow _ ih =>
    rw [dueFirst] at h
    split at h
    · next hnone =>
      cases h
      rw [dueFirst_eq_none hnone]
      simp
    · next b hb =>
      have hleast := ih hb
      by_cases hearlier : (b.2 - now).toInt < (c.2 - now).toInt
      · rw [if_pos (by simpa [dueEarlier] using hearlier)] at h
        cases h
        exact List.forall_mem_cons.2 ⟨⟨hearlier.le, fun heq => absurd heq hearlier.ne⟩, hleast⟩
      · rw [if_neg (by simpa [dueEarlier] using hearlier)] at h
        cases h
        refine List.forall_mem_cons.2 ⟨⟨le_rfl, fun _ => le_rfl⟩, fun x hx => ?_⟩
        exact ⟨(not_lt.1 hearlier).trans (hleast x hx).1, fun _ => (hbelow x hx).le⟩

/-! ## When an expiry is taken (R116, R117) -/

section
variable {s : State} {i : Nat} {d : Time}

theorem State.expiryReady_iff :
    s.expiryReady d = true ↔
      atOrAfter s.cm.timeBase d = true ∧ ∀ o rest, s.oq.queue = o :: rest → atOrAfter d o.stamp = false := by
  unfold State.expiryReady
  rw [Bool.and_eq_true]
  refine and_congr_right fun _ => ?_
  split <;> next hqueue => simp [hqueue]

theorem exec_expiry (hhead : s.dueHead = some (i, d)) :
    exec .expiry s = if s.expiryReady d then .next ((s.takeExpiry i d).settle s) else .next s := by
  simp only [exec, execExpiry, hhead]

/-! ## What the taking of an expiry does (R118 to R122) -/

/-- The expiry of an entry that fails its check faults it, and the due list holds nothing of it (R52, R118). -/
theorem State.takeExpiry_of_fail (hfail : (s.flow i).checkOk = false) (d : Time) :
    s.takeExpiry i d = (s.checked i).leaveDue i := by
  have hvacant : ((s.checked i).flow i).valid = false := by rw [State.flow_checked, if_pos ⟨rfl, hfail⟩]; rfl
  simp [State.takeExpiry, hvacant]

/-- The expiry of a sound valid entry counts or does not (R118). -/
theorem State.takeExpiry_of_valid (hok : (s.flow i).checkOk = true) (hvalid : (s.flow i).valid = true) (d : Time) :
    s.takeExpiry i d =
      if s.expiryCounts (s.profileOf (s.flow i)) d then s.countedExpiry i d else s.uncountedExpiry i d := by
  simp [State.takeExpiry, s.checked_of_ok hok, hvalid]

theorem State.expiryCounts_iff (p : Profile) :
    s.expiryCounts p d = true ↔ s.ci.part = .running ∧ s.oq.coverage = .sighted ∧
      atOrAfter (d - BitVec.ofNat 48 ((p.period + p.tolerance) * 1000)) s.cm.sightStart = true := by
  simp [State.expiryCounts, Profile.span, ofMicroseconds, and_assoc]

/-- A write of entry i with its due time leaves every other entry. -/
theorem State.cellAt_countedExpiry_of_ne {j : Nat} (hj : j ≠ i) : (s.countedExpiry i d).cellAt j = s.cellAt j := by
  rw [State.countedExpiry_eq]
  split
  · simp [State.cellAt, State.dueOf, State.silence, State.leaveDue, Store.find?_erase, hj]
  · simp [State.cellAt, hj]

theorem State.cellAt_uncountedExpiry_of_ne {j : Nat} (hj : j ≠ i) : (s.uncountedExpiry i d).cellAt j = s.cellAt j := by
  simp [State.uncountedExpiry, State.cellAt, hj]

/-- A sound valid entry's expiry leaves every other entry. -/
theorem State.cellAt_takeExpiry_of_ne (hok : (s.flow i).checkOk = true) (hvalid : (s.flow i).valid = true) {j : Nat}
    (hj : j ≠ i) : (s.takeExpiry i d).cellAt j = s.cellAt j := by
  rw [State.takeExpiry_of_valid hok hvalid]
  split
  · exact State.cellAt_countedExpiry_of_ne hj
  · exact State.cellAt_uncountedExpiry_of_ne hj

/-- An uncounted expiry re-arms by one period from the due time, and nothing else (R122). -/
theorem State.cellAt_uncountedExpiry (hok : (s.flow i).checkOk = true) {due : Time}
    (hdue : due = d + ofMicroseconds (s.profileOf (s.flow i)).period) :
    (s.uncountedExpiry i d).cellAt i = ({ s.flow i with due := some due }, some due) := by
  simp [State.uncountedExpiry, State.cellAt, hdue, hok]

/-- The entry of a counted expiry, in terms of its fields. -/
theorem FlowEntry.missed_eq (e : FlowEntry) :
    e.missed = { e with
      tallies := e.tallies.set 0 12 (min (e.tally .cadenceMisses + 1) 4294967295), misses := e.misses + 1
      dirty := true } := rfl

/-- A counted expiry below the limit counts, and re-arms by one period from the due time (R119, R120). -/
theorem State.countedExpiry_rearms (hok : (s.flow i).checkOk = true)
    (hlimit : (s.flow i).misses + 1 < (s.profileOf (s.flow i)).silenceLimit) {due : Time}
    (hdue : due = d + ofMicroseconds (s.profileOf (s.flow i)).period) :
    (s.countedExpiry i d).cellAt i = ({ (s.flow i).missed with due := some due }, some due) ∧
      (s.countedExpiry i d).tau = s.tau := by
  have hok' : (s.flow i).missed.checkOk = true := hok
  rw [State.countedExpiry_eq, if_neg (Nat.not_le.2 hlimit), ← hdue]
  exact ⟨by simp [State.cellAt, hok'], rfl⟩

/-- A counted expiry that silences counts both cadence_misses and silences (R119, R120). -/
theorem FlowEntry.tally_missed_silences (e : FlowEntry) :
    (e.missed.bump .silences 1).tally .cadenceMisses = min (e.tally .cadenceMisses + 1) 4294967295 ∧
      (e.missed.bump .silences 1).tally .silences = min (e.tally .silences + 1) 4294967295 := by
  have hmissed (t : Tally) : e.missed.tally t = (e.bump .cadenceMisses 1).tally t := rfl
  simp only [FlowEntry.tally_bump, hmissed, if_neg (by decide : ¬ Tally.cadenceMisses = .silences),
    if_neg (by decide : ¬ Tally.silences = .cadenceMisses), if_true, satAdd, Config.counterMax, and_self]

theorem State.dueOf_silence (i : Nat) : (s.silence i).dueOf i = none := by
  simp [State.dueOf, State.silence, State.leaveDue, Store.find?_erase]

/-- Silence fires with the flow index (R120, R138). -/
theorem State.alarm_silence (hon : s.alarmOn .silence = true) (i : Nat) :
    ((s.silence i).alarm .silence).raised = true ∧
      ((s.alarm .silence).raised = false → ((s.silence i).alarm .silence).first = BitVec.ofNat 32 i) := by
  let t := (s.leaveDue i).setFlow i { (s.flow i).bump .silences 1 with state := .silent, due := none }
  have hfired : (s.silence i).alarm .silence = _ := t.alarm_trigger_of_on (k := .silence) hon i
  rw [hfired]
  exact ⟨rfl, fun hclear => if_neg (by rw [show t.alarm .silence = s.alarm .silence from rfl, hclear]; nofun)⟩

/-- A counted expiry at the limit counts, and makes the flow SILENT (R119, R120). -/
theorem State.countedExpiry_silences (hlimit : (s.profileOf (s.flow i)).silenceLimit ≤ (s.flow i).misses + 1) :
    (s.countedExpiry i d).dueOf i = none ∧
      (s.countedExpiry i d).flow i =
        { (s.flow i).missed.bump .silences 1 with state := .silent, due := none, checkOk := true } ∧
      (s.alarmOn .silence = true → ((s.countedExpiry i d).alarm .silence).raised = true ∧
        ((s.alarm .silence).raised = false → ((s.countedExpiry i d).alarm .silence).first = BitVec.ofNat 32 i)) := by
  rw [State.countedExpiry_eq, if_pos hlimit]
  refine ⟨State.dueOf_silence i, ?_, fun hon => State.alarm_silence (s := s.setFlow i _) hon i⟩
  rw [State.flow_silence, if_pos rfl, State.flow_setFlow, if_pos rfl]
  rfl

end

/-- Settles O35: the head is the least of the list; the waiting by its two conditions; and the taking by what the check
and the count of the expiry make of it. -/
theorem expiryTakesTheEarliestDueFlow : Obligations.ExpiryTakesTheEarliestDueFlow := by
  refine ⟨fun s i d hrising hhead => ?_, fun s i d hhead hwait => ?_, fun s i d hhead hdue hqueue hfail => ?_, ?_⟩
  · obtain ⟨-, hordered⟩ := pairwise_of_risingFrom hrising
    exact ⟨lookupCell_of_mem hordered (dueFirst_mem hhead),
      fun j c hj => dueFirst_le hordered hhead (j, c) (mem_of_lookupCell hj)⟩
  · have hnot : ¬ s.expiryReady d = true := by
      rw [State.expiryReady_iff]
      rintro ⟨hdue, hqueue⟩
      rcases hwait with hearly | ⟨o, rest, hhead, hstamp⟩
      · simp [hdue] at hearly
      · simp [hqueue o rest hhead] at hstamp
    rw [exec_expiry hhead, if_neg hnot]
  · refine ⟨(s.checked i).leaveDue i, ?_, rfl, ?_, fun j hj => ?_, ?_⟩
    · rw [exec_expiry hhead, if_pos (State.expiryReady_iff.2 ⟨hdue, hqueue⟩), State.takeExpiry_of_fail hfail]
    · exact ((s.checked i).dueOf_leaveDue i i).trans (if_pos rfl)
    · refine ((s.checked i).dueOf_leaveDue i j).trans ((if_neg hj).trans ?_)
      rw [State.dueOf_checked, if_neg fun h => hj h.1]
      rfl
    · rw [s.checked_of_fail hfail]
      simp [State.entryFault, State.leaveDue]
  · rintro s i d p hhead hdue hqueue hok hvalid rfl
    have htake := State.takeExpiry_of_valid hok hvalid d
    have hcounts := State.expiryCounts_iff (s := s) (d := d) (s.profileOf (s.flow i))
    refine ⟨s.takeExpiry i d, ?_, ⟨s.takeExpiry_fp i d, s.takeExpiry_mem i d, s.takeExpiry_pending i d⟩,
      s.takeExpiry_oq i d, s.takeExpiry_tt i d, s.takeExpiry_rw i d, s.takeExpiry_ci i d, fun j hj => ?_,
      fun hwatched => ?_, fun hunwatched => ?_⟩
    · rw [exec_expiry hhead, if_pos (State.expiryReady_iff.2 ⟨hdue, hqueue⟩)]
    · exact State.flow_eq_of_cell (State.cellAt_takeExpiry_of_ne hok hvalid hj)
    · rw [htake, if_pos (hcounts.2 hwatched)]
      refine ⟨fun hlimit => ?_, fun hlimit => ?_⟩
      · obtain ⟨hcell, htau⟩ := State.countedExpiry_rearms (d := d) hok hlimit rfl
        obtain ⟨hflow, hlisted⟩ := State.flow_eq_of_cell hcell
        rw [FlowEntry.missed_eq] at hflow
        exact ⟨hlisted, htau, hflow⟩
      · obtain ⟨hlisted, hflow, halarm⟩ := State.countedExpiry_silences (d := d) hlimit
        obtain ⟨hmissed, hsilences⟩ := (s.flow i).tally_missed_silences
        rw [hflow]
        exact ⟨hlisted, rfl, rfl, rfl, rfl, hmissed, hsilences, halarm⟩
    · have hnot : ¬ s.expiryCounts (s.profileOf (s.flow i)) d = true := by
        rw [hcounts]
        rintro ⟨hrunning, hsighted, hspan⟩
        simp [hrunning, hsighted, hspan] at hunwatched
      rw [htake, if_neg hnot]
      obtain ⟨hflow, hlisted⟩ := State.flow_eq_of_cell (State.cellAt_uncountedExpiry (d := d) hok rfl)
      exact ⟨hlisted, rfl, hflow⟩

end Sys2Proof.Machine
end

