-- ==== Sys2Proof/Proofs/AlertKept.lean ====
section
/-! PROOFS. The alert record follows the alarm table: every event that ends settles it, and what does not end an event
leaves TAU. Triggers, row by row. -/

namespace Sys2Proof.Machine

/-! ## The end of an event (R143, R144) -/

section
variable {s u : State}

theorem State.AlertFollowsTable.of_tau (hs : s.AlertFollowsTable) (htau : u.tau = s.tau) : u.AlertFollowsTable := by
  simpa only [State.AlertFollowsTable, State.alarm, htau] using hs

/-- Whatever the record was, a recomputation makes it follow the table. -/
theorem State.alertFollowsTable_refreshAlert (s : State) : s.refreshAlert.AlertFollowsTable := by
  obtain ⟨_, _, hfollows, _⟩ := s.alertRefreshed_refreshAlert
  exact hfollows

/-- A round of a drain ends in a recomputation, since a fault or a stall in it fires an alarm (R154, R155). -/
theorem State.AlertFollowsTable.drainRound (hs : s.AlertFollowsTable) :
    (if s.rw.drain = .draining then s.drainStep.refreshAlert else s).AlertFollowsTable := by
  split
  · exact s.drainStep.alertFollowsTable_refreshAlert
  · exact hs

theorem State.AlertFollowsTable.selectOnce (hs : s.AlertFollowsTable) : s.selectOnce.AlertFollowsTable := by
  unfold State.selectOnce
  split
  · exact hs.of_tau s.selectLoad_tau
  · split
    · exact hs.of_tau s.selectStatus_tau
    · split
      · exact hs.of_tau (s.selectInterrogate_tau _)
      · split
        · split
          · exact hs.of_tau (s.startJob_tau _ _)
          · exact hs.drainRound
        · exact hs.drainRound

theorem State.AlertFollowsTable.selectRounds (hs : s.AlertFollowsTable) (n : Nat) :
    (s.selectRounds n).AlertFollowsTable := by
  induction n generalizing s with
  | zero => exact hs
  | succ n ih =>
    unfold State.selectRounds
    split
    · exact hs
    · exact ih hs.selectOnce

/-- At the end of an event the record follows the table, wherever the event began and whatever it did. -/
theorem State.alertFollowsTable_settle (s b : State) : (s.settle b).AlertFollowsTable := by
  have hrefreshed := s.returnToSighted.alertFollowsTable_refreshAlert
  exact (hrefreshed.of_tau (State.testThreshold_tau _ b)).selectRounds 3

/-! ## Every command -/

/-- RESET_N asserted leaves TAU as the reset state has it (R11, R145). -/
theorem State.alertFollowsTable_assertReset (s : State) : s.assertReset.AlertFollowsTable :=
  State.reset_alertFollowsTable.of_tau rfl

/-- A grant moves the link and the job alone (R7, R8). -/
theorem State.grant_tau (s : State) : s.grant.tau = s.tau := by
  unfold State.grant
  split
  · rfl
  · rfl
  · split <;> rfl
  · rfl

/-- A command ends an event, asserts RESET_N, or leaves TAU. -/
theorem Effect.keeps_alertFollowsTable {c : Instr} (h : Effect s c u) (hs : s.AlertFollowsTable) :
    u.AlertFollowsTable := by
  cases h with
  | assertReset => exact s.alertFollowsTable_assertReset
  | idle => exact hs
  | present | returnRead | takeInjectedRead | tick => exact hs.of_tau rfl
  | grant t => exact hs.of_tau (s.present t).grant_tau
  | releaseReset | takeForwarded | completeWrite | completeRead | expireTimer | takeEnqueue | dequeueSlot
  | completeSlot | discardHead | sweepHead | sweepEmpty | takeExpiry | control | advanceWalk | applyLoadRead =>
    exact State.alertFollowsTable_settle _ _

end

/-- Settles O53: by what a command can do, each way either settling the record or leaving TAU. -/
theorem stepsKeepTheAlertTrue : Obligations.StepsKeepTheAlertTrue := by
  intro s u hs h
  rcases step_effect h with rfl | ⟨c, rest, _, heffect⟩
  · exact hs
  · exact heffect.keeps_alertFollowsTable hs

/-! ## Triggers (R138) -/

/-- Settles O36: a trigger writes the row of its kind, if that is ON, and nothing else. -/
theorem triggerFollowsItsTable : Obligations.TriggerFollowsItsTable := by
  intro s k value
  refine ⟨fun hoff => s.trigger_of_off hoff value, fun hon => ⟨s.trigger_frame k value, ?_, fun j hj => ?_, fun a => ?_⟩⟩
  · exact s.alarm_trigger_of_on hon value
  · exact s.alarm_trigger_of_ne hj value
  · exact s.agg_trigger k value a

end Sys2Proof.Machine
end

