-- ==== Sys2Proof/Proofs/CommandTaken.lean ====
section
/-! PROOFS. The take of a mailbox command: an application of settings leaves all that decides it, so a control write whose
command word names a command acts as that command on the state its settings left; and what an answer at take leaves. -/

namespace Sys2Proof.Machine

/-! ## What decides a command (R167) -/

/-- What the Control Interface reads to decide and answer a command, with the control image the command is read from. -/
structure MailboxView where
  image : Store Byte
  part : PartState
  lastTag : BitVec 8
  inFlight : Option (InFlight × BitVec 8)
  lastResult : Option MailboxResult

def ControlInterface.mailboxView (c : ControlInterface) : MailboxView :=
  { image := c.image, part := c.part, lastTag := c.lastTag, inFlight := c.inFlight, lastResult := c.lastResult }

section
variable (s : State)

@[simp] theorem State.mailboxView_noteClamp (o f w h : Nat) :
    (s.noteClamp o f w h).ci.mailboxView = s.ci.mailboxView := by
  unfold State.noteClamp
  split <;> rfl

@[simp] theorem State.mailboxView_requestReload (o : ReloadOrigin) :
    (s.requestReload o).ci.mailboxView = s.ci.mailboxView := by
  unfold State.requestReload
  split <;> rfl

@[simp] theorem State.mailboxView_sweep : s.sweep.ci.mailboxView = s.ci.mailboxView := by
  rw [s.sweep_keep (fun t => t.ci.mailboxView) fun t o => t.mailboxView_requestReload o, State.sweepBlocks_ci]

@[simp] theorem State.mailboxView_monitoringEffect (b : Bool) :
    (s.monitoringEffect b).ci.mailboxView = s.ci.mailboxView := by
  unfold State.monitoringEffect
  (repeat' split) <;> simp

@[simp] theorem State.mailboxView_applyMonitoring : s.applyMonitoring.ci.mailboxView = s.ci.mailboxView := by
  unfold State.applyMonitoring
  dsimp only
  split
  · rfl
  · exact State.mailboxView_monitoringEffect _ _

@[simp] theorem State.mailboxView_applyFreeze : s.applyFreeze.ci.mailboxView = s.ci.mailboxView := rfl

@[simp] theorem State.mailboxView_applyPinCount : s.applyPinCount.ci.mailboxView = s.ci.mailboxView :=
  State.mailboxView_noteClamp _ _ _ _ _

@[simp] theorem State.mailboxView_applyAlarmOn : s.applyAlarmOn.ci.mailboxView = s.ci.mailboxView := by
  unfold State.applyAlarmOn
  dsimp only
  rw [State.onMasked_ci]
  rfl

@[simp] theorem State.mailboxView_applyInterval : s.applyInterval.ci.mailboxView = s.ci.mailboxView := by
  unfold State.applyInterval
  dsimp only
  split
  · rfl
  · split
    · rw [State.expireTimer_ci]; rfl
    · rfl

@[simp] theorem State.mailboxView_applyThreshold : s.applyThreshold.ci.mailboxView = s.ci.mailboxView := by
  unfold State.applyThreshold
  dsimp only
  split
  · rw [State.triggerDrain_ci, State.mailboxView_noteClamp]; rfl
  · rw [State.mailboxView_noteClamp]; rfl

@[simp] theorem State.mailboxView_applyGlobals (l : List (Nat × Byte)) :
    (s.applyGlobals l).ci.mailboxView = s.ci.mailboxView := by
  unfold State.applyGlobals
  dsimp only
  (repeat' split) <;> simp

@[simp] theorem State.mailboxView_consumeEffect : s.consumeEffect.ci.mailboxView = s.ci.mailboxView := by
  unfold State.consumeEffect
  split <;> simp

@[simp] theorem State.mailboxView_applyConsume (l : List (Nat × Byte)) :
    (s.applyConsume l).ci.mailboxView = s.ci.mailboxView := by
  unfold State.applyConsume
  dsimp only
  split
  · split
    · split
      · rfl
      · exact State.mailboxView_consumeEffect _
    · exact s.mailboxView_noteClamp _ _ _ _
  · rfl

@[simp] theorem State.mailboxView_noteRings (b : State) (l : List (Nat × Byte)) (r : Nat) (gs : List RingGeometry) :
    (s.noteRings b l r gs).ci.mailboxView = s.ci.mailboxView := by
  induction gs generalizing s r with
  | nil => rfl
  | cons g rest ih =>
    rw [State.noteRings, ih]
    unfold State.noteRing
    dsimp only
    (repeat' split) <;> simp

@[simp] theorem State.mailboxView_changeRings (r : Nat) (gs : List RingGeometry) :
    (s.changeRings r gs).ci.mailboxView = s.ci.mailboxView := by
  induction gs generalizing s r with
  | nil => rfl
  | cons g rest ih =>
    rw [State.changeRings, ih]
    unfold State.changeRing
    dsimp only
    (repeat' split) <;> simp [ControlInterface.mailboxView]

@[simp] theorem State.mailboxView_applyRings (l : List (Nat × Byte)) (m : Store Byte) :
    (s.applyRings l m).ci.mailboxView = s.ci.mailboxView := by
  unfold State.applyRings
  split <;> simp

@[simp] theorem State.mailboxView_noteProfile (l : List (Nat × Byte)) (p : Nat) (g : Profile) :
    (s.noteProfile l p g).ci.mailboxView = s.ci.mailboxView := by
  unfold State.noteProfile
  dsimp only
  (repeat' split) <;> simp

@[simp] theorem State.mailboxView_applyProfile (l : List (Nat × Byte)) (p : Nat) :
    (s.applyProfile l p).ci.mailboxView = s.ci.mailboxView := by
  have hheld (g : Profile) := s.mailboxView_noteProfile l p g
  unfold State.applyProfile
  dsimp only
  split
  · rw [State.periodChange_ci]
    split
    · rw [State.profileChange_ci]; exact hheld _
    · exact hheld _
  · split
    · rw [State.profileChange_ci]; exact hheld _
    · exact hheld _

@[simp] theorem State.mailboxView_applyProfiles (l : List (Nat × Byte)) (ps : List Nat) :
    (s.applyProfiles l ps).ci.mailboxView = s.ci.mailboxView := by
  induction ps generalizing s with
  | nil => rfl
  | cons p rest ih =>
    rw [State.applyProfiles, ih]
    split <;> simp

@[simp] theorem State.mailboxView_applyClassifier (l : List (Nat × Byte)) (ns : List Nat) :
    (s.applyClassifier l ns).ci.mailboxView = s.ci.mailboxView := by
  induction ns generalizing s with
  | nil => rfl
  | cons n rest ih =>
    rw [State.applyClassifier, ih]
    split <;> rfl

/-- An application of settings merges its bytes, and otherwise leaves all that decides a command. -/
theorem State.mailboxView_applySettings (l : List (Nat × Byte)) :
    (s.applySettings l).ci.mailboxView = (s.merge l).ci.mailboxView := by
  simp [State.applySettings]

end

/-! ## The control write that a command is taken from (R163, R167) -/

section
variable {s v : State} {o : Observation} {k : MailboxCommand}

theorem State.commandArgument_eq (v : State) :
    v.commandArgument = (v.imageByte 2).toNat + 256 * (v.imageByte 3).toNat := by
  rw [State.commandArgument, State.imageField_add v 2 1 1, State.imageField_one, State.imageField_one, pow_one]

/-- The state after a command has been taken and has acted, before the end of the event. -/
def State.commandDone (v : State) (k : MailboxCommand) : State :=
  (v.takeTag v.commandTag).act v.commandTag v.commandArgument k

/-- A command of a control write that may be handed out and is a case of the row acts on the state its settings left. -/
theorem State.TakesCommand.controlCase (h : s.TakesCommand k o v) :
    s.controlCase (s.takesAs k) = .next ((v.commandDone k).settle v) := by
  obtain ⟨hready, htakes, rfl⟩ := h
  have hview := s.popHead.mailboxView_applySettings o.body.named
  simp only [ControlInterface.mailboxView, MailboxView.mk.injEq] at hview
  obtain ⟨himage, hpart, htag, hflight, _⟩ := hview
  have hcase : s.controlCase (s.takesAs k) =
      .next (((s.afterSettings o).considerCommand o.body.named).settle (s.afterSettings o)) := by
    rw [State.controlCase, hready]
    exact if_pos htakes
  simp only [State.takesAs, Bool.and_eq_true, decide_eq_true_eq] at htakes
  obtain ⟨⟨⟨hnamed, hmay⟩, hnew⟩, hcode⟩ := htakes
  have htag' : (s.afterSettings o).commandTag = (s.mergedWith o).commandTag := State.imageByte_congr himage 0
  have hcode' : (s.afterSettings o).commandCode = k :=
    (congrArg MailboxCommand.ofCode (State.imageByte_congr himage 1)).trans hcode
  have hfresh : (s.afterSettings o).commandTag ≠ (s.afterSettings o).ci.lastTag := by
    rw [htag', State.afterSettings, htag]; exact hnew
  have hmay' : (s.afterSettings o).takesCommands = true := by
    rw [State.takesCommands, State.afterSettings, hpart, hflight]; exact hmay
  have hmailbox : (s.afterSettings o).mailbox = (s.afterSettings o).commandDone k := by
    rw [State.mailbox, if_neg hfresh, if_pos hmay', hcode', State.commandDone]
  rw [hcase, State.considerCommand, if_pos hnamed, hmailbox]

theorem State.TakesCommand.mem (h : s.TakesCommand k o v) : v.mem = s.mem := by
  obtain ⟨_, _, rfl⟩ := h
  exact State.applySettings_mem _ _

theorem State.TakesCommand.pending (h : s.TakesCommand k o v) : v.pending = s.pending := by
  obtain ⟨_, _, rfl⟩ := h
  exact State.applySettings_pending _ _

theorem State.TakesCommand.fp (h : s.TakesCommand k o v) : v.fp = s.fp := by
  obtain ⟨_, _, rfl⟩ := h
  exact State.applySettings_fp _ _

end

/-! ## The tag taken (R167) -/

section
variable (s : State)

/-- A trigger, a fault and a read with its check do not hang on the last-taken tag. -/
theorem State.trigger_takeTag (g : BitVec 8) (k : AlarmKind) (n : Nat) :
    (s.takeTag g).trigger k n = (s.trigger k n).takeTag g := by
  unfold State.trigger
  rw [apply_ite fun t : State => t.takeTag g]
  rfl

theorem State.entryFault_takeTag (g : BitVec 8) (i : Nat) : (s.takeTag g).entryFault i = (s.entryFault i).takeTag g :=
  State.trigger_takeTag (((s.leaveDue i).setFlow i (vacantEntry ((s.flow i).generation + 1))).count .entryFaults) g _ _

theorem State.checked_takeTag (g : BitVec 8) (i : Nat) : (s.takeTag g).checked i = (s.checked i).takeTag g := by
  have hfault := s.entryFault_takeTag g i
  unfold State.checked
  rw [apply_ite fun t : State => t.takeTag g, hfault]
  rfl

end

/-- The result of a command that worked on the flow side at most is an answer at take (R168). -/
theorem answersAtTake_result {v t : State} (hside : FlowSide (v.takeTag v.commandTag) t)
    (htime : t.cm.timeBase = v.cm.timeBase) (code : ResultCode) :
    AnswersAtTake v (t.result v.commandTag code) code := by
  obtain ⟨hfp, hmem, hpending⟩ := hside.sameLink
  refine ⟨⟨hfp, hmem, hpending⟩, hside.oq, hside.tt, rfl, ?_, ?_, ?_⟩
  · exact (congrArg ReportWriter.job hside.rw :)
  · exact (congrArg ReportWriter.produce hside.rw :)
  · have hci : (t.result v.commandTag code).ci = { t.ci with
        lastResult := some { tag := v.commandTag, code := code, time := t.cm.timeBase } } := rfl
    rw [hci, hside.ci, htime]
    rfl

end Sys2Proof.Machine
end

