-- ==== Sys2Proof/Proofs/FlowCommands.lean ====
section
/-! PROOFS. The commands that clear or evict a flow entry, by what the read of the entry finds, and the CLEAR_ALL walk. -/

namespace Sys2Proof.Machine

/-! ## CLEAR_FLOW and EVICT_FLOW of an entry (R50, R132) -/

section
variable {s : State} {a : Nat}

theorem FlowEntry.checkOk_cleared {e : FlowEntry} (hok : e.checkOk = true) : e.cleared.checkOk = true := hok

/-- No entry, or a sound VACANT one, is a bad argument, and nothing changes. -/
theorem State.clearFlow_of_none (h : 1024 ≤ a ∨ ((s.flow a).checkOk = true ∧ (s.flow a).valid = false)) :
    s.clearFlow a = (s, .badArgument) := by
  unfold State.clearFlow
  rcases h with hout | ⟨hok, hvacant⟩
  · exact if_neg (Nat.not_lt.2 hout)
  · simp [s.checked_of_ok hok, hvacant]

theorem State.evictFlow_of_none (h : 1024 ≤ a ∨ ((s.flow a).checkOk = true ∧ (s.flow a).valid = false)) :
    s.evictFlow a = (s, .badArgument) := by
  unfold State.evictFlow
  rcases h with hout | ⟨hok, hvacant⟩
  · exact if_neg (Nat.not_lt.2 hout)
  · simp [s.checked_of_ok hok, hvacant]

/-- An entry that fails its check is faulted, and then is VACANT (R52). -/
theorem State.clearFlow_of_fail (ha : a < 1024) (hfail : (s.flow a).checkOk = false) :
    s.clearFlow a = (s.checked a, .badArgument) := by
  simp [State.clearFlow, Config.flowCount, ha, State.valid_checked_of_fail hfail]

theorem State.evictFlow_of_fail (ha : a < 1024) (hfail : (s.flow a).checkOk = false) :
    s.evictFlow a = (s.checked a, .badArgument) := by
  simp [State.evictFlow, Config.flowCount, ha, State.valid_checked_of_fail hfail]

theorem State.clearFlow_of_valid (ha : a < 1024) (hok : (s.flow a).checkOk = true) (hvalid : (s.flow a).valid = true) :
    s.clearFlow a = (s.setFlow a (s.flow a).cleared, .done) := by
  simp [State.clearFlow, Config.flowCount, ha, s.checked_of_ok hok, hvalid]

/-- The entry of an EVICT_FLOW, retired first where it is dirty (R50). -/
def State.retireDirty (s : State) (a : Nat) : State :=
  if (s.flow a).dirty then s.retireEntry a .commanded s.now else s

theorem State.evictFlow_of_room (ha : a < 1024) (hok : (s.flow a).checkOk = true) (hvalid : (s.flow a).valid = true)
    (hroom : (s.flow a).dirty = true → s.ft.retire.length < 8) :
    s.evictFlow a = ((s.retireDirty a).evict a, .done) := by
  unfold State.retireDirty
  cases hdirty : (s.flow a).dirty
  · simp [State.evictFlow, Config.flowCount, ha, s.checked_of_ok hok, hvalid, hdirty]
  · simp [State.evictFlow, Config.flowCount, Config.retireDepth, ha, s.checked_of_ok hok, hvalid, hdirty, hroom hdirty]

theorem State.evictFlow_of_full (ha : a < 1024) (hok : (s.flow a).checkOk = true) (hvalid : (s.flow a).valid = true)
    (hdirty : (s.flow a).dirty = true) (hfull : 8 ≤ s.ft.retire.length) : s.evictFlow a = (s, .noRoom) := by
  simp [State.evictFlow, Config.flowCount, Config.retireDepth, ha, s.checked_of_ok hok, hvalid, hdirty,
    Nat.not_lt.2 hfull]

theorem State.dueOf_evict (s : State) (a j : Nat) : (s.evict a).dueOf j = if j = a then none else s.dueOf j :=
  s.dueOf_leaveDue a j

theorem State.flow_evict (s : State) (a j : Nat) :
    (s.evict a).flow j = if j = a then vacantEntry (s.flow a).generation else s.flow j := by
  simp only [State.evict, State.flow_count, State.flow_setFlow, State.flow_leaveDue]
  split <;> rfl

theorem State.agg_evict (s : State) (a : Nat) : (s.evict a).agg .evictions = min (s.agg .evictions + 1) 4294967295 :=
  (State.agg_count_eq _ .evictions .evictions).trans (if_pos rfl)

/-- The retire buffer alone moves before the eviction (R48). -/
theorem State.retireDirty_eq (s : State) (a : Nat) :
    s.retireDirty a = { s with ft := { s.ft with retire := s.ft.retire ++ (if (s.flow a).dirty then
      [{ type := .retire .commanded, index := a, entry := s.flow a, drainNumber := s.rw.drainNumber,
         time := s.cm.timeBase }] else []) } } := by
  unfold State.retireDirty
  split
  · rfl
  · rw [List.append_nil]

@[simp] theorem State.flow_retireDirty (s : State) (a j : Nat) : (s.retireDirty a).flow j = s.flow j := by
  rw [State.retireDirty_eq]; rfl

@[simp] theorem State.retireDirty_cm (s : State) (a : Nat) : (s.retireDirty a).cm = s.cm := by
  rw [State.retireDirty_eq]

@[simp] theorem State.retireDirty_tau (s : State) (a : Nat) : (s.retireDirty a).tau = s.tau := by
  rw [State.retireDirty_eq]

theorem FlowSide.setFlow (s : State) (i : Nat) (e : FlowEntry) : FlowSide s (s.setFlow i e) := rfl

theorem FlowSide.evict (s : State) (a : Nat) : FlowSide s (s.evict a) := rfl

theorem FlowSide.retireDirty (s : State) (a : Nat) : FlowSide s (s.retireDirty a) := by
  rw [State.retireDirty_eq]; rfl

/-- An eviction with its RETIRE record: what becomes of the entry, of the others, and of the buffer (R49, R50). -/
theorem State.evict_retireDirty (s : State) (a : Nat) :
    (∀ j, ((s.retireDirty a).evict a).flow j = if j = a then vacantEntry (s.flow a).generation else s.flow j) ∧
    (∀ j, ((s.retireDirty a).evict a).dueOf j = if j = a then none else s.dueOf j) ∧
    ((s.retireDirty a).evict a).agg .evictions = min (s.agg .evictions + 1) 4294967295 ∧
    ((s.retireDirty a).evict a).ft.retire = s.ft.retire ++ (if (s.flow a).dirty then
      [{ type := .retire .commanded, index := a, entry := s.flow a, drainNumber := s.rw.drainNumber,
         time := s.cm.timeBase }] else []) := by
  refine ⟨fun j => ?_, fun j => ?_, ?_, ?_⟩
  · rw [State.flow_evict, State.flow_retireDirty, State.flow_retireDirty]
  · rw [State.dueOf_evict, State.dueOf, State.retireDirty_cm, ← State.dueOf]
  · rw [State.agg_evict, State.agg, State.retireDirty_tau, ← State.agg]
  · rw [State.retireDirty_eq]; rfl

end

/-! ## The two commands taken -/

section
variable {s v : State} {o : Observation}

theorem exec_clearFlow (h : s.TakesCommand .clearFlow o v) :
    exec .clearFlow s = .next ((v.commandDone .clearFlow).settle v) := h.controlCase

theorem exec_evictFlow (h : s.TakesCommand .evictFlow o v) :
    exec .evictFlow s = .next ((v.commandDone .evictFlow).settle v) := h.controlCase

/-- The effect and the result of a command on the flow entry that its argument names. -/
theorem State.commandDone_clearFlow {t : State} {code : ResultCode}
    (h : (v.takeTag v.commandTag).clearFlow v.commandArgument = (t, code)) :
    v.commandDone .clearFlow = t.result v.commandTag code := by
  simp only [State.commandDone, State.act, h]

theorem State.commandDone_evictFlow {t : State} {code : ResultCode}
    (h : (v.takeTag v.commandTag).evictFlow v.commandArgument = (t, code)) :
    v.commandDone .evictFlow = t.result v.commandTag code := by
  simp only [State.commandDone, State.act, h]

/-- A command whose entry fails its check faults it, and its argument is bad (R51, R52). -/
theorem State.faulted_at_take (v : State) {a : Nat} (hfail : (v.flow a).checkOk = false) :
    AnswersAtTake v (((v.takeTag v.commandTag).checked a).result v.commandTag .badArgument) .badArgument ∧
    (((v.takeTag v.commandTag).checked a).result v.commandTag .badArgument).flow a =
      vacantEntry ((v.flow a).generation + 1) ∧
    (((v.takeTag v.commandTag).checked a).result v.commandTag .badArgument).ft = (v.checked a).ft ∧
    (((v.takeTag v.commandTag).checked a).result v.commandTag .badArgument).cm = (v.checked a).cm ∧
    (((v.takeTag v.commandTag).checked a).result v.commandTag .badArgument).tau = (v.checked a).tau := by
  have htaken : ∀ t : State, (t.takeTag v.commandTag).ft = t.ft ∧ (t.takeTag v.commandTag).cm = t.cm ∧
      (t.takeTag v.commandTag).tau = t.tau := fun _ => ⟨rfl, rfl, rfl⟩
  obtain ⟨hft, hcm, htau⟩ := htaken (v.checked a)
  have hvacated : ((v.takeTag v.commandTag).checked a).flow a = _ := State.flow_checked _ a a
  rw [if_pos ⟨rfl, hfail⟩] at hvacated
  refine ⟨answersAtTake_result (.checked _ a) (State.checked_timeBase _ a) _, hvacated, ?_, ?_, ?_⟩
  · rw [State.result_ft, State.checked_takeTag, hft]
  · rw [State.result_cm, State.checked_takeTag, hcm]
  · rw [State.result_tau, State.checked_takeTag, htau]

/-- Settles O43: by what the read of the entry finds, and for an eviction by the room in the retire buffer. -/
theorem flowCommandsActOnTheirEntry : Obligations.FlowCommandsActOnTheirEntry := by
  intro s v o a ha
  rw [← v.commandArgument_eq] at ha
  subst ha
  refine ⟨fun k hk htake hnone => ?_, fun k hk htake ha hfail => ?_, fun htake ha hok hvalid => ?_,
    fun htake ha hok hvalid hroom => ?_, fun htake ha hok hvalid hdirty hfull => ?_⟩
  · have hanswer := answersAtTake_result (FlowSide.refl (v.takeTag v.commandTag)) rfl .badArgument
    rcases List.mem_pair.1 hk with rfl | rfl
    · refine ⟨_, exec_clearFlow htake, ?_⟩
      rw [State.commandDone_clearFlow (State.clearFlow_of_none hnone)]
      exact ⟨hanswer, rfl, rfl, rfl⟩
    · refine ⟨_, exec_evictFlow htake, ?_⟩
      rw [State.commandDone_evictFlow (State.evictFlow_of_none hnone)]
      exact ⟨hanswer, rfl, rfl, rfl⟩
  · have hfaulted := v.faulted_at_take hfail
    rcases List.mem_pair.1 hk with rfl | rfl
    · refine ⟨_, exec_clearFlow htake, ?_⟩
      rw [State.commandDone_clearFlow (State.clearFlow_of_fail ha hfail)]
      exact hfaulted
    · refine ⟨_, exec_evictFlow htake, ?_⟩
      rw [State.commandDone_evictFlow (State.evictFlow_of_fail ha hfail)]
      exact hfaulted
  · refine ⟨_, exec_clearFlow htake, ?_⟩
    rw [State.commandDone_clearFlow (State.clearFlow_of_valid ha hok hvalid)]
    have hcleared : (v.flow v.commandArgument).cleared.checkOk = true := FlowEntry.checkOk_cleared hok
    refine ⟨answersAtTake_result (.setFlow _ _ _) rfl .done, rfl, rfl, ?_, fun j hj => ?_⟩
    · exact State.flow_setFlow_sound (v.takeTag v.commandTag) _ hcleared
    · exact (State.flow_setFlow (v.takeTag v.commandTag) _ j _).trans (if_neg hj)
  · refine ⟨_, exec_evictFlow htake, ?_⟩
    rw [State.commandDone_evictFlow (State.evictFlow_of_room ha hok hvalid hroom)]
    obtain ⟨hflow, hdue, hagg, hretire⟩ := (v.takeTag v.commandTag).evict_retireDirty v.commandArgument
    have hself := (hflow v.commandArgument).trans (if_pos rfl)
    refine ⟨answersAtTake_result ((FlowSide.retireDirty _ _).trans (.evict _ _)) ?_ _, ?_, ?_,
      (hdue _).trans (if_pos rfl), fun j hj => ⟨(hflow j).trans (if_neg hj), (hdue j).trans (if_neg hj)⟩, hagg, hretire⟩
    · exact (congrArg CadenceMonitor.timeBase ((v.takeTag v.commandTag).retireDirty_cm v.commandArgument) :)
    · exact (congrArg FlowEntry.state hself :)
    · exact (congrArg FlowEntry.generation hself :)
  · refine ⟨_, exec_evictFlow htake, ?_⟩
    rw [State.commandDone_evictFlow (State.evictFlow_of_full ha hok hvalid hdirty hfull)]
    exact ⟨answersAtTake_result (FlowSide.refl _) rfl .noRoom, rfl, rfl, rfl⟩

end

/-! ## The CLEAR_ALL walk (R134 to R136) -/

section
variable {s : State} {n : Nat} {tag : BitVec 8}

theorem exec_clearAllWalkStep (h : s.ci.inFlight = some (.clearAll n, tag)) :
    exec .clearAllWalkStep s = .next ((s.advanceWalk n tag).settle s) := by
  simp only [exec, execClearAllWalkStep, h]

theorem State.walkStep_of_ok (hok : (s.flow n).checkOk = true) :
    s.walkStep n = if (s.flow n).valid then s.setFlow n (s.flow n).cleared else s := by
  simp only [State.walkStep, s.checked_of_ok hok]

/-- The walk passes over an entry that it faults (R52). -/
theorem State.walkStep_of_fail (hfail : (s.flow n).checkOk = false) : s.walkStep n = s.checked n := by
  simp [State.walkStep, State.valid_checked_of_fail hfail]

theorem State.advanceWalk_of_lt (hn : n < 1024) (tag : BitVec 8) :
    s.advanceWalk n tag = { s.walkStep n with ci := { s.ci with inFlight := some (.clearAll (n + 1), tag) } } := by
  rw [← s.walkStep_ci n]
  exact if_pos hn

theorem State.advanceWalk_of_end (hn : 1024 ≤ n) (tag : BitVec 8) : s.advanceWalk n tag = s.endWalk tag :=
  if_neg (Nat.not_lt.2 hn)

theorem State.alarm_clearOccurrences (s : State) (l : List AlarmKind) (k : AlarmKind) :
    (s.clearOccurrences l).alarm k = if k ∈ l then { s.alarm k with occurrences := 0 } else s.alarm k := by
  induction l generalizing s with
  | nil => rfl
  | cons j rest ih =>
    rw [State.clearOccurrences, ih, State.alarm_setAlarm]
    by_cases hk : k = j
    · subst hk; simp
    · simp [hk]

theorem State.agg_clearOccurrences (s : State) (l : List AlarmKind) (a : Aggregate) :
    (s.clearOccurrences l).agg a = s.agg a := by
  induction l generalizing s with
  | nil => rfl
  | cons j rest ih => rw [State.clearOccurrences, ih, State.agg_setAlarm]

/-- The last event of the walk clears every aggregate (R134). -/
theorem State.agg_endWalk (s : State) (tag : BitVec 8) (a : Aggregate) : (s.endWalk tag).agg a = 0 := by
  rw [State.endWalk, State.agg, State.finishCommand_tau, ← State.agg, State.agg_clearOccurrences]
  rfl

/-- It clears every occurrence count, and nothing else of an alarm row (R134). -/
theorem State.alarm_endWalk (s : State) (tag : BitVec 8) (k : AlarmKind) :
    (s.endWalk tag).alarm k = { s.alarm k with occurrences := 0 } := by
  rw [State.endWalk, State.alarm, State.finishCommand_tau, ← State.alarm, State.alarm_clearOccurrences,
    if_pos k.mem_all]
  rfl

/-- What the walk step at a sound entry leaves: the flow table but for a clear of that entry (R134). -/
theorem State.walkStep_eq_of_ok (hok : (s.flow n).checkOk = true) :
    s.walkStep n = { s with ft := (s.walkStep n).ft } ∧
    (s.walkStep n).ft.retire = s.ft.retire ∧ (s.walkStep n).ft.plru = s.ft.plru ∧
    ∀ j, (s.walkStep n).flow j = if j = n ∧ (s.flow n).valid = true then (s.flow n).cleared else s.flow j := by
  rw [State.walkStep_of_ok hok]
  by_cases hvalid : (s.flow n).valid = true
  · rw [if_pos hvalid]
    refine ⟨rfl, rfl, rfl, fun j => ?_⟩
    by_cases hj : j = n
    · subst hj
      rw [s.flow_setFlow_sound j (FlowEntry.checkOk_cleared hok), if_pos ⟨rfl, hvalid⟩]
    · rw [State.flow_setFlow, if_neg hj, if_neg fun h => hj h.1]
  · rw [if_neg hvalid]
    exact ⟨rfl, rfl, rfl, fun j => (if_neg fun h => hvalid h.2).symm⟩

/-- Settles O45: a step of the walk by the check of its entry, and the final event by its two clears and its result. -/
theorem walkClearsEachEntryOnce : Obligations.WalkClearsEachEntryOnce := by
  intro s n tag hwalk
  rw [exec_clearAllWalkStep hwalk]
  refine ⟨fun hn hok => ⟨_, rfl, ?_⟩, fun hn hfail => ?_, fun hn => ⟨_, rfl, ?_⟩⟩
  · obtain ⟨hframe, hretire, hplru, hflow⟩ := State.walkStep_eq_of_ok hok
    rw [State.advanceWalk_of_lt hn]
    refine ⟨⟨s.walkStep_fp n, s.walkStep_mem n, s.walkStep_pending n⟩, s.walkStep_oq n, s.walkStep_tt n,
      (congrArg State.cm hframe :), (congrArg State.tau hframe :), s.walkStep_rw n, rfl, fun j hj => ?_, hretire, hplru, ?_⟩
    · exact (hflow j).trans (if_neg fun h => hj h.1)
    · refine (hflow n).trans ?_
      simp only [true_and]
      rfl
  · rw [State.advanceWalk_of_lt hn, State.walkStep_of_fail hfail]
  · rw [State.advanceWalk_of_end hn]
    refine ⟨⟨s.endWalk_fp tag, s.endWalk_mem tag, s.endWalk_pending tag⟩, s.endWalk_oq tag, s.endWalk_ft tag,
      s.endWalk_tt tag, s.endWalk_cm tag, ?_, ?_, s.agg_endWalk tag, s.alarm_endWalk tag⟩
    · simp [State.endWalk, State.finishCommand, State.result, State.requestStatus]
    · simp [State.endWalk, State.finishCommand, State.result, State.now]

end

end Sys2Proof.Machine
end

