-- ==== Sys2Proof/Proofs/CommandsInFlight.lean ====
section
/-! PROOFS. The commands that stay in flight after their take: CLEAR_ALL, INTERROGATE, RELOAD_CONFIG and RESTART. -/

namespace Sys2Proof.Machine

section
variable {s v : State} {o : Observation}

/-! ## INTERROGATE (R159) -/

/-- The record that an INTERROGATE of flow a builds from an entry (R159, R160). -/
def State.interrogateRecord (s : State) (tag : BitVec 8) (a : Nat) (e : FlowEntry) : ReportRecord :=
  { type := .interrogate tag, index := a, entry := e.interrogated, drainNumber := s.rw.drainNumber
    time := s.cm.timeBase }

/-- The record of an INTERROGATE shows the entry that the read with its check leaves, and the command stays in flight. -/
theorem State.startInterrogate_of_lt {a : Nat} (ha : a < 1024) (tag : BitVec 8) :
    s.startInterrogate tag a = { s.checked a with
      ci := { s.ci with inFlight := some (.interrogate, tag) }
      rw := { s.rw with interrogate := some (s.interrogateRecord tag a ((s.checked a).flow a)) } } := by
  unfold State.interrogateRecord
  rw [← s.checked_ci a, ← s.checked_rw a, ← s.checked_timeBase a]
  exact if_pos ha

theorem State.startInterrogate_of_out {a : Nat} (ha : 1024 ≤ a) (tag : BitVec 8) :
    s.startInterrogate tag a = s.result tag .badArgument := if_neg (Nat.not_lt.2 ha)

/-- An INTERROGATE taken, in terms of the state its settings left. -/
theorem exec_interrogate (h : s.TakesCommand .interrogate o v) (ha : v.commandArgument < 1024) :
    exec .interrogate s = .next (State.settle
      { v.checked v.commandArgument with
        ci := { v.ci with lastTag := v.commandTag, inFlight := some (.interrogate, v.commandTag) }
        rw := { v.rw with
          interrogate := some (v.interrogateRecord v.commandTag v.commandArgument
            ((v.checked v.commandArgument).flow v.commandArgument)) } } v) := by
  have hdone : v.commandDone .interrogate = _ := State.startInterrogate_of_lt (s := v.takeTag v.commandTag) ha _
  rw [State.checked_takeTag] at hdone
  have hexec : exec .interrogate s = .next ((v.commandDone .interrogate).settle v) := h.controlCase
  rw [hexec, hdone]
  rfl

/-! ## RELOAD_CONFIG (R174) -/

/-- A waiting reload has the origin COMMAND once a RELOAD_CONFIG waits, whatever waited before. -/
theorem mergeOrigin_command (w : Option ReloadOrigin) : mergeOrigin w .command = .command := by
  match w with
  | none | some .sweep | some .command => rfl

theorem State.startReload_idle (h : s.ci.load = none) (tag : BitVec 8) :
    s.startReload tag =
      ((s.onCi fun c => { c with inFlight := some (.reloadConfig, tag) }).count .configReloads).beginLoad
        (.reload .command) :=
  State.requestReload_idle (s.onCi fun c => { c with inFlight := some (.reloadConfig, tag) }) h .command

theorem State.startReload_busy (h : s.ci.load ≠ none) (tag : BitVec 8) :
    s.startReload tag = { s with ci := { s.ci with
      inFlight := some (.reloadConfig, tag), reloadWaiting := some .command } } := by
  rw [← mergeOrigin_command s.ci.reloadWaiting]
  exact State.requestReload_busy (s.onCi fun c => { c with inFlight := some (.reloadConfig, tag) }) h _

/-! ## RESTART (R13) -/

/-- A started injected transaction goes on without its notice, a read on the return direction without its owner, unless it
is the switch side's (R13). -/
theorem ForwardingPath.resetPath_link (f : ForwardingPath) :
    (∀ t, f.request = some (.forwarded t) → f.resetPath.request = f.request) ∧
    (∀ t l, f.request = some (.injected t l) → f.resetPath.request = some (.injected t false)) ∧
    (f.request = none → f.resetPath.request = none) ∧ (f.ret = none → f.resetPath.ret = none) ∧
    ∀ r, f.ret = some r →
      f.resetPath.ret = some { r with owner := if r.owner = .switchSide then .switchSide else .dropped } := by
  have hrequest : f.resetPath.request = f.request.map Request.suppressed := rfl
  have hret : f.resetPath.ret = f.ret.map ReturnRead.suppressed := rfl
  rw [hrequest, hret]
  refine ⟨fun t h => by rw [h]; rfl, fun t l h => by rw [h]; rfl, fun h => by rw [h]; rfl, fun h => by rw [h]; rfl,
    fun r h => ?_⟩
  rw [h, Option.map_some]
  by_cases howner : r.owner = .switchSide
  · rw [ReturnRead.suppressed_forwarded howner, if_pos howner, ← howner]
  · rw [ReturnRead.suppressed_injected howner, if_neg howner]

/-! ## The statement -/

/-- Settles O44: each command acts on the state its settings left, an INTERROGATE by the check of its entry and a
RELOAD_CONFIG by the load in progress. -/
theorem commandsInFlightStart : Obligations.CommandsInFlightStart := by
  intro s v o a tag htag ha
  rw [← v.commandArgument_eq] at ha
  change tag = v.commandTag at htag
  subst htag ha
  refine ⟨fun htake => htake.controlCase, fun x hx htake ha hok => ?_, fun x hx htake ha hfail => ?_, fun htake ha => ?_,
    fun htake hload => ?_, fun htake hload => ?_, fun htake => ?_⟩
  · subst hx
    rw [exec_interrogate htake ha, v.checked_of_ok hok]
    rfl
  · subst hx
    have hvacated := v.flow_checked v.commandArgument v.commandArgument
    rw [if_pos ⟨rfl, hfail⟩] at hvacated
    rw [exec_interrogate htake ha, hvacated]
    rfl
  · refine ⟨_, htake.controlCase, ?_⟩
    have hdone : v.commandDone .interrogate = _ := State.startInterrogate_of_out (s := v.takeTag v.commandTag) ha _
    rw [hdone]
    exact ⟨answersAtTake_result (.refl _) rfl _, rfl, rfl, rfl, rfl⟩
  · have hexec : exec .reloadConfig s = .next ((v.commandDone .reloadConfig).settle v) := htake.controlCase
    have hdone : v.commandDone .reloadConfig = _ := State.startReload_busy (s := v.takeTag v.commandTag) hload _
    rw [hexec, hdone]
    rfl
  · refine ⟨_, htake.controlCase, ?_⟩
    have hdone : v.commandDone .reloadConfig = _ := State.startReload_idle (s := v.takeTag v.commandTag) hload _
    rw [hdone]
    exact ⟨rfl, fun k => rfl, fun c => v.agg_count_eq .configReloads c⟩
  · have hlink := v.fp.resetPath_link
    have hfp := htake.fp
    rw [hfp] at hlink
    refine ⟨v.commandDone .restart, htake.controlCase, htake.mem, htake.pending, rfl, rfl, rfl, rfl, rfl, rfl, rfl, rfl, rfl,
      rfl, rfl, rfl, rfl, ?_⟩
    have hrestarted : (v.commandDone .restart).fp = s.fp.resetPath := congrArg ForwardingPath.resetPath hfp
    rw [hrestarted]
    exact ⟨rfl, rfl, rfl, hlink⟩

end

end Sys2Proof.Machine
end

