-- ==== Sys2Proof/Proofs/Drains.lean ====
section
/-! PROOFS. Drains: the interval timer that triggers them, the flow that a step chooses, and how each step ends. -/

namespace Sys2Proof.Machine

section
variable {s : State}

/-! ## The end of a drain (R148, R153, R155) -/

/-- A start acts on RW alone, as `ReportWriter.started` says. -/
theorem State.startDrain_eq (s : State) :
    s.startDrain = { s with rw := s.rw.started s.dirtyCount s.cm.timeBase } := rfl

/-- A drain that becomes IDLE with one owed, or with the threshold standing, is followed by the next. -/
theorem State.drainIdle_of_next (h : s.rw.drainOwed = true ∨ s.ThresholdStands) :
    s.drainIdle = { s with rw := s.rw.started s.dirtyCount s.cm.timeBase } := by
  rw [← State.thresholdReached_iff, ← Bool.or_eq_true] at h
  exact if_pos h

theorem State.drainIdle_of_rest (howed : s.rw.drainOwed = false) (hbelow : ¬ s.ThresholdStands) :
    s.drainIdle = { s with rw := { s.rw with drain := .idle } } := by
  rw [← State.thresholdReached_iff, Bool.not_eq_true] at hbelow
  refine if_neg ?_
  rw [Bool.not_eq_true, Bool.or_eq_false_iff]
  exact ⟨howed, hbelow⟩

theorem State.drain_drainIdle (s : State) : s.drainIdle.rw.drain ≠ .stalled := by
  by_cases h : s.rw.drainOwed = true ∨ s.ThresholdStands
  · rw [State.drainIdle_of_next h]; nofun
  · rw [not_or, Bool.not_eq_true] at h
    rw [State.drainIdle_of_rest h.1 h.2]; nofun

theorem State.endDrain_of_next (h : s.rw.drainOwed = true ∨ s.ThresholdStands) :
    s.endDrain = { s with rw := { s.rw with statusPending := true }.started s.dirtyCount s.cm.timeBase } :=
  State.drainIdle_of_next (s := s.requestStatus) h

theorem State.endDrain_of_rest (howed : s.rw.drainOwed = false) (hbelow : ¬ s.ThresholdStands) :
    s.endDrain = { s with rw := { s.rw with statusPending := true, drain := .idle } } :=
  State.drainIdle_of_rest (s := s.requestStatus) howed hbelow

/-! ## The interval timer (R152, R161) -/

theorem State.intervalPassed_iff :
    s.intervalPassed = true ↔ s.ci.part = .running ∧ s.ci.held.interval ≠ 0 ∧ s.rw.intervalFired = false ∧
      atOrAfter s.cm.timeBase (s.rw.intervalBase + BitVec.ofNat 48 (s.ci.held.interval * 1000000)) = true := by
  simp [State.intervalPassed, State.now, ofMilliseconds, and_assoc]

/-- The expiry of the timer is a trigger with the fired flag set. -/
theorem State.expireTimer_eq (s : State) :
    s.expireTimer = { s with rw := { s.rw with intervalFired := true }.triggered s.dirtyCount s.cm.timeBase } :=
  State.triggerDrain_eq _

theorem exec_intervalTimerExpiry_of_passed (h : s.intervalPassed = true) :
    exec .intervalTimerExpiry s = .next (s.expireTimer.settle s) := if_pos h

theorem exec_intervalTimerExpiry_of_not_passed (h : ¬ s.intervalPassed = true) :
    exec .intervalTimerExpiry s = .next s := if_neg h

/-- Settles O48: by whether the interval has passed, and an expiry by the drain state it meets. -/
theorem intervalExpiryTriggersADrain : Obligations.IntervalExpiryTriggersADrain := by
  rintro s passed rfl
  refine ⟨fun hpart hinterval hfired hpassed hidle => ?_, fun hpart hinterval hfired hpassed hbusy => ?_, fun h => ?_⟩
  · rw [exec_intervalTimerExpiry_of_passed (State.intervalPassed_iff.2 ⟨hpart, hinterval, hfired, hpassed⟩),
      State.expireTimer_eq, ReportWriter.triggered, if_pos hidle]
    rfl
  · rw [exec_intervalTimerExpiry_of_passed (State.intervalPassed_iff.2 ⟨hpart, hinterval, hfired, hpassed⟩),
      State.expireTimer_eq, ReportWriter.triggered, if_neg hbusy]
  · refine exec_intervalTimerExpiry_of_not_passed ?_
    rw [State.intervalPassed_iff]
    rintro ⟨hpart, hinterval, hfired, hpassed⟩
    rcases h with h | h | h | h
    · exact h hpart
    · exact hinterval h
    · rw [h] at hfired; cases hfired
    · rw [h] at hpassed; cases hpassed

/-! ## The flow that a drain chooses (R154) -/

theorem State.drainEligible_iff {i : Nat} :
    s.drainEligible i = true ↔
      (s.flow i).state ≠ .vacant ∧ (s.flow i).dirty = true ∧ (i, (s.flow i).generation) ∉ s.rw.written := by
  simp [State.drainEligible, FlowEntry.valid, and_assoc]

theorem State.flowIndexes_lt {i : Nat} (h : i ∈ s.flowIndexes) : i < 1024 :=
  of_decide_eq_true (List.mem_filter.1 h).2

/-- The eligible flows are visited: they are listed. -/
theorem State.mem_eligible_iff {i : Nat} :
    i ∈ s.flowIndexes.filter s.drainEligible ↔ i < 1024 ∧ s.drainEligible i = true := by
  refine List.mem_filter.trans ⟨fun h => ⟨State.flowIndexes_lt h.1, h.2⟩, fun h => ⟨?_, h.2⟩⟩
  refine s.mem_flowIndexes h.1 fun hinitial => (State.drainEligible_iff.1 h.2).1 ?_
  rw [hinitial]
  rfl

theorem State.pairwise_eligible (h : risingFrom none s.ft.flows.cells = true) :
    (s.flowIndexes.filter s.drainEligible).Pairwise (· < ·) :=
  (((pairwise_of_risingFrom h).2.map Prod.fst fun _ _ => id).filter _).filter _

/-- The priority of flow i's report, by its profile. -/
def State.reportPriority (s : State) (i : Nat) : Nat := (s.profileOf (s.flow i)).priority

theorem State.betterFlow_some (b i : Nat) :
    s.betterFlow (some b) i = if s.reportPriority b < s.reportPriority i then some i else some b := rfl

/-- The choice among flows is one of them, or the one chosen before. -/
theorem State.foldl_betterFlow_mem {l : List Nat} {b : Option Nat} {r : Nat} (h : l.foldl s.betterFlow b = some r) :
    r ∈ l ∨ b = some r := by
  induction l generalizing b with
  | nil => exact .inr h
  | cons i rest ih =>
    rcases ih h with hmem | hbest
    · exact .inl (List.mem_cons_of_mem _ hmem)
    · cases b with
      | none => cases hbest; exact .inl List.mem_cons_self
      | some b =>
        rw [State.betterFlow_some] at hbest
        split at hbest
        · cases hbest; exact .inl List.mem_cons_self
        · exact .inr hbest

/-- Flows of no higher priority do not replace the one chosen. -/
theorem State.foldl_betterFlow_of_le {l : List Nat} {b : Nat}
    (h : ∀ j ∈ l, s.reportPriority j ≤ s.reportPriority b) : l.foldl s.betterFlow (some b) = some b := by
  induction l with
  | nil => rfl
  | cons i rest ih =>
    rw [List.foldl_cons, State.betterFlow_some, if_neg (Nat.not_lt.2 (h i List.mem_cons_self))]
    exact ih fun j hj => h j (List.mem_cons_of_mem _ hj)

/-- A flow above all those before it, and not below any behind it, is the choice. -/
theorem State.foldl_betterFlow_append {l l' : List Nat} {i : Nat}
    (hbefore : ∀ j ∈ l, s.reportPriority j < s.reportPriority i)
    (hbehind : ∀ j ∈ l', s.reportPriority j ≤ s.reportPriority i) :
    (l ++ i :: l').foldl s.betterFlow none = some i := by
  rw [List.foldl_append, List.foldl_cons]
  have htaken : s.betterFlow (l.foldl s.betterFlow none) i = some i := by
    cases hbest : l.foldl s.betterFlow none with
    | none => rfl
    | some b =>
      have hmem : b ∈ l := (State.foldl_betterFlow_mem hbest).resolve_right nofun
      rw [State.betterFlow_some, if_pos (hbefore b hmem)]
  rw [htaken]
  exact State.foldl_betterFlow_of_le hbehind

/-- A choice is an eligible flow. -/
theorem State.drainChoice_eligible {i : Nat} (h : s.drainChoice = some i) : i < 1024 ∧ s.drainEligible i = true :=
  State.mem_eligible_iff.1 ((State.foldl_betterFlow_mem h).resolve_right nofun)

theorem State.drainChoice_eq_none (h : ∀ i < 1024, s.drainEligible i = false) : s.drainChoice = none := by
  by_contra hsome
  obtain ⟨i, hi⟩ := Option.ne_none_iff_exists'.1 hsome
  obtain ⟨hlt, heligible⟩ := State.drainChoice_eligible hi
  rw [h i hlt] at heligible
  cases heligible

/-- The most urgent eligible flow is the choice: highest report priority, then lowest index. -/
theorem State.drainChoice_eq_some (hrising : risingFrom none s.ft.flows.cells = true) {i : Nat} (hi : i < 1024)
    (heligible : s.drainEligible i = true)
    (hurgent : ∀ j < 1024, s.drainEligible j = true → j ≠ i → s.reportPriority j < s.reportPriority i ∨
      (s.reportPriority j = s.reportPriority i ∧ i < j)) : s.drainChoice = some i := by
  obtain ⟨l, l', hsplit⟩ := List.append_of_mem (State.mem_eligible_iff.2 ⟨hi, heligible⟩)
  have hordered := State.pairwise_eligible hrising
  have hmem {j : Nat} (hj : j ∈ l ∨ j ∈ l') : j < 1024 ∧ s.drainEligible j = true := by
    rw [← State.mem_eligible_iff, hsplit, List.mem_append, List.mem_cons]
    exact hj.imp_right .inr
  rw [hsplit, List.pairwise_append, List.pairwise_cons] at hordered
  obtain ⟨_, ⟨habove, _⟩, hbelow⟩ := hordered
  rw [State.drainChoice, hsplit]
  refine State.foldl_betterFlow_append (fun j hj => ?_) fun j hj => ?_
  · have hlt : j < i := hbelow j hj i List.mem_cons_self
    obtain ⟨hj', hjeligible⟩ := hmem (.inl hj)
    exact (hurgent j hj' hjeligible hlt.ne).resolve_right fun h => hlt.not_gt h.2
  · obtain ⟨hj', hjeligible⟩ := hmem (.inr hj)
    rcases hurgent j hj' hjeligible (habove j hj).ne' with h | h
    · exact h.le
    · exact h.1.le

/-! ## Faults on the way to a sound choice (R51, R154) -/

/-- The eligible flows. -/
def State.eligibleFlows (s : State) : Finset Nat := (Finset.range 1024).filter fun i => s.drainEligible i = true

theorem State.mem_eligibleFlows {i : Nat} : i ∈ s.eligibleFlows ↔ i < 1024 ∧ s.drainEligible i = true := by
  simp [State.eligibleFlows]

theorem State.card_eligibleFlows_le (s : State) : s.eligibleFlows.card ≤ s.flowIndexes.length := by
  refine (Finset.card_le_card fun i hi => ?_).trans s.flowIndexes.toFinset_card_le
  rw [List.mem_toFinset]
  exact (List.mem_filter.1 (State.mem_eligible_iff.2 (State.mem_eligibleFlows.1 hi))).1

/-- A faulted flow is VACANT, so no longer eligible; the others stand. -/
theorem State.drainEligible_entryFault (s : State) (i j : Nat) :
    (s.entryFault i).drainEligible j = (!decide (j = i) && s.drainEligible j) := by
  unfold State.drainEligible
  rw [State.flow_entryFault, State.entryFault_rw]
  by_cases hj : j = i
  · simp [hj, FlowEntry.valid, vacantEntry]
  · simp [hj]

theorem State.card_eligibleFlows_entryFault {i : Nat} (hi : i < 1024) (h : s.drainEligible i = true) :
    (s.entryFault i).eligibleFlows.card < s.eligibleFlows.card := by
  refine Finset.card_lt_card ((Finset.ssubset_iff_of_subset fun j hj => ?_).2 ⟨i, ?_, ?_⟩)
  · obtain ⟨hlt, hj⟩ := State.mem_eligibleFlows.1 hj
    rw [State.drainEligible_entryFault, Bool.and_eq_true] at hj
    exact State.mem_eligibleFlows.2 ⟨hlt, hj.2⟩
  · exact State.mem_eligibleFlows.2 ⟨hi, h⟩
  · simp [State.mem_eligibleFlows, State.drainEligible_entryFault]

theorem State.drainPick_of_none (h : s.drainChoice = none) (n : Nat) : s.drainPick n = (s, none) := by
  cases n with
  | zero => rfl
  | succ n => simp only [State.drainPick, h]

theorem State.drainPick_of_ok {i : Nat} (h : s.drainChoice = some i) (hok : (s.flow i).checkOk = true) (n : Nat) :
    s.drainPick (n + 1) = (s, some i) := by
  simp only [State.drainPick, h, if_pos hok]

theorem State.drainPick_of_fail {i : Nat} (h : s.drainChoice = some i) (hfail : (s.flow i).checkOk = false) (n : Nat) :
    s.drainPick (n + 1) = (s.entryFault i).drainPick n := by
  simp [State.drainPick, h, hfail]

/-- As many tries as there are eligible flows are enough: each fault leaves one fewer. -/
theorem State.drainPick_enough (m n : Nat) (hm : s.eligibleFlows.card ≤ m) (hn : s.eligibleFlows.card ≤ n) :
    s.drainPick m = s.drainPick n := by
  induction m generalizing s n with
  | zero =>
    have hnone : s.drainChoice = none := State.drainChoice_eq_none fun i hi => by
      have hempty := Finset.card_eq_zero.1 (Nat.le_zero.1 hm)
      by_contra h
      exact Finset.notMem_empty i (hempty ▸ State.mem_eligibleFlows.2 ⟨hi, by simpa using h⟩)
    rw [State.drainPick_of_none hnone, State.drainPick_of_none hnone]
  | succ m ih =>
    cases hchoice : s.drainChoice with
    | none => rw [State.drainPick_of_none hchoice, State.drainPick_of_none hchoice]
    | some i =>
      obtain ⟨hi, heligible⟩ := State.drainChoice_eligible hchoice
      have hfewer := State.card_eligibleFlows_entryFault hi heligible
      obtain ⟨n, rfl⟩ := Nat.exists_eq_succ_of_ne_zero (n := n) (by omega)
      cases hok : (s.flow i).checkOk with
      | true => rw [State.drainPick_of_ok hchoice hok, State.drainPick_of_ok hchoice hok]
      | false =>
        rw [State.drainPick_of_fail hchoice hok, State.drainPick_of_fail hchoice hok]
        exact ih n (by omega) (by omega)

/-! ## The step (R154, R155) -/

theorem State.ringFull_iff : s.ringFull = true ↔ (s.rw.produce + 1) % 480 = s.consume := decide_eq_true_iff

theorem State.drainStep_of_built (h : s.rw.built = s.rw.budget) : s.drainStep = s.endDrain := if_pos h

theorem State.drainStep_of_full (hbuilt : s.rw.built ≠ s.rw.budget) (h : s.ringFull = true) :
    s.drainStep = s.stallDrain := by
  rw [State.drainStep, if_neg hbuilt, if_pos h]

/-- What a step makes of its choice. -/
def State.drainResult : State × Option Nat → State
  | (t, none) => t.endDrain
  | (t, some i) => t.drainBuild i

theorem State.drainStep_of_room (hbuilt : s.rw.built ≠ s.rw.budget) (h : ¬ s.ringFull = true) :
    s.drainStep = State.drainResult (s.drainPick (s.flowIndexes.length + 1)) := by
  rw [State.drainStep, if_neg hbuilt, if_neg h]
  rcases s.drainPick (s.flowIndexes.length + 1) with ⟨t, _ | i⟩ <;> rfl

theorem State.stallDrain_rw (s : State) :
    s.stallDrain.rw = { s.rw with drain := .stalled, statusPending := true } := by
  simp [State.stallDrain, State.requestStatus]

/-- A stall counts report_stalls and fires REPORT_FULL with P. -/
theorem State.stallDrain_counts (s : State) :
    s.stallDrain.agg .reportStalls = min (s.agg .reportStalls + 1) 4294967295 ∧
    (s.alarmOn .reportFull = true → (s.stallDrain.alarm .reportFull).raised = true ∧
      ((s.alarm .reportFull).raised = false →
        (s.stallDrain.alarm .reportFull).first = BitVec.ofNat 32 s.rw.produce)) := by
  let t := (s.onRw fun w => { w with drain := .stalled }).count .reportStalls
  have hagg : s.stallDrain.agg .reportStalls = (t.trigger .reportFull s.rw.produce).agg .reportStalls := rfl
  have halarm : s.stallDrain.alarm .reportFull = (t.trigger .reportFull s.rw.produce).alarm .reportFull := rfl
  refine ⟨?_, fun hon => ?_⟩
  · rw [hagg, State.agg_trigger]
    exact State.agg_count _ .reportStalls .reportStalls
  · rw [halarm, State.alarm_trigger_of_on (s := t) hon]
    exact ⟨rfl, fun hclear => if_neg (Bool.eq_false_iff.1 hclear)⟩

/-- The record of a flow is built in its slot's job, and its dirty flag is cleared (R154). -/
theorem State.drainBuild_effect {i : Nat} (hok : (s.flow i).checkOk = true) :
    (s.drainBuild i).flow i = { s.flow i with dirty := false } ∧ ∀ j, j ≠ i → (s.drainBuild i).flow j = s.flow j := by
  have hflow (j : Nat) : (s.drainBuild i).flow j = (s.setFlow i { s.flow i with dirty := false }).flow j := rfl
  refine ⟨?_, fun j hj => ?_⟩
  · rw [hflow, State.flow_setFlow, if_pos rfl, ← hok]
  · rw [hflow, State.flow_setFlow, if_neg hj]

/-- A step that finds its choice failing goes on as the step after the fault. -/
theorem State.drainStep_of_fail (hbuilt : s.rw.built ≠ s.rw.budget) (hroom : ¬ s.ringFull = true) {i : Nat}
    (hchoice : s.drainChoice = some i) (hfail : (s.flow i).checkOk = false) :
    s.drainStep = (s.checked i).drainStep := by
  obtain ⟨hi, heligible⟩ := State.drainChoice_eligible hchoice
  have hbuilt' : (s.entryFault i).rw.built ≠ (s.entryFault i).rw.budget := by rw [State.entryFault_rw]; exact hbuilt
  have hroom' : ¬ (s.entryFault i).ringFull = true := by
    rw [State.ringFull, State.consume, State.entryFault_rw, State.entryFault_ci]; exact hroom
  have hfewer := State.card_eligibleFlows_entryFault hi heligible
  have hlisted := s.card_eligibleFlows_le
  have hlisted' := (s.entryFault i).card_eligibleFlows_le
  rw [s.checked_of_fail hfail, State.drainStep_of_room hbuilt hroom, State.drainStep_of_room hbuilt' hroom',
    State.drainPick_of_fail hchoice hfail, State.drainPick_enough _ ((s.entryFault i).flowIndexes.length + 1)]
  · omega
  · omega

/-- Settles O50: by the budget, the room in the ring, and what the choice among the eligible flows finds. -/
theorem drainStepTakesTheMostUrgentFlow : Obligations.DrainStepTakesTheMostUrgentFlow := by
  refine ⟨fun s i => State.drainEligible_iff, ?_⟩
  rintro s record rfl hrising
  refine ⟨State.drainStep_of_built, fun hbuilt hfull => ?_, fun hbuilt hroom => ?_, State.endDrain_of_next,
    State.endDrain_of_rest⟩
  · rw [State.drainStep_of_full hbuilt (State.ringFull_iff.2 hfull)]
    exact ⟨s.stallDrain_rw, s.stallDrain_ft, s.stallDrain_counts⟩
  · have hroom : ¬ s.ringFull = true := fun h => hroom (State.ringFull_iff.1 h)
    refine ⟨fun i hi heligible hok hurgent => ⟨_, rfl, ?_⟩, fun i hi heligible hfail hurgent => ?_, fun hnone => ?_⟩
    · have hchoice := State.drainChoice_eq_some hrising hi heligible hurgent
      rw [State.drainStep_of_room hbuilt hroom, State.drainPick_of_ok hchoice hok]
      obtain ⟨hself, hothers⟩ := State.drainBuild_effect hok
      exact ⟨hself, hothers, rfl, rfl, rfl⟩
    · exact State.drainStep_of_fail hbuilt hroom (State.drainChoice_eq_some hrising hi heligible hurgent) hfail
    · rw [State.drainStep_of_room hbuilt hroom, State.drainPick_of_none (State.drainChoice_eq_none hnone)]
      rfl

end

end Sys2Proof.Machine
end

