-- ==== Sys2Proof/Proofs/Selection.lean ====
section
/-! PROOFS. Job selection: the one kind that each round selects, and why a selection without a job is followed by one
with a job. -/

namespace Sys2Proof.Machine

section
variable {s : State}

/-! ## One round (R149) -/

theorem State.select_of_job (h : s.rw.job ≠ none) : s.select = s :=
  State.selectRounds_of_job (Option.isSome_iff_ne_none.2 h) 3

theorem State.selectRounds_succ (hjob : s.rw.job = none) (n : Nat) :
    s.selectRounds (n + 1) = s.selectOnce.selectRounds n := by
  rw [State.selectRounds, if_neg (by simp [hjob])]

/-- A round that selects a job is the whole selection. -/
theorem State.select_of_selected (hjob : s.rw.job = none) (hselected : s.selectOnce.rw.job.isSome = true) :
    s.select = s.selectOnce := by
  rw [State.select, State.selectRounds_succ hjob, State.selectRounds_of_job hselected]

/-- A round that finds no kind eligible leaves the state as it stands, and so does the selection. -/
theorem State.select_of_idle (hidle : s.selectOnce = s) : s.select = s := by
  have hrounds (n : Nat) : s.selectRounds n = s := by
    induction n with
    | zero => rfl
    | succ n ih =>
      rw [State.selectRounds, hidle, ih]
      exact ite_self s
  exact hrounds 3

theorem State.loadEligible_iff : s.loadEligible = true ↔ ∃ l, s.ci.load = some l ∧ l.issued = false := by
  unfold State.loadEligible
  split <;> simp_all

theorem State.not_loadEligible (h : ∀ l, s.ci.load = some l → l.issued = true) : ¬ s.loadEligible = true := by
  rw [State.loadEligible_iff]
  rintro ⟨l, hload, hissued⟩
  rw [h l hload] at hissued
  cases hissued

theorem State.selectOnce_load {l : Load} (hload : s.ci.load = some l) (hissued : l.issued = false) :
    s.selectOnce = { s with
      ci := { s.ci with load := some { l with issued := true } }
      rw := { s.rw with job := some { kind := .load, todo := s.loadJob, started := false } } } := by
  rw [State.selectOnce, if_pos (State.loadEligible_iff.2 ⟨l, hload, hissued⟩)]
  simp only [State.selectLoad, State.onCi, State.startJob, State.onRw, hload, Option.map_some]

/-! ### No load to issue -/

section
variable (hload : ¬ s.loadEligible = true)

include hload in
theorem State.selectOnce_status (h : s.rw.statusPending = true) :
    s.selectOnce = { s with rw := { s.rw with
      statusPending := false, job := some { kind := .status, todo := s.statusJob, started := false } } } := by
  rw [State.selectOnce, if_neg hload, if_pos h]
  rfl

variable (hstatus : s.rw.statusPending = false)

include hload hstatus in
theorem State.selectOnce_interrogate {x : ReportRecord} (h : s.rw.interrogate = some x) :
    s.selectOnce = s.selectInterrogate x := by
  rw [State.selectOnce, if_neg hload, if_neg (by simp [hstatus]), h]

include hload hstatus in
theorem State.selectOnce_retire {x : ReportRecord} {rest : List ReportRecord} (hnone : s.rw.interrogate = none)
    (h : s.ft.retire = x :: rest) (hroom : ¬ s.ringFull = true) :
    s.selectOnce = s.startJob .retire (s.recordJob x) := by
  rw [State.selectOnce, if_neg hload, if_neg (by simp [hstatus]), hnone, h]
  exact if_pos (by simp [hroom])

include hload hstatus in
/-- With nothing higher eligible, a drain in progress makes its step. -/
theorem State.selectOnce_drain (hnone : s.rw.interrogate = none) (h : s.ft.retire = [] ∨ s.ringFull = true) :
    s.selectOnce = if s.rw.drain = .draining then s.drainStep.refreshAlert else s := by
  rw [State.selectOnce, if_neg hload, if_neg (by simp [hstatus]), hnone]
  cases hretire : s.ft.retire with
  | nil => rfl
  | cons x rest =>
    have hfull : s.ringFull = true := h.resolve_left (by simp [hretire])
    exact if_neg (by simp [hfull])

end

/-! ## A round without a job (R151, R159) -/

theorem State.selectInterrogate_of_room (h : ¬ s.ringFull = true) (x : ReportRecord) :
    s.selectInterrogate x = { s with rw := { s.rw with
      interrogate := none, job := some { kind := .interrogate, todo := s.recordJob x, started := false } } } :=
  if_neg h

/-- An INTERROGATE on a full ring is answered NO_ROOM, which requests STATUS. -/
theorem State.selectInterrogate_of_full (h : s.ringFull = true) (x : ReportRecord) :
    s.selectInterrogate x = { s with
      ci := { s.ci with
        inFlight := none
        lastResult := some { tag := s.inFlightTag, code := .noRoom, time := s.cm.timeBase } }
      rw := { s.rw with interrogate := none, statusPending := true } } := if_pos h

/-- A drain's step leaves a job or a STATUS request behind (R154, R155). -/
theorem State.drainStep_job_or_status (s : State) :
    s.drainStep.rw.job.isSome = true ∨ s.drainStep.rw.statusPending = true := by
  have hend (t : State) : t.endDrain.rw.statusPending = true := by
    by_cases h : t.rw.drainOwed = true ∨ t.ThresholdStands
    · rw [State.endDrain_of_next h]; rfl
    · rw [not_or, Bool.not_eq_true] at h
      rw [State.endDrain_of_rest h.1 h.2]
  by_cases hbuilt : s.rw.built = s.rw.budget
  · rw [State.drainStep_of_built hbuilt]
    exact .inr (hend s)
  by_cases hfull : s.ringFull = true
  · rw [State.drainStep_of_full hbuilt hfull, State.stallDrain_rw]
    exact .inr rfl
  rw [State.drainStep_of_room hbuilt hfull]
  rcases s.drainPick (s.flowIndexes.length + 1) with ⟨t, _ | i⟩
  · exact .inr (hend t)
  · exact .inl rfl

theorem State.drainRound_job_or_status (s : State) :
    s.drainStep.refreshAlert.rw.job.isSome = true ∨ s.drainStep.refreshAlert.rw.statusPending = true := by
  rw [State.refreshAlert_eq]
  refine s.drainStep_job_or_status.imp_right fun h => ?_
  simp [h]

/-- With a job current or STATUS requested, one round is the whole selection, and any more change nothing. -/
theorem State.selectRounds_of_job_or_status (h : s.rw.job.isSome = true ∨ s.rw.statusPending = true) (n : Nat) :
    s.selectRounds (n + 1) = s.select := by
  by_cases hjob : s.rw.job.isSome = true
  · rw [State.select, State.selectRounds_of_job hjob, State.selectRounds_of_job hjob]
  have hstatus := h.resolve_left hjob
  rw [Bool.not_eq_true, Option.isSome_eq_false_iff, Option.isNone_iff_eq_none] at hjob
  have hselected : s.selectOnce.rw.job.isSome = true := by
    by_cases hload : s.loadEligible = true
    · obtain ⟨l, hl, hissued⟩ := State.loadEligible_iff.1 hload
      rw [State.selectOnce_load hl hissued]
      rfl
    · rw [State.selectOnce_status hload hstatus]
      rfl
  rw [State.select_of_selected hjob hselected, State.selectRounds_succ hjob, State.selectRounds_of_job hselected]

/-! ## The statement -/

/-- Settles O49: the first round by the kinds in their order of priority, and a round that yields no job by the STATUS
request it leaves. -/
theorem selectionTakesHighestPriority : Obligations.SelectionTakesHighestPriority := by
  refine ⟨fun s => State.select_of_job, fun s hjob => ⟨fun l hload hissued => ?_, fun hissued => ?_⟩⟩
  · have honce := State.selectOnce_load hload hissued
    rw [State.select_of_selected hjob (by rw [honce]; rfl), honce]
  have hload := State.not_loadEligible hissued
  refine ⟨fun hstatus => ?_, fun hstatus => ⟨fun x hx hroom => ?_, fun x hx hfull => ?_, fun x rest hnone hretire hroom => ?_,
    fun hnone hlower hdrain => ?_, fun hnone hlower hdrain => ⟨s.drainStep.refreshAlert, ?_, ?_⟩⟩⟩
  · have honce := State.selectOnce_status hload hstatus
    rw [State.select_of_selected hjob (by rw [honce]; rfl), honce]
  · have honce := State.selectOnce_interrogate hload hstatus hx
    rw [State.selectInterrogate_of_room (mt State.ringFull_iff.1 hroom)] at honce
    rw [State.select_of_selected hjob (by rw [honce]; rfl), honce]
  · have honce := State.selectOnce_interrogate hload hstatus hx
    rw [State.selectInterrogate_of_full (State.ringFull_iff.2 hfull)] at honce
    have hselect : s.select = s.selectOnce.selectOnce := by
      have hanswered : s.selectOnce.rw.job = none := by rw [honce]; exact hjob
      rw [State.select, State.selectRounds_succ hjob, State.selectRounds_of_job_or_status (.inr (by rw [honce]))]
      refine State.select_of_selected hanswered ?_
      rw [State.selectOnce_status (by rw [honce]; exact hload) (by rw [honce])]
      rfl
    rw [hselect, State.selectOnce_status (by rw [honce]; exact hload) (by rw [honce]), honce]
    exact ⟨rfl, rfl, rfl, rfl, _, rfl, rfl⟩
  · have honce := State.selectOnce_retire hload hstatus hnone hretire (mt State.ringFull_iff.1 hroom)
    rw [State.select_of_selected hjob (by rw [honce]; rfl), honce]
    rfl
  · rw [← State.ringFull_iff] at hlower
    exact State.select_of_idle ((State.selectOnce_drain hload hstatus hnone hlower).trans (if_neg hdrain))
  · exact State.alertRefreshed_refreshAlert _
  · rw [← State.ringFull_iff] at hlower
    rw [State.select, State.selectRounds_succ hjob, State.selectOnce_drain hload hstatus hnone hlower, if_pos hdrain]
    exact State.selectRounds_of_job_or_status s.drainRound_job_or_status 1

end

end Sys2Proof.Machine
end

