-- ==== Sys2Proof/Proofs/ReportLayouts.lean ====
section
/-! PROOFS. The layouts of records and of the status block: bytes as fields that follow one another, the bits of a field,
and the fields of each layout. -/

namespace Sys2Proof.Machine

/-! ## Fields of bytes -/

section
variable {b : List Byte} {o n v : Nat}

theorem length_bytesOfNat (n v : Nat) : (bytesOfNat n v).length = n := by
  induction n generalizing v with
  | zero => rfl
  | succ n ih => exact congrArg (· + 1) (ih _)

theorem fieldAt_bytesOfNat (n v : Nat) (rest : List Byte) : FieldAt (bytesOfNat n v ++ rest) 0 n v := by
  induction n generalizing v with
  | zero => exact fun k hk => absurd hk (Nat.not_lt_zero k)
  | succ n ih =>
    rintro (_ | k) hk
    · simp [bytesOfNat]
    · have hbyte := ih (v / 256) k (Nat.lt_of_succ_lt_succ hk)
      rw [Nat.div_div_eq_div_mul, ← Nat.pow_succ', Nat.zero_add] at hbyte
      rw [Nat.zero_add]
      exact hbyte

/-- A field behind other bytes. -/
theorem FieldAt.behind (h : FieldAt b o n v) (front : List Byte) : FieldAt (front ++ b) (front.length + o) n v := by
  intro k hk
  rw [Nat.add_assoc, List.getElem?_append_right (Nat.le_add_right _ _), Nat.add_sub_cancel_left]
  exact h k hk

/-- A field is its low bytes, followed by its high bytes. -/
theorem FieldAt.join {m : Nat} (hlow : FieldAt b o m v) (hhigh : FieldAt b (o + m) n (v / 256 ^ m)) :
    FieldAt b o (m + n) v := by
  intro k hk
  rcases Nat.lt_or_ge k m with hbelow | habove
  · exact hlow k hbelow
  · obtain ⟨j, rfl⟩ := Nat.exists_eq_add_of_le habove
    have hbyte := hhigh j (Nat.lt_of_add_lt_add_left hk)
    rwa [Nat.add_assoc, Nat.div_div_eq_div_mul, ← Nat.pow_add] at hbyte

/-- A field whose value needs its low bytes alone, with zeros behind them. -/
theorem FieldAt.pad {m : Nat} (hlow : FieldAt b o m v) (hzero : FieldAt b (o + m) n 0) (hv : v < 256 ^ m) :
    FieldAt b o (m + n) v := hlow.join (by rwa [Nat.div_eq_of_lt hv])

/-- The bits of a field are the bits of its value. -/
theorem FieldAt.bit (h : FieldAt b o n v) {k : Nat} (hk : k < 8 * n) {P : Prop} (hv : v.testBit k = true ↔ P) :
    BitAt b o k P := by
  refine ⟨_, h (k / 8) (by omega), ?_⟩
  have hbyte : (v / 256 ^ (k / 8)).testBit (k % 8) = v.testBit k := by
    rw [show 256 = 2 ^ 8 from rfl, ← Nat.pow_mul, Nat.testBit_div_two_pow, Nat.mod_add_div]
  rw [BitVec.getLsbD_ofNat, decide_eq_true (Nat.mod_lt k (by decide)), Bool.true_and, hbyte]
  exact hv

end

/-- The bytes of fields that follow one another, each given by its number of bytes and its value. -/
def fieldBytes (l : List (Nat × Nat)) : List Byte := l.flatMap fun f => bytesOfNat f.1 f.2

theorem fieldBytes_append (l l' : List (Nat × Nat)) : fieldBytes (l ++ l') = fieldBytes l ++ fieldBytes l' :=
  List.flatMap_append

theorem length_fieldBytes (l : List (Nat × Nat)) : (fieldBytes l).length = (l.map Prod.fst).sum := by
  simp only [fieldBytes, List.length_flatMap, length_bytesOfNat]

/-- Fields stand in bytes one behind the other, from an offset on. -/
def FieldsAt (b : List Byte) : Nat → List (Nat × Nat) → Prop
  | _, [] => True
  | o, f :: rest => FieldAt b o f.1 f.2 ∧ FieldsAt b (o + f.1) rest

theorem FieldsAt.behind {b : List Byte} {o : Nat} {l : List (Nat × Nat)} (h : FieldsAt b o l) (front : List Byte) :
    FieldsAt (front ++ b) (front.length + o) l := by
  induction l generalizing o with
  | nil => trivial
  | cons f rest ih => exact ⟨h.1.behind front, Nat.add_assoc _ _ _ ▸ ih h.2⟩

theorem fieldsAt_append {b : List Byte} {o : Nat} {l l' : List (Nat × Nat)} :
    FieldsAt b o (l ++ l') ↔ FieldsAt b o l ∧ FieldsAt b (o + (l.map Prod.fst).sum) l' := by
  induction l generalizing o with
  | nil => simp [FieldsAt]
  | cons f rest ih =>
    rw [List.cons_append, FieldsAt, FieldsAt, ih, List.map_cons, List.sum_cons, Nat.add_assoc, and_assoc]

/-- The bytes of fields hold each of them. -/
theorem fieldsAt_fieldBytes (l : List (Nat × Nat)) : FieldsAt (fieldBytes l) 0 l := by
  induction l with
  | nil => trivial
  | cons f rest ih =>
    have hrest := ih.behind (bytesOfNat f.1 f.2)
    rw [length_bytesOfNat, Nat.add_comm] at hrest
    exact ⟨fieldAt_bytesOfNat f.1 f.2 _, hrest⟩

/-! ## Numbers made of bits -/

/-- The number whose bits are given, the least significant first. -/
def numberOfBits (l : List Bool) : Nat := l.foldr Nat.bit 0

theorem testBit_numberOfBits (l : List Bool) (k : Nat) : (numberOfBits l).testBit k = true ↔ l[k]? = some true := by
  induction l generalizing k with
  | nil => simp [numberOfBits]
  | cons x rest ih =>
    cases k with
    | zero => simp [numberOfBits]
    | succ k => rw [numberOfBits, List.foldr_cons, Nat.testBit_bit_succ, List.getElem?_cons_succ]; exact ih k

theorem bit_eq (x : Bool) (k : Nat) : bit x k = 2 ^ k * x.toNat := by cases x <;> simp [bit]

theorem numberOfBits_cons (x : Bool) (l : List Bool) : numberOfBits (x :: l) = 2 * numberOfBits l + x.toNat :=
  Nat.bit_val x _

/-- The flags of an entry, bit by bit. -/
theorem FlowEntry.flags_eq (e : FlowEntry) :
    e.flags = numberOfBits [e.saturated, e.reanchor, e.departed.isSome, e.due.isSome] := by
  simp only [FlowEntry.flags, bit_eq, numberOfBits_cons]
  simp only [numberOfBits, List.foldr_nil]
  omega

theorem markBits_eq (m : Mark) (k : Nat) (l : List Mark) :
    markBits m k l = 2 ^ k * numberOfBits (l.map fun x => decide (x = m)) := by
  induction l generalizing k with
  | nil => rfl
  | cons x rest ih =>
    rw [markBits, ih, bit_eq, List.map_cons, numberOfBits_cons, Nat.pow_succ]
    ring

/-- The bit of a window position says whether it bears the mark. -/
theorem testBit_markBits (m : Mark) (l : List Mark) (k : Nat) :
    (markBits m 0 l).testBit k = true ↔ l[k]? = some m := by
  rw [markBits_eq, Nat.pow_zero, Nat.one_mul, testBit_numberOfBits]
  simp

theorem FlowEntry.saturated_iff (e : FlowEntry) : e.saturated = true ↔ ∃ t, e.tally t = 4294967295 := by
  have hall (t : Tally) : t ∈ Tally.all := by cases t <;> decide
  rw [FlowEntry.saturated, List.any_eq_true]
  exact exists_congr fun t => (and_iff_right (hall t)).trans decide_eq_true_iff

/-! ## The record (section 10.4) -/

/-- The fields of a record, in order. -/
def ReportRecord.fields (x : ReportRecord) : List (Nat × Nat) :=
  [(1, x.type.code), (1, x.entry.state.code), (1, x.entry.flags), (1, x.type.cause), (2, x.index),
    (1, x.entry.generation.toNat), (1, x.entry.profile), (4, x.entry.tag.toNat + x.entry.port.toNat * 2 ^ 20),
    (2, x.drainNumber.toNat), (1, x.type.tag), (1, 0), (6, x.time.toNat), (10, 0)]
  ++ Tally.all.map (fun t => (4, x.entry.tally t))
  ++ [(2, x.entry.nextSeq), (1, x.entry.staleRun), (1, x.entry.window.length),
    (4, markBits .received 0 x.entry.window), (4, markBits .missing 0 x.entry.window),
    (2, x.entry.departed.getD 0), (1, x.entry.misses), (1, x.entry.lateRun), (4, x.entry.worstResidence),
    (2, x.entry.faultMask.toNat), (2, 0), (6, (x.entry.due.getD 0#48).toNat), (2, 0)]

theorem ReportRecord.bytes_eq (x : ReportRecord) : x.bytes = fieldBytes x.fields := by
  rw [ReportRecord.fields, fieldBytes_append, fieldBytes_append]
  unfold ReportRecord.bytes
  simp only [fieldBytes, List.flatMap_cons, List.flatMap_nil, List.flatMap_map, List.append_nil, List.append_assoc]

theorem ReportRecord.length_bytes (x : ReportRecord) : x.bytes.length = 128 := by
  rw [x.bytes_eq, length_fieldBytes]
  simp [ReportRecord.fields, Tally.all]

/-- The flags of a record (section 10.4). -/
theorem FlowEntry.bit_flags {e : FlowEntry} {b : List Byte} {o : Nat} (h : FieldAt b o 1 e.flags) :
    BitAt b o 0 (∃ t, e.tally t = 4294967295) ∧ BitAt b o 1 (e.reanchor = true) ∧
    BitAt b o 2 (e.departed ≠ none) ∧ BitAt b o 3 (e.due ≠ none) ∧ ∀ k, 4 ≤ k → k < 8 → BitAt b o k False := by
  have hbit := testBit_numberOfBits [e.saturated, e.reanchor, e.departed.isSome, e.due.isSome]
  rw [← FlowEntry.flags_eq] at hbit
  refine ⟨h.bit (by decide) ((hbit 0).trans ?_), h.bit (by decide) ((hbit 1).trans ?_),
    h.bit (by decide) ((hbit 2).trans ?_), h.bit (by decide) ((hbit 3).trans ?_),
    fun k hunused hk => h.bit hk ((hbit k).trans ?_)⟩
  · rw [← FlowEntry.saturated_iff]; simp
  · simp
  · simp [Option.isSome_iff_ne_none]
  · simp [Option.isSome_iff_ne_none]
  · rw [List.getElem?_eq_none hunused]; simp

theorem getD_zero_eq_match (d : Option Nat) : d.getD 0 = match d with | none => 0 | some d => d := by cases d <;> rfl

theorem toNat_getD_eq_match (d : Option Time) :
    (d.getD 0#48).toNat = match d with | none => 0 | some d => d.toNat := by cases d <;> rfl

theorem ReportRecord.layout (x : ReportRecord) : RecordLayout x x.bytes := by
  have hfields := fieldsAt_fieldBytes x.fields
  rw [← x.bytes_eq] at hfields
  simp only [ReportRecord.fields, Tally.all, List.map_cons, List.map_nil, List.cons_append, List.nil_append, FieldsAt,
    Nat.reduceAdd, and_true] at hfields
  obtain ⟨htype, hstate, hflags, hcause, hindex, hgeneration, hprofile, hkey, hdrain, htag, hzero15, htime, hzero22,
    haccepted, hanchors, hinOrder, hahead, hreorderedIn, hduplicates, hstale, hunsequenced, hgapDrops, hdiscards,
    hoverruns, hlate, hmisses, hreorderedOut, hsilences, hunresolved, hnext, hrun, hwindow, hreceived, hmissing,
    hdeparted, hmissed, hlateRun, hworst, hfaults, hzero118, hdue, hzero126⟩ := hfields
  obtain ⟨hsaturated, hreanchor, hdepartedBit, hdueBit, hunused⟩ := FlowEntry.bit_flags hflags
  have hkey' : FieldAt x.bytes 8 4 (x.entry.tag.toNat + 2 ^ 20 * x.entry.port.toNat) := by
    rw [Nat.mul_comm]; exact hkey
  rw [getD_zero_eq_match] at hdeparted
  rw [toNat_getD_eq_match] at hdue
  have hmarks : ∀ k < 32, BitAt x.bytes 100 k (x.entry.window[k]? = some .received) ∧
      BitAt x.bytes 104 k (x.entry.window[k]? = some .missing) := fun k hk =>
    ⟨hreceived.bit hk (testBit_markBits _ _ k), hmissing.bit hk (testBit_markBits _ _ k)⟩
  exact ⟨x.length_bytes, htype, hstate, hsaturated, hreanchor, hdepartedBit, hdueBit, hunused, hcause, hindex, hgeneration,
    hprofile, hkey', hdrain, htag, hzero15, htime, hzero22, haccepted, hanchors, hinOrder, hahead, hreorderedIn,
    hduplicates, hstale, hunsequenced, hgapDrops, hdiscards, hoverruns, hlate, hmisses, hreorderedOut, hsilences,
    hunresolved, hnext, hrun, hwindow, hmarks, hdeparted, hmissed, hlateRun, hworst, hfaults, hzero118, hdue, hzero126⟩

/-! ## The status block (section 10.3) -/

/-- The fields of an alarm kind's word. -/
def State.alarmFields (s : State) (k : AlarmKind) : List (Nat × Nat) :=
  [(4, (s.alarm k).first.toNat), (2, (s.alarm k).occurrences),
    (1, bit (s.alarmOn k) 0 + bit (s.alarm k).held 1 + bit (s.alarm k).raised 2), (1, 0)]

/-- The fields of the last result: tag and code. -/
def resultFields (r : Option MailboxResult) : List (Nat × Nat) :=
  [(1, match r with | none => 0 | some r => r.tag.toNat), (1, match r with | none => 0 | some r => r.code.code)]

theorem resultBytes_eq (r : Option MailboxResult) : resultBytes r = fieldBytes (resultFields r) := by
  cases r <;> simp [resultBytes, resultFields, fieldBytes, bytesOfNat]

/-- The fields of the last-clamp record. -/
def clampFields (r : Option ClampRecord) : List (Nat × Nat) :=
  [(2, match r with | none => 0 | some c => c.offset), (1, match r with | none => 0 | some c => c.field),
    (1, match r with | none => 0 | some _ => 1), (4, 0), (4, match r with | none => 0 | some c => c.written),
    (4, match r with | none => 0 | some c => c.held), (6, match r with | none => 0 | some c => c.time.toNat), (2, 0)]

theorem clampBytes_eq (r : Option ClampRecord) : clampBytes r = fieldBytes (clampFields r) := by
  cases r <;> simp [clampBytes, clampFields, fieldBytes, bytesOfNat]

/-- The fields of the status block, in order. -/
def State.statusFields (s : State) : List (Nat × Nat) :=
  [(6, s.now.toNat), (1, s.ci.part.code), (1, s.oq.coverage.code), (8, s.rw.produce), (2, s.consume),
    (2, s.dirtyCount), (1, s.ft.retire.length), (1, s.rw.drain.code), (1, bit s.rw.drainOwed 0), (1, 0),
    (2, s.rw.drainNumber.toNat)]
  ++ resultFields s.ci.lastResult ++ [(4, 0), (8, resultTime s.ci.lastResult)]
  ++ Aggregate.all.map (fun a => (4, s.agg a))
  ++ AlarmKind.all.flatMap s.alarmFields
  ++ [(4, alertNumber s.tau.alertKind), (4, s.tau.alertValue.toNat)]
  ++ clampFields s.ci.lastClamp ++ [(48, 0), (8, s.now.toNat)]

theorem State.statusBytes_eq (s : State) : s.statusBytes = fieldBytes s.statusFields := by
  have halarm (k : AlarmKind) : s.alarmBytes k = fieldBytes (s.alarmFields k) := by
    simp [State.alarmBytes, State.alarmFields, fieldBytes]
  have halarms : AlarmKind.all.flatMap s.alarmBytes = fieldBytes (AlarmKind.all.flatMap s.alarmFields) := by
    simp only [funext halarm, fieldBytes, List.flatMap_assoc]
  unfold State.statusBytes State.statusFields
  rw [resultBytes_eq, clampBytes_eq, halarms]
  simp only [fieldBytes, List.flatMap_append, List.flatMap_cons, List.flatMap_nil, List.flatMap_map, List.append_nil,
    List.append_assoc]

theorem State.width_alarmFields (s : State) (k : AlarmKind) : ((s.alarmFields k).map Prod.fst).sum = 8 := rfl

theorem State.length_statusBytes (s : State) : s.statusBytes.length = 256 := by
  rw [s.statusBytes_eq, length_fieldBytes]
  simp [State.statusFields, resultFields, clampFields, State.alarmFields, Aggregate.all, AlarmKind.all]

/-- The word of an alarm kind, said of its fields. -/
theorem State.alarmWord {s : State} {b : List Byte} {k : AlarmKind} {o : Nat} (h : FieldsAt b o (s.alarmFields k)) :
    FieldAt b o 4 (s.alarm k).first.toNat ∧ FieldAt b (o + 4) 2 (s.alarm k).occurrences ∧
    BitAt b (o + 6) 0 (s.alarmOn k = true) ∧ BitAt b (o + 6) 1 ((s.alarm k).held = true) ∧
    BitAt b (o + 6) 2 ((s.alarm k).raised = true) ∧ ∀ i, 3 ≤ i → i < 16 → BitAt b (o + 6) i False := by
  have hmarks : bit (s.alarmOn k) 0 + bit (s.alarm k).held 1 + bit (s.alarm k).raised 2
      = numberOfBits [s.alarmOn k, (s.alarm k).held, (s.alarm k).raised] := by
    simp only [bit_eq, numberOfBits_cons]
    simp only [numberOfBits, List.foldr_nil]
    omega
  have hlt : numberOfBits [s.alarmOn k, (s.alarm k).held, (s.alarm k).raised] < 256 ^ 1 := by
    cases s.alarmOn k <;> cases (s.alarm k).held <;> cases (s.alarm k).raised <;> decide
  obtain ⟨hfirst, hcount, hbyte, hzero, _⟩ := h
  simp only [hmarks] at hbyte
  have hfield := hbyte.pad hzero hlt
  have hbit := testBit_numberOfBits [s.alarmOn k, (s.alarm k).held, (s.alarm k).raised]
  refine ⟨hfirst, hcount, hfield.bit (by decide) ((hbit 0).trans ?_), hfield.bit (by decide) ((hbit 1).trans ?_),
    hfield.bit (by decide) ((hbit 2).trans ?_), fun i hunused hi => hfield.bit hi ((hbit i).trans ?_)⟩
  · simp
  · simp
  · simp
  · rw [List.getElem?_eq_none hunused]; simp

theorem alertNumber_eq_match (k : Option AlarmKind) :
    alertNumber k = match k with
      | none => 0 | some .entryFault => 1 | some .blind => 2 | some .overrun => 3 | some .gapBurst => 4
      | some .silence => 5 | some .lateRun => 6 | some .tableFull => 7 | some .reportFull => 8 := by
  rcases k with _ | k
  · rfl
  · cases k <;> rfl

theorem State.statusLayout (s : State) : StatusLayout s s.statusBytes := by
  have hfields := fieldsAt_fieldBytes s.statusFields
  rw [← s.statusBytes_eq] at hfields
  simp only [State.statusFields, resultFields, clampFields, Aggregate.all, AlarmKind.all, List.map_cons, List.map_nil,
    List.cons_append, List.nil_append, List.append_assoc, FieldsAt, fieldsAt_append, List.flatMap_cons, List.flatMap_nil,
    State.width_alarmFields, Nat.reduceAdd, and_true] at hfields
  obtain ⟨hnow, hpart, hcoverage, hproduce, hconsume, hdirty, hretire, hdrain, howed, hzero23, hnumber, htag, hcode,
    hzero28, hresultTime, hunlisted, hunlistedDiscards, hunlistedOverruns, hunlistedLate, horphans, hstrayDequeues,
    hstrayCompletions, hlost, hblind, hfailures, hevictions, hfaults, hclamped, hstalls, hlostCommands, hreloads,
    hentryFault, hblindAlarm, hoverrun, hgapBurst, hsilence, hlateRun, htableFull, hreportFull, halertKind, halertValue,
    hoffset, hfield, hpresent, hzero180, hwritten, hheld, hclampTime, hzero198, hzero200, hend⟩ := hfields
  rw [alertNumber_eq_match] at halertKind
  have halarms (k : AlarmKind) : FieldsAt s.statusBytes (0x60 + 8 * k.priority) (s.alarmFields k) := by
    cases k with
    | entryFault => exact hentryFault
    | blind => exact hblindAlarm
    | overrun => exact hoverrun
    | gapBurst => exact hgapBurst
    | silence => exact hsilence
    | lateRun => exact hlateRun
    | tableFull => exact htableFull
    | reportFull => exact hreportFull
  have howed' : FieldAt s.statusBytes 0x16 2 (if s.rw.drainOwed then 1 else 0) :=
    howed.pad hzero23 (by cases s.rw.drainOwed <;> decide)
  have hclampTime' : FieldAt s.statusBytes 0xC0 8 (match s.ci.lastClamp with | none => 0 | some c => c.time.toNat) := by
    refine hclampTime.pad hzero198 ?_
    cases s.ci.lastClamp with
    | none => decide
    | some c => exact c.time.isLt
  exact ⟨s.length_statusBytes, hnow, hpart, hcoverage, hproduce, hconsume, hdirty, hretire, hdrain, howed', hnumber, htag,
    hcode, hzero28, hresultTime, hunlisted, hunlistedDiscards, hunlistedOverruns, hunlistedLate, horphans, hstrayDequeues,
    hstrayCompletions, hlost, hblind, hfailures, hevictions, hfaults, hclamped, hstalls, hlostCommands, hreloads,
    fun k o ho => ho ▸ State.alarmWord (halarms k), halertKind, halertValue, hoffset, hfield, hpresent, hzero180, hwritten, hheld,
    hclampTime', hzero200, hend⟩

end Sys2Proof.Machine
end

