-- ==== Sys2Proof/Proofs/ReportJobs.lean ====
section
/-! PROOFS. What the jobs carry: the bytes of a block in the words of its burst write, and the transactions of each job
in order. -/

namespace Sys2Proof.Machine

/-! ## Words of bytes (R1) -/

/-- Byte i of the number that bytes hold is the i-th of them. -/
theorem getElem?_eq_natOfBytes_div {l : List Byte} {i : Nat} (hi : i < l.length) :
    l[i]? = some (BitVec.ofNat 8 (natOfBytes l / 256 ^ i)) := by
  induction l generalizing i with
  | nil => exact absurd hi (Nat.not_lt_zero i)
  | cons b rest ih =>
    have hb := b.isLt
    cases i with
    | zero =>
      refine congrArg some (BitVec.eq_of_toNat_eq ?_)
      rw [natOfBytes, BitVec.toNat_ofNat]
      omega
    | succ i =>
      have hrest : natOfBytes (b :: rest) / 256 ^ (i + 1) = natOfBytes rest / 256 ^ i := by
        rw [Nat.pow_succ', ← Nat.div_div_eq_div_mul, natOfBytes]
        congr 1
        omega
      rw [List.getElem?_cons_succ, hrest]
      exact ih (Nat.lt_of_succ_lt_succ hi)

/-- Lane i of a word made of bytes carries the i-th of them. -/
theorem getElem?_wordOfBytes {l : List Byte} {i : Nat} (hi : i < l.length) (hword : i < 8) :
    l[i]? = some ((wordOfBytes l).extractLsb' (8 * i) 8) := by
  rw [getElem?_eq_natOfBytes_div hi]
  refine congrArg some (BitVec.eq_of_getLsbD_eq fun k hk => ?_)
  have hlane : 8 * i + k < 64 := by omega
  rw [BitVec.getLsbD_extractLsb', wordOfBytes, BitVec.getLsbD_ofNat, BitVec.getLsbD_ofNat,
    show 256 = 2 ^ 8 from rfl, ← Nat.pow_mul, Nat.testBit_div_two_pow, Nat.add_comm k]
  simp [hk, hlane]

/-- The word of eight bytes from an offset on carries them. -/
theorem getElem?_wordAt {l : List Byte} {o i : Nat} (hl : o + 8 ≤ l.length) (hi : i < 8) :
    l[o + i]? = some ((wordOfBytes ((l.drop o).take 8)).extractLsb' (8 * i) 8) := by
  have hlength : i < ((l.drop o).take 8).length := by
    rw [List.length_take, List.length_drop]
    omega
  rw [← getElem?_wordOfBytes hlength hi, List.getElem?_take_of_lt hi, List.getElem?_drop]

/-! ## Blocks (R150, R151) -/

section
variable (s : State)

theorem State.length_burstWrites (o n : Nat) (l : List Byte) : (s.burstWrites o n l).length = n := by
  induction n generalizing o l with
  | zero => rfl
  | succ n ih => exact congrArg (· + 1) (ih _ _)

/-- A block of other bytes in front. -/
theorem CarriesBlock.drop {t : Option Transaction} {a : Addr} {l : List Byte} {m o : Nat}
    (h : CarriesBlock t a (l.drop m) o) : CarriesBlock t a l (m + o) := by
  obtain ⟨w0, w1, w2, w3, ht, hbytes⟩ := h
  simp only [List.getElem?_drop, ← Nat.add_assoc] at hbytes
  exact ⟨w0, w1, w2, w3, ht, hbytes⟩

/-- Burst write k carries the k-th block of 32 bytes to its place. -/
theorem State.carriesBlock_burstWrites {n k : Nat} (hk : k < n) {l : List Byte} (hl : 32 * k + 32 ≤ l.length) (o : Nat) :
    CarriesBlock (s.burstWrites o n l)[k]? (s.controlAddress (o + 32 * k)) l (32 * k) := by
  induction k generalizing n l o with
  | zero =>
    obtain ⟨n, rfl⟩ := Nat.exists_eq_succ_of_ne_zero (Nat.ne_zero_of_lt hk)
    refine ⟨_, _, _, _, rfl, fun i hi => ⟨?_, ?_, ?_, ?_⟩⟩
    · exact getElem?_wordAt (by omega) hi
    · exact getElem?_wordAt (by omega) hi
    · exact getElem?_wordAt (by omega) hi
    · exact getElem?_wordAt (by omega) hi
  | succ k ih =>
    obtain ⟨n, rfl⟩ := Nat.exists_eq_succ_of_ne_zero (Nat.ne_zero_of_lt hk)
    have hblock := (ih (Nat.lt_of_succ_lt_succ hk) (l := l.drop 32) (by rw [List.length_drop]; omega) (o + 32)).drop
    rw [Nat.add_assoc, Nat.add_comm 32, ← Nat.mul_succ] at hblock
    exact hblock

/-- The burst reads of a range of blocks, one by one. -/
theorem State.burstReads_eq (o n : Nat) :
    s.burstReads o n = (List.range n).map fun k => .burstRead (s.controlAddress (o + 32 * k)) 0#2 := by
  induction n generalizing o with
  | zero => rfl
  | succ n ih =>
    rw [State.burstReads, ih, List.range_succ_eq_map, List.map_cons, List.map_map]
    refine congrArg _ (List.map_congr_left fun k _ => ?_)
    rw [Function.comp_apply, Nat.mul_succ, Nat.add_comm (32 * k), ← Nat.add_assoc]

/-- The control region's addresses do not wrap (R12). -/
theorem State.toNat_controlAddress {o : Nat} (ho : o < 0x10000) :
    (s.controlAddress o).toNat = s.fp.straps.toNat * 0x800000 + o := by
  have hstraps := s.fp.straps.isLt
  rw [State.controlAddress, BitVec.toNat_ofNat, State.controlBase]
  omega

/-! ## The jobs -/

theorem State.getElem?_recordJob (x : ReportRecord) {k : Nat} (hk : k < 4) :
    (s.recordJob x)[k]? = (s.burstWrites (0x1000 + 128 * s.rw.produce) 4 x.bytes)[k]? :=
  List.getElem?_append_left (by rw [State.length_burstWrites]; exact hk)

end

/-- Settles O51: the layouts field by field, and the transactions of each job block by block. -/
theorem jobsFillTheirBlocks : Obligations.JobsFillTheirBlocks := by
  rintro s x a rfl
  refine ⟨fun o => s.toNat_controlAddress, x.layout, s.statusLayout, s.length_burstWrites _ _ _, fun k hk => ?_, rfl,
    fun k hk => ?_, rfl, ?_⟩
  · exact s.carriesBlock_burstWrites hk (by rw [s.length_statusBytes]; omega) 0x800
  · rw [s.getElem?_recordJob x hk]
    exact s.carriesBlock_burstWrites hk (by rw [x.length_bytes]; omega) _
  · rw [← s.burstReads_eq, ← s.burstReads_eq, ← s.burstReads_eq]
    rfl

end Sys2Proof.Machine
end

