-- ==== Sys2Proof/Proofs/ConsumeIndex.lean ====
section
/-! PROOFS. The application of the consume index: what the other settings and the command leave of the report ring, and what
the new index does to it. -/

namespace Sys2Proof.Machine

/-! ## What the other settings leave (R147, R155) -/

/-- The report ring by its indexes P and C, and whether a drain stalls on it. -/
def State.reportRing (s : State) : Nat × Nat × Bool := (s.rw.produce, s.consume, decide (s.rw.drain = .stalled))

section
variable (s : State)

theorem State.reportRing_congr {s t : State} (hrw : t.rw = s.rw) (hci : t.ci = s.ci) : t.reportRing = s.reportRing := by
  rw [State.reportRing, State.reportRing, State.consume, State.consume, hrw, hci]

@[simp] theorem State.reportRing_noteClamp (o f w h : Nat) : (s.noteClamp o f w h).reportRing = s.reportRing := by
  unfold State.noteClamp
  split <;> rfl

/-- A drain trigger starts no stall and ends none (R152). -/
@[simp] theorem State.reportRing_triggerDrain : s.triggerDrain.reportRing = s.reportRing := by
  rw [State.triggerDrain_eq, State.reportRing, ReportWriter.triggered]
  split
  · next hidle => simp [State.reportRing, ReportWriter.started, State.consume, hidle]
  · rfl

@[simp] theorem State.reportRing_expireTimer : s.expireTimer.reportRing = s.reportRing :=
  State.reportRing_triggerDrain _

@[simp] theorem State.reportRing_testThreshold (b : State) : (s.testThreshold b).reportRing = s.reportRing := by
  rcases s.testThreshold_cases b with ⟨_, _, heq⟩ | ⟨_, heq⟩
  · rw [heq, State.reportRing_triggerDrain]
  · rw [heq]

/-! ### Globals -/

@[simp] theorem State.reportRing_setCoverage (c : Coverage) : (s.setCoverage c).reportRing = s.reportRing := by
  cases c <;> rfl

@[simp] theorem State.reportRing_sweep : s.sweep.reportRing = s.reportRing := by
  have hconsume : s.sweep.consume = s.consume := congrArg Gauges.consume s.gauges_sweep
  rw [State.reportRing, State.sweep_rw, hconsume, State.reportRing]

@[simp] theorem State.reportRing_applyMonitoring : s.applyMonitoring.reportRing = s.reportRing := by
  have heffect (t : State) (b : Bool) : (t.monitoringEffect b).reportRing = t.reportRing := by
    unfold State.monitoringEffect
    (repeat' split) <;> simp
  unfold State.applyMonitoring
  dsimp only
  split
  · rfl
  · exact heffect _ _

@[simp] theorem State.reportRing_applyFreeze : s.applyFreeze.reportRing = s.reportRing := rfl

@[simp] theorem State.reportRing_applyPinCount : s.applyPinCount.reportRing = s.reportRing :=
  State.reportRing_noteClamp _ _ _ _ _

@[simp] theorem State.reportRing_applyAlarmOn : s.applyAlarmOn.reportRing = s.reportRing :=
  State.reportRing_congr (s := s.onHeld fun h => { h with alarmOn := s.imageByte 10 }) (by simp [State.applyAlarmOn])
    (by simp [State.applyAlarmOn])

@[simp] theorem State.reportRing_applyInterval : s.applyInterval.reportRing = s.reportRing := by
  unfold State.applyInterval
  dsimp only
  split
  · rfl
  · split
    · exact State.reportRing_expireTimer _
    · rfl

@[simp] theorem State.reportRing_applyThreshold : s.applyThreshold.reportRing = s.reportRing := by
  unfold State.applyThreshold
  dsimp only
  split
  · rw [State.reportRing_triggerDrain, State.reportRing_noteClamp]; rfl
  · rw [State.reportRing_noteClamp]; rfl

theorem State.reportRing_applyGlobals (l : List (Nat × Byte)) : (s.applyGlobals l).reportRing = s.reportRing := by
  unfold State.applyGlobals
  dsimp only
  (repeat' split) <;> simp

/-! ### Rings, profiles and the classifier -/

theorem State.reportRing_applyRings (l : List (Nat × Byte)) (m : Store Byte) :
    (s.applyRings l m).reportRing = s.reportRing := by
  have hnote (t b : State) (r : Nat) (gs : List RingGeometry) : (t.noteRings b l r gs).reportRing = t.reportRing := by
    induction gs generalizing t r with
    | nil => rfl
    | cons g rest ih =>
      rw [State.noteRings, ih]
      unfold State.noteRing
      dsimp only
      (repeat' split) <;> simp
  have hchange (t : State) (r : Nat) (gs : List RingGeometry) : (t.changeRings r gs).reportRing = t.reportRing := by
    induction gs generalizing t r with
    | nil => rfl
    | cons g rest ih =>
      have hresolved (ns : List Nat) : (t.resolveSlots r ns).reportRing = t.reportRing :=
        State.reportRing_congr (by simp) (by simp)
      rw [State.changeRings, ih]
      unfold State.changeRing
      dsimp only
      split
      · rfl
      · split
        · exact hresolved _
        · rfl
  unfold State.applyRings
  split
  · exact (hchange _ _ _).trans (hnote _ _ _ _)
  · rfl

theorem State.reportRing_applyProfile (l : List (Nat × Byte)) (p : Nat) :
    (s.applyProfile l p).reportRing = s.reportRing := by
  have hheld (g : Profile) : (s.noteProfile l p g).reportRing = s.reportRing := by
    unfold State.noteProfile
    dsimp only
    (repeat' split) <;> simp
  have hperiod (t : State) (old new : Profile) : (t.periodChange p old new).reportRing = t.reportRing :=
    State.reportRing_congr (by simp) (by simp)
  have hprofile (t : State) (old new : Profile) : (t.profileChange p old new).reportRing = t.reportRing :=
    State.reportRing_congr (by simp) (by simp)
  unfold State.applyProfile
  dsimp only
  split
  · rw [hperiod]
    split
    · rw [hprofile]; exact hheld _
    · exact hheld _
  · split
    · rw [hprofile]; exact hheld _
    · exact hheld _

theorem State.reportRing_applyProfiles (l : List (Nat × Byte)) (ps : List Nat) :
    (s.applyProfiles l ps).reportRing = s.reportRing := by
  induction ps generalizing s with
  | nil => rfl
  | cons p rest ih =>
    rw [State.applyProfiles, ih]
    split
    · exact s.reportRing_applyProfile l p
    · rfl

theorem State.reportRing_applyClassifier (l : List (Nat × Byte)) (ns : List Nat) :
    (s.applyClassifier l ns).reportRing = s.reportRing := by
  induction ns generalizing s with
  | nil => rfl
  | cons n rest ih =>
    rw [State.applyClassifier, ih]
    split <;> rfl

/-! ### The command -/

/-- C stands from `s` to `u`, and no drain stalls in `u` that did not in `s`. -/
def RingUnblocked (s u : State) : Prop :=
  u.consume = s.consume ∧ (u.rw.drain = .stalled → s.rw.drain = .stalled)

theorem RingUnblocked.of_eq {s u : State} (h : u.reportRing = s.reportRing) : RingUnblocked s u := by
  simp only [State.reportRing, Prod.mk.injEq, decide_eq_decide] at h
  obtain ⟨_, hconsume, hdrain⟩ := h
  exact ⟨hconsume, hdrain.1⟩

theorem RingUnblocked.trans {s t u : State} (h : RingUnblocked s t) (h' : RingUnblocked t u) : RingUnblocked s u :=
  ⟨h'.1.trans h.1, h.2 ∘ h'.2⟩

/-- A command that acts leaves the report ring, but for RESTART, whose drain is IDLE (R157, R162). -/
theorem RingUnblocked.act (tag : BitVec 8) (a : Nat) (k : MailboxCommand) : RingUnblocked s (s.act tag a k) := by
  have hresult (t : State) (code : ResultCode) : (t.result tag code).reportRing = t.reportRing := rfl
  have hmasked (m : BitVec 8) (g : AlarmRow → AlarmRow) :
      (s.onMasked m g AlarmKind.all).reportRing = s.reportRing := State.reportRing_congr (by simp) (by simp)
  cases k with
  | ping | clearAll | unknown => exact .of_eq rfl
  | restart => exact ⟨rfl, nofun⟩
  | clearFlow => exact .of_eq ((hresult _ _).trans (State.reportRing_congr (by simp) (by simp)))
  | evictFlow => exact .of_eq ((hresult _ _).trans (State.reportRing_congr (by simp) (by simp)))
  | alarmAck | alarmHold | alarmRelease => exact .of_eq ((hresult _ _).trans (hmasked _ _))
  | reloadConfig =>
    refine .of_eq ?_
    change (s.startReload tag).reportRing = _
    unfold State.startReload State.requestReload
    split <;> rfl
  | interrogate =>
    refine .of_eq ?_
    change (s.startInterrogate tag a).reportRing = _
    unfold State.startInterrogate
    split
    · exact State.reportRing_congr (t := s.checked a) (by simp) (by simp)
    · rfl
  | snapshot =>
    have hpass : (s.overFlows (fun t i => t.setFlow i (t.flow i).mark) s.flowIndexes).reportRing = s.reportRing :=
      s.overFlows_keep State.reportRing _ s.flowIndexes (fun t i => State.reportRing_congr (by simp) (by simp))
        fun t i => rfl
    exact .of_eq ((hresult _ _).trans ((State.reportRing_triggerDrain _).trans hpass))

theorem RingUnblocked.considerCommand (l : List (Nat × Byte)) : RingUnblocked s (s.considerCommand l) := by
  unfold State.considerCommand State.mailbox
  dsimp only
  split
  · split
    · exact .of_eq rfl
    · split
      · exact .act (s.takeTag s.commandTag) _ _ _
      · exact .of_eq rfl
  · exact .of_eq rfl

/-- What an application does behind the consume index leaves C, and no drain stalled that was not. -/
theorem RingUnblocked.applied (bytes : List (Nat × Byte)) : RingUnblocked (s.beforeRings bytes) (s.applied bytes) := by
  refine (RingUnblocked.of_eq ?_).trans (.considerCommand _ bytes)
  calc (s.applySettings bytes).reportRing
      = (s.beforeProfiles bytes).reportRing := by
        rw [State.applySettings_eq, State.reportRing_testThreshold, State.reportRing_applyClassifier,
          State.reportRing_applyProfiles]
    _ = (s.beforeRings bytes).reportRing := State.reportRing_applyRings _ _ _

end

/-! ## The new index (R148, R164) -/

section
variable {t : State} {bytes : List (Nat × Byte)} {v : Nat}

/-- The new index acts on RW alone (R148). -/
theorem State.consumeEffect_frame (t : State) : t.consumeEffect = { t with rw := t.consumeEffect.rw } := by
  have hidle : t.drainIdle = { t with rw := t.drainIdle.rw } := by
    unfold State.drainIdle
    dsimp only
    split <;> rfl
  unfold State.consumeEffect
  split
  · exact hidle
  · rfl

theorem State.consumeEffect_of_room (hstalled : t.rw.drain = .stalled) (hroom : (t.rw.produce + 1) % 480 ≠ t.consume) :
    t.consumeEffect = t.drainIdle :=
  if_pos ⟨hstalled, decide_eq_false hroom⟩

theorem State.consumeEffect_of_stands (h : t.rw.drain ≠ .stalled ∨ (t.rw.produce + 1) % 480 = t.consume) :
    t.consumeEffect = t := by
  refine if_neg fun ⟨hstalled, hroom⟩ => h.elim (· hstalled) fun hfull => ?_
  exact absurd (State.ringFull_iff.2 hfull) (by simp [hroom])

/-- The state that holds C as `v`. -/
def State.withConsume (t : State) (v : Nat) : State := t.onHeld fun h => { h with consume := v }

section
variable (hnamed : names bytes 0x80 2 = true) (hv : v = t.imageField 0x80 2)
include hnamed hv

theorem State.applyConsume_of_legal (hlegal : v < 480) (hnew : v ≠ t.consume) :
    t.applyConsume bytes = (t.withConsume v).consumeEffect := by
  subst hv
  exact (if_pos hnamed).trans ((if_pos hlegal).trans (if_neg hnew))

theorem State.applyConsume_of_same (hlegal : v < 480) (hsame : v = t.consume) : t.applyConsume bytes = t := by
  subst hv
  exact (if_pos hnamed).trans ((if_pos hlegal).trans (if_pos hsame))

theorem State.applyConsume_of_illegal (hillegal : 480 ≤ v) :
    t.applyConsume bytes = t.noteClamp 0x80 3 v t.consume := by
  subst hv
  exact (if_pos hnamed).trans (if_neg hillegal.not_gt)

theorem State.consume_applyConsume_of_legal (hlegal : v < 480) : (t.applyConsume bytes).consume = v := by
  by_cases hnew : v = t.consume
  · rw [State.applyConsume_of_same hnamed hv hlegal hnew, hnew]
  · rw [State.applyConsume_of_legal hnamed hv hlegal hnew, State.consumeEffect_frame]
    rfl

theorem State.consume_applyConsume_of_illegal (hillegal : 480 ≤ v) : (t.applyConsume bytes).consume = t.consume := by
  rw [State.applyConsume_of_illegal hnamed hv hillegal]
  exact congrArg Gauges.consume (t.gauges_noteClamp _ _ _ _)

/-- The drain of RW stands where it is not stalled on a ring that the new index frees (R148). -/
theorem State.rw_applyConsume_of_stands
    (h : t.rw.drain ≠ .stalled ∨ 480 ≤ v ∨ v = t.consume ∨ (t.rw.produce + 1) % 480 = v) :
    (t.applyConsume bytes).rw = t.rw := by
  rcases Nat.lt_or_ge v 480 with hlegal | hillegal
  · by_cases hnew : v = t.consume
    · rw [State.applyConsume_of_same hnamed hv hlegal hnew]
    · have hstands : t.rw.drain ≠ .stalled ∨ (t.rw.produce + 1) % 480 = v :=
        h.imp_right fun h => (h.resolve_left hlegal.not_ge).resolve_left hnew
      rw [State.applyConsume_of_legal hnamed hv hlegal hnew, State.consumeEffect_of_stands (t := t.withConsume v) hstands]
      rfl
  · rw [State.applyConsume_of_illegal hnamed hv hillegal, State.noteClamp_rw]

/-- A drain stalled on a ring that the new index frees becomes IDLE, and the next one starts (R148). -/
theorem State.rw_applyConsume_of_room (hstalled : t.rw.drain = .stalled) (hlegal : v < 480) (hnew : v ≠ t.consume)
    (hroom : (t.rw.produce + 1) % 480 ≠ v) : (t.applyConsume bytes).rw = (t.withConsume v).drainIdle.rw := by
  rw [State.applyConsume_of_legal hnamed hv hlegal hnew,
    State.consumeEffect_of_room (t := t.withConsume v) hstalled hroom]

/-- A value of 480 or above is the one clamp (R164). -/
theorem ClampStep.applyConsume :
    ClampStep t (t.applyConsume bytes) (clampOf true 0x80 3 v (t.applyConsume bytes).consume t.cm.timeBase) := by
  rcases Nat.lt_or_ge v 480 with hlegal | hillegal
  · rw [State.consume_applyConsume_of_legal hnamed hv hlegal, clampOf, if_neg (by simp)]
    by_cases hnew : v = t.consume
    · rw [State.applyConsume_of_same hnamed hv hlegal hnew]
      exact .refl t
    · rw [State.applyConsume_of_legal hnamed hv hlegal hnew, State.consumeEffect_frame]
      exact ⟨.of_eq rfl rfl, rfl, rfl⟩
  · rw [State.consume_applyConsume_of_illegal hnamed hv hillegal, State.applyConsume_of_illegal hnamed hv hillegal]
    exact (ClampStep.refl t).noteValue true 0x80 3 v t.consume

end

/-- Neither the new index nor its effect reaches the flows, the frames, the coverage, the alarms or an aggregate other
than that of the clamps. -/
theorem State.applyConsume_leaves (t : State) (bytes : List (Nat × Byte)) :
    (t.applyConsume bytes).ft = t.ft ∧ (t.applyConsume bytes).tt = t.tt ∧ (t.applyConsume bytes).cm = t.cm ∧
      (t.applyConsume bytes).oq.coverage = t.oq.coverage ∧ (∀ k, (t.applyConsume bytes).alarm k = t.alarm k) ∧
      (∀ a, a ≠ .clampedFields → (t.applyConsume bytes).agg a = t.agg a) := by
  have hclamp (w : Nat) (a : Aggregate) (ha : a ≠ .clampedFields) :
      (t.noteClamp 0x80 3 w t.consume).agg a = t.agg a := by
    unfold State.noteClamp
    split
    · rfl
    · exact (State.agg_count _ _ _).trans (if_neg ha)
  have halarm (w : Nat) (k : AlarmKind) : (t.noteClamp 0x80 3 w t.consume).alarm k = t.alarm k := by
    unfold State.noteClamp
    split <;> rfl
  unfold State.applyConsume
  dsimp only
  split
  · split
    · split
      · exact ⟨rfl, rfl, rfl, rfl, fun _ => rfl, fun _ _ => rfl⟩
      · rw [State.consumeEffect_frame]
        exact ⟨rfl, rfl, rfl, rfl, fun _ => rfl, fun _ _ => rfl⟩
    · exact ⟨by simp, by simp, by simp, by simp, halarm _, hclamp _⟩
  · exact ⟨rfl, rfl, rfl, rfl, fun _ => rfl, fun _ _ => rfl⟩

end

/-! ## An application that names the index -/

section
variable (s : State) {bytes : List (Nat × Byte)} (hnamed : names bytes 0x80 2 = true)

/-- The state in which the consume index of an application is applied. -/
def State.beforeConsume (bytes : List (Nat × Byte)) : State := (s.merge bytes).applyGlobals bytes

/-- The index that the image holds in the end is the one that is applied. -/
theorem State.imageField_beforeConsume :
    (s.beforeConsume bytes).imageField 0x80 2 =
      ((s.applied bytes).imageByte 0x80).toNat + 256 * ((s.applied bytes).imageByte 0x81).toNat := by
  have himage : (s.applied bytes).ci.image = (s.beforeConsume bytes).ci.image := by
    rw [State.image_applied_eq, State.image_beforeRings]
    exact (State.image_of_tables (State.tables_applyGlobals _ _)).symm
  rw [← State.imageField_congr himage, State.imageField_add _ 0x80 1 1, State.imageField_one, State.imageField_one,
    pow_one]

/-- Bytes of the consume index's block alone apply the index, and nothing else. -/
theorem State.applied_of_consumeRange (hrange : ∀ c ∈ bytes, 0x80 ≤ c.1 ∧ c.1 < 0x100) :
    s.applied bytes = (s.merge bytes).applyConsume bytes := by
  have hbelow (o n : Nat) (h : o + n ≤ 0x80) : names bytes o n = false := names_of_outside hrange (.inl h)
  have habove (o n : Nat) (h : 0x100 ≤ o) : names bytes o n = false := names_of_outside hrange (.inr h)
  have hbefore : s.beforeProfiles bytes = (s.merge bytes).applyConsume bytes := by
    simp [State.beforeProfiles, State.applyGlobals, State.applyRings, hbelow, habove]
  have hthreshold : ((s.merge bytes).applyConsume bytes).testThreshold s = (s.merge bytes).applyConsume bytes := by
    have hcount : ((s.merge bytes).applyConsume bytes).dirtyCount = s.dirtyCount :=
      State.dirtyCount_congr (State.applyConsume_ft _ _)
    exact (State.testThreshold_cases _ s).elim (fun h => absurd h.1 (by omega)) And.right
  rw [State.applied, State.considerCommand, if_neg (by simp [hbelow]), State.applySettings_eq, hbefore,
    State.applyProfiles_of_unnamed _ fun p _ => habove _ _ (by unfold profileOffset; omega),
    State.applyClassifier_of_unnamed _ fun n _ => habove _ _ (by unfold classifierOffset; omega), hthreshold]

include hnamed in
theorem State.holdsConsume_applied : HoldsConsume bytes s (s.applied bytes) := by
  intro v hv
  have hb : v = (s.beforeConsume bytes).imageField 0x80 2 := hv.trans s.imageField_beforeConsume.symm
  have hring : (s.beforeConsume bytes).reportRing = s.reportRing := State.reportRing_applyGlobals _ _
  simp only [State.reportRing, Prod.mk.injEq, decide_eq_decide] at hring
  obtain ⟨hproduce, hconsume, hdrain⟩ := hring
  obtain ⟨hheld, hblocked⟩ := RingUnblocked.applied s bytes
  refine ⟨fun hlegal => ?_, fun hillegal => ?_, fun hstalled hlegal hnew hroom hstill => ?_, fun hrange => ?_⟩
  · rw [hheld]
    exact State.consume_applyConsume_of_legal hnamed hb hlegal
  · rw [hheld, ← hconsume]
    exact State.consume_applyConsume_of_illegal hnamed hb hillegal
  · have hfreed := State.rw_applyConsume_of_room hnamed hb (hdrain.2 hstalled) hlegal (hconsume.symm ▸ hnew)
      (hproduce.symm ▸ hroom)
    exact State.drain_drainIdle _ (hfreed ▸ hblocked hstill)
  · have halone := s.applied_of_consumeRange hrange
    have hm : v = (s.merge bytes).imageField 0x80 2 := by
      rw [hb]
      exact State.imageField_congr (State.image_of_tables (State.tables_applyGlobals _ _)) _ _
    rw [halone]
    obtain ⟨hft, htt, hcm, hcoverage, halarms, haggs⟩ := (s.merge bytes).applyConsume_leaves bytes
    refine ⟨hft, htt, hcm, hcoverage, halarms, haggs, State.rw_applyConsume_of_stands (t := s.merge bytes) hnamed hm,
      fun hstalled hlegal hnew hroom => ?_, (ClampStep.applyConsume (t := s.merge bytes) hnamed hm).noted⟩
    rw [State.rw_applyConsume_of_room (t := s.merge bytes) hnamed hm hstalled hlegal hnew hroom]
    refine ⟨fun hnext => ?_, fun howed hbelow => ?_⟩
    · rw [State.drainIdle_of_next (s := (s.merge bytes).withConsume v) hnext]
      rfl
    · rw [State.drainIdle_of_rest (s := (s.merge bytes).withConsume v) howed hbelow]
      rfl

end

/-! ## The statement settled -/

/-- A control write that names the consume index is handed out and applied, then its command word is considered. -/
theorem exec_consumeIndexWrite {s : State} {o : Observation} (hready : s.controlReady = some o)
    (hnamed : names o.body.named 0x80 2 = true) :
    exec .consumeIndexWrite s =
      .next (((s.afterSettings o).considerCommand o.body.named).settle (s.afterSettings o)) := by
  change s.controlCase (namesField 0x80 2) = _
  rw [State.controlCase, hready]
  exact if_pos hnamed

/-- Settles O39: the settings before the index leave the report ring, the index frees a stalled drain or is a clamp, and
what follows it leaves C and blocks no drain. -/
theorem consumeIndexWriteFreesTheRing : Obligations.ConsumeIndexWriteFreesTheRing := by
  intro s o hready hnamed
  refine ⟨_, exec_consumeIndexWrite hready hnamed, ?_, ?_, s.popHead.holdsConsume_applied hnamed⟩
  · rw [State.considerCommand_mem]
    exact State.applySettings_mem _ _
  · rw [State.pending_of_tables (State.tables_considerCommand _ _)]
    exact State.applySettings_pending _ _

end Sys2Proof.Machine
end

