-- ==== Sys2Proof/Proofs/LoadEnd.lean ====
section
/-! PROOFS. The end of a load: what it leaves of the state. -/

namespace Sys2Proof.Machine

section
variable {s : State}

/-- A change of state that leaves the waiting commands, memory, the link, the flow table and the slots. -/
def LoadSide (s u : State) : Prop :=
  u = { s with oq := u.oq, cm := u.cm, tau := u.tau, rw := u.rw, ci := u.ci, freeCount := u.freeCount }

theorem LoadSide.refl (s : State) : LoadSide s s := rfl

theorem LoadSide.trans {s t u : State} (h : LoadSide s t) (h' : LoadSide t u) : LoadSide s u := by
  rw [LoadSide, h', h]

theorem LoadSide.fp {s u : State} (h : LoadSide s u) : u.fp = s.fp := by rw [h]
theorem LoadSide.ft {s u : State} (h : LoadSide s u) : u.ft = s.ft := by rw [h]
theorem LoadSide.tt {s u : State} (h : LoadSide s u) : u.tt = s.tt := by rw [h]
theorem LoadSide.sameLink {s u : State} (h : LoadSide s u) : SameLink s u := by rw [h]; exact ⟨rfl, rfl, rfl⟩

theorem LoadSide.setCoverage (s : State) (c : Coverage) : LoadSide s (s.setCoverage c) := by cases c <;> rfl

theorem LoadSide.trigger (s : State) (k : AlarmKind) (v : Nat) : LoadSide s (s.trigger k v) := by
  unfold State.trigger
  split <;> rfl

theorem LoadSide.useFree (s : State) : LoadSide s s.useFree := by
  unfold State.useFree
  split <;> rfl

theorem LoadSide.coverageAtLoadEnd (s : State) : LoadSide s s.coverageAtLoadEnd := by
  unfold State.coverageAtLoadEnd
  split
  · exact .setCoverage s _
  · split
    · have hcount : LoadSide s (s.count .blindIntervals) := rfl
      exact ((hcount.trans (.trigger _ _ _)).trans (.setCoverage _ _)).trans (.useFree _)
    · exact .setCoverage s _

theorem LoadSide.startWaiting (s : State) : LoadSide s s.startWaiting := by
  unfold State.startWaiting State.requestReload
  split
  · rfl
  · split <;> rfl

theorem LoadSide.answerRestart (s : State) : LoadSide s s.answerRestart := by
  unfold State.answerRestart
  split <;> rfl

theorem LoadSide.answerReload (s : State) (o : ReloadOrigin) : LoadSide s (s.answerReload o) := by
  unfold State.answerReload
  split <;> rfl

theorem LoadSide.endInitial (s : State) : LoadSide s s.endInitial := by
  have hrun : LoadSide s (s.onCi fun c => { c with part := .running }) := rfl
  have hwriter (t : State) : LoadSide t t.startWriter.requestStatus := rfl
  exact (((hrun.trans (.coverageAtLoadEnd _)).trans (hwriter _)).trans (.answerRestart _)).trans (.startWaiting _)

theorem LoadSide.endReload (s : State) (o : ReloadOrigin) : LoadSide s (s.endReload o) := by
  have hstatus (t : State) : LoadSide t t.requestStatus := rfl
  exact ((LoadSide.answerReload s o).trans (hstatus _)).trans (.startWaiting _)

/-- The end of a load acts on the queue's marks, the time of sight, TAU, RW and CI (R173, R174). -/
theorem LoadSide.endLoad (s : State) : LoadSide s s.endLoad := by
  unfold State.endLoad
  split
  · exact .refl s
  · have hload : LoadSide s (s.onCi fun c => { c with load := none }) := rfl
    dsimp only
    split
    · exact hload.trans (.endInitial _)
    · exact hload.trans (.endReload _ _)

theorem LoadSide.considerLoadRead (s : State) (r : LoadRead) : LoadSide s (s.considerLoadRead r) := by
  have htag : LoadSide s (s.takeTag s.commandTag) := rfl
  unfold State.considerLoadRead
  split
  · exact htag.trans (.endLoad _)
  · exact .refl s

end

end Sys2Proof.Machine
end

