-- ==== Sys2Proof/Proofs/RingsLawful.lean ====
section
/-! PROOFS. The held ring geometry: what an application evaluates is lawful, and no other command but RESET_N moves
it. -/

namespace Sys2Proof.Machine

/-! ## Geometry without the part state -/

/-- The held geometry is legal, apart from what OFFLINE asks of it (R164, R165). -/
structure State.GeometryLawful (s : State) : Prop where
  fields : ∀ r < 16, (s.ring r).base.toNat % 32 = 0 ∧ (s.ring r).slots ∈ [16, 32, 64, 128, 256]
  placed : ∀ r < 16, (s.ring r).enabled = true →
    (s.ring r).base.toNat + 32 * (s.ring r).slots ≤ 2 ^ 27 ∧
    ((s.ring r).base.toNat + 32 * (s.ring r).slots ≤ s.controlBase ∨ s.controlBase + 65536 ≤ (s.ring r).base.toNat)
  apart : ∀ q < 16, ∀ r < 16, q ≠ r → (s.ring q).enabled = true → (s.ring r).enabled = true →
    (s.ring q).base.toNat + 32 * (s.ring q).slots ≤ (s.ring r).base.toNat ∨
    (s.ring r).base.toNat + 32 * (s.ring r).slots ≤ (s.ring q).base.toNat
  total : (((List.range 16).filter fun r => (s.ring r).enabled).map fun r => (s.ring r).slots).sum ≤ 2048

theorem State.ringsLawful_iff (s : State) :
    s.RingsLawful ↔ s.GeometryLawful ∧ (s.ci.part = .offline → ∀ r < 16, (s.ring r).enabled = false) :=
  ⟨fun ⟨hfields, hplaced, hapart, htotal, hoffline⟩ => ⟨⟨hfields, hplaced, hapart, htotal⟩, hoffline⟩,
    fun ⟨⟨hfields, hplaced, hapart, htotal⟩, hoffline⟩ => ⟨hfields, hplaced, hapart, htotal, hoffline⟩⟩

/-- The rings and the place of the control region stand from `s` to `u`. -/
structure GeometryStands (s u : State) : Prop where
  rings : u.ci.held.rings = s.ci.held.rings
  straps : u.fp.straps = s.fp.straps

theorem GeometryStands.trans {s t u : State} (h : GeometryStands s t) (h' : GeometryStands t u) : GeometryStands s u :=
  ⟨h'.rings.trans h.rings, h'.straps.trans h.straps⟩

theorem GeometryStands.of_fp {s u : State} (hframes : FramesStand s u) (hfp : u.fp = s.fp) : GeometryStands s u :=
  ⟨hframes.rings, congrArg ForwardingPath.straps hfp⟩

theorem GeometryStands.of_ci {s u : State} (hci : u.ci = s.ci) (hfp : u.fp = s.fp) : GeometryStands s u :=
  ⟨congrArg (fun c => c.held.rings) hci, congrArg ForwardingPath.straps hfp⟩

theorem State.GeometryLawful.of_stands {s u : State} (hs : s.GeometryLawful) (h : GeometryStands s u) :
    u.GeometryLawful := by
  have hring (r : Nat) : u.ring r = s.ring r := by rw [State.ring, h.rings, State.ring]
  have hbase : u.controlBase = s.controlBase := by rw [State.controlBase, h.straps, State.controlBase]
  obtain ⟨hfields, hplaced, hapart, htotal⟩ := hs
  refine ⟨?_, ?_, ?_, ?_⟩
  all_goals simp only [hring, hbase]; assumption

/-- Rings that are all as after reset are lawful wherever the control region stands (R107). -/
theorem State.GeometryLawful.of_reset {u : State} (h : u.ci.held.rings = ⟨[]⟩) : u.GeometryLawful := by
  have hring (r : Nat) : u.ring r = initialRing := by rw [State.ring, h]; rfl
  refine ⟨fun r _ => ?_, fun r _ hr => ?_, fun q _ r _ _ hq => ?_, ?_⟩
  · rw [hring]; decide
  · rw [hring] at hr; cases hr
  · rw [hring] at hq; cases hq
  · simp only [hring]; decide

/-! ## An application evaluates lawful geometry (R164, R165) -/

theorem heldSlots_legal (w : Nat) : heldSlots w ∈ [16, 32, 64, 128, 256] := by
  unfold heldSlots
  split_ifs <;> decide

/-- Rings of which each enabled one fits behind the lower ones keep the sum within the total (R165). -/
theorem sum_enabledSlots_le (g : Nat → RingGeometry) (total n : Nat)
    (h : ∀ r < n, (g r).enabled = true →
      (g r).slots + (((List.range r).filter fun q => (g q).enabled).map fun q => (g q).slots).sum ≤ total) :
    (((List.range n).filter fun q => (g q).enabled).map fun q => (g q).slots).sum ≤ total := by
  induction n with
  | zero => exact Nat.zero_le total
  | succ n ih =>
    have hlower := ih fun r hr => h r (Nat.lt_succ_of_lt hr)
    rw [List.range_succ, List.filter_append, List.map_append, List.sum_append]
    cases hn : (g n).enabled
    · simpa [hn] using hlower
    · have hfits := h n n.lt_succ_self hn
      simp only [List.filter_cons, hn, if_true, List.filter_nil, List.map_cons, List.map_nil, List.sum_singleton]
      omega

section
variable {s : State} {bytes : List (Nat × Byte)}

theorem State.straps_act (tag : BitVec 8) (a : Nat) (k : MailboxCommand) : (s.act tag a k).fp.straps = s.fp.straps := by
  cases k with
  | ping | clearAll | restart | unknown => rfl
  | clearFlow | evictFlow | alarmAck | alarmHold | alarmRelease =>
    simp [State.act, State.acknowledge, State.hold, State.release]
  | interrogate =>
    change (s.startInterrogate tag a).fp.straps = _
    unfold State.startInterrogate
    split <;> simp
  | snapshot =>
    have hpass := s.overFlows_keep State.fp (fun t i => t.setFlow i (t.flow i).mark) s.flowIndexes (fun t i => by simp)
      fun t i => rfl
    simp [State.act, State.takeSnapshot, hpass]
  | reloadConfig => simp [State.act, State.startReload]

theorem GeometryStands.considerCommand (s : State) (bytes : List (Nat × Byte)) :
    GeometryStands s (s.considerCommand bytes) := by
  refine ⟨(FramesStand.considerCommand s bytes).rings, ?_⟩
  unfold State.considerCommand State.mailbox
  dsimp only
  split
  · split
    · rfl
    · split
      · exact State.straps_act (s := s.takeTag s.commandTag) _ _ _
      · rfl
  · rfl

theorem GeometryStands.applied_of_unnamed (hnamed : names bytes 0x100 256 = false) :
    GeometryStands s (s.applied bytes) := by
  have hbefore : s.beforeProfiles bytes = s.beforeRings bytes := if_neg (by simp [hnamed])
  refine GeometryStands.trans (t := s.applySettings bytes) ⟨?_, ?_⟩ (.considerCommand _ bytes)
  · rw [State.applySettings_eq, (FramesStand.afterRings _ bytes s).rings, hbefore, State.beforeRings,
      (FramesStand.applyConsume _ bytes).rings, State.applyGlobals_rings]
    rfl
  · rw [State.applySettings_fp]

theorem State.GeometryLawful.applied (hs : s.GeometryLawful) (bytes : List (Nat × Byte)) :
    (s.applied bytes).GeometryLawful := by
  have hstraps : (s.applied bytes).fp.straps = s.fp.straps := by
    rw [State.applied, (GeometryStands.considerCommand _ bytes).straps, State.applySettings_fp]
  have hbase : (s.applied bytes).controlBase = s.controlBase := by rw [State.controlBase, hstraps, State.controlBase]
  cases hnamed : names bytes 0x100 256 with
  | false => exact hs.of_stands (.applied_of_unnamed hnamed)
  | true =>
    by_cases hchanged : ∃ k < 256, (s.applied bytes).imageByte (0x100 + k) ≠ s.imageByte (0x100 + k)
    · have heval {r : Nat} (hr : r < 16) := s.evaluated_applied hnamed hchanged rfl hr
      refine ⟨fun r hr => ?_, fun r hr henabled => ?_, fun q hq r hr hne hqon hron => ?_, ?_⟩
      · obtain ⟨hring, hslots, -⟩ := heval hr
        rw [hring, hslots]
        exact ⟨Nat.mul_mod_left _ _, heldSlots_legal _⟩
      · obtain ⟨-, -, hon⟩ := heval hr
        obtain ⟨-, hends, hcontrol, -⟩ := hon.1 henabled
        rw [hbase]
        exact ⟨hends, hcontrol⟩
      · obtain ⟨-, -, honq⟩ := heval hq
        obtain ⟨-, -, honr⟩ := heval hr
        obtain ⟨-, -, -, hbehindq, -⟩ := honq.1 hqon
        obtain ⟨-, -, -, hbehindr, -⟩ := honr.1 hron
        rcases Nat.lt_or_gt_of_ne hne with hlt | hgt
        · exact (hbehindr q hlt hqon).symm
        · exact hbehindq r hgt hron
      · refine sum_enabledSlots_le (s.applied bytes).ring 2048 16 fun r hr henabled => ?_
        obtain ⟨-, -, hon⟩ := heval hr
        obtain ⟨-, -, -, -, hfits⟩ := hon.1 henabled
        exact hfits
    · push Not at hchanged
      have hring := s.ring_applied_of_unchanged hnamed hchanged
      obtain ⟨hfields, hplaced, hapart, htotal⟩ := hs
      refine ⟨?_, ?_, ?_, ?_⟩
      all_goals simp only [hring, hbase]; assumption

/-- The settings alone, the command not considered. -/
theorem State.GeometryLawful.applySettings (hs : s.GeometryLawful) (bytes : List (Nat × Byte)) :
    (s.applySettings bytes).GeometryLawful := by
  have hstands := GeometryStands.considerCommand (s.applySettings bytes) bytes
  have hback : GeometryStands (s.applied bytes) (s.applySettings bytes) := ⟨hstands.rings.symm, hstands.straps.symm⟩
  exact (hs.applied bytes).of_stands hback

end

/-! ## Every command -/

section
variable {s : State}

theorem GeometryStands.settle (s b : State) : GeometryStands s (s.settle b) := .of_fp (.settle s b) (s.settle_fp b)

theorem GeometryStands.sweep (s : State) : GeometryStands s s.sweep :=
  ⟨s.sweep_rings, congrArg ForwardingPath.straps s.sweep_fp⟩

theorem GeometryStands.grant (s : State) : GeometryStands s s.grant := by
  refine ⟨(FramesStand.grant s).rings, ?_⟩
  unfold State.grant
  split
  · rfl
  · rfl
  · split <;> rfl
  · rfl

theorem GeometryStands.takeForwarded (s : State) (t : Transaction) : GeometryStands s (s.takeForwarded t) := by
  refine ⟨(FramesStand.takeForwarded s t).rings, ?_⟩
  rw [State.takeForwarded, State.observe_fp]
  cases t.isRead <;> rfl

theorem State.straps_advanceJob (s : State) : s.advanceJob.fp.straps = s.fp.straps := by
  unfold State.advanceJob
  split
  · rfl
  · next j _ =>
    split
    · cases j.kind <;> rfl
    · rfl

theorem GeometryStands.completeRead (s : State) (r : ReturnRead) : GeometryStands s (s.completeRead r) := by
  refine ⟨(FramesStand.completeRead s r).rings, ?_⟩
  unfold State.completeRead
  dsimp only
  split
  · exact State.straps_advanceJob _
  · rfl

theorem GeometryStands.completeWrite (s : State) (t : Transaction) (live : Bool) :
    GeometryStands s (s.completeWrite t live) := by
  refine ⟨(FramesStand.completeWrite s t live).rings, ?_⟩
  cases live
  · rfl
  · exact State.straps_advanceJob (s.takeRequest t)

theorem GeometryStands.considerLoadRead (s : State) (r : LoadRead) : GeometryStands s (s.considerLoadRead r) :=
  .of_fp (.considerLoadRead s r) (LoadSide.considerLoadRead s r).fp

theorem State.GeometryLawful.handOutControl (hs : s.GeometryLawful) (o : Observation) :
    (s.handOutControl o).GeometryLawful := by
  have hpopped : s.popHead.GeometryLawful := hs.of_stands ⟨rfl, rfl⟩
  exact ((hpopped.applied o.body.named).of_stands (.settle _ _) :)

theorem State.GeometryLawful.applyLoadRead (hs : s.GeometryLawful) (r : LoadRead) :
    (s.applyLoadRead r).GeometryLawful :=
  (hs.applySettings r.bytes).of_stands ((GeometryStands.considerLoadRead _ r).trans (.settle _ _))

/-- No command but the release and the assertion of RESET_N, which set the rings, leads away from lawful geometry. -/
theorem Effect.keeps_geometryLawful {c : Instr} {u : State} (h : Effect s c u) (hs : s.GeometryLawful)
    (hreset : s.ci.part = .offline → s.ci.held.rings = ⟨[]⟩) : u.GeometryLawful := by
  have hsettle {t : State} (ht : GeometryStands s t) : (t.settle s).GeometryLawful :=
    hs.of_stands (ht.trans (.settle t s))
  cases h with
  | idle => exact hs
  | assertReset => exact .of_reset rfl
  | releaseReset straps hpart =>
    exact .of_reset ((FramesStand.settle (s.releaseReset straps) s).rings.trans (hreset hpart))
  | present | returnRead | takeInjectedRead | tick => exact hs.of_stands ⟨rfl, rfl⟩
  | grant t => exact (hs.of_stands (u := s.present t) ⟨rfl, rfl⟩).of_stands (.grant _)
  | takeForwarded t => exact hsettle (.takeForwarded s t)
  | completeWrite t live => exact hsettle (.completeWrite s t live)
  | completeRead r => exact hsettle (.completeRead s r)
  | expireTimer => exact hsettle (.of_fp (.of_ci (by simp) (by simp)) (by simp))
  | takeEnqueue o r i port tag copy q v =>
    have hlisted := FlowSide.listed s.popHead o port tag copy q v
    rw [State.takeEnqueue_eq]
    refine hsettle (.trans (t := s.popHead.listed o port tag copy q v) ?_ (.of_ci (by simp) (by simp)))
    exact .of_ci (by rw [hlisted.ci]; rfl) hlisted.sameLink.1
  | dequeueSlot o r i => exact hsettle (.of_ci (by simp) (by simp))
  | completeSlot o r i code => exact hsettle (.of_ci (by simp) (by simp))
  | discardHead => exact hsettle ⟨rfl, rfl⟩
  | sweepHead => exact hsettle ((GeometryStands.sweep s).trans ⟨rfl, rfl⟩)
  | sweepEmpty => exact hsettle (.sweep s)
  | takeExpiry i due => exact hsettle (.of_ci (by simp) (by simp))
  | control c o => exact hs.handOutControl o
  | advanceWalk n tag => exact hsettle (.of_fp (.advanceWalk s n tag) (s.advanceWalk_fp n tag))
  | applyLoadRead r =>
    have hnext : (s.onCi fun c => { c with loadReads := c.loadReads.tail }).GeometryLawful := hs.of_stands ⟨rfl, rfl⟩
    exact hnext.applyLoadRead r

/-- A step into or within OFFLINE leaves every ring disabled (R107, R175). -/
theorem State.OfflineHeldAtReset.rings (hs : s.OfflineHeldAtReset) (hpart : s.ci.part = .offline) :
    s.ci.held.rings = ⟨[]⟩ := by
  obtain ⟨-, -, -, -, -, -, hci, -⟩ := hs hpart
  rw [hci]
  rfl

theorem Effect.keeps_ringsLawful {c : Instr} {u : State} (h : Effect s c u) (hs : s.RingsLawful)
    (hoffline : s.OfflineHeldAtReset) : u.RingsLawful := by
  refine u.ringsLawful_iff.2 ⟨h.keeps_geometryLawful (s.ringsLawful_iff.1 hs).1 hoffline.rings, fun hpart r _ => ?_⟩
  rw [State.ring, (h.keeps_offlineHeldAtReset hoffline).rings hpart]
  rfl

/-- Settles O58: geometry changes by an application, which evaluates every ring behind the lower-numbered ones, and by
RESET_N alone, whose assertion disables every ring; the place of the control region changes at the release alone. -/
theorem stepsKeepRingsLawful : Obligations.StepsKeepRingsLawful := by
  intro s u hs hoffline h
  rcases step_effect h with rfl | ⟨c, rest, _, heffect⟩
  · exact hs
  · exact heffect.keeps_ringsLawful hs hoffline

end

end Sys2Proof.Machine
end

