-- ==== Sys2Proof/Proofs/SettingsKept.lean ====
section
/-! PROOFS. What an application does behind the globals, and what a command does at all: the globals stand, and no
alarm kind that is off is RAISED. -/

namespace Sys2Proof.Machine

/-- The globals among the held settings (R166). -/
def Held.globals (h : Held) : Bool × Bool × Nat × BitVec 8 × Nat × Nat :=
  (h.monitoring, h.freeze, h.pinCount, h.alarmOn, h.interval, h.dirtyThreshold)

/-- The globals stand from `s` to `u`, and no kind that is off is RAISED anew (R138, R166). -/
structure GlobalsStand (s u : State) : Prop where
  globals : u.ci.held.globals = s.ci.held.globals
  quiet : ∀ k, s.alarmOn k = false → (u.alarm k).raised = true → (s.alarm k).raised = true

/-- The load in progress and its reads not yet applied (R171, R172). -/
def ControlInterface.loading (c : ControlInterface) : Option Load × List LoadRead := (c.load, c.loadReads)

/-- Beside the globals, OQ, the times that CM holds and the load stand from `s` to `u`. -/
structure SettingsStand (s u : State) : Prop extends GlobalsStand s u where
  oq : u.oq = s.oq
  timeBase : u.cm.timeBase = s.cm.timeBase
  sightStart : u.cm.sightStart = s.cm.sightStart
  loading : u.ci.loading = s.ci.loading

theorem GlobalsStand.alarmOn {s u : State} (h : GlobalsStand s u) (k : AlarmKind) : u.alarmOn k = s.alarmOn k := by
  have hmask := congrArg (fun g => g.2.2.2.1) h.globals
  exact congrArg k.inMask hmask

theorem GlobalsStand.refl (s : State) : GlobalsStand s s := ⟨rfl, fun _ _ h => h⟩

theorem GlobalsStand.trans {s t u : State} (h : GlobalsStand s t) (h' : GlobalsStand t u) : GlobalsStand s u :=
  ⟨h'.globals.trans h.globals, fun k hoff hraised =>
    h.quiet k hoff (h'.quiet k ((h.alarmOn k).trans hoff) hraised)⟩

theorem GlobalsStand.of_alarms {s u : State} (hglobals : u.ci.held.globals = s.ci.held.globals)
    (halarms : u.tau.alarms = s.tau.alarms) : GlobalsStand s u :=
  ⟨hglobals, fun k _ h => by rwa [State.alarm, halarms] at h⟩

theorem SettingsStand.refl (s : State) : SettingsStand s s := ⟨.refl s, rfl, rfl, rfl, rfl⟩

theorem SettingsStand.trans {s t u : State} (h : SettingsStand s t) (h' : SettingsStand t u) : SettingsStand s u :=
  ⟨h.toGlobalsStand.trans h'.toGlobalsStand, h'.oq.trans h.oq, h'.timeBase.trans h.timeBase,
    h'.sightStart.trans h.sightStart, h'.loading.trans h.loading⟩

section
variable (s : State)

/-! ## Flows, frames and alarms -/

theorem SettingsStand.trigger (k : AlarmKind) (v : Nat) : SettingsStand s (s.trigger k v) := by
  refine ⟨⟨by simp, fun j hoff hraised => ?_⟩, by simp, by simp, by simp, by simp⟩
  by_cases hj : j = k
  · subst hj
    rwa [State.trigger, hoff, if_neg Bool.false_ne_true] at hraised
  · rwa [State.alarm_trigger_of_ne s hj] at hraised

theorem SettingsStand.count (a : Aggregate) : SettingsStand s (s.count a) := ⟨.of_alarms rfl rfl, rfl, rfl, rfl, rfl⟩

theorem SettingsStand.setFlow (i : Nat) (e : FlowEntry) : SettingsStand s (s.setFlow i e) :=
  ⟨.of_alarms rfl rfl, rfl, rfl, rfl, rfl⟩

theorem SettingsStand.leaveDue (i : Nat) : SettingsStand s (s.leaveDue i) := ⟨.of_alarms rfl rfl, rfl, rfl, rfl, rfl⟩

theorem SettingsStand.setDue (i : Nat) (d : Time) : SettingsStand s (s.setDue i d) :=
  ⟨.of_alarms rfl rfl, rfl, rfl, rfl, rfl⟩

theorem SettingsStand.setSlot (r i : Nat) (x : Slot) : SettingsStand s (s.setSlot r i x) :=
  ⟨.of_alarms rfl rfl, rfl, rfl, rfl, rfl⟩

theorem SettingsStand.of_rw {s u : State} (h : u = { s with rw := u.rw }) : SettingsStand s u := by
  rw [h]
  exact ⟨.of_alarms rfl rfl, rfl, rfl, rfl, rfl⟩

theorem SettingsStand.noteClamp (o f w h : Nat) : SettingsStand s (s.noteClamp o f w h) := by
  unfold State.noteClamp
  split
  · exact .refl s
  · exact ⟨.of_alarms rfl rfl, rfl, rfl, rfl, rfl⟩

theorem SettingsStand.triggerDrain : SettingsStand s s.triggerDrain := by
  rw [State.triggerDrain_eq]
  exact .of_rw rfl

theorem SettingsStand.entryFault (i : Nat) : SettingsStand s (s.entryFault i) :=
  (((SettingsStand.leaveDue s i).trans (.setFlow _ _ _)).trans (.count _ _)).trans (.trigger _ _ _)

theorem SettingsStand.checked (i : Nat) : SettingsStand s (s.checked i) := by
  rcases s.checked_cases i with ⟨_, heq⟩ | ⟨_, heq⟩
  · rw [heq]; exact .refl s
  · rw [heq]; exact .entryFault s i

variable {s} in
theorem SettingsStand.overFlows {f : State → Nat → State} (hf : ∀ t i, SettingsStand t (f t i)) (l : List Nat) :
    SettingsStand s (s.overFlows f l) := by
  induction l generalizing s with
  | nil => exact .refl s
  | cons i rest ih =>
    unfold State.overFlows
    dsimp only
    split
    · exact ((SettingsStand.checked s i).trans (hf _ _)).trans ih
    · exact (SettingsStand.checked s i).trans ih

theorem SettingsStand.profileChange (p : Nat) (old new : Profile) : SettingsStand s (s.profileChange p old new) := by
  refine .overFlows (fun t i => ?_) _
  split
  · exact .setFlow t _ _
  · exact .refl t

theorem SettingsStand.periodChange (p : Nat) (old new : Profile) : SettingsStand s (s.periodChange p old new) := by
  refine .overFlows (fun t i => ?_) _
  unfold State.periodChangeEntry
  split_ifs
  · exact (SettingsStand.leaveDue t i).trans (.setFlow _ _ _)
  · exact .setDue t _ _
  all_goals exact .refl t

theorem SettingsStand.credit (r : Nat) (f : FlowRef) (v : Verdict) : SettingsStand s (s.credit r f v) := by
  cases f with
  | unlisted p =>
    cases v with
    | overrun | discarded | late => exact .count s _
    | onTime | unjudged | unresolved => exact .refl s
  | listed i g =>
    refine (SettingsStand.checked s i).trans ?_
    unfold State.credit State.creditFlow
    dsimp only
    split
    · split
      · exact (SettingsStand.setFlow _ _ _).trans (.trigger _ _ _)
      · exact .setFlow _ _ _
    · exact .count _ _

/-! ## Settings other than the globals -/

theorem SettingsStand.applyConsume (bytes : List (Nat × Byte)) : SettingsStand s (s.applyConsume bytes) := by
  unfold State.applyConsume
  dsimp only
  split_ifs
  · exact .refl s
  · rw [State.consumeEffect_frame]
    exact ⟨.of_alarms rfl rfl, rfl, rfl, rfl, rfl⟩
  · exact .noteClamp s _ _ _ _
  · exact .refl s

theorem SettingsStand.resolveSlots (r : Nat) (l : List Nat) : SettingsStand s (s.resolveSlots r l) := by
  induction l generalizing s with
  | nil => exact .refl s
  | cons i rest ih =>
    refine SettingsStand.trans ?_ (ih _)
    unfold State.resolveSlot
    split
    · exact .refl s
    · exact (SettingsStand.credit s _ _ _).trans (.setSlot _ _ _ _)
    · exact (SettingsStand.credit s _ _ _).trans (.setSlot _ _ _ _)

theorem SettingsStand.changeRings (r : Nat) (gs : List RingGeometry) : SettingsStand s (s.changeRings r gs) := by
  induction gs generalizing s r with
  | nil => exact .refl s
  | cons g rest ih =>
    refine SettingsStand.trans ?_ (ih _ _)
    by_cases heq : s.ring r = g
    · rw [State.changeRing_of_eq s heq]; exact .refl s
    · rw [State.changeRing_of_ne s heq, State.vacateRing]
      split
      · exact (SettingsStand.resolveSlots s _ _).trans ⟨.of_alarms rfl rfl, rfl, rfl, rfl, rfl⟩
      · exact ⟨.of_alarms rfl rfl, rfl, rfl, rfl, rfl⟩

theorem SettingsStand.noteRings (b : State) (l : List (Nat × Byte)) (r : Nat) (gs : List RingGeometry) :
    SettingsStand s (s.noteRings b l r gs) := by
  induction gs generalizing s r with
  | nil => exact .refl s
  | cons g rest ih =>
    refine SettingsStand.trans ?_ (ih _ _)
    have hnote (t : State) (c : Bool) (o f w h : Nat) : SettingsStand t (t.noteValue c o f w h) := by
      unfold State.noteValue
      split
      · exact .noteClamp t _ _ _ _
      · exact .refl t
    rw [State.noteRing_eq]
    exact ((hnote s _ _ _ _ _).trans (hnote _ _ _ _ _ _)).trans (hnote _ _ _ _ _ _)

theorem SettingsStand.applyRings (l : List (Nat × Byte)) (m : Store Byte) : SettingsStand s (s.applyRings l m) := by
  unfold State.applyRings
  dsimp only
  split
  · exact (SettingsStand.noteRings s _ _ _ _).trans (.changeRings _ _ _)
  · exact .refl s

theorem SettingsStand.noteProfile (l : List (Nat × Byte)) (p : Nat) (g : Profile) :
    SettingsStand s (s.noteProfile l p g) := by
  have hnote (t : State) (c : Bool) (o f n h : Nat) : SettingsStand t (t.noteField c o f n h) := by
    unfold State.noteField
    split
    · exact .noteClamp t _ _ _ _
    · exact .refl t
  rw [State.noteProfile_eq]
  exact (((((hnote s _ _ _ _ _).trans (hnote _ _ _ _ _ _)).trans (hnote _ _ _ _ _ _)).trans
    (hnote _ _ _ _ _ _)).trans (hnote _ _ _ _ _ _)).trans (hnote _ _ _ _ _ _)

theorem SettingsStand.profileEvents (p : Nat) (old new : Profile) : SettingsStand s (s.profileEvents p old new) := by
  unfold State.profileEvents
  dsimp only
  have hmoved : SettingsStand s (if old.Moves new then s.profileChange p old new else s) := by
    split
    · exact .profileChange s _ _ _
    · exact .refl s
  split
  · exact hmoved.trans (.periodChange _ _ _ _)
  · exact hmoved

theorem SettingsStand.applyProfiles (l : List (Nat × Byte)) (ps : List Nat) :
    SettingsStand s (s.applyProfiles l ps) := by
  induction ps generalizing s with
  | nil => exact .refl s
  | cons p rest ih =>
    rw [State.applyProfiles_cons]
    refine SettingsStand.trans ?_ (ih _)
    unfold State.applyNamedProfile
    split
    · have hheld (t : State) (g : Profile) : SettingsStand t (t.holdProfile p g) :=
        ⟨.of_alarms rfl rfl, rfl, rfl, rfl, rfl⟩
      rw [State.applyProfile_eq]
      exact ((SettingsStand.noteProfile s _ _ _).trans (hheld _ _)).trans (.profileEvents _ _ _ _)
    · exact .refl s

theorem SettingsStand.applyClassifier (l : List (Nat × Byte)) (ns : List Nat) :
    SettingsStand s (s.applyClassifier l ns) := by
  induction ns generalizing s with
  | nil => exact .refl s
  | cons n rest ih =>
    refine SettingsStand.trans ?_ (ih _)
    split
    · exact ⟨.of_alarms rfl rfl, rfl, rfl, rfl, rfl⟩
    · exact .refl s

theorem SettingsStand.testThreshold (b : State) : SettingsStand s (s.testThreshold b) := by
  rcases s.testThreshold_cases b with ⟨_, _, heq⟩ | ⟨_, heq⟩
  · rw [heq]; exact .triggerDrain s
  · rw [heq]; exact .refl s

/-- What an application does behind the globals leaves them, OQ, the times and the load, and raises no kind that is
off. -/
theorem SettingsStand.applySettings (bytes : List (Nat × Byte)) :
    SettingsStand (s.beforeConsume bytes) (s.applySettings bytes) :=
  ((((SettingsStand.applyConsume (s.beforeConsume bytes) bytes).trans (.applyRings _ _ _)).trans
    (.applyProfiles _ _ _)).trans (.applyClassifier _ _ _)).trans (.testThreshold _ _)

/-! ## The command -/

/-- What a mask of alarm kinds leaves in each row (R140 to R142). -/
theorem State.alarm_onMasked (m : BitVec 8) (f : AlarmRow → AlarmRow) {l : List AlarmKind} (hl : l.Nodup)
    (k : AlarmKind) :
    (s.onMasked m f l).alarm k = if k ∈ l ∧ k.inMask m = true then f (s.alarm k) else s.alarm k := by
  induction l generalizing s with
  | nil => simp [State.onMasked]
  | cons j rest ih =>
    obtain ⟨hj, hrest⟩ := List.nodup_cons.1 hl
    have hstep : (if j.inMask m then s.setAlarm j (f (s.alarm j)) else s).alarm k =
        if k = j ∧ k.inMask m = true then f (s.alarm k) else s.alarm k := by
      by_cases hk : k = j
      · subst hk
        cases k.inMask m <;> simp
      · cases j.inMask m <;> simp [hk]
    rw [State.onMasked, ih _ hrest, hstep]
    by_cases hk : k = j
    · subst hk
      simp [hj]
    · simp [hk]

theorem AlarmKind.nodup_all : AlarmKind.all.Nodup := by decide

/-- What a mask of alarm kinds leaves in each row, over all kinds. -/
theorem State.alarm_onMasked_all (m : BitVec 8) (f : AlarmRow → AlarmRow) (k : AlarmKind) :
    (s.onMasked m f AlarmKind.all).alarm k = if k.inMask m then f (s.alarm k) else s.alarm k := by
  rw [State.alarm_onMasked s m f AlarmKind.nodup_all]
  exact if_congr (and_iff_right k.mem_all) rfl rfl

theorem GlobalsStand.onMasked (m : BitVec 8) (f : AlarmRow → AlarmRow)
    (hf : ∀ row, (f row).raised = true → row.raised = true) : GlobalsStand s (s.onMasked m f AlarmKind.all) := by
  refine ⟨by simp, fun k _ hraised => ?_⟩
  rw [State.alarm_onMasked_all] at hraised
  split at hraised
  · exact hf _ hraised
  · exact hraised

theorem GlobalsStand.result (tag : BitVec 8) (c : ResultCode) : GlobalsStand s (s.result tag c) := .of_alarms rfl rfl

theorem GlobalsStand.clearFlow (a : Nat) : GlobalsStand s (s.clearFlow a).1 := by
  unfold State.clearFlow
  dsimp only
  split_ifs
  · exact ((SettingsStand.checked s a).trans (.setFlow _ _ _)).toGlobalsStand
  · exact (SettingsStand.checked s a).toGlobalsStand
  · exact .refl s

theorem GlobalsStand.evictFlow (a : Nat) : GlobalsStand s (s.evictFlow a).1 := by
  have hevict (t : State) : GlobalsStand t (t.evict a) := .of_alarms rfl rfl
  have hretire (t : State) : GlobalsStand t (t.retireEntry a .commanded t.now) := .of_alarms rfl rfl
  have hchecked := (SettingsStand.checked s a).toGlobalsStand
  unfold State.evictFlow
  dsimp only
  split_ifs
  · exact hchecked
  · exact hchecked.trans (hevict _)
  · exact hchecked.trans ((hretire _).trans (hevict _))
  · exact hchecked
  · exact .refl s

theorem GlobalsStand.act (tag : BitVec 8) (a : Nat) (k : MailboxCommand) : GlobalsStand s (s.act tag a k) := by
  cases k with
  | ping | clearAll | unknown => exact .of_alarms rfl rfl
  | restart =>
    refine ⟨rfl, fun k _ hraised => ?_⟩
    have hreset : ((s.restart tag).alarm k).raised = false := rfl
    exact absurd hraised (by simp [State.act, hreset])
  | clearFlow => exact (GlobalsStand.clearFlow s a).trans (.result _ _ _)
  | evictFlow => exact (GlobalsStand.evictFlow s a).trans (.result _ _ _)
  | alarmAck =>
    have hmasked : GlobalsStand s (s.acknowledge (kindMask a)) := .onMasked s _ _ fun _ h => absurd h Bool.false_ne_true
    exact hmasked.trans (.result _ _ _)
  | alarmHold =>
    have hmasked : GlobalsStand s (s.hold (kindMask a)) := .onMasked s _ _ fun _ h => h
    exact hmasked.trans (.result _ _ _)
  | alarmRelease =>
    have hmasked : GlobalsStand s (s.release (kindMask a)) := .onMasked s _ _ fun _ h => h
    exact hmasked.trans (.result _ _ _)
  | reloadConfig =>
    change GlobalsStand s (s.startReload tag)
    unfold State.startReload State.requestReload
    split <;> exact .of_alarms rfl rfl
  | interrogate =>
    change GlobalsStand s (s.startInterrogate tag a)
    unfold State.startInterrogate
    split
    · exact (SettingsStand.checked s a).toGlobalsStand.trans (.of_alarms rfl rfl)
    · exact .result s _ _
  | snapshot =>
    have hpass : SettingsStand s (s.overFlows (fun t i => t.setFlow i (t.flow i).mark) s.flowIndexes) :=
      .overFlows (fun t i => .setFlow t _ _) _
    exact (hpass.trans (.triggerDrain _)).toGlobalsStand.trans (.result _ _ _)

theorem GlobalsStand.considerCommand (l : List (Nat × Byte)) : GlobalsStand s (s.considerCommand l) := by
  have htag : GlobalsStand s (s.takeTag s.commandTag) := .of_alarms rfl rfl
  unfold State.considerCommand State.mailbox
  dsimp only
  split_ifs
  · exact .refl s
  · exact htag.trans (.act _ _ _ _)
  · exact htag.trans (.result _ _ _)
  · exact .refl s

end

end Sys2Proof.Machine
end

