-- ==== Sys2Proof/Proofs/ControlWrites.lean ====
section
/-! PROOFS. A control write: the image that its lanes make, what its settings leave of the queue and the mailbox, and the
command word that is not taken. -/

namespace Sys2Proof.Machine

/-! ## The merged image (R163) -/

/-- What the named lanes of words that follow one another put at an address: the lane of the word that the address lies
in, if its mask names it (R16). -/
theorem lastByte_maskedBytes (a b : Nat) (data : List Word) (lanes : List (BitVec 8)) :
    lastByte b (maskedBytes a data lanes) =
      if a ≤ b then (data.zip lanes)[(b - a) / 8]?.bind fun c =>
        if c.2.getLsbD ((b - a) % 8) then some (lane c.1 ((b - a) % 8)) else none
      else none := by
  induction data generalizing a lanes with
  | nil => simp [maskedBytes, lastByte]
  | cons w ws ih =>
    cases lanes with
    | nil => simp [maskedBytes, lastByte]
    | cons m ms =>
      rw [maskedBytes, lastByte_append, ih, lastByte_laneBytes]
      by_cases hbelow : b < a
      · rw [if_neg (by omega), if_neg (by omega), if_neg (by omega)]; rfl
      by_cases hfirst : b < a + 8
      · have hindex : (b - a) / 8 = 0 := by omega
        have hlane : (b - a) % 8 = b - a := by omega
        have hin : a ≤ b := by omega
        rw [if_neg (by omega), if_pos hin, hindex, hlane, Option.none_or]
        simp [hin, hfirst]
      · have hindex : (b - a) / 8 = (b - (a + 8)) / 8 + 1 := by omega
        have hlane : (b - a) % 8 = (b - (a + 8)) % 8 := by omega
        rw [if_pos (by omega), if_neg (by omega), if_pos (by omega), hindex, hlane, Option.or_none]; rfl

section
variable (s : State)

theorem State.imageByte_merge (bytes : List (Nat × Byte)) (b : Nat) :
    (s.merge bytes).imageByte b = (lastByte b bytes).getD (s.imageByte b) := get_mergeBytes s.ci.image bytes b

theorem State.imageByte_applySettings (bytes : List (Nat × Byte)) (b : Nat) :
    (s.applySettings bytes).imageByte b = (lastByte b bytes).getD (s.imageByte b) := by
  rw [← State.imageByte_merge]
  exact State.imageByte_congr (congrArg MailboxView.image (s.mailboxView_applySettings bytes)) b

theorem State.imageByte_considerCommand (bytes : List (Nat × Byte)) (b : Nat) :
    (s.considerCommand bytes).imageByte b = s.imageByte b :=
  State.imageByte_congr (State.image_of_tables (s.tables_considerCommand bytes)) b

/-! ## What the settings leave of OQ and CI -/

theorem State.oq_applyOtherGlobals (l : List (Nat × Byte)) : (s.applyOtherGlobals l).oq = s.oq := by
  have hpin (t : State) : t.applyPinCount.oq = t.oq := by simp [State.applyPinCount]
  have halarm (t : State) : t.applyAlarmOn.oq = t.oq := by simp [State.applyAlarmOn]
  have hinterval (t : State) : t.applyInterval.oq = t.oq := by
    unfold State.applyInterval
    dsimp only
    split_ifs <;> simp
  have hthreshold (t : State) : t.applyThreshold.oq = t.oq := by
    unfold State.applyThreshold
    dsimp only
    split <;> simp
  unfold State.applyOtherGlobals
  dsimp only
  split_ifs <;> simp [hpin, halarm, hinterval, hthreshold]

/-- OQ after the settings is as a change of monitoring leaves it (R23). -/
theorem State.oq_applySettings (bytes : List (Nat × Byte)) :
    (s.applySettings bytes).oq = if names bytes 8 1 then (s.merge bytes).applyMonitoring.oq else s.oq := by
  rw [(SettingsStand.applySettings s bytes).oq, State.beforeConsume, State.applyGlobals_eq, State.oq_applyOtherGlobals]
  split <;> rfl

theorem State.queue_applyMonitoring : s.applyMonitoring.oq.queue = s.oq.queue := by
  have hcoverage (t : State) (c : Coverage) : (t.setCoverage c).oq.queue = t.oq.queue := by cases c <;> rfl
  unfold State.applyMonitoring State.monitoringEffect
  dsimp only
  split_ifs <;> simp [hcoverage]

/-- The settings leave the records in the queue. -/
theorem State.queue_applySettings (bytes : List (Nat × Byte)) : (s.applySettings bytes).oq.queue = s.oq.queue := by
  rw [State.oq_applySettings]
  split
  · exact State.queue_applyMonitoring _
  · rfl

/-! ## The command word (R167) -/

theorem State.considerCommand_of_known {bytes : List (Nat × Byte)}
    (h : names bytes 0 8 = false ∨ s.commandTag = s.ci.lastTag) : s.considerCommand bytes = s := by
  unfold State.considerCommand State.mailbox
  dsimp only
  split_ifs with hnamed hknown
  · rfl
  · exact absurd h (by simp [hnamed, hknown])
  · exact absurd h (by simp [hnamed, hknown])
  · rfl

theorem State.considerCommand_of_busy {bytes : List (Nat × Byte)} (hnamed : names bytes 0 8 = true)
    (hnew : s.commandTag ≠ s.ci.lastTag) (hbusy : s.takesCommands = false) :
    s.considerCommand bytes = (s.takeTag s.commandTag).result s.commandTag .busy := by
  simp [State.considerCommand, State.mailbox, hnamed, hnew, hbusy]

theorem State.takesCommands_eq_false_iff :
    s.takesCommands = false ↔ s.ci.part ≠ .running ∨ s.ci.inFlight ≠ none := by
  unfold State.takesCommands
  cases s.ci.inFlight <;> simp

/-- No command touches the last-taken tag. -/
theorem State.lastTag_act (tag : BitVec 8) (a : Nat) (k : MailboxCommand) :
    (s.act tag a k).ci.lastTag = s.ci.lastTag := by
  cases k with
  | ping | clearAll | restart | unknown => rfl
  | clearFlow => exact (congrArg ControlInterface.lastTag (s.clearFlow_ci a) :)
  | evictFlow => exact (congrArg ControlInterface.lastTag (s.evictFlow_ci a) :)
  | alarmAck | alarmHold | alarmRelease => exact (congrArg ControlInterface.lastTag (State.onMasked_ci _ _ _ _) :)
  | reloadConfig => exact (congrArg MailboxView.lastTag (State.mailboxView_requestReload _ .command) :)
  | interrogate =>
    change (s.startInterrogate tag a).ci.lastTag = _
    unfold State.startInterrogate
    split
    · exact (congrArg ControlInterface.lastTag (s.checked_ci a) :)
    · rfl
  | snapshot =>
    have hpass : (s.overFlows (fun t i => t.setFlow i (t.flow i).mark) s.flowIndexes).ci = s.ci :=
      s.overFlows_keep State.ci _ _ (fun t i => by simp) fun t i => rfl
    exact (congrArg ControlInterface.lastTag ((State.triggerDrain_ci _).trans hpass) :)

/-- A command word with a new tag sets the last-taken tag, taken or not. -/
theorem State.lastTag_considerCommand {bytes : List (Nat × Byte)} (hnamed : names bytes 0 8 = true)
    (hnew : s.commandTag ≠ s.ci.lastTag) : (s.considerCommand bytes).ci.lastTag = s.commandTag := by
  rw [State.considerCommand, if_pos hnamed, State.mailbox, if_neg hnew]
  split
  · exact State.lastTag_act (s.takeTag s.commandTag) _ _ _
  · rfl

end

/-! ## The statement settled -/

theorem State.controlReady_of_control {s : State} {o : Observation} {offset : Nat} {data : List Word}
    {lanes : List (BitVec 8)} (hhead : s.headReady = some o) (hbody : o.body = .controlWrite offset data lanes) :
    s.controlReady = some o := by
  rw [State.controlReady, hhead]
  exact if_pos (by rw [hbody]; rfl)

/-- A control write taken apart: what its settings leave of the mailbox, the queue and the time base. -/
structure State.SettingsTaken (s v : State) (o : Observation) : Prop where
  image : ∀ b, v.imageByte b = (lastByte b o.body.named).getD (s.imageByte b)
  part : v.ci.part = s.ci.part
  lastTag : v.ci.lastTag = s.ci.lastTag
  inFlight : v.ci.inFlight = s.ci.inFlight
  lastResult : v.ci.lastResult = s.ci.lastResult
  queue : v.oq.queue = s.oq.queue.tail
  timeBase : v.cm.timeBase = s.cm.timeBase

theorem State.settingsTaken (s : State) (o : Observation) : s.SettingsTaken (s.afterSettings o) o := by
  have hview := s.popHead.mailboxView_applySettings o.body.named
  simp only [ControlInterface.mailboxView, MailboxView.mk.injEq] at hview
  obtain ⟨_, hpart, htag, hflight, hresult⟩ := hview
  exact ⟨s.popHead.imageByte_applySettings o.body.named, hpart, htag, hflight, hresult,
    s.popHead.queue_applySettings o.body.named, (CadenceKept.applySettings s.popHead o.body.named).timeBase⟩

/-- Settles O37: the image after the event is the merge, which the settings and the command leave; a command word that
is known is not considered, and one that meets a busy mailbox has its tag and its result alone recorded. -/
theorem controlWriteMergesItsLanes : Obligations.ControlWriteMergesItsLanes := by
  intro s o offset data lanes hhead hbody
  have hready := State.controlReady_of_control hhead hbody
  have htaken := s.settingsTaken o
  generalize hv : s.afterSettings o = v at htaken
  have himage (b : Nat) : (v.considerCommand o.body.named).imageByte b =
      (lastByte b (maskedBytes offset data lanes)).getD (s.imageByte b) := by
    rw [State.imageByte_considerCommand, htaken.image, hbody]
    rfl
  have htag : (v.considerCommand o.body.named).imageByte 0 = v.commandTag := State.imageByte_considerCommand _ _ _
  refine ⟨v.considerCommand o.body.named, ?_, ?_, ?_, fun k w m hw hm i hi => ?_, fun b hb => ?_, fun hknown => ?_,
    fun hnamed hnew => ?_, fun hnamed hnew hbusy => ?_⟩
  · rw [exec_controlWrite hready, hv]
  · rw [State.considerCommand_mem, ← hv]
    exact State.applySettings_mem _ _
  · rw [State.pending_of_tables (State.tables_considerCommand _ _), ← hv]
    exact State.applySettings_pending _ _
  · have hword : (data.zip lanes)[k]? = some (w, m) := List.getElem?_zip_eq_some.2 ⟨hw, hm⟩
    have hindex : (offset + 8 * k + i - offset) / 8 = k := by omega
    have hlane : (offset + 8 * k + i - offset) % 8 = i := by omega
    rw [himage, lastByte_maskedBytes, if_pos (by omega), hindex, hlane, hword, Option.bind_some]
    cases m.getLsbD i <;> rfl
  · have hnone : lastByte b (maskedBytes offset data lanes) = none := by
      rw [lastByte_maskedBytes]
      split
      · rw [List.getElem?_eq_none (by rw [List.length_zip]; omega)]
        rfl
      · rfl
    rw [himage, hnone]
    rfl
  · rw [htag, ← htaken.lastTag] at hknown
    rw [State.considerCommand_of_known v hknown]
    exact ⟨htaken.lastTag, htaken.lastResult, htaken.inFlight, htaken.part, htaken.queue, rfl⟩
  · rw [htag, ← htaken.lastTag] at hnew
    rw [htag, State.lastTag_considerCommand v hnamed hnew]
  · rw [htag, ← htaken.lastTag] at hnew
    rw [← htaken.part, ← htaken.inFlight] at hbusy
    rw [htag, State.considerCommand_of_busy v hnamed hnew (v.takesCommands_eq_false_iff.2 hbusy)]
    refine ⟨?_, htaken.inFlight, htaken.part, rfl, answersAtTake_result (.refl _) rfl .busy⟩
    rw [← htaken.timeBase]
    rfl

end Sys2Proof.Machine
end

