-- ==== Sys2Proof/Proofs/CommandsAtTake.lean ====
section
/-! PROOFS. The commands answered at take: the command codes, the alarm commands and SNAPSHOT. -/

namespace Sys2Proof.Machine

/-! ## The command codes and when a command is taken (R167, section 10.2) -/

theorem MailboxCommand.ofCode_unassigned {code : Byte} (h : code = 0#8 ∨ 12 ≤ code.toNat) :
    MailboxCommand.ofCode code = .unknown := by
  rcases h with rfl | h
  · rfl
  · unfold MailboxCommand.ofCode
    split
    case h_12 => rfl
    all_goals omega

theorem State.imageByte_mergedWith (s : State) (o : Observation) (b : Nat) :
    (s.mergedWith o).imageByte b = (s.afterSettings o).imageByte b := by
  rw [State.mergedWith, State.imageByte_merge, (s.settingsTaken o).image]

theorem State.takesAs_iff (s : State) (k : MailboxCommand) (o : Observation) :
    s.takesAs k o = true ↔ names o.body.named 0 8 = true ∧ s.ci.part = .running ∧ s.ci.inFlight = none ∧
      (s.afterSettings o).imageByte 0 ≠ s.ci.lastTag ∧
      MailboxCommand.ofCode ((s.afterSettings o).imageByte 1) = k := by
  simp only [State.takesAs, State.takesCommands, State.commandTag, State.commandCode, State.imageByte_mergedWith,
    Bool.and_eq_true, decide_eq_true_eq, Option.isNone_iff_eq_none, and_assoc]

/-! ## The alarm commands (R140, R141) -/

theorem kindMask_commandArgument (v : State) : kindMask v.commandArgument = v.imageByte 2 := by
  rw [State.commandArgument_eq, kindMask]
  refine BitVec.eq_of_toNat_eq ?_
  have hlow := (v.imageByte 2).isLt
  rw [BitVec.toNat_ofNat]
  omega

/-- A mask of alarm kinds reaches the alarm rows alone. -/
theorem State.onMasked_eq (s : State) (m : BitVec 8) (f : AlarmRow → AlarmRow) (l : List AlarmKind) :
    s.onMasked m f l = { s with tau := { s.tau with alarms := (s.onMasked m f l).tau.alarms } } := by
  induction l generalizing s with
  | nil => rfl
  | cons k rest ih =>
    unfold State.onMasked
    refine (ih _).trans ?_
    split <;> rfl

/-- An alarm command changes the rows of the kinds its argument names, and is answered DONE at take (R140, R141). -/
theorem State.alarms_at_take (v : State) (f : AlarmRow → AlarmRow) {u : State}
    (hu : u =
      ((v.takeTag v.commandTag).onMasked (kindMask v.commandArgument) f AlarmKind.all).result v.commandTag .done) :
    AnswersAtTake v u .done ∧ u.ft = v.ft ∧ u.cm = v.cm ∧ u.rw = { v.rw with statusPending := true } ∧
    (∀ a, u.agg a = v.agg a) ∧
    ∀ k, u.alarm k = if (v.imageByte 2).getLsbD (k.priority - 1) then f (v.alarm k) else v.alarm k := by
  have hframe := State.onMasked_eq (v.takeTag v.commandTag) (kindMask v.commandArgument) f AlarmKind.all
  refine ⟨?_, ?_, ?_, ?_, fun a => ?_, fun k => ?_⟩
  · rw [hu]
    exact answersAtTake_result (.of_tau (by rw [hframe])) (by rw [hframe]; rfl) .done
  · rw [hu, hframe]; rfl
  · rw [hu, hframe]; rfl
  · rw [hu, hframe]; rfl
  · rw [hu, hframe]; rfl
  · rw [hu, ← kindMask_commandArgument]
    exact State.alarm_onMasked_all (v.takeTag v.commandTag) (kindMask v.commandArgument) f k

/-! ## SNAPSHOT (R157) -/

/-- What SNAPSHOT makes of a sound valid entry: dirty, with the due time it has. -/
def markCell (x : EntryCell) : EntryCell := ({ x.1.mark with checkOk := true }, x.2)

theorem changesCells_mark (T : Time) : ChangesCells T (fun t i => t.setFlow i (t.flow i).mark) markCell where
  cell t i j _ _ := by
    simp only [State.cellAt, State.flow_setFlow, State.dueOf_setFlow, markCell]
    by_cases hj : j = i
    · subst hj; simp
    · simp [hj]
  timeBase _ _ := rfl
  sound _ _ := rfl
  state _ := rfl
  again _ := rfl

/-- The entries as SNAPSHOT marks them, before it triggers a drain. -/
def State.marked (s : State) : State := s.overFlows (fun t i => t.setFlow i (t.flow i).mark) s.flowIndexes

theorem FlowSide.overFlows {s : State} {f : State → Nat → State} (hf : ∀ t i, FlowSide t (f t i)) (l : List Nat) :
    FlowSide s (s.overFlows f l) := by
  induction l generalizing s with
  | nil => exact .refl s
  | cons i rest ih =>
    unfold State.overFlows
    dsimp only
    split
    · exact ((FlowSide.checked s i).trans (hf _ _)).trans ih
    · exact (FlowSide.checked s i).trans ih

theorem FlowSide.marked (s : State) : FlowSide s s.marked := .overFlows (fun t _ => .setFlow t _ _) _

theorem State.timeBase_marked (s : State) : s.marked.cm.timeBase = s.cm.timeBase :=
  (changesCells_mark s.now).timeBase_overFlows s _

theorem State.cellAt_marked (s : State) {j : Nat} (hj : j < 1024) :
    s.marked.cellAt j = visitCell markCell (s.cellAt j) := (changesCells_mark s.now).cellAt_pass rfl hj

theorem State.flow_marked {s : State} {i : Nat} (hi : i < 1024) (hok : (s.flow i).checkOk = true) :
    s.marked.flow i = if (s.flow i).valid then { s.flow i with dirty := true } else s.flow i := by
  have hcell := congrArg Prod.fst (s.cellAt_marked hi)
  cases hvalid : (s.flow i).valid
  · rwa [visitCell_of_vacant hok hvalid] at hcell
  · rw [visitCell_of_valid hok hvalid] at hcell
    refine hcell.trans ?_
    rw [if_pos rfl]
    exact congrArg (fun b => { s.flow i with dirty := true, checkOk := b }) hok.symm

theorem State.fault_marked {s : State} {i : Nat} (hi : i < 1024) (hfail : (s.flow i).checkOk = false) :
    s.marked.flow i = vacantEntry ((s.flow i).generation + 1) ∧ s.marked.cm.due.find? i = none := by
  refine State.flow_eq_of_cell (x := (vacantEntry ((s.flow i).generation + 1), none)) ?_
  rw [s.cellAt_marked hi, visitCell_of_fail hfail]
  rfl

theorem State.commandDone_snapshot (v : State) :
    v.commandDone .snapshot = ({ (v.takeTag v.commandTag).marked with
      rw := (v.rw.triggered (v.takeTag v.commandTag).marked.dirtyCount v.cm.timeBase) } :
        State).result v.commandTag .done := by
  have hside := FlowSide.marked (v.takeTag v.commandTag)
  have htime : (v.takeTag v.commandTag).marked.cm.timeBase = v.cm.timeBase := State.timeBase_marked _
  change (v.takeTag v.commandTag).marked.triggerDrain.result v.commandTag .done = _
  rw [State.triggerDrain_eq, hside.rw, htime]
  rfl

theorem ReportWriter.job_triggered (w : ReportWriter) (n : Nat) (t : Time) :
    (w.triggered n t).job = w.job ∧ (w.triggered n t).produce = w.produce := by
  unfold ReportWriter.triggered
  split <;> exact ⟨rfl, rfl⟩

theorem State.snapshot_at_take (v : State) : AnswersAtTake v (v.commandDone .snapshot) .done := by
  have hside := FlowSide.marked (v.takeTag v.commandTag)
  obtain ⟨hlink, hoq, htt, _, _, _, hci⟩ :=
    answersAtTake_result hside (State.timeBase_marked (v.takeTag v.commandTag)) .done
  obtain ⟨hjob, hproduce⟩ := v.rw.job_triggered (v.takeTag v.commandTag).marked.dirtyCount v.cm.timeBase
  rw [State.commandDone_snapshot]
  exact ⟨hlink, hoq, htt, rfl, hjob, hproduce, hci⟩

/-! ## The statement settled -/

/-- Settles O42: a command that is taken acts at once on the alarms or the flow side at most, and its result is
recorded. -/
theorem commandsAtTakeAnswerAtOnce : Obligations.CommandsAtTakeAnswerAtOnce := by
  refine ⟨⟨rfl, rfl, rfl, rfl, rfl, rfl, rfl, rfl, rfl, rfl, rfl, fun _ => MailboxCommand.ofCode_unassigned⟩,
    fun s v o k hv => ?_, fun s v o named hnamed => ?_⟩
  · rw [hv]
    exact s.takesAs_iff k o
  · subst hnamed
    refine ⟨fun h => ?_, fun h => ?_, fun h => ?_, fun h => ?_, fun h => ?_, fun h => ?_⟩
    · exact ⟨_, h.controlCase, answersAtTake_result (.refl _) rfl _, rfl, rfl, rfl, rfl⟩
    · exact ⟨_, h.controlCase, answersAtTake_result (.refl _) rfl _, rfl, rfl, rfl, rfl⟩
    · exact ⟨_, h.controlCase, v.alarms_at_take _ rfl⟩
    · exact ⟨_, h.controlCase, v.alarms_at_take _ rfl⟩
    · exact ⟨_, h.controlCase, v.alarms_at_take _ rfl⟩
    · refine ⟨_, h.controlCase, v.snapshot_at_take, fun i hi hok => ?_, fun i hi hfail => ?_, fun hidle => ?_,
        fun hbusy => ?_⟩
      · rw [State.commandDone_snapshot]
        exact State.flow_marked (s := v.takeTag v.commandTag) hi hok
      · rw [State.commandDone_snapshot]
        exact State.fault_marked (s := v.takeTag v.commandTag) hi hfail
      · rw [State.commandDone_snapshot, ReportWriter.triggered, if_pos hidle]
        exact ⟨rfl, rfl, rfl, rfl, rfl, rfl, rfl, rfl⟩
      · rw [State.commandDone_snapshot, ReportWriter.triggered, if_neg hbusy]
        rfl

end Sys2Proof.Machine
end

