-- ==== Sys2Proof/Proofs/GlobalSteps.lean ====
section
/-! PROOFS. The globals behind monitoring enable: what each of them moves. -/

namespace Sys2Proof.Machine

/-! ## A step of the globals behind monitoring enable -/

/-- The alert record and ALERT_N (R143). -/
def TallyUnit.alert (t : TallyUnit) : Option AlarmKind × BitVec 32 × Bool :=
  (t.alertKind, t.alertValue, t.alertAsserted)

/-- From `t` to `u` the kinds of `off` are no longer RAISED and the clamps of the list are noted; but for the held
settings and RW nothing else moves (R142, R164). -/
structure GlobalStep (t u : State) (off : AlarmKind → Bool) (clamps : List ClampRecord) : Prop where
  frame : u = { t with
    tau := u.tau, rw := u.rw, ci := { t.ci with held := u.ci.held, lastClamp := u.ci.lastClamp } }
  alarm : ∀ k, u.alarm k = if off k then { t.alarm k with raised := false } else t.alarm k
  agg : ∀ a, a ≠ .clampedFields → u.agg a = t.agg a
  alert : u.tau.alert = t.tau.alert
  clamps : ClampsNoted t u clamps

theorem GlobalStep.trans {s t u : State} {f g : AlarmKind → Bool} {l m : List ClampRecord} (h : GlobalStep s t f l)
    (h' : GlobalStep t u g m) : GlobalStep s u (fun k => f k || g k) (l ++ m) where
  frame := by rw [h'.frame, h.frame]
  alarm k := by
    rw [h'.alarm, h.alarm]
    cases f k <;> cases g k <;> rfl
  agg a ha := (h'.agg a ha).trans (h.agg a ha)
  alert := h'.alert.trans h.alert
  clamps := h.clamps.trans h'.clamps

theorem GlobalStep.of_tau {t u : State} (hframe : u = { t with
    rw := u.rw, ci := { t.ci with held := u.ci.held } }) : GlobalStep t u (fun _ => false) [] where
  frame := by rw [hframe]
  alarm k := by rw [hframe]; rfl
  agg a _ := by rw [hframe]; rfl
  alert := by rw [hframe]
  clamps := .of_eq (by rw [hframe]; rfl) (by rw [hframe])

theorem GlobalStep.refl (t : State) : GlobalStep t t (fun _ => false) [] := .of_tau rfl

theorem GlobalStep.noteValue (t : State) (considered : Bool) (o f written held : Nat) :
    GlobalStep t (t.noteValue considered o f written held) (fun _ => false)
      (clampOf considered o f written held t.cm.timeBase) where
  frame := by
    unfold State.noteValue State.noteClamp
    split_ifs <;> rfl
  alarm k := by
    rw [if_neg Bool.false_ne_true]
    unfold State.noteValue State.noteClamp
    split_ifs <;> rfl
  agg a ha := by
    unfold State.noteValue State.noteClamp
    split_ifs
    · rfl
    · exact (State.agg_count _ _ _).trans (if_neg ha)
    · rfl
  alert := by
    unfold State.noteValue State.noteClamp
    split_ifs <;> rfl
  clamps := ((ClampStep.refl t).noteValue considered o f written held).noted

section
variable (s : State) (bytes : List (Nat × Byte))

/-! ## Pin count (R45, R164) -/

/-- The globals' steps, each where the application names it. -/
def State.pinStep (s : State) (bytes : List (Nat × Byte)) : State := if names bytes 9 1 then s.applyPinCount else s
def State.alarmStep (s : State) (bytes : List (Nat × Byte)) : State := if names bytes 10 1 then s.applyAlarmOn else s
def State.intervalStep (s : State) (bytes : List (Nat × Byte)) : State :=
  if names bytes 12 2 then s.applyInterval else s
def State.thresholdStep (s : State) (bytes : List (Nat × Byte)) : State :=
  if names bytes 14 2 then s.applyThreshold else s

theorem State.applyOtherGlobals_eq :
    s.applyOtherGlobals bytes = (((s.pinStep bytes).alarmStep bytes).intervalStep bytes).thresholdStep bytes := rfl

theorem State.held_noteClamp (o f w h : Nat) : (s.noteClamp o f w h).ci.held = s.ci.held := by
  unfold State.noteClamp
  split <;> rfl

theorem State.held_pinStep : (s.pinStep bytes).ci.held = { s.ci.held with
    pinCount := if names bytes 9 1 then min (s.imageField 9 1) 3 else s.ci.held.pinCount } := by
  unfold State.pinStep
  split
  · exact State.held_noteClamp _ _ _ _ _
  · rfl

theorem State.rw_pinStep : (s.pinStep bytes).rw = s.rw := by
  unfold State.pinStep
  split
  · exact State.noteClamp_rw _ _ _ _ _
  · rfl

theorem GlobalStep.pinStep : GlobalStep s (s.pinStep bytes) (fun _ => false)
    (clampOf (names bytes 9 1) 9 1 (s.imageField 9 1) (s.pinStep bytes).ci.held.pinCount s.cm.timeBase) := by
  rw [State.held_pinStep]
  unfold State.pinStep
  cases names bytes 9 1 with
  | false => exact .refl s
  | true =>
    let t := s.onHeld fun h => { h with pinCount := min (s.imageField 9 1) 3 }
    have hheld : GlobalStep s t (fun _ => false) [] := .of_tau rfl
    exact hheld.trans (.noteValue t true 9 1 _ _)

/-! ## Alarm ON mask (R142) -/

theorem State.held_alarmStep : (s.alarmStep bytes).ci.held = { s.ci.held with
    alarmOn := if names bytes 10 1 then s.imageByte 10 else s.ci.held.alarmOn } := by
  unfold State.alarmStep
  split
  · simp [State.applyAlarmOn]
  · rfl

theorem State.rw_alarmStep : (s.alarmStep bytes).rw = s.rw := by
  unfold State.alarmStep
  split
  · simp [State.applyAlarmOn]
  · rfl

theorem GlobalStep.onMasked (m : BitVec 8) : GlobalStep s
    (s.onMasked m (fun row => { row with raised := false }) AlarmKind.all) (fun k => k.inMask m) [] := by
  have hframe := s.onMasked_eq m (fun row => { row with raised := false }) AlarmKind.all
  refine ⟨by rw [hframe], fun k => State.alarm_onMasked_all s m _ k, fun a _ => ?_, ?_, .of_eq ?_ ?_⟩
  · rw [hframe]; rfl
  · rw [hframe]; rfl
  · rw [hframe]; rfl
  · rw [hframe]

theorem AlarmKind.inMask_cleared (k : AlarmKind) (old new : BitVec 8) :
    k.inMask (old &&& ~~~new) = (k.inMask old && !k.inMask new) := by
  have hbit : k.priority - 1 < 8 := by cases k <;> decide
  simp [AlarmKind.inMask, hbit]

theorem GlobalStep.alarmStep : GlobalStep s (s.alarmStep bytes)
    (fun k => s.alarmOn k && !(s.alarmStep bytes).alarmOn k) [] := by
  have hheld := s.held_alarmStep bytes
  unfold State.alarmStep at hheld ⊢
  cases hnamed : names bytes 10 1 with
  | false => simpa using GlobalStep.refl s
  | true =>
    let t := s.onHeld fun h => { h with alarmOn := s.imageByte 10 }
    have hset : GlobalStep s t (fun _ => false) [] := .of_tau rfl
    have hcleared := hset.trans (.onMasked t (s.ci.held.alarmOn &&& ~~~s.imageByte 10))
    have hoff : (fun k : AlarmKind => false || k.inMask (s.ci.held.alarmOn &&& ~~~s.imageByte 10)) =
        fun k => s.alarmOn k && !s.applyAlarmOn.alarmOn k := by
      funext k
      rw [hnamed, if_pos rfl, if_pos rfl] at hheld
      rw [Bool.false_or, AlarmKind.inMask_cleared, State.alarmOn, State.alarmOn, hheld]
    rw [hoff] at hcleared
    exact hcleared

/-! ## Report interval (R152) -/

/-- RW after a report interval that changes: an interval whose time has passed expires (R152, log 23, log 25). -/
def State.writerAfterInterval (s : State) (v : Nat) : ReportWriter :=
  if v ≠ s.ci.held.interval ∧ v ≠ 0 ∧ s.ci.part = .running ∧ s.rw.intervalFired = false ∧
      atOrAfter s.cm.timeBase (s.rw.intervalBase + BitVec.ofNat 48 (v * 1000000)) = true then
    { s.rw with intervalFired := true }.triggered s.dirtyCount s.cm.timeBase
  else s.rw

theorem State.applyInterval_eq : s.applyInterval = { s with
    rw := s.writerAfterInterval (s.imageField 12 2)
    ci := { s.ci with held := { s.ci.held with interval := s.imageField 12 2 } } } := by
  let t := s.onHeld fun h => { h with interval := s.imageField 12 2 }
  unfold State.applyInterval State.writerAfterInterval
  dsimp only
  by_cases hsame : s.imageField 12 2 = s.ci.held.interval
  · rw [if_pos hsame, if_neg fun h => h.1 hsame, hsame]
  · rw [if_neg hsame]
    by_cases hpassed : t.intervalPassed = true
    · obtain ⟨hpart, hinterval, hfired, htime⟩ := State.intervalPassed_iff.1 hpassed
      rw [if_pos hpassed, if_pos ⟨hsame, hinterval, hpart, hfired, htime⟩, State.expireTimer_eq]
      rfl
    · rw [if_neg hpassed, if_neg fun ⟨_, hinterval, hpart, hfired, htime⟩ =>
        hpassed (State.intervalPassed_iff.2 ⟨hpart, hinterval, hfired, htime⟩)]
      rfl

theorem State.intervalStep_eq : s.intervalStep bytes = { s with
    rw := if names bytes 12 2 then s.writerAfterInterval (s.imageField 12 2) else s.rw
    ci := { s.ci with held := { s.ci.held with
      interval := if names bytes 12 2 then s.imageField 12 2 else s.ci.held.interval } } } := by
  unfold State.intervalStep
  split
  · exact s.applyInterval_eq
  · rfl

theorem GlobalStep.intervalStep : GlobalStep s (s.intervalStep bytes) (fun _ => false) [] := by
  rw [State.intervalStep_eq]
  exact .of_tau rfl

/-! ## Dirty threshold (R152, R164) -/

/-- RW after a dirty threshold that changes to `v`: one that is reached triggers a drain (R152). -/
def State.writerAfterThreshold (s : State) (v : Nat) : ReportWriter :=
  if v ≠ s.ci.held.dirtyThreshold ∧ v ≠ 0 ∧ v ≤ s.dirtyCount then s.rw.triggered s.dirtyCount s.cm.timeBase else s.rw

/-- The dirty threshold held and its clamp noted, before the test. -/
def State.holdThreshold (s : State) : State :=
  (s.onHeld fun h => { h with dirtyThreshold := min (s.imageField 14 2) 1024 }).noteValue true 14 2 (s.imageField 14 2)
    (min (s.imageField 14 2) 1024)

theorem GlobalStep.holdThreshold : GlobalStep s s.holdThreshold (fun _ => false)
    (clampOf true 14 2 (s.imageField 14 2) (min (s.imageField 14 2) 1024) s.cm.timeBase) := by
  let t := s.onHeld fun h => { h with dirtyThreshold := min (s.imageField 14 2) 1024 }
  have hheld : GlobalStep s t (fun _ => false) [] := .of_tau rfl
  exact hheld.trans (.noteValue t true 14 2 _ _)

theorem State.held_holdThreshold :
    s.holdThreshold.ci.held = { s.ci.held with dirtyThreshold := min (s.imageField 14 2) 1024 } :=
  State.held_noteClamp _ _ _ _ _

theorem State.applyThreshold_eq : s.applyThreshold = { s.holdThreshold with
    rw := s.writerAfterThreshold (min (s.imageField 14 2) 1024) } := by
  have hframe := (GlobalStep.holdThreshold s).frame
  have hrw : s.holdThreshold.rw = s.rw := State.noteClamp_rw _ _ _ _ _
  have htime : s.holdThreshold.cm.timeBase = s.cm.timeBase := by rw [hframe]
  have hcount : s.holdThreshold.dirtyCount = s.dirtyCount := State.dirtyCount_congr (by rw [hframe])
  have hreached : s.holdThreshold.thresholdReached = true ↔
      min (s.imageField 14 2) 1024 ≠ 0 ∧ min (s.imageField 14 2) 1024 ≤ s.dirtyCount := by
    rw [State.thresholdReached_iff, State.ThresholdStands, State.held_holdThreshold, hcount]
  have htest : s.applyThreshold = if s.ci.held.dirtyThreshold ≠ min (s.imageField 14 2) 1024 ∧
      s.holdThreshold.thresholdReached = true then s.holdThreshold.triggerDrain else s.holdThreshold := rfl
  rw [htest, State.writerAfterThreshold]
  by_cases hfires : min (s.imageField 14 2) 1024 ≠ s.ci.held.dirtyThreshold ∧ min (s.imageField 14 2) 1024 ≠ 0 ∧
      min (s.imageField 14 2) 1024 ≤ s.dirtyCount
  · rw [if_pos hfires, if_pos ⟨hfires.1.symm, hreached.2 hfires.2⟩, State.triggerDrain_eq, hrw, htime, hcount]
  · rw [if_neg hfires, if_neg fun h => hfires ⟨h.1.symm, hreached.1 h.2⟩, ← hrw]

theorem State.held_thresholdStep : (s.thresholdStep bytes).ci.held = { s.ci.held with
    dirtyThreshold := if names bytes 14 2 then min (s.imageField 14 2) 1024 else s.ci.held.dirtyThreshold } := by
  unfold State.thresholdStep
  split
  · rw [State.applyThreshold_eq]
    exact s.held_holdThreshold
  · rfl

theorem State.rw_thresholdStep : (s.thresholdStep bytes).rw =
    if names bytes 14 2 then s.writerAfterThreshold (min (s.imageField 14 2) 1024) else s.rw := by
  unfold State.thresholdStep
  split
  · rw [State.applyThreshold_eq]
  · rfl

theorem GlobalStep.thresholdStep : GlobalStep s (s.thresholdStep bytes) (fun _ => false)
    (clampOf (names bytes 14 2) 14 2 (s.imageField 14 2) (s.thresholdStep bytes).ci.held.dirtyThreshold
      s.cm.timeBase) := by
  rw [State.held_thresholdStep]
  unfold State.thresholdStep
  cases names bytes 14 2 with
  | false => exact .refl s
  | true =>
    have htested : GlobalStep s.holdThreshold s.applyThreshold (fun _ => false) [] := by
      rw [State.applyThreshold_eq]
      exact .of_tau rfl
    have hboth := (GlobalStep.holdThreshold s).trans htested
    rw [List.append_nil] at hboth
    exact hboth

end

end Sys2Proof.Machine
end

