-- ==== Sys2Proof/Proofs/SweepEffects.lean ====
section
/-! PROOFS. What a coverage sweep leaves, and that it makes no entry dirty. -/

namespace Sys2Proof.Machine

/-! ## What a sweep leaves (R24) -/

section
variable (s : State)

/-- Whatever an entry fault, a write of an entry, the marking of slots, OQ and a reload leave, a sweep leaves. -/
theorem State.sweep_leaves {β : Type} (k : State → β) (hreload : ∀ t o, k (State.requestReload t o) = k t)
    (hfault : ∀ t i, k (State.entryFault t i) = k t) (hflow : ∀ t i e, k (State.setFlow t i e) = k t)
    (htt : ∀ t f, k (State.onTt t f) = k t) (hoq : ∀ t f, k (State.onOq t f) = k t) : k s.sweep = k s := by
  have hchecked (t : State) (i : Nat) : k (t.checked i) = k t := by
    rcases t.checked_cases i with ⟨_, heq⟩ | ⟨_, heq⟩
    · rw [heq]
    · rw [heq, hfault]
  rw [s.sweep_keep k hreload, State.sweepBlocks, hoq, htt]
  exact s.overFlows_keep k _ _ hchecked fun t i => hflow t i _

theorem State.plru_sweep : s.sweep.ft.plru = s.ft.plru :=
  s.sweep_leaves (fun t => t.ft.plru) (by simp) (fun t i => by simp [State.entryFault]; rfl) (fun _ _ _ => rfl)
    (fun _ _ => rfl) fun _ _ => rfl

theorem State.retire_sweep : s.sweep.ft.retire = s.ft.retire :=
  s.sweep_leaves (fun t => t.ft.retire) (by simp) (fun t i => by simp [State.entryFault]) (fun _ _ _ => rfl)
    (fun _ _ => rfl) fun _ _ => rfl

theorem State.sweep_held : s.sweep.ci.held = s.ci.held := by
  have hreload (t : State) (o : ReloadOrigin) : (t.requestReload o).ci.held = t.ci.held := by
    unfold State.requestReload
    split <;> rfl
  exact s.sweep_leaves (fun t => t.ci.held) hreload (by simp) (fun _ _ _ => rfl) (fun _ _ => rfl) fun _ _ => rfl

theorem State.alarm_sweep {k : AlarmKind} (hk : k ≠ .entryFault) : s.sweep.alarm k = s.alarm k := by
  have hreload (t : State) (o : ReloadOrigin) : (t.requestReload o).alarm k = t.alarm k := by
    unfold State.requestReload
    split <;> rfl
  have hfault (t : State) (i : Nat) : (t.entryFault i).alarm k = t.alarm k := State.alarm_trigger_of_ne _ hk _
  exact s.sweep_leaves (fun t => t.alarm k) hreload hfault (fun _ _ _ => rfl)
    (fun _ _ => rfl) fun _ _ => rfl

theorem State.agg_sweep {a : Aggregate} (hfaults : a ≠ .entryFaults) (hreloads : a ≠ .configReloads) :
    s.sweep.agg a = s.agg a := by
  have hreload (t : State) (o : ReloadOrigin) : (t.requestReload o).agg a = t.agg a := by
    unfold State.requestReload
    split
    · exact (State.agg_count _ _ _).trans (if_neg hreloads)
    · rfl
  have hfault (t : State) (i : Nat) : (t.entryFault i).agg a = t.agg a :=
    (State.agg_trigger _ _ _ _).trans ((State.agg_count _ _ _).trans (if_neg hfaults))
  exact s.sweep_leaves (fun t => t.agg a) hreload hfault (fun _ _ _ => rfl)
    (fun _ _ => rfl) fun _ _ => rfl

theorem State.alert_sweep : s.sweep.tau.alert = s.tau.alert := by
  have hreload (t : State) (o : ReloadOrigin) : (t.requestReload o).tau.alert = t.tau.alert := by
    unfold State.requestReload
    split <;> rfl
  have hfault (t : State) (i : Nat) : (t.entryFault i).tau.alert = t.tau.alert := by
    unfold State.entryFault State.trigger
    split <;> rfl
  exact s.sweep_leaves (fun t => t.tau.alert) hreload hfault
    (fun _ _ _ => rfl) (fun _ _ => rfl) fun _ _ => rfl

theorem State.lastClamp_sweep : s.sweep.ci.lastClamp = s.ci.lastClamp := by
  have hreload (t : State) (o : ReloadOrigin) : (t.requestReload o).ci.lastClamp = t.ci.lastClamp := by
    unfold State.requestReload
    split <;> rfl
  exact s.sweep_leaves (fun t => t.ci.lastClamp) hreload (by simp) (fun _ _ _ => rfl) (fun _ _ => rfl)
    fun _ _ => rfl

/-- A pass over sound entries faults none, and leaves TAU. -/
theorem State.tau_sweepFlows {l : List Nat} (hok : ∀ i ∈ l, (s.flow i).checkOk = true) :
    (s.sweepFlows l).tau = s.tau := by
  induction l generalizing s with
  | nil => rfl
  | cons i rest ih =>
    have hread : s.checked i = s := if_pos (hok i List.mem_cons_self)
    have hvisit : (s.sweepFlow i).tau = s.tau := by
      unfold State.sweepFlow
      rw [hread]
      split <;> rfl
    rw [State.sweepFlows_cons, ih, hvisit]
    intro j hj
    rw [State.flow_sweepFlow]
    split
    · exact FlowEntry.checkOk_afterSweep _
    · exact hok j (List.mem_cons_of_mem i hj)

/-- A sweep of sound entries raises no kind. -/
theorem State.alarm_sweep_of_sound (hok : ∀ i < 1024, (s.flow i).checkOk = true) (k : AlarmKind) :
    s.sweep.alarm k = s.alarm k := by
  have hreload (t : State) (o : ReloadOrigin) : (t.requestReload o).alarm k = t.alarm k := by
    unfold State.requestReload
    split <;> rfl
  rw [s.sweep_keep (fun t => t.alarm k) hreload]
  have htau := s.tau_sweepFlows (l := s.flowIndexes) fun i hi => hok i (State.flowIndexes_lt hi)
  exact congrArg (fun t => t.alarms.get initialAlarm k.priority) htau

/-! ## The dirty count of a sweep (R24, R152) -/

theorem Store.rising_set {α : Type} [DecidableEq α] {m : Store α} (h : risingFrom none m.cells = true) (d : α) (k : Nat)
    (v : α) : risingFrom none (m.set d k v).cells = true := by
  unfold Store.set
  split
  · exact risingFrom_none_eraseCell k _ h
  · exact risingFrom_none_insertCell k v _ h

/-- The flow entries are listed in rising order. -/
def State.FlowsRise (s : State) : Prop := risingFrom none s.ft.flows.cells = true

variable {s} in
theorem State.FlowsRise.sweep (h : s.FlowsRise) : s.sweep.FlowsRise := by
  have hset (t : State) (i : Nat) (e : FlowEntry) (ht : t.FlowsRise) : (t.setFlow i e).FlowsRise :=
    Store.rising_set ht _ _ _
  have hchecked (t : State) (i : Nat) (ht : t.FlowsRise) : (t.checked i).FlowsRise := by
    rcases t.checked_cases i with ⟨_, heq⟩ | ⟨_, heq⟩
    · rwa [heq]
    · have hft : (t.entryFault i).ft = (t.setFlow i (vacantEntry ((t.flow i).generation + 1))).ft := by
        simp [State.entryFault]; rfl
      rw [heq, State.FlowsRise, hft]
      exact hset t i _ ht
  have hpass (t : State) (l : List Nat) (ht : t.FlowsRise) : (t.sweepFlows l).FlowsRise := by
    induction l generalizing t with
    | nil => exact ht
    | cons i rest ih =>
      rw [State.sweepFlows_cons]
      refine ih _ ?_
      unfold State.sweepFlow
      split
      · exact hset _ _ _ (hchecked t i ht)
      · exact hchecked t i ht
  have hft : s.sweep.ft = (s.sweepFlows s.flowIndexes).ft := s.sweep_keep State.ft fun t o => t.requestReload_ft o
  rw [State.FlowsRise, hft]
  exact hpass s _ h

/-- The valid entries whose dirty flag is set. -/
def State.dirtyFlows (s : State) : Finset Nat :=
  (Finset.range 1024).filter fun i => ((s.flow i).valid && (s.flow i).dirty) = true

theorem State.mem_dirtyFlows_iff {i : Nat} :
    i ∈ s.flowIndexes.filter (fun i => (s.flow i).valid && (s.flow i).dirty) ↔ i ∈ s.dirtyFlows := by
  rw [List.mem_filter, State.dirtyFlows, Finset.mem_filter, Finset.mem_range]
  refine ⟨fun h => ⟨State.flowIndexes_lt h.1, h.2⟩, fun h => ⟨s.mem_flowIndexes h.1 fun hinitial => ?_, h.2⟩⟩
  rw [hinitial] at h
  cases h.2

theorem State.card_dirtyFlows_le : s.dirtyFlows.card ≤ s.dirtyCount := by
  refine (Finset.card_le_card fun i hi => ?_).trans (List.toFinset_card_le _)
  rw [List.mem_toFinset]
  exact s.mem_dirtyFlows_iff.2 hi

variable {s} in
theorem State.FlowsRise.dirtyCount_le (h : s.FlowsRise) : s.dirtyCount ≤ s.dirtyFlows.card := by
  have hordered : (s.flowIndexes.filter fun i => (s.flow i).valid && (s.flow i).dirty).Pairwise (· < ·) :=
    (((pairwise_of_risingFrom h).2.map Prod.fst fun _ _ => id).filter _).filter _
  have hnodup := hordered.imp fun hlt => Nat.ne_of_lt hlt
  rw [State.dirtyCount, ← List.toFinset_card_of_nodup hnodup]
  refine Finset.card_le_card fun i hi => ?_
  exact s.mem_dirtyFlows_iff.1 (List.mem_toFinset.1 hi)

variable {s} in
/-- A sweep makes no entry dirty that was not. -/
theorem State.FlowsRise.dirtyCount_sweep (h : s.FlowsRise) : s.sweep.dirtyCount ≤ s.dirtyCount := by
  refine h.sweep.dirtyCount_le.trans (le_trans (Finset.card_le_card fun i hi => ?_) s.card_dirtyFlows_le)
  rw [State.dirtyFlows, Finset.mem_filter, Finset.mem_range] at hi ⊢
  obtain ⟨hlt, hdirty⟩ := hi
  refine ⟨hlt, ?_⟩
  rw [s.flow_sweep hlt, FlowEntry.afterSweep] at hdirty
  split_ifs at hdirty
  · exact hdirty
  · exact hdirty
  · cases hdirty

end

end Sys2Proof.Machine
end

