-- ==== Sys2Proof/Proofs/Monitoring.lean ====
section
/-! PROOFS. Monitoring enable: what it moves of coverage, and the sweep that it runs. -/

namespace Sys2Proof.Machine

/-- What monitoring enable does between `s` and `a`, the state that holds it and freeze (R23, R24, R166). -/
structure MonitoringStep (s a : State) : Prop where
  stands : s.ci.part ≠ .running ∨ a.ci.held.monitoring = s.ci.held.monitoring ∨
    (a.ci.held.monitoring = true ∧ s.oq.coverage ≠ .paused) → a.oq.coverage = s.oq.coverage
  pauses : s.ci.part = .running → s.ci.held.monitoring = true → a.ci.held.monitoring = false →
    a.oq.coverage = .paused
  resumes : s.Resumes a → a.oq.coverage = .sighted ∧ a.cm.sightStart = s.cm.timeBase ∧ a.oq.lossMark = false ∧
    a.oq.firstLost = none
  swept : s.Resumes a → Swept s a
  unswept : ¬ s.Resumes a → a.ft = s.ft ∧ a.tt = s.tt ∧ a.cm = s.cm ∧ a.oq.lossMark = s.oq.lossMark ∧
    a.oq.firstLost = s.oq.firstLost ∧ a.oq.reloadOwed = s.oq.reloadOwed ∧ a.ci.load = s.ci.load ∧
    a.ci.reloadWaiting = s.ci.reloadWaiting
  plru : a.ft.plru = s.ft.plru
  retire : a.ft.retire = s.ft.retire
  alarm : ∀ k, k ≠ .entryFault ∨ ¬ s.Resumes a ∨ (∀ i < 1024, (s.flow i).checkOk = true) → a.alarm k = s.alarm k
  agg : ∀ c, (c ≠ .entryFaults ∧ c ≠ .configReloads) ∨ ¬ s.Resumes a → a.agg c = s.agg c
  alert : a.tau.alert = s.tau.alert
  lastClamp : a.ci.lastClamp = s.ci.lastClamp
  timeBase : a.cm.timeBase = s.cm.timeBase
  part : a.ci.part = s.ci.part
  rw : a.rw = { s.rw with statusPending := s.rw.statusPending || decide (a.oq.coverage ≠ s.oq.coverage) }
  dirtyCount : (s.Resumes a → s.FlowsRise) → a.dirtyCount ≤ s.dirtyCount

section
variable {s : State}

/-- The state that holds monitoring enable as `b`. -/
def State.holdMonitoring (s : State) (b : Bool) : State := s.onHeld fun h => { h with monitoring := b }

/-- A change of held settings that leaves coverage as it is in all that monitoring asks for. -/
theorem MonitoringStep.of_held {a : State} (hframe : a = { s with ci := { s.ci with held := a.ci.held } })
    (hstill : s.ci.part ≠ .running ∨ a.ci.held.monitoring = s.ci.held.monitoring ∨
      (a.ci.held.monitoring = true ↔ s.oq.coverage ≠ .paused)) : MonitoringStep s a := by
  have hnever : ¬ s.Resumes a := by
    rintro ⟨hpart, hcoverage, hclear, hset⟩
    rcases hstill with hstill | hstill | hstill
    · exact hstill hpart
    · rw [hset, hclear] at hstill; cases hstill
    · exact hstill.1 hset hcoverage
  have hft : a.ft = s.ft := by rw [hframe]
  have hoq : a.oq = s.oq := by rw [hframe]
  have hcm : a.cm = s.cm := by rw [hframe]
  have htau : a.tau = s.tau := by rw [hframe]
  have hrw : a.rw = s.rw := by rw [hframe]
  refine ⟨fun _ => by rw [hoq], fun hpart hset hclear => ?_, fun h => absurd h hnever, fun h => absurd h hnever,
    fun _ => ?_, by rw [hft], by rw [hft], fun k _ => ?_, fun c _ => ?_, by rw [htau], by rw [hframe], by rw [hcm],
    by rw [hframe], ?_, fun _ => (State.dirtyCount_congr hft).le⟩
  · rw [hoq]
    rcases hstill with hstill | hstill | hstill
    · exact absurd hpart hstill
    · rw [hset, hclear] at hstill; cases hstill
    · by_contra hcoverage
      exact absurd (hstill.2 hcoverage) (by simp [hclear])
  · rw [hframe]
    exact ⟨rfl, rfl, rfl, rfl, rfl, rfl, rfl, rfl⟩
  · rw [State.alarm, htau]; rfl
  · rw [State.agg, htau]; rfl
  · rw [hrw, hoq]
    simp

/-- Monitoring switched off pauses coverage (R23). -/
theorem MonitoringStep.paused (hpart : s.ci.part = .running) (hcoverage : s.oq.coverage ≠ .paused)
    (hset : s.ci.held.monitoring = true) :
    MonitoringStep s ((s.holdMonitoring false).setCoverage .paused).applyFreeze := by
  have hnever : ¬ s.Resumes ((s.holdMonitoring false).setCoverage .paused).applyFreeze :=
    fun ⟨_, _, hclear, _⟩ => absurd hset (by simp [hclear])
  refine ⟨fun h => ?_, fun _ _ _ => rfl, fun h => absurd h hnever, fun h => absurd h hnever,
    fun _ => ⟨rfl, rfl, rfl, rfl, rfl, rfl, rfl, rfl⟩, rfl, rfl, fun _ _ => rfl, fun _ _ => rfl, rfl, rfl, rfl, rfl, ?_,
    fun _ => le_rfl⟩
  · rcases h with h | h | h
    · exact absurd hpart h
    · have hclear : false = s.ci.held.monitoring := h
      exact absurd hset (by simp [← hclear])
    · exact absurd h.1 Bool.false_ne_true
  · have hchanges : decide (Coverage.paused ≠ s.oq.coverage) = true := decide_eq_true hcoverage.symm
    change { s.rw with statusPending := true } =
      { s.rw with statusPending := s.rw.statusPending || decide (Coverage.paused ≠ s.oq.coverage) }
    rw [hchanges, Bool.or_true]

/-- Monitoring switched on with coverage PAUSED runs the sweep, and coverage becomes SIGHTED (R23, R24). -/
theorem MonitoringStep.resumed (hpart : s.ci.part = .running) (hcoverage : s.oq.coverage = .paused)
    (hclear : s.ci.held.monitoring = false) :
    MonitoringStep s ((s.holdMonitoring true).sweep.setCoverage .sighted).applyFreeze := by
  have hswept : Swept s (s.holdMonitoring true).sweep := (s.holdMonitoring true).swept_sweep
  have hheld : (s.holdMonitoring true).sweep.ci.held.monitoring = true :=
    congrArg Held.monitoring (s.holdMonitoring true).sweep_held
  have htime : (s.holdMonitoring true).sweep.cm.timeBase = s.cm.timeBase := (CadenceKept.sweep _).timeBase
  have hoq : (s.holdMonitoring true).sweep.oq =
      { s.oq with lossMark := false, firstLost := none, reloadOwed := false } :=
    State.sweep_oq _
  have hrw : (s.holdMonitoring true).sweep.rw = s.rw := State.sweep_rw _
  have hlater : (s.holdMonitoring true).sweep.ci.part = s.ci.part :=
    congrArg MailboxView.part (s.holdMonitoring true).mailboxView_sweep
  have hplru : (s.holdMonitoring true).sweep.ft.plru = s.ft.plru := State.plru_sweep _
  have hretire : (s.holdMonitoring true).sweep.ft.retire = s.ft.retire := State.retire_sweep _
  have halert : (s.holdMonitoring true).sweep.tau.alert = s.tau.alert := State.alert_sweep _
  have hclamp : (s.holdMonitoring true).sweep.ci.lastClamp = s.ci.lastClamp := State.lastClamp_sweep _
  have halarm (k : AlarmKind) (hk : k ≠ .entryFault) : (s.holdMonitoring true).sweep.alarm k = s.alarm k :=
    State.alarm_sweep _ hk
  have hsound (hok : ∀ i < 1024, (s.flow i).checkOk = true) (k : AlarmKind) :
      (s.holdMonitoring true).sweep.alarm k = s.alarm k := (s.holdMonitoring true).alarm_sweep_of_sound hok k
  have hagg (c : Aggregate) (h : c ≠ .entryFaults) (h' : c ≠ .configReloads) :
      (s.holdMonitoring true).sweep.agg c = s.agg c := State.agg_sweep _ h h'
  have hdirty (h : s.FlowsRise) : (s.holdMonitoring true).sweep.dirtyCount ≤ s.dirtyCount :=
    State.FlowsRise.dirtyCount_sweep (s := s.holdMonitoring true) h
  generalize (s.holdMonitoring true).sweep = y at *
  have hresumes : s.Resumes (y.setCoverage .sighted).applyFreeze := ⟨hpart, hcoverage, hclear, hheld⟩
  refine ⟨fun h => ?_, fun _ hset _ => absurd hset (by simp [hclear]), fun _ => ⟨rfl, htime, ?_, ?_⟩,
    fun _ => hswept, fun h => absurd hresumes h, hplru, hretire, fun k hk => ?_, fun c hc => ?_,
    halert, hclamp, htime, hlater, ?_, fun h => hdirty (h hresumes)⟩
  · rcases h with h | h | h
    · exact absurd hpart h
    · exact absurd (h.symm.trans hheld) (by simp [hclear])
    · exact absurd hcoverage h.2
  · exact congrArg ObservationQueue.lossMark hoq
  · exact congrArg ObservationQueue.firstLost hoq
  · rcases hk with hk | hk | hk
    · exact halarm k hk
    · exact absurd hresumes hk
    · exact hsound hk k
  · rcases hc with ⟨hfaults, hreloads⟩ | hc
    · exact hagg c hfaults hreloads
    · exact absurd hresumes hc
  · have hchanges : decide (Coverage.sighted ≠ s.oq.coverage) = true := by rw [hcoverage]; rfl
    change { y.rw with statusPending := true } =
      { s.rw with statusPending := s.rw.statusPending || decide (Coverage.sighted ≠ s.oq.coverage) }
    rw [hchanges, Bool.or_true, hrw]

/-- The globals' first step: monitoring enable and freeze, where the application names their byte (R47, R166). -/
def State.monitoringStep (s : State) (bytes : List (Nat × Byte)) : State :=
  if names bytes 8 1 then s.applyMonitoring.applyFreeze else s

theorem MonitoringStep.refl : MonitoringStep s s := .of_held rfl (.inr (.inl rfl))

/-- Monitoring enable, by what its bit is and what coverage it meets (R23). -/
theorem State.applyMonitoring_cases (s : State) :
    (s.imageBit 8 0 = s.ci.held.monitoring ∧ s.applyMonitoring = s) ∨
    (s.imageBit 8 0 ≠ s.ci.held.monitoring ∧
      ((s.ci.part ≠ .running ∨ (s.imageBit 8 0 = true ↔ s.oq.coverage ≠ .paused)) ∧
          s.applyMonitoring = s.holdMonitoring (s.imageBit 8 0) ∨
        s.ci.part = .running ∧ s.imageBit 8 0 = true ∧ s.oq.coverage = .paused ∧
          s.applyMonitoring = (s.holdMonitoring true).sweep.setCoverage .sighted ∨
        s.ci.part = .running ∧ s.imageBit 8 0 = false ∧ s.oq.coverage ≠ .paused ∧
          s.applyMonitoring = (s.holdMonitoring false).setCoverage .paused)) := by
  by_cases hsame : s.imageBit 8 0 = s.ci.held.monitoring
  · exact .inl ⟨hsame, if_pos hsame⟩
  have happly : s.applyMonitoring = (s.holdMonitoring (s.imageBit 8 0)).monitoringEffect (s.imageBit 8 0) :=
    if_neg hsame
  refine .inr ⟨hsame, ?_⟩
  rw [happly]
  by_cases hpart : s.ci.part = .running
  · have hrunning (b : Bool) : (s.holdMonitoring b).ci.part = .running := hpart
    rw [State.monitoringEffect, if_pos (hrunning _)]
    by_cases hcoverage : s.oq.coverage = .paused
    · have hheld (b : Bool) : (s.holdMonitoring b).oq.coverage = .paused := hcoverage
      cases s.imageBit 8 0 with
      | true => exact .inr (.inl ⟨hpart, rfl, hcoverage, if_pos (hheld true)⟩)
      | false => exact .inl ⟨.inr (by simp [hcoverage]), if_pos (hheld false)⟩
    · have hheld (b : Bool) : (s.holdMonitoring b).oq.coverage ≠ .paused := hcoverage
      cases s.imageBit 8 0 with
      | true => exact .inl ⟨.inr (by simp [hcoverage]), if_neg (hheld true)⟩
      | false => exact .inr (.inr ⟨hpart, rfl, hcoverage, if_neg (hheld false)⟩)
  · exact .inl ⟨.inl hpart, if_neg hpart⟩

theorem MonitoringStep.monitoringStep (s : State) (bytes : List (Nat × Byte)) :
    MonitoringStep s (s.monitoringStep bytes) := by
  unfold State.monitoringStep
  split
  · rcases s.applyMonitoring_cases with ⟨_, heq⟩ | ⟨hchanges, ⟨hstill, heq⟩ | ⟨hpart, hset, hcoverage, heq⟩ |
      ⟨hpart, hset, hcoverage, heq⟩⟩
    · rw [heq]
      exact .of_held rfl (.inr (.inl rfl))
    · rw [heq]
      refine .of_held rfl (hstill.imp id .inr)
    · rw [heq]
      exact .resumed hpart hcoverage (by simpa [hset] using hchanges.symm)
    · rw [heq]
      exact .paused hpart hcoverage (by simpa [hset] using hchanges.symm)
  · exact .refl

theorem State.held_monitoringStep (s : State) (bytes : List (Nat × Byte)) :
    (s.monitoringStep bytes).ci.held = { s.ci.held with
      monitoring := if names bytes 8 1 then s.imageBit 8 0 else s.ci.held.monitoring
      freeze := if names bytes 8 1 then s.imageBit 8 1 else s.ci.held.freeze } := by
  have hbit {t : State} (himage : t.ci.image = s.ci.image) : t.imageBit 8 1 = s.imageBit 8 1 :=
    congrArg (·.getLsbD 1) (State.imageByte_congr himage 8)
  have hfreeze (t : State) (b : Bool) (himage : t.ci.image = s.ci.image)
      (hheld : t.ci.held = { s.ci.held with monitoring := b }) :
      t.applyFreeze.ci.held = { s.ci.held with monitoring := b, freeze := s.imageBit 8 1 } := by
    change { t.ci.held with freeze := t.imageBit 8 1 } = _
    rw [hheld, hbit himage]
  have hswept : (s.holdMonitoring true).sweep.ci.image = s.ci.image :=
    congrArg MailboxView.image (s.holdMonitoring true).mailboxView_sweep
  unfold State.monitoringStep
  split
  · rcases s.applyMonitoring_cases with ⟨hsame, heq⟩ | ⟨_, ⟨_, heq⟩ | ⟨_, hset, _, heq⟩ | ⟨_, hset, _, heq⟩⟩
    · rw [heq]
      exact hfreeze s _ rfl (by rw [hsame])
    · rw [heq]
      exact hfreeze (s.holdMonitoring (s.imageBit 8 0)) _ rfl rfl
    · rw [heq, hset]
      exact hfreeze ((s.holdMonitoring true).sweep.setCoverage .sighted) true hswept (s.holdMonitoring true).sweep_held
    · rw [heq, hset]
      exact hfreeze ((s.holdMonitoring false).setCoverage .paused) false rfl rfl
  · rfl

end

end Sys2Proof.Machine
end

