-- ==== Sys2Proof/Proofs/OtherGlobals.lean ====
section
/-! PROOFS. The globals behind monitoring enable, together. -/

namespace Sys2Proof.Machine

/-! ## The globals behind monitoring enable -/

section
variable {t u : State} {off : AlarmKind → Bool} {clamps : List ClampRecord}

theorem GlobalStep.image (h : GlobalStep t u off clamps) : u.ci.image = t.ci.image := by rw [h.frame]
theorem GlobalStep.part (h : GlobalStep t u off clamps) : u.ci.part = t.ci.part := by rw [h.frame]
theorem GlobalStep.cm (h : GlobalStep t u off clamps) : u.cm = t.cm := by rw [h.frame]
theorem GlobalStep.ft (h : GlobalStep t u off clamps) : u.ft = t.ft := by rw [h.frame]
theorem GlobalStep.tt (h : GlobalStep t u off clamps) : u.tt = t.tt := by rw [h.frame]
theorem GlobalStep.oq (h : GlobalStep t u off clamps) : u.oq = t.oq := by rw [h.frame]
theorem GlobalStep.load (h : GlobalStep t u off clamps) : u.ci.load = t.ci.load := by rw [h.frame]
theorem GlobalStep.reloadWaiting (h : GlobalStep t u off clamps) : u.ci.reloadWaiting = t.ci.reloadWaiting := by
  rw [h.frame]
theorem GlobalStep.loading (h : GlobalStep t u off clamps) : u.ci.loading = t.ci.loading := by rw [h.frame]; rfl
theorem GlobalStep.timeBase (h : GlobalStep t u off clamps) : u.cm.timeBase = t.cm.timeBase := by rw [h.cm]

end

section
variable (a : State) (bytes : List (Nat × Byte))

theorem State.writerAfterInterval_held : a.writerAfterInterval a.ci.held.interval = a.rw :=
  if_neg fun h => h.1 rfl

theorem State.writerAfterThreshold_held : a.writerAfterThreshold a.ci.held.dirtyThreshold = a.rw :=
  if_neg fun h => h.1 rfl

theorem State.held_intervalStep : (a.intervalStep bytes).ci.held = { a.ci.held with
    interval := if names bytes 12 2 then a.imageField 12 2 else a.ci.held.interval } := by
  rw [a.intervalStep_eq bytes]

/-- RW after the interval's step, by the interval held in the end (R152). -/
theorem State.rw_intervalStep :
    (a.intervalStep bytes).rw = a.writerAfterInterval (a.intervalStep bytes).ci.held.interval := by
  rw [a.intervalStep_eq bytes]
  dsimp only
  split
  · rfl
  · exact a.writerAfterInterval_held.symm

/-- RW after the threshold's step, by the threshold held in the end (R152). -/
theorem State.rw_thresholdStep_held :
    (a.thresholdStep bytes).rw = a.writerAfterThreshold (a.thresholdStep bytes).ci.held.dirtyThreshold := by
  rw [a.rw_thresholdStep, a.held_thresholdStep]
  dsimp only
  split
  · rfl
  · exact a.writerAfterThreshold_held.symm

/-- The images of the states between the steps are the first one's. -/
theorem State.image_pinStep : (a.pinStep bytes).ci.image = a.ci.image := (GlobalStep.pinStep a bytes).image
theorem State.image_alarmStep : (a.alarmStep bytes).ci.image = a.ci.image := (GlobalStep.alarmStep a bytes).image
theorem State.image_intervalStep : (a.intervalStep bytes).ci.image = a.ci.image :=
  (GlobalStep.intervalStep a bytes).image

/-- The globals behind monitoring enable are held as the image gives them, where they are named (R164, R166). -/
theorem State.held_applyOtherGlobals : (a.applyOtherGlobals bytes).ci.held = { a.ci.held with
    pinCount := if names bytes 9 1 then min (a.imageField 9 1) 3 else a.ci.held.pinCount
    alarmOn := if names bytes 10 1 then a.imageByte 10 else a.ci.held.alarmOn
    interval := if names bytes 12 2 then a.imageField 12 2 else a.ci.held.interval
    dirtyThreshold := if names bytes 14 2 then min (a.imageField 14 2) 1024 else a.ci.held.dirtyThreshold } := by
  have hpin := a.image_pinStep bytes
  have halarm := ((a.pinStep bytes).image_alarmStep bytes).trans hpin
  have hinterval := (((a.pinStep bytes).alarmStep bytes).image_intervalStep bytes).trans halarm
  rw [State.applyOtherGlobals_eq, State.held_thresholdStep, State.held_intervalStep, State.held_alarmStep,
    State.held_pinStep, State.imageField_congr hinterval, State.imageField_congr halarm, State.imageByte_congr hpin]

/-- The kinds switched off are no longer RAISED, and the two clamps are noted in offset order (R142, R164, log 30). -/
theorem GlobalStep.applyOtherGlobals : GlobalStep a (a.applyOtherGlobals bytes)
    (fun k => a.alarmOn k && !(a.applyOtherGlobals bytes).alarmOn k)
    (clampOf (names bytes 9 1) 9 1 (a.imageField 9 1) (a.applyOtherGlobals bytes).ci.held.pinCount a.cm.timeBase ++
      clampOf (names bytes 14 2) 14 2 (a.imageField 14 2) (a.applyOtherGlobals bytes).ci.held.dirtyThreshold
        a.cm.timeBase) := by
  have hpin := GlobalStep.pinStep a bytes
  have halarm := GlobalStep.alarmStep (a.pinStep bytes) bytes
  have hinterval := GlobalStep.intervalStep ((a.pinStep bytes).alarmStep bytes) bytes
  have hbefore := (hpin.trans halarm).trans hinterval
  have hthreshold := GlobalStep.thresholdStep (((a.pinStep bytes).alarmStep bytes).intervalStep bytes) bytes
  have hsteps := hbefore.trans hthreshold
  have hpins : (a.applyOtherGlobals bytes).ci.held.pinCount = (a.pinStep bytes).ci.held.pinCount := by
    rw [a.held_applyOtherGlobals, a.held_pinStep]
  have honBefore (k : AlarmKind) : (a.pinStep bytes).alarmOn k = a.alarmOn k := by
    rw [State.alarmOn, State.alarmOn, a.held_pinStep]
  have honAfter (k : AlarmKind) :
      (a.applyOtherGlobals bytes).alarmOn k = ((a.pinStep bytes).alarmStep bytes).alarmOn k := by
    rw [State.alarmOn, State.alarmOn, State.held_alarmStep, a.held_applyOtherGlobals,
      State.imageByte_congr (a.image_pinStep bytes), a.held_pinStep]
  rw [hbefore.timeBase, State.imageField_congr hbefore.image, ← State.applyOtherGlobals_eq, ← hpins, List.append_nil,
    List.append_nil] at hsteps
  have hoff : (fun k => ((false || ((a.pinStep bytes).alarmOn k && !((a.pinStep bytes).alarmStep bytes).alarmOn k)) ||
      false) || false) = fun k => a.alarmOn k && !(a.applyOtherGlobals bytes).alarmOn k := by
    funext k
    rw [Bool.or_false, Bool.or_false, Bool.false_or, honBefore, honAfter]
  rw [hoff] at hsteps
  exact hsteps

/-- RW after the globals behind monitoring enable, by the interval and the threshold held in the end (R152). -/
theorem State.rw_applyOtherGlobals : (a.applyOtherGlobals bytes).rw =
    { a with rw := a.writerAfterInterval (a.applyOtherGlobals bytes).ci.held.interval }.writerAfterThreshold
      (a.applyOtherGlobals bytes).ci.held.dirtyThreshold := by
  let c := (a.pinStep bytes).alarmStep bytes
  have hstep : GlobalStep a c _ _ := (GlobalStep.pinStep a bytes).trans (.alarmStep _ bytes)
  have hrw : c.rw = a.rw := (State.rw_alarmStep _ bytes).trans (State.rw_pinStep a bytes)
  have hheld : c.ci.held.interval = a.ci.held.interval ∧ c.ci.held.dirtyThreshold = a.ci.held.dirtyThreshold := by
    rw [State.held_alarmStep, State.held_pinStep]
    exact ⟨rfl, rfl⟩
  have hcount : c.dirtyCount = a.dirtyCount := State.dirtyCount_congr hstep.ft
  have hinterval (v : Nat) : c.writerAfterInterval v = a.writerAfterInterval v := by
    rw [State.writerAfterInterval, State.writerAfterInterval, hrw, hheld.1, hstep.part, hstep.timeBase, hcount]
  have hfinal : (a.applyOtherGlobals bytes).ci.held.interval = (c.intervalStep bytes).ci.held.interval := by
    rw [State.applyOtherGlobals_eq, State.held_thresholdStep]
  have hframe := (GlobalStep.intervalStep c bytes)
  have hcountD : (c.intervalStep bytes).dirtyCount = a.dirtyCount := State.dirtyCount_congr (hframe.ft.trans hstep.ft)
  have hheldD : (c.intervalStep bytes).ci.held.dirtyThreshold = a.ci.held.dirtyThreshold := by
    rw [State.held_intervalStep]
    exact hheld.2
  rw [hfinal, ← hinterval, ← State.rw_intervalStep]
  change ((c.intervalStep bytes).thresholdStep bytes).rw = _
  rw [State.rw_thresholdStep_held, State.writerAfterThreshold, State.writerAfterThreshold, hcountD, hheldD,
    hframe.timeBase, hstep.timeBase]
  rfl

end

end Sys2Proof.Machine
end

