-- ==== Sys2Proof/Proofs/GlobalsWrite.lean ====
section
/-! PROOFS. A control write that names a global. -/

namespace Sys2Proof.Machine

/-! ## The globals of an application -/

theorem State.testThreshold_frame (s b : State) : s.testThreshold b = { s with rw := (s.testThreshold b).rw } := by
  rcases s.testThreshold_cases b with ⟨_, _, heq⟩ | ⟨_, heq⟩
  · rw [heq, State.triggerDrain_eq]
  · rw [heq]

/-- A sweep's effects stand in whatever leaves flows, due times, slots, OQ and the load (R24). -/
theorem Swept.congr {s a u : State} (h : Swept s a) (hft : u.ft = a.ft) (htt : u.tt = a.tt) (hcm : u.cm = a.cm)
    (hoq : u.oq = a.oq) (hload : u.ci.load = a.ci.load) (hwaiting : u.ci.reloadWaiting = a.ci.reloadWaiting)
    (hagg : u.agg .configReloads = a.agg .configReloads) : Swept s u := by
  have hflow (i : Nat) : u.flow i = a.flow i := by rw [State.flow, State.flow, hft]
  simp only [Swept, hflow, htt, hcm, hoq, hload, hwaiting, hagg]
  exact h

section
variable (s : State) (bytes : List (Nat × Byte))

/-- The state in which the globals behind monitoring enable are applied. -/
def State.afterMonitoring : State := (s.merge bytes).monitoringStep bytes

theorem State.beforeConsume_eq : s.beforeConsume bytes = (s.afterMonitoring bytes).applyOtherGlobals bytes := rfl

theorem MonitoringStep.afterMonitoring : MonitoringStep s (s.afterMonitoring bytes) := by
  have h := MonitoringStep.monitoringStep (s.merge bytes) bytes
  exact ⟨h.stands, h.pauses, h.resumes, h.swept, h.unswept, h.plru, h.retire, h.alarm, h.agg, h.alert, h.lastClamp,
    h.timeBase, h.part, h.rw, h.dirtyCount⟩

theorem State.image_afterMonitoring : (s.afterMonitoring bytes).ci.image = (s.merge bytes).ci.image := by
  unfold State.afterMonitoring State.monitoringStep
  split
  · exact State.image_of_tables ((s.merge bytes).tables_applyMonitoring)
  · rfl

/-- The globals that an application holds, in terms of the merged image (R164, R166). -/
theorem State.held_beforeConsume : (s.beforeConsume bytes).ci.held = { s.ci.held with
    monitoring := if names bytes 8 1 then (s.merge bytes).imageBit 8 0 else s.ci.held.monitoring
    freeze := if names bytes 8 1 then (s.merge bytes).imageBit 8 1 else s.ci.held.freeze
    pinCount := if names bytes 9 1 then min ((s.merge bytes).imageField 9 1) 3 else s.ci.held.pinCount
    alarmOn := if names bytes 10 1 then (s.merge bytes).imageByte 10 else s.ci.held.alarmOn
    interval := if names bytes 12 2 then (s.merge bytes).imageField 12 2 else s.ci.held.interval
    dirtyThreshold :=
      if names bytes 14 2 then min ((s.merge bytes).imageField 14 2) 1024 else s.ci.held.dirtyThreshold } := by
  have himage := s.image_afterMonitoring bytes
  rw [State.beforeConsume_eq, State.held_applyOtherGlobals, State.imageField_congr himage,
    State.imageField_congr himage, State.imageField_congr himage, State.imageByte_congr himage, State.afterMonitoring,
    State.held_monitoringStep]
  rfl

/-- Bytes of the globals' block alone apply the globals, and nothing else. -/
theorem State.applySettings_of_globalsRange (hrange : ∀ c ∈ bytes, 8 ≤ c.1 ∧ c.1 < 0x80) :
    s.applySettings bytes = (s.beforeConsume bytes).testThreshold s := by
  have habove (o n : Nat) (h : 0x80 ≤ o) : names bytes o n = false := names_of_outside hrange (.inr h)
  have hbefore : s.beforeProfiles bytes = s.beforeConsume bytes := by
    simp [State.beforeProfiles, State.beforeConsume, State.applyConsume, State.applyRings, habove]
  rw [State.applySettings_eq, hbefore,
    State.applyProfiles_of_unnamed _ fun p _ => habove _ _ (by unfold profileOffset; omega),
    State.applyClassifier_of_unnamed _ fun n _ => habove _ _ (by unfold classifierOffset; omega)]

/-- RW after the globals' block is as its settings have it (R151, R152). -/
theorem State.writerAfterGlobals_of {u g : State} (hrw : g.rw = { s.afterMonitoring bytes with
      rw := (s.afterMonitoring bytes).writerAfterInterval g.ci.held.interval }.writerAfterThreshold
        g.ci.held.dirtyThreshold)
    (hheld : u.ci.held = g.ci.held) (hcoverage : u.oq.coverage = (s.afterMonitoring bytes).oq.coverage)
    (hft : u.ft = (s.afterMonitoring bytes).ft) : g.rw = s.writerAfterGlobals u := by
  have hstep := MonitoringStep.afterMonitoring s bytes
  have hcount : (s.afterMonitoring bytes).dirtyCount = u.dirtyCount := (State.dirtyCount_congr hft).symm
  have hkept : (s.afterMonitoring bytes).ci.held.interval = s.ci.held.interval ∧
      (s.afterMonitoring bytes).ci.held.dirtyThreshold = s.ci.held.dirtyThreshold := by
    rw [State.afterMonitoring, State.held_monitoringStep]
    exact ⟨rfl, rfl⟩
  have hthreshold (w : ReportWriter) (v : Nat) : { s.afterMonitoring bytes with rw := w }.writerAfterThreshold v =
      if v ≠ (s.afterMonitoring bytes).ci.held.dirtyThreshold ∧ v ≠ 0 ∧ v ≤ (s.afterMonitoring bytes).dirtyCount then
        w.triggered (s.afterMonitoring bytes).dirtyCount (s.afterMonitoring bytes).cm.timeBase
      else w := rfl
  rw [hrw, hthreshold, State.writerAfterInterval, hcount, hkept.1, hkept.2, hstep.part, hstep.timeBase, hstep.rw,
    State.writerAfterGlobals, hheld, hcoverage]

variable {s bytes} in
/-- An application holds the globals it names and has their effects; what follows it leaves the globals and the image,
and is nothing where no command word is named (R163, R166). -/
theorem HoldsGlobals.of_globalsStand {u : State} (hstand : GlobalsStand (s.applySettings bytes) u)
    (himage : u.ci.image = (s.applySettings bytes).ci.image)
    (halone : names bytes 0 8 = false → u = s.applySettings bytes) : HoldsGlobals bytes s u := by
  rintro n rfl
  have hm : MonitoringStep s (s.afterMonitoring bytes) := .afterMonitoring s bytes
  have hg : GlobalStep _ (s.beforeConsume bytes) _ _ := .applyOtherGlobals (s.afterMonitoring bytes) bytes
  have hbehind := SettingsStand.applySettings s bytes
  have hglobals : u.ci.held.globals = (s.beforeConsume bytes).ci.held.globals :=
    hstand.globals.trans hbehind.globals
  have hheld := hglobals
  have hbyte (b : Nat) : (s.merge bytes).imageByte b = u.imageByte b := by
    rw [State.imageByte_congr himage, State.imageByte_applySettings, State.imageByte_merge]
  have hpair (o : Nat) :
      (s.merge bytes).imageField o 2 = (u.imageByte o).toNat + 256 * (u.imageByte (o + 1)).toNat := by
    rw [State.imageField_add _ o 1 1, State.imageField_one, State.imageField_one, hbyte, hbyte, pow_one]
  rw [State.held_beforeConsume, Held.globals, Held.globals, State.imageField_one, hpair, hpair] at hheld
  simp only [State.imageBit, hbyte, Prod.mk.injEq] at hheld
  obtain ⟨hmonitoring, hfreeze, hpin, halarmOn, hinterval, hthreshold⟩ := hheld
  have honG (k : AlarmKind) : (s.beforeConsume bytes).alarmOn k = u.alarmOn k :=
    ((hstand.alarmOn k).trans (hbehind.alarmOn k)).symm
  have honA (k : AlarmKind) : (s.afterMonitoring bytes).alarmOn k = s.alarmOn k := by
    rw [State.alarmOn, State.alarmOn, State.afterMonitoring, State.held_monitoringStep]
    rfl
  have hmonitoringA : u.ci.held.monitoring = (s.afterMonitoring bytes).ci.held.monitoring := by
    rw [hmonitoring, State.afterMonitoring, State.held_monitoringStep, ← hbyte]
    rfl
  refine ⟨hmonitoring, hfreeze, hpin, halarmOn, hinterval, hthreshold, fun k hon hoff => ?_, fun hnoCommand => ?_,
    fun hrange => ?_⟩
  · have hcleared : ((s.beforeConsume bytes).alarm k).raised = false := by
      have hdrop : ((s.afterMonitoring bytes).alarmOn k && !(s.beforeConsume bytes).alarmOn k) = true := by
        rw [honA, honG, hon, hoff]
        rfl
      exact congrArg AlarmRow.raised ((hg.alarm k).trans (if_pos hdrop))
    by_contra hraised
    have hbefore := (hbehind.toGlobalsStand.trans hstand).quiet k ((honG k).trans hoff) (by simpa using hraised)
    rw [hcleared] at hbefore
    cases hbefore
  · have hu : u.oq = (s.afterMonitoring bytes).oq := by
      rw [halone hnoCommand, hbehind.oq, State.beforeConsume_eq, State.oq_applyOtherGlobals]
    have hsight : u.cm.sightStart = (s.afterMonitoring bytes).cm.sightStart := by
      rw [halone hnoCommand, hbehind.sightStart, hg.cm]
    simp only [State.Resumes, hu, hsight, hmonitoringA]
    exact ⟨hm.stands, hm.pauses, hm.resumes⟩
  · have hu : u = { s.beforeConsume bytes with rw := u.rw } := by
      rw [halone (names_of_outside hrange (.inl (by decide))), s.applySettings_of_globalsRange bytes hrange]
      exact State.testThreshold_frame _ _
    have hheldU : u.ci.held = (s.beforeConsume bytes).ci.held := by rw [hu]
    have hstep := hg.trans (.of_tau (u := u) (by rw [hu]))
    have hresumes : s.Resumes u ↔ s.Resumes (s.afterMonitoring bytes) := by
      rw [State.Resumes, State.Resumes, hmonitoringA]
    have halert := hstep.alert.trans hm.alert
    simp only [TallyUnit.alert, Prod.mk.injEq] at halert
    obtain ⟨hkind, hvalue, hasserted⟩ := halert
    refine ⟨fun h => ?_, fun h => ?_, ?_, ?_, fun k hk => ?_, fun c hclamped hc => ?_, hkind, hvalue, hasserted, ?_,
      fun hrises => ?_⟩
    · exact (hm.swept (hresumes.1 h)).congr hstep.ft hstep.tt hstep.cm hstep.oq hstep.load hstep.reloadWaiting
        (hstep.agg .configReloads nofun)
    · rw [hstep.ft, hstep.tt, hstep.cm, hstep.oq, hstep.load, hstep.reloadWaiting]
      exact hm.unswept fun hr => h (hresumes.2 hr)
    · rw [hstep.ft, hm.plru]
    · rw [hstep.ft, hm.retire]
    · rw [hresumes] at hk
      rw [hstep.alarm, hm.alarm k hk, Bool.or_false, honA]
      refine if_congr ?_ rfl rfl
      rw [Bool.and_eq_true, Bool.not_eq_true', ← honG]
      rfl
    · rw [hresumes] at hc
      rw [hstep.agg c hclamped, hm.agg c hc]
    · have hnoted : ClampsNoted s (s.afterMonitoring bytes) [] :=
        .of_eq (hm.agg .clampedFields (.inl ⟨nofun, nofun⟩)) hm.lastClamp
      have hclamps := hnoted.trans hstep.clamps
      rw [List.nil_append, List.append_nil, ← State.beforeConsume_eq, ← hheldU, hm.timeBase,
        State.imageField_congr (s.image_afterMonitoring bytes), State.imageField_congr (s.image_afterMonitoring bytes),
        State.imageField_one, hbyte, hpair] at hclamps
      exact hclamps
    · have hcount : (s.beforeConsume bytes).dirtyCount ≤ s.dirtyCount := by
        rw [State.dirtyCount_congr hg.ft]
        exact hm.dirtyCount fun h => hrises (hresumes.2 h)
      have hquiet : u = s.beforeConsume bytes := by
        rw [halone (names_of_outside hrange (.inl (by decide))), s.applySettings_of_globalsRange bytes hrange]
        exact (State.testThreshold_cases _ s).elim (fun h => absurd h.1 hcount.not_gt) And.right
      rw [← s.writerAfterGlobals_of bytes (State.rw_applyOtherGlobals _ bytes) hheldU (congrArg (·.coverage) hstep.oq)
        hstep.ft]
      exact congrArg State.rw hquiet

/-- A control write's globals are held through its command (R163). -/
theorem State.holdsGlobals_applied : HoldsGlobals bytes s (s.applied bytes) :=
  .of_globalsStand (.considerCommand _ bytes) (State.image_of_tables (State.tables_considerCommand _ bytes)) fun h =>
    State.considerCommand_of_known _ (.inl h)

end

/-! ## The statement settled -/

/-- A control write that names a global is handed out and applied, then its command word is considered. -/
theorem exec_globalsWrite {s : State} {o : Observation} (hready : s.controlReady = some o)
    (hnamed : names o.body.named 8 8 = true) :
    exec .globalsWrite s = .next (((s.afterSettings o).considerCommand o.body.named).settle (s.afterSettings o)) := by
  change s.controlCase (namesField 8 8) = _
  rw [State.controlCase, hready]
  exact if_pos hnamed

/-- Settles O38: monitoring enable moves coverage or sweeps, the other globals act on the alarms and RW, and what
follows them in the application leaves the globals and raises no kind that is off. -/
theorem globalsWriteHoldsWhatItNames : Obligations.GlobalsWriteHoldsWhatItNames := by
  intro s o hready hnamed
  refine ⟨_, exec_globalsWrite hready hnamed, ?_, ?_, s.popHead.holdsGlobals_applied o.body.named⟩
  · rw [State.considerCommand_mem]
    exact State.applySettings_mem _ _
  · rw [State.pending_of_tables (State.tables_considerCommand _ _)]
    exact State.applySettings_pending _ _

end Sys2Proof.Machine
end

