-- ==== Sys2Proof/Proofs/LoadReads.lean ====
section
/-! PROOFS. The reads of a load: their bytes, and when they are applied. -/

namespace Sys2Proof.Machine

/-! ## The bytes of a load read (R171) -/

/-- An address is named by itself where the bytes put something there. -/
theorem names_one (bytes : List (Nat × Byte)) (b : Nat) : names bytes b 1 = (lastByte b bytes).isSome := by
  induction bytes with
  | nil => rfl
  | cons c rest ih =>
    have hhead : (decide (b ≤ c.1) && decide (c.1 < b + 1)) = decide (c.1 = b) := by
      rw [← Bool.decide_and, decide_eq_decide]
      omega
    have hsplit : names (c :: rest) b 1 = (decide (c.1 = b) || names rest b 1) := by rw [← hhead]; rfl
    rw [hsplit, ih, lastByte]
    by_cases hc : c.1 = b <;> cases lastByte b rest <;> simp [hc]

/-- A byte put at an address names it. -/
theorem names_of_mem {bytes : List (Nat × Byte)} {c : Nat × Byte} (hc : c ∈ bytes) : names bytes c.1 1 = true :=
  names_iff.2 ⟨c, hc, le_rfl, Nat.lt_succ_self _⟩

theorem names_wordsBytes (a : Nat) (ws : List Word) (b : Nat) :
    names (wordsBytes a ws) b 1 = true ↔ a ≤ b ∧ b < a + 8 * ws.length := by
  rw [names_one, lastByte_wordsBytes]
  split
  · next hle =>
    rw [Option.isSome_map, Option.isSome_iff_ne_none, ne_eq, List.getElem?_eq_none_iff]
    omega
  · next hlt => simp [hlt]

/-! ## When a load read is applied (R172) -/

section
variable {s : State} {r : LoadRead} {rest : List LoadRead}

/-- The state without the load read that is applied. -/
def State.dropLoadRead (s : State) : State := s.onCi fun c => { c with loadReads := c.loadReads.tail }

theorem State.loadReady_eq_none
    (h : s.ci.loadReads = [] ∨ ∃ r rest, s.ci.loadReads = r :: rest ∧ ∃ o ∈ s.oq.queue, o.place < r.place) :
    s.loadReady = none := by
  unfold State.loadReady
  rcases h with hnone | ⟨r, rest, hreads, o, ho, hbefore⟩
  · rw [hnone]
  · rw [hreads]
    exact if_pos (List.any_eq_true.2 ⟨o, ho, decide_eq_true hbefore⟩)

theorem State.loadReady_eq_some (hreads : s.ci.loadReads = r :: rest) (hbefore : ∀ o ∈ s.oq.queue, r.place ≤ o.place) :
    s.loadReady = some r := by
  unfold State.loadReady
  rw [hreads]
  refine if_neg fun hwaits => ?_
  obtain ⟨o, ho, hlt⟩ := List.any_eq_true.1 hwaits
  exact absurd (hbefore o ho) (of_decide_eq_true hlt).not_ge

/-- The first read returned is applied once no record taken before it waits. -/
theorem exec_loadReadApply (hreads : s.ci.loadReads = r :: rest) (hbefore : ∀ o ∈ s.oq.queue, r.place ≤ o.place) :
    exec .loadReadApply s = .next (s.dropLoadRead.applyLoadRead r) := by
  change execLoadReadApply s = _
  rw [execLoadReadApply, State.loadReady_eq_some hreads hbefore]
  rfl

theorem exec_loadReadApply_waits
    (h : s.ci.loadReads = [] ∨ ∃ r rest, s.ci.loadReads = r :: rest ∧ ∃ o ∈ s.oq.queue, o.place < r.place) :
    exec .loadReadApply s = .next s := by
  change execLoadReadApply s = _
  rw [execLoadReadApply, State.loadReady_eq_none h]

end

end Sys2Proof.Machine
end

