-- ==== Sys2Proof/Proofs/LoadEndEffects.lean ====
section
/-! PROOFS. The parts of a load's end: clamped fields, the next load, and coverage. -/

namespace Sys2Proof.Machine

/-! ## Held and written values (R168) -/

theorem State.ringClamped_iff (s : State) (r : Nat) : s.ringClamped r = true ↔ ∃ b, b = 0x100 + 16 * r ∧
    ((s.ring r).base.toNat ≠ s.imageField b 4 % 2 ^ 27 ∨ (s.ring r).slots ≠ s.imageField (b + 4) 2 ∨
      (s.ring r).enabled ≠ (s.imageByte (b + 6)).getLsbD 0) := by
  simp only [State.ringClamped, Bool.or_eq_true, decide_eq_true_eq, or_assoc, exists_eq_left]
  rfl

theorem State.profileClamped_iff (s : State) (p : Nat) : s.profileClamped p = true ↔ ∃ b, b = 0x200 + 32 * p ∧
    ((s.profile p).width ≠ s.imageField (b + 1) 1 ∨ (s.profile p).window ≠ s.imageField (b + 2) 1 ∨
      (s.profile p).staleLimit ≠ s.imageField (b + 3) 1 ∨ (s.profile p).jumpLimit ≠ s.imageField (b + 4) 2 ∨
      (s.profile p).silenceLimit ≠ s.imageField (b + 6) 1 ∨ (s.profile p).budget ≠ s.imageField (b + 12) 4) := by
  simp only [State.profileClamped, Bool.or_eq_true, decide_eq_true_eq, or_assoc, exists_eq_left]
  rfl

theorem State.anyClamped_iff (s : State) : s.anyClamped = true ↔
    s.ci.held.pinCount ≠ s.imageField 9 1 ∨ s.ci.held.dirtyThreshold ≠ s.imageField 14 2 ∨
    s.consume ≠ s.imageField 0x80 2 ∨
    (∃ r < 16, ∃ b, b = 0x100 + 16 * r ∧ ((s.ring r).base.toNat ≠ s.imageField b 4 % 2 ^ 27 ∨
      (s.ring r).slots ≠ s.imageField (b + 4) 2 ∨ (s.ring r).enabled ≠ (s.imageByte (b + 6)).getLsbD 0)) ∨
    ∃ p < 16, ∃ b, b = 0x200 + 32 * p ∧ ((s.profile p).width ≠ s.imageField (b + 1) 1 ∨
      (s.profile p).window ≠ s.imageField (b + 2) 1 ∨ (s.profile p).staleLimit ≠ s.imageField (b + 3) 1 ∨
      (s.profile p).jumpLimit ≠ s.imageField (b + 4) 2 ∨ (s.profile p).silenceLimit ≠ s.imageField (b + 6) 1 ∨
      (s.profile p).budget ≠ s.imageField (b + 12) 4) := by
  simp only [State.anyClamped, Bool.or_eq_true, decide_eq_true_eq, List.any_eq_true, List.mem_range,
    State.ringClamped_iff, State.profileClamped_iff, or_assoc]

/-- Whether a field is clamped hangs on the held settings and the image behind the mailbox words alone. -/
theorem State.anyClamped_congr {s t : State} (hheld : t.ci.held = s.ci.held)
    (himage : ∀ b, 8 ≤ b → t.imageByte b = s.imageByte b) : t.anyClamped = s.anyClamped := by
  have hfield (o n : Nat) (ho : 8 ≤ o) : t.imageField o n = s.imageField o n := by
    refine congrArg natOfBytes (List.map_congr_left fun i _ => himage _ (by omega))
  have hring (r : Nat) : t.ring r = s.ring r := by rw [State.ring, State.ring, hheld]
  have hprofile (p : Nat) : t.profile p = s.profile p := by rw [State.profile, State.profile, hheld]
  have hconsume : t.consume = s.consume := congrArg Held.consume hheld
  have hringClamped (r : Nat) : t.ringClamped r = s.ringClamped r := by
    unfold State.ringClamped State.writtenBase State.writtenSlots State.writtenEnable State.imageBit
    rw [hring, hfield _ _ (by unfold ringOffset; omega), hfield _ _ (by unfold ringOffset; omega),
      himage _ (by unfold ringOffset; omega)]
  have hprofileClamped (p : Nat) : t.profileClamped p = s.profileClamped p := by
    have hoffset (k n : Nat) : t.imageField (profileOffset p + k) n = s.imageField (profileOffset p + k) n :=
      hfield _ _ (by unfold profileOffset; omega)
    simp only [State.profileClamped, hprofile, hoffset]
  unfold State.anyClamped
  rw [hheld, hfield 9 1 (by omega), hfield 14 2 (by omega), hfield 0x80 2 (by omega), hconsume,
    funext hringClamped, funext hprofileClamped]

/-! ## The command word's bytes reach no setting (R167) -/

section
variable {s : State} {bytes : List (Nat × Byte)} (hrange : ∀ c ∈ bytes, c.1 < 8)
include hrange

/-- Bytes of the mailbox words alone are merged, and apply nothing. -/
theorem State.applySettings_of_mailboxRange : s.applySettings bytes = s.merge bytes := by
  have habove (o n : Nat) (h : 8 ≤ o) : names bytes o n = false :=
    names_of_outside (fun c hc => ⟨Nat.zero_le c.1, hrange c hc⟩) (.inr h)
  have hbefore : s.beforeProfiles bytes = s.merge bytes := by
    simp [State.beforeProfiles, State.applyGlobals, State.applyConsume, State.applyRings, habove]
  have hcount : (s.merge bytes).dirtyCount = s.dirtyCount := State.dirtyCount_congr rfl
  have hthreshold : (s.merge bytes).testThreshold s = s.merge bytes :=
    (State.testThreshold_cases _ s).elim (fun h => absurd h.1 (by omega)) And.right
  rw [State.applySettings_eq, hbefore,
    State.applyProfiles_of_unnamed _ fun p _ => habove _ _ (by unfold profileOffset; omega),
    State.applyClassifier_of_unnamed _ fun n _ => habove _ _ (by unfold classifierOffset; omega), hthreshold]

end

/-! ## The next load (R173, R174) -/

/-- A reload that waits starts with the origin it held, and is counted; else nothing happens. -/
theorem State.startWaiting_frame {s : State} (hload : s.ci.load = none) : s.startWaiting = { s with
    tau := if s.ci.reloadWaiting = none then s.tau else (s.count .configReloads).tau
    ci := { s.ci with
      reloadWaiting := none
      load := s.ci.reloadWaiting.map fun o => { kind := .reload o, issued := false }
      loadReads := s.startWaiting.ci.loadReads } } := by
  obtain ⟨pending, mem, fp, oq, ft, tt, cm, tau, rw, ci, freeCount⟩ := s
  obtain ⟨image, held, part, lastTag, inFlight, lastResult, lastClamp, load, loadReads, waiting⟩ := ci
  cases (hload : load = none)
  cases waiting with
  | none => rfl
  | some o => rfl


theorem State.agg_startWaiting {s : State} (hload : s.ci.load = none) (a : Aggregate) :
    s.startWaiting.agg a = if a = .configReloads ∧ s.ci.reloadWaiting ≠ none then min (s.agg a + 1) 4294967295
      else s.agg a := by
  have htau := congrArg State.tau (State.startWaiting_frame hload)
  dsimp only at htau
  by_cases hnone : s.ci.reloadWaiting = none
  · rw [if_neg fun h => h.2 hnone, State.agg, htau, if_pos hnone]
    rfl
  · rw [State.agg, htau, if_neg hnone]
    change (s.count .configReloads).agg a = _
    rw [State.agg_count_eq]
    exact if_congr ⟨fun h => ⟨h, hnone⟩, And.left⟩ rfl rfl

theorem State.alarm_startWaiting (s : State) (k : AlarmKind) : s.startWaiting.alarm k = s.alarm k := by
  unfold State.startWaiting State.requestReload
  split
  · rfl
  · split <;> rfl

/-! ## The end of an INITIAL load (R173) -/

section
variable (s : State)

theorem State.useFree_frame : s.useFree = { s with freeCount := s.useFree.freeCount } := by
  unfold State.useFree
  split <;> rfl

/-- Coverage at the end of an INITIAL load, by monitoring and the losses outstanding (R23). -/
theorem State.coverageAtLoadEnd_cases :
    (s.ci.held.monitoring = false ∧ s.coverageAtLoadEnd = s.setCoverage .paused) ∨
    (s.ci.held.monitoring = true ∧ (s.oq.lossMark = true ∨ ∃ o ∈ s.oq.queue, o.followsLoss = true) ∧
      s.coverageAtLoadEnd = (s.goBlind s.blindCapture).useFree) ∨
    (s.ci.held.monitoring = true ∧ (s.oq.lossMark = false ∧ ∀ o ∈ s.oq.queue, o.followsLoss = false) ∧
      s.coverageAtLoadEnd = s.setCoverage .sighted) := by
  unfold State.coverageAtLoadEnd
  cases hmonitoring : s.ci.held.monitoring
  · exact .inl ⟨rfl, rfl⟩
  refine .inr ?_
  rw [if_neg (by decide)]
  by_cases hloss : s.lossOutstanding = true
  · refine .inl ⟨rfl, ?_, if_pos hloss⟩
    simpa [State.lossOutstanding] using hloss
  · refine .inr ⟨rfl, ?_, if_neg hloss⟩
    simpa [State.lossOutstanding] using hloss

/-- What coverage at the end of an INITIAL load leaves, and that it requests STATUS (R23, R151). -/
structure CoverageSet (s u : State) : Prop where
  ci : u.ci = s.ci
  queue : u.oq.queue = s.oq.queue
  rw : u.rw = { s.rw with statusPending := true }
  timeBase : u.cm.timeBase = s.cm.timeBase
  reloads : u.agg .configReloads = s.agg .configReloads

theorem CoverageSet.setCoverage (c : Coverage) : CoverageSet s (s.setCoverage c) := by
  cases c <;> exact ⟨rfl, rfl, rfl, rfl, rfl⟩

theorem CoverageSet.goBlind (a : Addr) : CoverageSet s (s.goBlind a) := by
  have hset := CoverageSet.setCoverage ((s.count .blindIntervals).trigger .blind a.toNat) .blind
  refine ⟨by simp, ?_, ?_, ?_, ?_⟩
  · exact hset.queue.trans (by simp)
  · exact hset.rw.trans (by simp)
  · exact hset.timeBase.trans (by simp)
  · exact hset.reloads.trans (by simp)

theorem CoverageSet.coverageAtLoadEnd : CoverageSet s s.coverageAtLoadEnd := by
  rcases s.coverageAtLoadEnd_cases with ⟨_, heq⟩ | ⟨_, _, heq⟩ | ⟨_, _, heq⟩
  · rw [heq]
    exact .setCoverage s _
  · have h := CoverageSet.goBlind s s.blindCapture
    rw [heq, State.useFree_frame]
    exact ⟨h.ci, h.queue, h.rw, h.timeBase, h.reloads⟩
  · rw [heq]
    exact .setCoverage s _

/-- The alarm row of BLIND after its trigger, with the first-lost address where there is one (R23, R138). -/
theorem State.alarm_goBlind :
    (s.alarmOn .blind = false → (s.goBlind s.blindCapture).alarm .blind = s.alarm .blind) ∧
    (s.alarmOn .blind = true → (s.goBlind s.blindCapture).alarm .blind = { s.alarm .blind with
      occurrences := min ((s.alarm .blind).occurrences + 1) 65535, raised := true,
      first := if (s.alarm .blind).raised then (s.alarm .blind).first else BitVec.ofNat 32 s.blindCapture.toNat }) := by
  have hset : (s.goBlind s.blindCapture).alarm .blind =
      ((s.count .blindIntervals).trigger .blind s.blindCapture.toNat).alarm .blind := State.alarm_setCoverage _ _ _
  rw [hset]
  refine ⟨fun hoff => ?_, fun hon => ?_⟩
  · rw [State.trigger, if_neg (by simpa [State.alarmOn] using hoff)]
    rfl
  · exact State.alarm_trigger_of_on (s := s.count .blindIntervals) hon _

variable {s}

theorem State.coverage_coverageAtLoadEnd_off (hoff : s.ci.held.monitoring = false) :
    s.coverageAtLoadEnd.oq.coverage = .paused := by
  rcases s.coverageAtLoadEnd_cases with ⟨_, heq⟩ | ⟨hon, _⟩ | ⟨hon, _⟩
  · rw [heq]; rfl
  · rw [hon] at hoff; cases hoff
  · rw [hon] at hoff; cases hoff

/-- With monitoring on and a loss outstanding coverage is BLIND, and the trigger fires (R23). -/
theorem State.coverageAtLoadEnd_blind (hon : s.ci.held.monitoring = true)
    (hloss : s.oq.lossMark = true ∨ ∃ o ∈ s.oq.queue, o.followsLoss = true) :
    s.coverageAtLoadEnd.oq.coverage = .blind ∧
    s.coverageAtLoadEnd.agg .blindIntervals = min (s.agg .blindIntervals + 1) 4294967295 ∧
    (s.alarmOn .blind = false → s.coverageAtLoadEnd.alarm .blind = s.alarm .blind) ∧
    (s.alarmOn .blind = true → s.coverageAtLoadEnd.alarm .blind = { s.alarm .blind with
      occurrences := min ((s.alarm .blind).occurrences + 1) 65535, raised := true,
      first := if (s.alarm .blind).raised then (s.alarm .blind).first else BitVec.ofNat 32 s.blindCapture.toNat }) := by
  obtain ⟨hoq, -, hagg, -⟩ := s.goBlind_effect s.blindCapture
  obtain ⟨hquiet, hraises⟩ := s.alarm_goBlind
  rcases s.coverageAtLoadEnd_cases with ⟨hoff, _⟩ | ⟨_, _, heq⟩ | ⟨_, ⟨hmark, hrecords⟩, _⟩
  · rw [hon] at hoff; cases hoff
  · have hcount := hagg .blindIntervals
    rw [if_pos rfl] at hcount
    rw [heq, State.useFree_frame]
    exact ⟨congrArg ObservationQueue.coverage hoq, hcount, hquiet, hraises⟩
  · rcases hloss with hlost | ⟨o, ho, hfollows⟩
    · rw [hmark] at hlost; cases hlost
    · rw [hrecords o ho] at hfollows; cases hfollows

theorem State.coverageAtLoadEnd_sighted (hon : s.ci.held.monitoring = true) (hmark : s.oq.lossMark = false)
    (hrecords : ∀ o ∈ s.oq.queue, o.followsLoss = false) : s.coverageAtLoadEnd = s.setCoverage .sighted := by
  rcases s.coverageAtLoadEnd_cases with ⟨hoff, _⟩ | ⟨_, hlost | ⟨o, ho, hfollows⟩, _⟩ | ⟨_, _, heq⟩
  · rw [hon] at hoff; cases hoff
  · rw [hmark] at hlost; cases hlost
  · rw [hrecords o ho] at hfollows; cases hfollows
  · exact heq

end

end Sys2Proof.Machine
end

