-- ==== Sys2Proof/Proofs/LoadAnswers.lean ====
section
/-! PROOFS. The end of a load, INITIAL or reload, with its answer. -/

namespace Sys2Proof.Machine

/-! ## The load answered (R173, R174) -/

/-- From `x` to `c` the load's command is answered and STATUS is requested; what the end of every load leaves stands. -/
structure LoadAnswered (x c : State) : Prop where
  ci : c.ci = { x.ci with part := c.ci.part, inFlight := c.ci.inFlight, lastResult := c.ci.lastResult }
  status : c.rw.statusPending = true
  queue : c.oq.queue = x.oq.queue
  reloads : c.agg .configReloads = x.agg .configReloads

/-- From `x`, whose load has ended, to `u` STATUS is requested and a waiting reload starts (R173, R174). -/
structure LoadEnded (x u : State) : Prop where
  held : u.ci.held = x.ci.held
  lastTag : u.ci.lastTag = x.ci.lastTag
  image : u.ci.image = x.ci.image
  status : u.rw.statusPending = true
  waiting : u.ci.reloadWaiting = none
  queue : u.oq.queue = x.oq.queue
  load : u.ci.load = x.ci.reloadWaiting.map fun o => { kind := .reload o, issued := false }
  reloads : u.agg .configReloads =
    if x.ci.reloadWaiting = none then x.agg .configReloads else min (x.agg .configReloads + 1) 4294967295

section
variable {x c : State} (hload : x.ci.load = none)
include hload

theorem LoadAnswered.load (h : LoadAnswered x c) : c.ci.load = none := by
  rw [h.ci]
  exact hload

theorem LoadAnswered.startWaiting (h : LoadAnswered x c) : LoadEnded x c.startWaiting := by
  have hframe := State.startWaiting_frame (h.load hload)
  have hwaiting : c.ci.reloadWaiting = x.ci.reloadWaiting := by rw [h.ci]
  refine ⟨?_, ?_, ?_, ?_, ?_, ?_, ?_, ?_⟩
  · rw [hframe, h.ci]
  · rw [hframe, h.ci]
  · rw [hframe, h.ci]
  · rw [hframe]; exact h.status
  · rw [hframe]
  · rw [hframe]; exact h.queue
  · rw [hframe, ← hwaiting]
  · rw [State.agg_startWaiting (h.load hload), hwaiting, h.reloads]
    by_cases hnone : x.ci.reloadWaiting = none
    · rw [if_neg fun h => h.2 hnone, if_pos hnone]
    · rw [if_pos ⟨rfl, hnone⟩, if_neg hnone]

end

/-! ## The end of an INITIAL load (R173) -/

section
variable (s : State)

theorem State.agg_of_tau {s u : State} (h : u.tau = s.tau) (a : Aggregate) : u.agg a = s.agg a := by
  rw [State.agg, h, State.agg]

theorem State.alarm_of_tau {s u : State} (h : u.tau = s.tau) (k : AlarmKind) : u.alarm k = s.alarm k := by
  rw [State.alarm, h, State.alarm]

theorem State.answerRestart_cases :
    (∃ tag, s.ci.inFlight = some (.restart, tag) ∧ s.answerRestart = s.finishCommand tag .done) ∨
    ((∀ tag, s.ci.inFlight ≠ some (.restart, tag)) ∧ s.answerRestart = s) := by
  unfold State.answerRestart
  split
  · next tag hflight => exact .inl ⟨tag, hflight, rfl⟩
  · next hother => exact .inr ⟨fun tag => hother tag, rfl⟩

/-- The state that enters RUNNING at the end of an INITIAL load, before coverage is set (R173). -/
def State.enterRunning : State := s.onCi fun c => { c with part := .running }

theorem LoadAnswered.answerRestart {s c : State} (h : LoadAnswered s c) : LoadAnswered s c.answerRestart := by
  rcases c.answerRestart_cases with ⟨tag, _, heq⟩ | ⟨_, heq⟩
  · rw [heq]
    refine ⟨?_, rfl, h.queue, h.reloads⟩
    have hci : (c.finishCommand tag .done).ci = { c.ci with
      inFlight := none, lastResult := (c.finishCommand tag .done).ci.lastResult } := rfl
    rw [hci, h.ci]
  · rwa [heq]

/-- From `s` to `u` an INITIAL load ends, with coverage set as in `a` (R161, R173). -/
structure InitialEnded (s a u : State) : Prop where
  part : u.ci.part = .running
  produce : u.rw.produce = s.consume
  intervalBase : u.rw.intervalBase = s.cm.timeBase
  intervalFired : u.rw.intervalFired = false
  coverage : u.oq.coverage = a.oq.coverage
  sightStart : u.cm.sightStart = a.cm.sightStart
  agg : ∀ c, c ≠ .configReloads → u.agg c = a.agg c
  alarm : ∀ k, u.alarm k = a.alarm k
  restart : ∀ tag, s.ci.inFlight = some (.restart, tag) → u.ci.inFlight = none ∧
    u.ci.lastResult = some { tag := tag, code := .done, time := s.cm.timeBase }

section
variable {s} {a : State} (h : CoverageSet s.enterRunning a)
include h

theorem LoadAnswered.of_coverageSet : LoadAnswered s a.startWriter.requestStatus := by
  have hci : a.startWriter.requestStatus.ci = { s.ci with part := .running } := h.ci
  exact ⟨by rw [hci], rfl, h.queue, h.reloads⟩

theorem InitialEnded.of_coverageSet : InitialEnded s a a.startWriter.requestStatus.answerRestart := by
  have hci : a.startWriter.requestStatus.ci = { s.ci with part := .running } := h.ci
  have hpart : a.startWriter.requestStatus.ci.part = .running := congrArg ControlInterface.part hci
  have hproduce : a.startWriter.requestStatus.rw.produce = s.consume := congrArg (fun c => c.held.consume) h.ci
  have hbase : a.startWriter.requestStatus.rw.intervalBase = s.cm.timeBase := h.timeBase
  have htime : a.startWriter.requestStatus.now = s.cm.timeBase := h.timeBase
  have hfired : a.startWriter.requestStatus.rw.intervalFired = false := rfl
  have hcoverage : a.startWriter.requestStatus.oq.coverage = a.oq.coverage := rfl
  have hsight : a.startWriter.requestStatus.cm.sightStart = a.cm.sightStart := rfl
  have htau : a.startWriter.requestStatus.tau = a.tau := rfl
  generalize a.startWriter.requestStatus = c at *
  rcases c.answerRestart_cases with ⟨tag, hflight, heq⟩ | ⟨hother, heq⟩
  · rw [heq]
    refine ⟨hpart, hproduce, hbase, hfired, hcoverage, hsight, fun b _ => State.agg_of_tau htau b,
      State.alarm_of_tau htau, fun tag' hflight' => ⟨rfl, ?_⟩⟩
    rw [hci] at hflight
    obtain rfl : tag = tag' := by simpa [hflight'] using hflight.symm
    exact congrArg (fun t => some (⟨tag, .done, t⟩ : MailboxResult)) htime
  · rw [heq]
    refine ⟨hpart, hproduce, hbase, hfired, hcoverage, hsight, fun b _ => State.agg_of_tau htau b,
      State.alarm_of_tau htau, fun tag hflight => ?_⟩
    exact absurd (by rw [hci]; exact hflight) (hother tag)

end

/-- A waiting reload that starts leaves what the end of an INITIAL load set. -/
theorem InitialEnded.startWaiting {s a c : State} (h : InitialEnded s a c) (hload : c.ci.load = none) :
    InitialEnded s a c.startWaiting := by
  have hframe := State.startWaiting_frame hload
  refine ⟨?_, ?_, ?_, ?_, ?_, ?_, fun b hb => ?_, fun k => ?_, fun tag hflight => ?_⟩
  · rw [hframe]; exact h.part
  · rw [hframe]; exact h.produce
  · rw [hframe]; exact h.intervalBase
  · rw [hframe]; exact h.intervalFired
  · rw [hframe]; exact h.coverage
  · rw [hframe]; exact h.sightStart
  · rw [State.agg_startWaiting hload, if_neg fun h => hb h.1, h.agg b hb]
  · rw [State.alarm_startWaiting, h.alarm]
  · rw [hframe]; exact h.restart tag hflight

theorem InitialEnded.endInitial (hload : s.ci.load = none) :
    InitialEnded s s.enterRunning.coverageAtLoadEnd s.endInitial := by
  have h := CoverageSet.coverageAtLoadEnd s.enterRunning
  exact (InitialEnded.of_coverageSet h).startWaiting ((LoadAnswered.of_coverageSet h).answerRestart.load hload)

theorem LoadEnded.endInitial (hload : s.ci.load = none) : LoadEnded s s.endInitial :=
  (LoadAnswered.of_coverageSet (.coverageAtLoadEnd s.enterRunning)).answerRestart.startWaiting hload

/-! ## The end of a reload (R174) -/

theorem State.answerReload_cases (o : ReloadOrigin) :
    (∃ tag, o = .command ∧ s.ci.inFlight = some (.reloadConfig, tag) ∧
      s.answerReload o = s.finishCommand tag (if s.anyClamped then .clamped else .done)) ∨
    ((o = .command → ∀ tag, s.ci.inFlight ≠ some (.reloadConfig, tag)) ∧ s.answerReload o = s) := by
  unfold State.answerReload
  split
  · next tag hflight => exact .inl ⟨tag, rfl, hflight, rfl⟩
  · next hother => exact .inr ⟨fun ho tag hflight => hother tag ho hflight, rfl⟩

/-- What the end of a reload leaves beside what the end of every load leaves, and the answer of one of origin COMMAND
(R168, R174). -/
structure ReloadEnded (s u : State) (o : ReloadOrigin) : Prop where
  part : u.ci.part = s.ci.part
  produce : u.rw.produce = s.rw.produce
  intervalBase : u.rw.intervalBase = s.rw.intervalBase
  oq : u.oq = s.oq
  answer : ∀ tag, o = .command → s.ci.inFlight = some (.reloadConfig, tag) → u.ci.inFlight = none ∧
    u.ci.lastResult =
      some { tag := tag, code := if s.anyClamped then .clamped else .done, time := s.cm.timeBase }

theorem LoadAnswered.answerReload (o : ReloadOrigin) : LoadAnswered s (s.answerReload o).requestStatus := by
  rcases s.answerReload_cases o with ⟨tag, _, _, heq⟩ | ⟨_, heq⟩ <;> rw [heq] <;> exact ⟨rfl, rfl, rfl, rfl⟩

theorem ReloadEnded.answerReload (o : ReloadOrigin) : ReloadEnded s (s.answerReload o).requestStatus o := by
  rcases s.answerReload_cases o with ⟨tag, _, hflight, heq⟩ | ⟨hother, heq⟩
  · rw [heq]
    refine ⟨rfl, rfl, rfl, rfl, fun tag' _ hflight' => ⟨rfl, ?_⟩⟩
    obtain rfl : tag = tag' := by simpa [hflight'] using hflight.symm
    rfl
  · rw [heq]
    exact ⟨rfl, rfl, rfl, rfl, fun tag ho hflight => absurd hflight (hother ho tag)⟩

theorem LoadEnded.endReload (hload : s.ci.load = none) (o : ReloadOrigin) : LoadEnded s (s.endReload o) :=
  (LoadAnswered.answerReload s o).startWaiting hload

theorem ReloadEnded.endReload (hload : s.ci.load = none) (o : ReloadOrigin) : ReloadEnded s (s.endReload o) o := by
  have h := ReloadEnded.answerReload s o
  have hframe := State.startWaiting_frame ((LoadAnswered.answerReload s o).load hload)
  change ReloadEnded s (s.answerReload o).requestStatus.startWaiting o
  generalize (s.answerReload o).requestStatus = c at *
  refine ⟨?_, ?_, ?_, ?_, fun tag ho hflight => ?_⟩
  · rw [hframe]; exact h.part
  · rw [hframe]; exact h.produce
  · rw [hframe]; exact h.intervalBase
  · rw [hframe]; exact h.oq
  · rw [hframe]; exact h.answer tag ho hflight

end

end Sys2Proof.Machine
end

