-- ==== Sys2Proof/Proofs/CommandWordRead.lean ====
section
/-! PROOFS. The read of the command word, which ends the load. -/

namespace Sys2Proof.Machine

/-! ## The read of the command word (R167, R172) -/

/-- The state `x` is `s` whose load has ended with the read of command word `w`, before the load's end acts (R167,
R172). -/
structure LoadClosed (s x : State) (w : Word) : Prop where
  frame : x = { s with ci := x.ci }
  held : x.ci.held = s.ci.held
  load : x.ci.load = none
  part : x.ci.part = s.ci.part
  inFlight : x.ci.inFlight = s.ci.inFlight
  waiting : x.ci.reloadWaiting = s.ci.reloadWaiting
  lastTag : x.ci.lastTag = x.imageByte 0
  image : ∀ b, x.imageByte b = if b < 8 then w.extractLsb' (8 * b) 8 else s.imageByte b

section
variable {s x u : State} {r : LoadRead} {w : Word} {l : Load}

/-- The state after bytes are merged, with the command word's tag taken and no load in progress. -/
def State.closeLoad (s : State) (bytes : List (Nat × Byte)) : State :=
  ((s.dropLoadRead.merge bytes).takeTag (s.dropLoadRead.merge bytes).commandTag).onCi fun c => { c with load := none }

theorem LoadClosed.closeLoad (s : State) (w : Word) : LoadClosed s (s.closeLoad (wordsBytes 0 [w])) w := by
  have himage (b : Nat) : (lastByte b (wordsBytes 0 [w])).getD (s.imageByte b) =
      if b < 8 then w.extractLsb' (8 * b) 8 else s.imageByte b := by
    rw [lastByte_wordsBytes, if_pos b.zero_le]
    by_cases hb : b < 8
    · have hindex : (b - 0) / 8 = 0 := by omega
      have hlane : (b - 0) % 8 = b := by omega
      rw [hindex, hlane, if_pos hb]
      rfl
    · rw [List.getElem?_eq_none (by simp; omega), if_neg hb]
      rfl
  generalize wordsBytes 0 [w] = bytes at *
  exact ⟨rfl, rfl, rfl, rfl, rfl, rfl, rfl, fun b => (s.dropLoadRead.imageByte_merge bytes b).trans (himage b)⟩

theorem LoadRead.bytes_of_commandWord (hoffset : r.offset = 0) (hwords : r.words = [w]) :
    r.bytes = wordsBytes 0 [w] := by
  rw [LoadRead.bytes, if_neg (by simp [hwords]), hoffset, hwords]

theorem State.endLoad_of_initial (hload : s.ci.load = some l) (hkind : l.kind = .initial) :
    s.endLoad = (s.onCi fun c => { c with load := none }).endInitial := by
  simp only [State.endLoad, hload, hkind]

theorem State.endLoad_of_reload {o : ReloadOrigin} (hload : s.ci.load = some l) (hkind : l.kind = .reload o) :
    s.endLoad = (s.onCi fun c => { c with load := none }).endReload o := by
  simp only [State.endLoad, hload, hkind]

/-- The command word's read merges its bytes, applies no setting, and ends the load (R172). -/
theorem State.applyLoadRead_of_commandWord (hoffset : r.offset = 0) (hwords : r.words = [w])
    (hload : s.ci.load = some l) : ∃ x, LoadClosed s x w ∧
      (l.kind = .initial → s.dropLoadRead.applyLoadRead r = x.endInitial.settle s) ∧
      ∀ o, l.kind = .reload o → s.dropLoadRead.applyLoadRead r = (x.endReload o).settle s := by
  refine ⟨_, LoadClosed.closeLoad s w, ?_⟩
  have hrange : ∀ c ∈ wordsBytes 0 [w], c.1 < 8 := fun c hc => by
    have hnamed := (names_wordsBytes 0 [w] c.1).1 (names_of_mem hc)
    simpa using hnamed.2
  have hword : r.isCommandWord = true := by simp [LoadRead.isCommandWord, hoffset, hwords]
  rw [State.applyLoadRead, LoadRead.bytes_of_commandWord hoffset hwords, State.applySettings_of_mailboxRange hrange]
  generalize wordsBytes 0 [w] = bytes
  have hcount : (s.dropLoadRead.merge bytes).dirtyCount = s.dirtyCount := State.dirtyCount_congr rfl
  have hstill : ((s.dropLoadRead.merge bytes).takeTag (s.dropLoadRead.merge bytes).commandTag).ci.load = some l := hload
  rw [State.settle_congr _ hcount, State.considerLoadRead, if_pos hword]
  refine ⟨fun hkind => ?_, fun o hkind => ?_⟩
  · rw [State.endLoad_of_initial hstill hkind]; rfl
  · rw [State.endLoad_of_reload hstill hkind]; rfl

/-! ## What the load's end leaves of the state before it -/

section
variable (h : LoadClosed s x w)
include h

theorem LoadClosed.oq : x.oq = s.oq := by rw [h.frame]
theorem LoadClosed.rw : x.rw = s.rw := by rw [h.frame]
theorem LoadClosed.cm : x.cm = s.cm := by rw [h.frame]
theorem LoadClosed.tau : x.tau = s.tau := by rw [h.frame]
theorem LoadClosed.consume : x.consume = s.consume := congrArg Held.consume h.held

theorem LoadClosed.loadSide : LoadSide s x := by
  rw [LoadSide, h.frame]

theorem LoadClosed.anyClamped : x.anyClamped = s.anyClamped :=
  State.anyClamped_congr h.held fun b hb => by rw [h.image, if_neg (by omega)]

/-- The load's end keeps the tag and the bytes of the command word (R167). -/
theorem LoadClosed.commandWord (hended : LoadEnded x u) : u.ci.lastTag = w.extractLsb' 0 8 ∧
    ∀ i < 8, u.imageByte i = w.extractLsb' (8 * i) 8 := by
  refine ⟨?_, fun i hi => ?_⟩
  · rw [hended.lastTag, h.lastTag, h.image, if_pos (by decide)]
  · rw [State.imageByte_congr hended.image, h.image, if_pos hi]

/-- What the end of every load leaves, in terms of the state before it (R151, R174). -/
theorem LoadClosed.ended (hended : LoadEnded x u) :
    u.ci.held = s.ci.held ∧ u.oq.queue = s.oq.queue ∧
    u.ci.load = s.ci.reloadWaiting.map (fun o => { kind := .reload o, issued := false }) ∧
    u.agg .configReloads = if s.ci.reloadWaiting = none then s.agg .configReloads
      else min (s.agg .configReloads + 1) 4294967295 := by
  refine ⟨hended.held.trans h.held, ?_, ?_, ?_⟩
  · rw [hended.queue, h.oq]
  · rw [hended.load, h.waiting]
  · rw [hended.reloads, h.waiting, State.agg_of_tau h.tau]

/-- Coverage and the BLIND trigger at the end of an INITIAL load, in terms of the state before it (R23). -/
theorem LoadClosed.coverage (hinitial : InitialEnded x x.enterRunning.coverageAtLoadEnd u) :
    (s.ci.held.monitoring = false → u.oq.coverage = .paused) ∧
    (s.ci.held.monitoring = true → (s.oq.lossMark = true ∨ ∃ o ∈ s.oq.queue, o.followsLoss = true) →
      u.oq.coverage = .blind ∧ u.agg .blindIntervals = min (s.agg .blindIntervals + 1) 4294967295 ∧
      (s.alarmOn .blind = false → u.alarm .blind = s.alarm .blind) ∧
      (s.alarmOn .blind = true → (u.alarm .blind).raised = true ∧ (u.alarm .blind).held = (s.alarm .blind).held ∧
        (u.alarm .blind).occurrences = min ((s.alarm .blind).occurrences + 1) 65535 ∧
        ((s.alarm .blind).raised = true → (u.alarm .blind).first = (s.alarm .blind).first) ∧
        ∀ a, s.oq.firstLost = some a → (s.alarm .blind).raised = false →
          (u.alarm .blind).first = BitVec.ofNat 32 a.toNat)) ∧
    (s.ci.held.monitoring = true → s.oq.lossMark = false → (∀ o ∈ s.oq.queue, o.followsLoss = false) →
      u.oq.coverage = .sighted ∧ u.cm.sightStart = s.cm.timeBase) := by
  have hheld : x.enterRunning.ci.held = s.ci.held := h.held
  have hoq : x.enterRunning.oq = s.oq := h.oq
  have hcm : x.enterRunning.cm = s.cm := h.cm
  have htau : x.enterRunning.tau = s.tau := h.tau
  have halarmOn : x.enterRunning.alarmOn .blind = s.alarmOn .blind := by rw [State.alarmOn, hheld, State.alarmOn]
  have hcoverage := hinitial.coverage
  have hsight := hinitial.sightStart
  have hcount := hinitial.agg .blindIntervals nofun
  have halarm := hinitial.alarm .blind
  generalize x.enterRunning = y at *
  refine ⟨fun hoff => ?_, fun hon hloss => ?_, fun hon hmark hrecords => ?_⟩
  · exact hcoverage.trans (State.coverage_coverageAtLoadEnd_off (by rw [hheld, hoff]))
  · obtain ⟨hblind, hcounted, hquiet, hraises⟩ :=
      State.coverageAtLoadEnd_blind (s := y) (by rw [hheld, hon]) (by rw [hoq]; exact hloss)
    rw [State.agg_of_tau htau] at hcounted
    rw [State.alarm_of_tau htau, halarmOn] at hquiet hraises
    refine ⟨hcoverage.trans hblind, hcount.trans hcounted, fun hoff => halarm.trans (hquiet hoff), fun hkind => ?_⟩
    rw [halarm, hraises hkind]
    refine ⟨rfl, rfl, rfl, fun hraised => if_pos hraised, fun a hlost hclear => ?_⟩
    have hcaptured : y.blindCapture = a := by rw [State.blindCapture, hoq, hlost, Option.getD_some]
    rw [← hcaptured]
    exact if_neg (by simp [hclear])
  · have hsighted := State.coverageAtLoadEnd_sighted (s := y) (by rw [hheld, hon]) (by rw [hoq, hmark])
      (by rw [hoq]; exact hrecords)
    rw [hcoverage, hsight, hsighted, ← hcm]
    exact ⟨rfl, rfl⟩

end
end

/-! ## The statement settled -/

/-- Settles O47: the command word's read applies no setting; its tag is taken and the load ends, as an INITIAL load into
RUNNING with its coverage, as a reload with its answer, and either way with the next load. -/
theorem commandWordReadEndsTheLoad : Obligations.CommandWordReadEndsTheLoad := by
  refine ⟨State.anyClamped_iff, fun s r rest w l hreads hbefore hload hoffset hwords => ?_⟩
  obtain ⟨x, hclosed, hinitial, hreload⟩ := State.applyLoadRead_of_commandWord hoffset hwords hload
  have hexec := exec_loadReadApply hreads hbefore
  cases hkind : l.kind with
  | initial =>
    rw [hinitial hkind] at hexec
    have hended := LoadEnded.endInitial x hclosed.load
    have hruns := InitialEnded.endInitial x hclosed.load
    have hleaves := hclosed.loadSide.trans (.endInitial x)
    obtain ⟨hfp, hmem, hpending⟩ := hleaves.sameLink
    obtain ⟨htag, hbytes⟩ := hclosed.commandWord hended
    obtain ⟨hheld, hqueue, hnext, hcount⟩ := hclosed.ended hended
    obtain ⟨hpaused, hblind, hsighted⟩ := hclosed.coverage hruns
    refine ⟨_, hexec, hmem, hpending, hfp, hheld, htag, hbytes, hended.status, hended.waiting, hqueue, hleaves.ft,
      hleaves.tt, hnext, hcount, fun _ => ⟨hruns.part, ?_, ?_, hruns.intervalFired, hpaused, hblind, hsighted, ?_⟩,
      nofun, nofun⟩
    · rw [hruns.produce, hclosed.consume]
    · rw [hruns.intervalBase, hclosed.cm]
    · rw [← hclosed.inFlight, ← hclosed.cm]
      exact hruns.restart
  | reload o =>
    rw [hreload o hkind] at hexec
    have hended := LoadEnded.endReload x hclosed.load o
    have hanswered := ReloadEnded.endReload x hclosed.load o
    have hleaves := hclosed.loadSide.trans (.endReload x o)
    obtain ⟨hfp, hmem, hpending⟩ := hleaves.sameLink
    obtain ⟨htag, hbytes⟩ := hclosed.commandWord hended
    obtain ⟨hheld, hqueue, hnext, hcount⟩ := hclosed.ended hended
    refine ⟨_, hexec, hmem, hpending, hfp, hheld, htag, hbytes, hended.status, hended.waiting, hqueue, hleaves.ft,
      hleaves.tt, hnext, hcount, nofun, fun _ _ => ?_, fun tag horigin hflight => ?_⟩
    · rw [hanswered.part, hanswered.produce, hanswered.oq, hanswered.intervalBase, hclosed.part, hclosed.rw, hclosed.oq]
      exact ⟨rfl, rfl, rfl, rfl⟩
    · rw [← hclosed.inFlight] at hflight
      rw [← hclosed.anyClamped, ← hclosed.cm]
      exact hanswered.answer tag (LoadKind.reload.inj horigin) hflight

end Sys2Proof.Machine
end

