-- ==== Sys2Proof/Proofs/LoadSettings.lean ====
section
/-! PROOFS. An application during a load: the load and the report ring stand, and it holds what a control write holds before
its command. -/

namespace Sys2Proof.Machine

/-! ## The load through an application (R171, R174) -/

section
variable (s : State) (bytes : List (Nat × Byte))

variable {s} in
/-- A sweep with a load in progress leaves it: an owed reload waits (R174). -/
theorem State.loading_sweep (hload : s.ci.load ≠ none) : s.sweep.ci.loading = s.ci.loading := by
  have hblocks : s.sweepBlocks.ci.load ≠ none := by rwa [State.sweepBlocks_ci]
  rw [State.sweep_eq]
  split
  · rw [State.requestReload_busy _ hblocks]
    have hblocksLoading : s.sweepBlocks.ci.loading = s.ci.loading := congrArg ControlInterface.loading s.sweepBlocks_ci
    exact hblocksLoading
  · exact congrArg ControlInterface.loading s.sweepBlocks_ci

variable {s} in
theorem State.loading_monitoringStep (hload : s.ci.load ≠ none) :
    (s.monitoringStep bytes).ci.loading = s.ci.loading := by
  unfold State.monitoringStep
  split
  · rcases s.applyMonitoring_cases with ⟨_, heq⟩ | ⟨_, ⟨_, heq⟩ | ⟨_, _, _, heq⟩ | ⟨_, _, _, heq⟩⟩
    · rw [heq]; rfl
    · rw [heq]; rfl
    · have hswept : (s.holdMonitoring true).sweep.ci.loading = s.ci.loading := State.loading_sweep hload
      rw [heq]
      generalize (s.holdMonitoring true).sweep = y at hswept
      exact hswept
    · rw [heq]; rfl
  · rfl

variable {s} in
/-- An application during a load leaves it in progress, with its reads. -/
theorem State.loading_applySettings (hload : s.ci.load ≠ none) :
    (s.applySettings bytes).ci.loading = s.ci.loading := by
  have hmonitoring : (s.afterMonitoring bytes).ci.loading = s.ci.loading :=
    State.loading_monitoringStep (s := s.merge bytes) bytes hload
  rw [(SettingsStand.applySettings s bytes).loading, State.beforeConsume_eq,
    (GlobalStep.applyOtherGlobals _ bytes).loading, hmonitoring]

/-! ## The report ring through an application -/

theorem State.reportRing_applySettings : (s.applySettings bytes).reportRing = (s.beforeRings bytes).reportRing := by
  calc (s.applySettings bytes).reportRing
      = (s.beforeProfiles bytes).reportRing := by
        rw [State.applySettings_eq, State.reportRing_testThreshold, State.reportRing_applyClassifier,
          State.reportRing_applyProfiles]
    _ = (s.beforeRings bytes).reportRing := State.reportRing_applyRings _ _ _

theorem State.produce_applyConsume : (s.applyConsume bytes).rw.produce = s.rw.produce := by
  have hidle (t : State) : t.drainIdle.rw.produce = t.rw.produce := by
    unfold State.drainIdle
    dsimp only
    split <;> rfl
  have heffect (t : State) : t.consumeEffect.rw.produce = t.rw.produce := by
    unfold State.consumeEffect
    split
    · exact hidle t
    · rfl
  unfold State.applyConsume
  dsimp only
  split_ifs
  · rfl
  · exact heffect _
  · rw [State.noteClamp_rw]
  · rfl

/-- An application leaves the produce index (R146). -/
theorem State.produce_applySettings : (s.applySettings bytes).rw.produce = s.rw.produce := by
  have hproduce {t u : State} (h : t.reportRing = u.reportRing) : t.rw.produce = u.rw.produce := congrArg Prod.fst h
  calc (s.applySettings bytes).rw.produce
      = (s.beforeRings bytes).rw.produce := hproduce (s.reportRing_applySettings bytes)
    _ = (s.beforeConsume bytes).rw.produce := State.produce_applyConsume _ bytes
    _ = (s.merge bytes).rw.produce := hproduce (State.reportRing_applyGlobals _ bytes)

/-! ## What an application holds before its command -/

/-- Where no command word is named, the settings are all that is applied (R163). -/
theorem State.applied_of_unnamed {bytes : List (Nat × Byte)} (h : names bytes 0 8 = false) :
    s.applied bytes = s.applySettings bytes := State.considerCommand_of_known _ (.inl h)

theorem State.holdsGlobals_applySettings : HoldsGlobals bytes s (s.applySettings bytes) :=
  .of_globalsStand (.refl _) rfl fun _ => rfl

theorem State.image_considerCommand : (s.considerCommand bytes).ci.image = s.ci.image :=
  State.image_of_tables (s.tables_considerCommand bytes)

theorem State.holdsConsume_applySettings {bytes : List (Nat × Byte)} (hnamed : names bytes 0x80 2 = true) :
    HoldsConsume bytes s (s.applySettings bytes) := by
  intro v hv
  have hbyte (b : Nat) : (s.applied bytes).imageByte b = (s.applySettings bytes).imageByte b :=
    State.imageByte_considerCommand _ _ _
  obtain ⟨hheld, -⟩ := RingUnblocked.considerCommand (s.applySettings bytes) bytes
  obtain ⟨hlegal, hillegal, -, hrange⟩ := s.holdsConsume_applied hnamed v (by rw [hbyte, hbyte, hv])
  rw [State.applied, hheld] at hlegal hillegal
  refine ⟨hlegal, hillegal, fun hstalled hbelow hnew hroom hstill => ?_, fun h => ?_⟩
  · have hb : v = (s.beforeConsume bytes).imageField 0x80 2 := by
      rw [s.imageField_beforeConsume, hbyte, hbyte, hv]
    have hring : (s.beforeConsume bytes).reportRing = s.reportRing := State.reportRing_applyGlobals _ _
    simp only [State.reportRing, Prod.mk.injEq, decide_eq_decide] at hring
    obtain ⟨hproduce, hconsume, hdrain⟩ := hring
    have hblocked := (RingUnblocked.of_eq (s.reportRing_applySettings bytes)).2 hstill
    have hfreed := State.rw_applyConsume_of_room hnamed hb (hdrain.2 hstalled) hbelow (hconsume.symm ▸ hnew)
      (hproduce.symm ▸ hroom)
    exact State.drain_drainIdle _ (hfreed ▸ hblocked)
  · rw [← s.applied_of_unnamed (names_of_outside h (.inl (by decide)))]
    exact hrange h

theorem State.holdsRings_applySettings {bytes : List (Nat × Byte)} (hnamed : names bytes 0x100 256 = true)
    (hsize : ∀ r, (s.ring r).slots ≤ 256) : HoldsRings bytes s (s.applySettings bytes) := by
  have hbyte (b : Nat) : (s.applied bytes).imageByte b = (s.applySettings bytes).imageByte b :=
    State.imageByte_considerCommand _ _ _
  have hfield (o n : Nat) : (s.applied bytes).imageField o n = (s.applySettings bytes).imageField o n :=
    State.imageField_congr (State.image_considerCommand _ _) o n
  have hring (r : Nat) : (s.applied bytes).ring r = (s.applySettings bytes).ring r :=
    (FramesStand.considerCommand _ bytes).ring r
  have hcommand (hrange : ∀ c ∈ bytes, 0x100 ≤ c.1) : s.applied bytes = s.applySettings bytes :=
    State.considerCommand_of_range hrange _
  obtain ⟨hevaluated, hstands, -, hslots, hrange⟩ := s.holdsRings_applied hnamed hsize
  simp only [hbyte, hfield, hring] at hevaluated hstands
  refine ⟨hevaluated, hstands, fun r hne henabled i hi => ?_, fun h => ?_, fun h => ?_⟩
  · rw [← hring] at hne
    have hheld := s.ring_applied hnamed r
    have hr : r < 16 := by
      by_contra hbeyond
      rw [if_neg hbeyond] at hheld
      exact hne hheld
    rw [if_pos hr] at hheld
    refine (FramesStand.afterRings (s.beforeProfiles bytes) bytes s).empty _ ?_
    rw [s.beforeProfiles_eq hnamed]
    refine State.slot_regeometry_of_changed _ (List.mem_range.2 hr) ?_ ?_ ?_
    · rw [State.ring_notedRings, ← hheld]
      exact hne.symm
    · rw [State.ring_notedRings]; exact henabled
    · rw [State.ring_notedRings]; exact hi
  · rw [← hcommand h]
    exact hslots h
  · rw [← hcommand fun c hc => (h c hc).1]
    exact hrange h

theorem State.holdsProfiles_applySettings : HoldsProfiles bytes s (s.applySettings bytes) := by
  have hbyte (b : Nat) : (s.applied bytes).imageByte b = (s.applySettings bytes).imageByte b :=
    State.imageByte_considerCommand _ _ _
  have hfield (o n : Nat) : (s.applied bytes).imageField o n = (s.applySettings bytes).imageField o n :=
    State.imageField_congr (State.image_considerCommand _ _) o n
  have hprofile (p : Nat) : (s.applied bytes).profile p = (s.applySettings bytes).profile p :=
    State.profile_of_tables (State.tables_considerCommand _ _) p
  have hentry (c : Nat) : (s.applied bytes).classifierEntry c = (s.applySettings bytes).classifierEntry c :=
    State.classifierEntry_of_tables (State.tables_considerCommand _ _) c
  obtain ⟨hfields, hclassifier, hrange⟩ := s.holdsProfiles_applied bytes
  simp only [HoldsProfileFields, HoldsClassifier, hbyte, hfield, hprofile, hentry] at hfields hclassifier
  refine ⟨hfields, hclassifier, fun h => ?_⟩
  rw [← s.applied_of_unnamed (names_of_outside h (.inl (by decide)))]
  exact hrange h

end

end Sys2Proof.Machine
end

