-- ==== Sys2Proof/Proofs/LoadReadApplied.lean ====
section
/-! PROOFS. A load read that brings settings. -/

namespace Sys2Proof.Machine

/-! ## The image bytes of a read that brings settings (R171, log 17) -/

section
variable {r : LoadRead} (hsettings : r.offset ≠ 0 ∨ r.words.length ≠ 1)
include hsettings

/-- What a load read puts at an address: the lane of its word there, but for the command word of the first block. -/
theorem LoadRead.lastByte_bytes (b : Nat) :
    lastByte b r.bytes = if r.offset ≤ b ∧ (r.offset = 0 → 8 ≤ b) then
      r.words[(b - r.offset) / 8]?.map fun w => lane w ((b - r.offset) % 8) else none := by
  unfold LoadRead.bytes
  by_cases hoffset : r.offset = 0
  · rw [if_pos ⟨hoffset, hsettings.resolve_left (not_not_intro hoffset)⟩, lastByte_wordsBytes, hoffset]
    by_cases hb : 8 ≤ b
    · have hindex : (b - 8) / 8 + 1 = (b - 0) / 8 := by omega
      have hlane : (b - 8) % 8 = (b - 0) % 8 := by omega
      rw [if_pos hb, if_pos ⟨b.zero_le, fun _ => hb⟩, List.getElem?_tail, hindex, hlane]
    · rw [if_neg hb, if_neg fun h => hb (h.2 rfl)]
  · rw [if_neg fun h => hoffset h.1, lastByte_wordsBytes]
    exact if_congr (and_iff_left fun h => absurd h hoffset).symm rfl rfl

theorem LoadRead.names_bytes (b : Nat) :
    names r.bytes b 1 = true ↔ r.offset ≤ b ∧ b < r.offset + 8 * r.words.length ∧ (r.offset = 0 → 8 ≤ b) := by
  rw [names_one, LoadRead.lastByte_bytes hsettings]
  split
  · next h =>
    rw [Option.isSome_map, Option.isSome_iff_ne_none, ne_eq, List.getElem?_eq_none_iff]
    omega
  · next h =>
    have hfalse : ¬ (r.offset ≤ b ∧ b < r.offset + 8 * r.words.length ∧ (r.offset = 0 → 8 ≤ b)) :=
      fun ⟨hstart, _, hfirst⟩ => h ⟨hstart, hfirst⟩
    simpa using hfalse

end

/-! ## A record behind a load read (R172) -/

theorem State.headReady_of_loadPlace {s : State} {o : Observation} {rest : List Observation}
    (hqueue : s.oq.queue = o :: rest) (h : ∃ p ∈ s.loadPlaces, p < o.place) : s.headReady = none := by
  obtain ⟨p, hp, hlt⟩ := h
  have hany : (s.loadPlaces.any fun p => decide (p < o.place)) = true := List.any_eq_true.2 ⟨p, hp, decide_eq_true hlt⟩
  simp only [State.headReady, hqueue, hany]
  split <;> rfl

/-! ## The read dropped is no part of what an application holds -/

section
variable {s u : State} {bytes : List (Nat × Byte)}

theorem HoldsGlobals.of_dropLoadRead (h : HoldsGlobals bytes s.dropLoadRead u) : HoldsGlobals bytes s u := h
theorem HoldsConsume.of_dropLoadRead (h : HoldsConsume bytes s.dropLoadRead u) : HoldsConsume bytes s u := h
theorem HoldsRings.of_dropLoadRead (h : HoldsRings bytes s.dropLoadRead u) : HoldsRings bytes s u := h
theorem HoldsProfiles.of_dropLoadRead (h : HoldsProfiles bytes s.dropLoadRead u) : HoldsProfiles bytes s u := h

end

/-! ## The statement settled -/

/-- A read that brings settings is its settings alone (R172). -/
theorem State.applyLoadRead_of_settings (s : State) {r : LoadRead} (hsettings : r.offset ≠ 0 ∨ r.words.length ≠ 1) :
    s.applyLoadRead r = (s.applySettings r.bytes).settle (s.applySettings r.bytes) := by
  have hword : ¬ r.isCommandWord = true := by
    simp only [LoadRead.isCommandWord, Bool.and_eq_true, decide_eq_true_eq]
    exact fun ⟨hoffset, hlength⟩ => hsettings.elim (· hoffset) (· hlength)
  rw [State.applyLoadRead, State.considerLoadRead, if_neg hword]

/-- Settles O46: a read that brings settings is an application of its bytes, with no command behind it; the load, its
further reads and the mailbox stand. -/
theorem loadReadMergesItsWords : Obligations.LoadReadMergesItsWords := by
  refine ⟨fun s h => exec_loadReadApply_waits h, fun s o rest hqueue hbehind => ?_,
    fun s r rest hreads hbefore hload hsettings => ?_⟩
  · refine exec_handOut_of_headReady_none (State.headReady_of_loadPlace hqueue ?_)
    rcases hbehind with ⟨r, hr, hlt⟩ | ⟨r, hr, howner, hlt⟩
    · exact ⟨r.place, State.mem_loadPlaces.2 (.inl ⟨r, hr, rfl⟩), hlt⟩
    · exact ⟨r.place, State.mem_loadPlaces.2 (.inr ⟨r, hr, howner, rfl⟩), hlt⟩
  have hexec := exec_loadReadApply hreads hbefore
  rw [State.applyLoadRead_of_settings _ hsettings] at hexec
  have htail : s.ci.loadReads.tail = rest := by rw [hreads]; rfl
  have hdrop : State.applySettings s.dropLoadRead r.bytes =
      State.applySettings { s with ci := { s.ci with loadReads := rest } } r.bytes := by rw [← htail]; rfl
  have hview := s.dropLoadRead.mailboxView_applySettings r.bytes
  simp only [ControlInterface.mailboxView, MailboxView.mk.injEq] at hview
  obtain ⟨-, hpart, htag, hflight, hresult⟩ := hview
  have hloading := State.loading_applySettings (s := s.dropLoadRead) r.bytes hload
  simp only [ControlInterface.loading, Prod.mk.injEq] at hloading
  obtain ⟨hstill, hreadsLeft⟩ := hloading
  have hbyte (b : Nat) :
      (s.dropLoadRead.applySettings r.bytes).imageByte b = (lastByte b r.bytes).getD (s.imageByte b) :=
    s.dropLoadRead.imageByte_applySettings r.bytes b
  refine ⟨s.dropLoadRead.applySettings r.bytes, hexec, State.applySettings_mem _ _, State.applySettings_pending _ _,
    State.applySettings_fp _ _, hreadsLeft.trans htail, hstill, hpart, htag, hresult, hflight,
    State.queue_applySettings _ _, State.produce_applySettings _ _, hdrop, LoadRead.names_bytes hsettings,
    fun _ => .of_dropLoadRead (State.holdsGlobals_applySettings _ _),
    fun hnamed => .of_dropLoadRead (State.holdsConsume_applySettings _ hnamed),
    fun hnamed hsize => .of_dropLoadRead (State.holdsRings_applySettings _ hnamed hsize),
    .of_dropLoadRead (State.holdsProfiles_applySettings _ _), fun k w hw hk i hi => ?_, fun b hb => ?_⟩
  · have hindex : (r.offset + 8 * k + i - r.offset) / 8 = k := by omega
    have hlane : (r.offset + 8 * k + i - r.offset) % 8 = i := by omega
    rw [hbyte, LoadRead.lastByte_bytes hsettings, if_pos ⟨by omega, fun _ => by omega⟩, hindex, hlane, hw]
    rfl
  · have hunnamed : ¬ names r.bytes b 1 = true := by
      rw [LoadRead.names_bytes hsettings]
      omega
    rw [names_one, Option.isSome_iff_ne_none, not_not] at hunnamed
    rw [hbyte, hunnamed]
    rfl

end Sys2Proof.Machine
end

