-- ==== Sys2Proof/Proofs/FrontCommand.lean ====
section
/-! PROOFS. The step by the two shapes of the queue (log 1). -/

namespace Sys2Proof.Machine

variable {s : State}

/-- The front command finds the queue without itself. -/
theorem step_of_pending_cons {c : Instr} {rest : List Instr} (hqueue : s.pending = c :: rest) :
    step s = exec c { s with pending := rest } := by
  rw [step, hqueue]

theorem step_of_pending_nil (hempty : s.pending = []) : step s = .next s := by
  rw [step, hempty]

/-- Settles O1, by the queue's shape: a front command is carried out, an empty queue idles. -/
theorem stepRunsTheFrontCommand : Obligations.StepRunsTheFrontCommand :=
  ⟨fun _ _ _ => step_of_pending_cons, fun _ => step_of_pending_nil⟩

end Sys2Proof.Machine
end
